-- ==== Sys2Proof/Word.lean ====
section
/-!
DEFINITION. The machine's word types, and the closed sets of names the manual gives (engines, scopes, formats,
causes, vector operations and so on). Codes of these names in encodings stand in Decode.lean.
-/

namespace Sys2Proof

abbrev Byte := BitVec 8
abbrev Word32 := BitVec 32
abbrev Word64 := BitVec 64

/-- A sparse table: key and value pairs with strictly rising keys, no value equal to what an unlisted key reads as. -/
abbrev Sparse (α : Type) := List (Nat × α)

/-- The four engines of a tile (R19), in the order of R57. -/
inductive Engine where
  | le | me | ve | se
deriving DecidableEq, Repr, Inhabited

/-- R10. -/
inductive Scope where
  | tile | cl | die | pkg | sys
deriving DecidableEq, Repr, Inhabited

/-- Comparison conditions of brx and waitm (R88). -/
inductive Cond where
  | eq | ne | lt | ge | ltu | geu
deriving DecidableEq, Repr, Inhabited

/-- XOP minor operations (R88). -/
inductive XMinor where
  | add | sub | mul | and | or | xor | shl | shr | sra | min | max | minu | maxu | mov
deriving DecidableEq, Repr, Inhabited

/-- The SRC field of XOP (R88): the ordinary operand, or what xop.mov samples (R146). -/
inductive XSrc where
  | operand | cycles | gtc | tile | party | counter (level : Nat)
deriving DecidableEq, Repr, Inhabited

/-- xli MODE (R144). -/
inductive XliMode where
  | zx | sx | hi
deriving DecidableEq, Repr, Inhabited

/-- Window spaces (R93). -/
inductive Space where
  | ts | ta | vm | peer | cpx
deriving DecidableEq, Repr, Inhabited

/-- Element formats, in code order (R31). -/
inductive Fmt where
  | f64 | f32 | bf16 | f16 | e5m2 | e4m3 | e3m2 | e2m3 | e2m1 | i64 | i32 | i16 | i8 | ui8 | i4 | ui4
deriving DecidableEq, Repr, Inhabited

/-- Rounding modes (R38). -/
inductive RMode where
  | rne | rtz | rup | rdn | rna | sr
deriving DecidableEq, Repr, Inhabited

/-- Atomic operations (R98, R170). -/
inductive AOp where
  | add | fadd | min | max | and | or | xor | swap | cas
deriving DecidableEq, Repr, Inhabited

/-- Ordering qualifiers of atom (R98). -/
inductive AOrd where
  | none | rel | acq | ar
deriving DecidableEq, Repr, Inhabited

/-- Range kinds (R63). -/
inductive RKind where
  | constant | owned | sync | host
deriving DecidableEq, Repr, Inhabited

/-- mstrm SEL (R98). -/
inductive Sel where
  | a | b | split
deriving DecidableEq, Repr, Inhabited

/-- Vector element types (R100, R206). -/
inductive VTy where
  | f32 | bf16 | f16 | i32 | ui32 | i16 | i8 | special
deriving DecidableEq, Repr, Inhabited

/-- Vector body operations (R103), in code order. -/
inductive VOp where
  | vnop | vadd | vsub | vmul | vfma | vfms | vfnma | vmad
  | vmin | vmax | vabs | vneg | vcpsgn | vmulh | vcmp | vclass
  | vand | vor | vxor | vandn | vnot | vshl | vshr | vsra
  | vrot | vpopc | vclz | vsel | vmov | vmovi | vlui | vidx
  | vbcast | vperm | vrotl | vredsum | vredmax | vredmin | vscan | vargmax
  | vcvt | vpack | vunpk | vsplit3 | vscale | vmxq | vtox | xtov
  | vexp2 | vlog2 | vrcp | vrsqrt | vsqrt | vsinpi | vcospi | vtanh
  | pand | por | pxor | pnot | pmov | pset | pcnt
deriving DecidableEq, Repr, Inhabited

/-- Severity classes (R366). -/
inductive Cls where
  | corr | defer | stream | task | job | device
deriving DecidableEq, Repr, Inhabited

/-- Cause values (R367), from 0x01 to 0x1D in this order. -/
inductive Cause where
  | illop | badfield | shape | align | range | unowned | kindviol | rsovf | rsunf | semsat | gentag | patchbad
  | dispnone | brbound | rlimit | bodyrule | pageabs | poisonuse | toklost | trapi | proof | watchdog | plane
  | notifylate | layout | alarm | bootfail | dataerr | funcreset
deriving DecidableEq, Repr, Inhabited

/-- Which stream acts: a tile, one of its two contexts (false is context 0), an engine. -/
structure Agent where
  tile : Nat
  ctx : Bool
  eng : Engine
deriving DecidableEq, Repr, Inhabited

/-- Who accesses a register or acts on the hub (R337): the policy core, a queue core, the supervisor of a cluster
(die * 8 + cluster), the host's physical function, or a virtual function (1 to 15) (DEDUCED, log 53)
(DEDUCED, log 73). -/
inductive Actor where
  | policy | queueCore (q : Nat) | supervisor (c : Nat) | pf | vf (f : Nat)
deriving DecidableEq, Repr, Inhabited

/-- One byte with the poison bit of its granule (R373). -/
structure PByte where
  b : Byte := 0
  p : Bool := false
deriving DecidableEq, Repr, Inhabited

/-- Where a stripe of protected storage lies (R392, R396): the ARRAY code is the constructor's position plus one. -/
inductive ArrayKind where
  | scratchpad | accumulator | clusterPool | diePool | hbm | regs | sram
deriving DecidableEq, Repr, Inhabited

end Sys2Proof
end

