-- ==== Sys2Proof/Syntax.lean ====
section
/-!
DEFINITION. The instructions: one constructor of `Instr` for each row of spec/opcode_table.json. The first 43 are
decoded from a stream (R85 to R103); the others are the machine's own steps, whose operands say what acts and with
what data (a register value written, a packet that arrived, a finding of a sensor).
-/

namespace Sys2Proof

/-- Header and loop record of a control block (R90, R91). `counts` holds one iteration count (1 to 65,536) for each
level used, L0 first. -/
structure Hdr where
  counts : List Nat := []
  slv : Nat := 7
  wcnt : Nat := 0
  scnt : Nat := 0
  wsem : Nat := 0
  ssem : Nat := 0
  rm : RMode := .rne
  pmask : BitVec 16 := 0
  seed : Word32 := 0
deriving DecidableEq, Repr, Inhabited

/-- A window descriptor (R93). `wrm` none is WRM = 6, the header's mode. `w1` and `w2` are the two BASE syllables as
R94 reads them by space; `extent` is EXTENT itself; `stride` holds one stride for each level, L0 first. -/
structure Win where
  space : Space := .ts
  fmt : Fmt := .f64
  bd : Option Nat := none
  wrm : Option RMode := none
  map : Nat := 0
  dil : Nat := 0
  w1 : Word32 := 0
  w2 : Word32 := 0
  extent : Nat := 1
  stride : List Int := []
deriving DecidableEq, Repr, Inhabited

/-- The two further syllables of the LDC source window (R96). -/
structure Pad where
  t : Nat := 0
  b : Nat := 0
  l : Nat := 0
  r : Nat := 0
  v : Word32 := 0
deriving DecidableEq, Repr, Inhabited

/-- A vector body word (R100). -/
structure VWord where
  stop : Bool := true
  op : VOp := .vnop
  ty : VTy := .f32
  d : Nat := 0
  a : Nat := 0
  b : Nat := 0
  m : Nat := 0
deriving DecidableEq, Repr, Inhabited

/-- A packet (R281, R282). `rsv` says that a reserved header bit or the reserved channel was used (R421). `draws` are the
draws of R42 for the elements that an atomic or a reduce-store rounds: the header of R282 has no room for them, so they
reach a home of this package only (DESIGN CHOICE, log 48). `flits` are the flits in which it came from another chip, as
they arrived (R284, R327). -/
structure Packet where
  op : Nat := 0
  addr : Word64 := 0
  src : Word32 := 0
  dchip : Nat := 0
  tag : Nat := 0
  bcnt : Nat := 0
  arg : Word32 := 0
  data : List PByte := []
  vc : Nat := 0
  plane : Nat := 0
  rsv : Bool := false
  draws : List Nat := []
  flits : List (List Byte) := []
deriving DecidableEq, Repr, Inhabited

/-- One constructor for each row of spec/opcode_table.json, in the table's order. -/
inductive Instr where
  -- common stream instructions (R87)
  | nop
  | tail
  | wait (sem n : Nat)
  | signal (sem n : Nat)
  | sigr (xp sem n : Nat)
  | bar (scope : Scope) (id : Nat)
  | br (off : Int)
  | brx (cmp : Cond) (xa xb : Nat) (off : Int)
  | call (off : Int)
  | ret
  | disp (xc tab : Nat)
  | patch (xv pfi : Nat) (eng : Engine) (pos : Nat)
  | xli (xd : Nat) (mode : XliMode) (imm : Word32)
  | xop (xd xa : Nat) (minor : XMinor) (src : XSrc) (xb : Nat)
  | xopImm (xd xa : Nat) (minor : XMinor) (imm : Word32)
  | fence (scope : Scope)
  | pfence
  | tkget (xr log2 sem : Nat) (shared : Bool)
  | tkput (xr log2 sem : Nat)
  | tklend (xr log2 sem xp : Nat)
  | tksplit (xr log2 n : Nat)
  | tkjoin (xr log2 n : Nat)
  | trap (code : Nat)
  -- load and store engine blocks (R98)
  | ldw (h : Hdr) (dst src : Win) (scout : Bool) (spg : Nat)
  | ldg (h : Hdr) (dst src idx : Win)
  | ldc (h : Hdr) (dst src : Win) (pad : Pad) (kh kw sh sw ih iw : Nat)
  | ldx (h : Hdr) (src : Win) (xd xn : Nat)
  | probe (h : Hdr) (src : Win) (xs : Nat)
  | pref (h : Hdr) (src : Win)
  | waitm (h : Hdr) (src : Win) (cond : Cond) (scope : Scope) (xv xr : Nat)
  | stw (h : Hdr) (dst src : Win)
  | sts (h : Hdr) (dst src idx : Win)
  | stk (h : Hdr) (val ind src : Win) (cnt : Option Win) (k : Nat)
  | stx (h : Hdr) (dst : Win) (xs xn : Nat)
  | atom (h : Hdr) (dst : Win) (aop : AOp) (ord : AOrd) (scope : Scope) (f : Bool) (xd xa xb : Nat)
  | stred (h : Hdr) (dst src : Win)
  -- matrix engine blocks
  | mwld (h : Hdr) (wt : Win) (sc : Option Win) (setB tr : Bool)
  | mstrm (h : Hdr) (act acc : Win) (sc : Option Win) (sel : Sel) (accSet ret : Bool)
  | mrb (h : Hdr) (rowb : Nat)
  | mzero (h : Hdr) (acc : Win) (i64 : Bool)
  -- vector engine blocks: ports is the PORTS field, wins the windows of the ports present in increasing bit order
  | vloop (h : Hdr) (ports : BitVec 7) (wins : List Win) (ks : List Word32) (body : List VWord)
  | vrst (h : Hdr)
  -- engines, scheduling and tasks
  | meBlockStart (tile : Nat)
  | streamStart (a : Agent)
  | loadForme (tile : Nat)
  | placeJob
  | taskRetire (tile : Nat) (ctx : Bool)
  | jobComplete (job : Nat)
  | taskKill (tile : Nat) (ctx : Bool)
  | aging (job : Nat)
  | planInterval (energy : Nat)
  | save (job : Nat)
  | resume (job : Nat)
  | rlimit (tile : Nat)
  -- host commands: the head command of queue slot q starts
  | launch (q : Nat)
  | waitev (q : Nat)
  | sigev (q : Nat)
  | tokgrant (q : Nat)
  | tokrecall (q : Nat)
  | nopc (q : Nat)
  | timestamp (q : Nat)
  | notifyWrite (q off size : Nat) (v : Word32)
  | eventRecordPost (f : Nat)
  | bar4Read (f off len : Nat)
  | bar4Write (f off : Nat) (data : List Byte)
  | configRequest (f reg : Nat)
  | functionLevelReset (f : Nat)
  -- packets (R283)
  | readReq (p : Packet)
  | writeReq (p : Packet)
  | atomicReq (p : Packet)
  | reduceStore (p : Packet)
  | waitmWatch (p : Packet)
  | peerWrite (p : Packet)
  | peerAtomic (p : Packet)
  | peerReduceStore (p : Packet)
  | dataResp (p : Packet)
  | acknowledge (p : Packet)
  | remoteSignal (p : Packet)
  | tokenRequest (p : Packet)
  | tokenGrant (p : Packet)
  | tokenReturn (p : Packet)
  | tokenPass (p : Packet)
  | tokenAcknowledge (p : Packet)
  | tokenSplit (p : Packet)
  | tokenJoin (p : Packet)
  | barrierArrival (p : Packet)
  | barrierCompletion (p : Packet)
  -- links and planes
  | flit (plane : Nat) (bytes : List Byte)
  | ackTimeout (plane : Nat)
  | linkAn (plane : Nat)
  | linkTrain (plane : Nat)
  | linkFec (plane : Nat)
  | linkLlinit (plane peer : Nat)
  | lkctlEn (by' : Actor) (plane : Nat) (v : Word64)
  | prehash (by' : Actor) (v : Word64)
  | prhtime
  | chiplost (by' : Actor) (v : Word64)
  -- registers with behaviour of their own
  | chipidWrite (by' : Actor) (v : Word64)
  | pmapWrite (by' : Actor) (v : Word64)
  | cpsplitWrite (by' : Actor) (cluster : Nat) (v : Word64)
  | dpsplitWrite (by' : Actor) (die : Nat) (v : Word64)
  | tcinv (by' : Actor) (die : Nat) (v : Word64)
  | qctlWrite (by' : Actor) (q : Nat) (v : Word64)
  | hsig (by' : Actor) (v : Word64)
  | qgo (by' : Actor) (v : Word64)
  | canctlGo (by' : Actor) (v : Word64)
  | ripeningPeriodEnd (latencyOk : Bool)
  | bootclr (by' : Actor) (v : Word64)
  | tkopGetExclusive (cluster : Nat) (v : Word64)
  | tkopGetShared (cluster : Nat) (v : Word64)
  | tkopPut (cluster : Nat) (v : Word64)
  | tkopLend (cluster : Nat) (v : Word64)
  | tkopSplit (cluster : Nat) (v : Word64)
  | tkopJoin (cluster : Nat) (v : Word64)
  | doorbellRead (by' : Actor) (cluster i : Nat)
  | trapactRetry (by' : Actor) (cluster : Nat)
  | trapactSkip (by' : Actor) (cluster : Nat)
  | trapactGoto (by' : Actor) (cluster newoff : Nat)
  | trapactKill (by' : Actor) (cluster : Nat)
  | wdactKill (by' : Actor) (tile : Nat) (ctx : Bool)
  | wdactLoad (by' : Actor) (tile : Nat) (ctx : Bool) (forme : Nat)
  | svctlWrite (by' : Actor) (cluster : Nat) (v : Word64)
  | pllcWrite (by' : Actor) (i : Nat) (v : Word64)
  | pllLock (i : Nat)
  | hmctlGo (by' : Actor) (die stack : Nat) (v : Word64)
  | hbmStepComplete (die stack : Nat) (ok : Bool) (rep : Nat)
  | gtcadj (by' : Actor) (v : Word64)
  | pciectlReady (by' : Actor) (v : Word64)
  | registerWrite (by' : Actor) (off : Nat) (v : Word64)
  -- reset, boot and the platform
  | reset
  | boot
  | bootTimeout
  | failsClear
  | alarm (source detail : Nat)
  | vrhot (low : Bool)
  | thermalHot (die tmax : Nat) (temps : List Nat)
  | patrolScrub (kind : ArrayKind) (unit stripe : Nat) (bad : List Nat) (column : Bool)
  | stripeRecovery (kind : ArrayKind) (unit stripe : Nat) (bad : List Nat) (column : Bool)
  | pageIn (ia : Word64) (hostCopy : Option (List Byte))
  | tokenReclaim (die entry : Nat)
  | gangSliceStart (entry : Nat) (late : Bool)
  | gangSliceEnd (entry : Nat)
  | gangStartCheck (entry : Nat)
  | pcieCompletion (tag : Nat) (data : List PByte)
  | pcieLinkUp (speed width : Nat) (flitMode : Bool)
deriving DecidableEq, Repr, Inhabited

end Sys2Proof
end

