-- ==== Sys2Proof/Config.lean ====
section
/-!
DEFINITION. What the manual leaves open, as constants without a body: nothing in Lean can evaluate one or prove a
value of it. Each stands in a row of notes/assumptions.
-/

namespace Sys2Proof

/-- What the machine does next: one entry of the agenda (DESIGN CHOICE, log 1). -/
inductive Turn where
  /-- An engine works for one stream: it issues its next instruction or carries its block on. -/
  | stream (a : Agent)
  /-- A step of the machine that no stream fetches: a row of the opcode table with its operands. -/
  | event (i : Instr)
  /-- The `k`-th message of the network that may arrive next is delivered (R278, R279, R285). -/
  | deliver (k : Nat)
  /-- `n` edges of the 156.25 MHz reference clock pass (R358). -/
  | edges (n : Nat)
  /-- The tiles of a cluster receive `n` delivered pulses (R9). -/
  | pulses (cluster n : Nat)
  /-- Plane `p`'s external port sends what its credits allow (R285). -/
  | link (p : Nat)
  /-- The `k`-th waitm watch of another device is looked at again (R173). -/
  | watch (k : Nat)
  /-- A cluster cache writes one dirty line back and drops it (R246); `line` is its IA over 256. -/
  | evict (cluster line : Nat)
  /-- The `k`-th request that a home holds, and that no earlier one to its page holds back, is tried again (R242). -/
  | held (k : Nat)
  /-- Plane `p`'s external port sends an idle flit, or what waits to be sent again (R285, R419). -/
  | idle (p : Nat)
  /-- The turns up to the end make up one cycle: the signals that reach a semaphore in it are one sum (R70, R386). -/
  | cycleStart
  | cycleEnd
  /-- A core of the firmware complex (a cluster's supervisor, or the policy core) stores bytes at a local address, or loads `n`
  from it (R337). -/
  | core (cluster : Option Nat) (data : Option (List Byte)) (addr n : Nat)
  /-- Firmware launches the job of an imposition (R52, R300). -/
  | launch (imp : Nat)
  /-- Firmware begins, and ends, the migration of the page of an IA, to a frame (R243). -/
  | migrate (ia : Nat)
  | migrated (ia frame : Nat)
  /-- The policy core writes, or reads, 8 bytes of a home's directory or of a page table, by physical address (R240, R337). -/
  | entry (die at' : Nat) (v : Option Word64)
  /-- A supply rail enters or leaves its band (R354). -/
  | rail (i : Nat) (ok : Bool)
  /-- The `k`-th operation that waits for room for its record, or for a page, is tried again (R242, R370). -/
  | again (k : Nat)
  /-- The host sets the size of a function's BAR4, log2 (R290). -/
  | bar4 (f log2 : Nat)
deriving DecidableEq, Repr, Inhabited

/-- The bit pattern a poisoned value, or any value the manual leaves undefined, holds (R373; DESIGN CHOICE, log 2). -/
opaque Config.freeBits : Nat → Word64

/-- Which agent moves when the agenda names none (DESIGN CHOICE, log 1). -/
opaque Config.freeTurn : Nat → Turn

/-- Which free entry or frame or order is taken where the manual leaves the choice open (R254; DESIGN CHOICE, log 2). -/
opaque Config.choice : Nat → Nat

/-- Members of a barrier group at system scope on the other devices of a gang, by the job's key, drawn at its launch, and
group (R75; DESIGN CHOICE, log 36). -/
opaque Config.gangMembers : Nat → Nat → Nat

/-- Whether a plane reaches a device of the system, by plane and chip id (R437; DESIGN CHOICE, log 82). -/
opaque Config.reached : Nat → Nat → Bool

/-- Which line of a cluster cache a line of memory takes, by cluster and IA over 256 (R245; DESIGN CHOICE, log 63). -/
opaque Config.cacheLine : Nat → Nat → Nat

/-- What stands in a granule of a cluster cache that holds no dirty line, by cluster and granule (R245; DESIGN CHOICE, log 63). -/
opaque Config.cacheBits : Nat → Nat → Word64

/-- Where the cache part of a die pool begins in the die's device memory, in granules (R248; DESIGN CHOICE, log 63). -/
opaque Config.behindAt : Nat → Nat

/-- The device secret of the PUF, 32 bytes (R344; DESIGN CHOICE, log 7). -/
opaque Config.uds : BitVec 256

/-- The boot ROM's 64 KiB, byte by byte (R346; DESIGN CHOICE, log 7). -/
opaque Config.bootRom : Nat → Byte

/-- Where an object lies in the external flash: 0 the configuration blob, 1 layer 1, 2 the policy kernel, 3 the queue-core
image, 4 the supervisor image (R344; DESIGN CHOICE, log 7). -/
opaque Config.flashAt : Nat → Nat

/-- How many bytes an image has, from its first 64 bytes (R348; DESIGN CHOICE, log 7). -/
opaque Config.imageSize : List Byte → Nat

/-- Whether an object of the flash is as it must be: the blob's signature, an image's header (R344, R432; DESIGN CHOICE, log 7). -/
opaque Config.imageOk : Nat → List Byte → Bool

/-- The chip id and HOSTDBG that a configuration blob carries (R236, R339; DESIGN CHOICE, log 7). -/
opaque Config.blobChip : List Byte → Nat
opaque Config.blobHostdbg : List Byte → Bool

/-- What a configuration request reads from a capability the manual does not lay out (R364, R428; DESIGN CHOICE, log 8). -/
opaque Config.configSpace : Nat → Nat → Word32

end Sys2Proof
end

