-- ==== Sys2Proof/WellFormed.lean ====
section
/-!
DEFINITION. Which instruction terms an encoding can hold: every operand within the range that its field gives it
(R87, R90 to R100). An ill-formed term is refused here by name of the check that fails.
-/

namespace Sys2Proof

/-- An x-register index (R87). -/
def xOk (n : Nat) : Bool := n < 16

/-- A semaphore index (R87). -/
def semOk (n : Nat) : Bool := n < 64

/-- A branch offset fits the signed 32-bit extension (R87). -/
def offOk (o : Int) : Bool := -2147483648 ≤ o && o < 2147483648

/-- The region size of a token instruction (R87). -/
def log2Ok (n : Nat) : Bool := 12 ≤ n && n ≤ 40

/-- N of tksplit and tkjoin (R87). -/
def splitOk (log2 n : Nat) : Bool := 1 ≤ n && n ≤ 15 && 12 + n ≤ log2

/-- SRC of xop: a nonzero source goes with mov alone and leaves XB zero (R88). -/
def xsrcOk (m : XMinor) (src : XSrc) (xb : Nat) : Bool :=
  match src with
  | .operand => xOk xb
  | .counter l => l < 5 && m == .mov && xb == 0
  | _ => m == .mov && xb == 0

/-- The word length of an engine in bytes (R82). -/
def Engine.wordBytes : Engine → Nat
  | .le | .se => 8
  | .me => 16
  | .ve => 4

/-- POS is a multiple of the target engine's word length (R87). -/
def posOk (pos : Nat) : Bool := pos < 4294967296

/-- The header and loop record (R90, R91, R92). `maxNl` is the major's limit. -/
def Hdr.ok (h : Hdr) (maxNl : Nat) : Bool :=
  h.counts.length ≤ maxNl && h.counts.all (fun c => 1 ≤ c && c ≤ 65536)
    && (h.slv == 7 || h.slv < 5 && h.slv < h.counts.length)
    && h.wcnt < 65536 && h.scnt < 65536 && semOk h.wsem && semOk h.ssem

/-- A window of a nest of `nl` levels (R93). -/
def Win.ok (w : Win) (nl : Nat) : Bool :=
  w.map < 8 && (w.map == 0 || w.space == .vm) && w.dil < 256 && 1 ≤ w.extent && w.extent < 4294967296
    && w.stride.length == nl && w.stride.all offOk
    && (match w.bd with | none => true | some b => b < 32 && w.space == .ts)

/-- A body word's operand fields (R100). -/
def VWord.ok (w : VWord) : Bool := w.d < 64 && w.a < 64 && w.b < 64 && w.m < 16

/-- Whether an encoding of engine `e` can hold the instruction. The machine's own steps have no encoding; of these
the check covers their tile, cluster, die, plane and queue numbers. -/
def Instr.wf (e : Engine) : Instr → Bool
  | .nop | .tail | .ret | .pfence => true
  | .wait s n | .signal s n => semOk s && 1 ≤ n && n ≤ 65535
  | .sigr p s n => xOk p && semOk s && 1 ≤ n && n ≤ 16383
  | .bar _ id => id < 16
  | .br o | .call o => offOk o
  | .brx _ a b o => xOk a && xOk b && offOk o
  | .disp c t => xOk c && t < 16
  | .patch v f _ pos => xOk v && f < 16 && posOk pos
  | .xli d _ _ => xOk d
  | .xop d a m src b => xOk d && xOk a && xsrcOk m src b
  | .xopImm d a _ _ => xOk d && xOk a
  | .fence _ => true
  | .tkget r l s _ | .tkput r l s => (e == .le || e == .se) && xOk r && log2Ok l && semOk s
  | .tklend r l s p => (e == .le || e == .se) && xOk r && log2Ok l && semOk s && xOk p
  | .tksplit r l n | .tkjoin r l n => (e == .le || e == .se) && xOk r && log2Ok l && splitOk l n
  | .trap c => c < 16384
  | .ldw h d s _ spg => e == .le && h.ok 5 && d.ok h.counts.length && s.ok h.counts.length && spg < 65536
  | .ldg h d s i => e == .le && h.ok 5 && [d, s, i].all (·.ok h.counts.length)
  | .ldc h d s p kh kw sh sw ih iw =>
    e == .le && h.ok 5 && [d, s].all (·.ok h.counts.length) && [p.t, p.b, p.l, p.r].all (· < 256)
      && [kh, kw, sh, sw].all (fun k => 1 ≤ k && k ≤ 256)
      && [ih, iw].all (fun k => 1 ≤ k && k ≤ 65536)
  | .ldx h s d n => e == .le && h.ok 5 && s.ok h.counts.length && d + n ≤ 15
  | .probe h s x => e == .le && h.ok 5 && s.ok h.counts.length && xOk x
  | .pref h s => e == .le && h.ok 5 && s.ok h.counts.length
  | .waitm h s _ _ v r => e == .le && h.ok 0 && s.ok 0 && xOk v && xOk r
  | .stw h d s | .stred h d s => e == .se && h.ok 5 && [d, s].all (·.ok h.counts.length)
  | .sts h d s i => e == .se && h.ok 5 && [d, s, i].all (·.ok h.counts.length)
  | .stk h v i s c k => e == .se && h.ok 5 && ([v, i, s] ++ c.toList).all (·.ok h.counts.length) && 1 ≤ k && k ≤ 8
  | .stx h d s n => e == .se && h.ok 5 && d.ok h.counts.length && s + n ≤ 15
  | .atom h d op _ _ f xd xa xb =>
    e == .se && h.ok 5 && d.ok h.counts.length && [xd, xa, xb].all xOk && (f || xd == 0) && (op == .cas || xb == 0)
  | .mwld h w sc _ _ => e == .me && h.ok 5 && (w :: sc.toList).all (·.ok h.counts.length)
  | .mstrm h a acc sc _ _ _ => e == .me && h.ok 5 && ([a, acc] ++ sc.toList).all (·.ok h.counts.length)
  | .mrb h n => e == .me && h.ok 0 && n ≤ 64
  | .mzero h a _ => e == .me && h.ok 5 && a.ok h.counts.length
  | .vloop h ports ws ks body =>
    e == .ve && h.ok 4 && ws.all (·.ok h.counts.length) && ks.length == 8 && 1 ≤ body.length && body.length ≤ 64
      && body.all VWord.ok && ws.length == ((List.range 7).filter (fun i => ports.getLsbD i)).length
  | .vrst h => e == .ve && h.ok 0
  | .meBlockStart t | .loadForme t | .rlimit t => t < 512
  | .streamStart a => a.tile < 512
  | .taskRetire t _ | .taskKill t _ => t < 512
  | .launch q | .waitev q | .sigev q | .tokgrant q | .tokrecall q | .nopc q | .timestamp q => q < 128
  | .eventRecordPost f | .functionLevelReset f | .configRequest f _ | .bar4Read f _ _ | .bar4Write f _ _ => f < 16
  | .flit p _ | .ackTimeout p | .linkAn p | .linkTrain p | .linkFec p | .linkLlinit p _ | .lkctlEn _ p _ => p < 8
  | .cpsplitWrite _ c _ | .svctlWrite _ c _ | .doorbellRead _ c _ | .trapactRetry _ c | .trapactSkip _ c
  | .trapactGoto _ c _ | .trapactKill _ c | .tkopGetExclusive c _ | .tkopGetShared c _ | .tkopPut c _
  | .tkopLend c _ | .tkopSplit c _ | .tkopJoin c _ => c < 32
  | .dpsplitWrite _ d _ | .tcinv _ d _ | .tokenReclaim d _ | .thermalHot d _ _ => d < 4
  | .hmctlGo _ d k _ | .hbmStepComplete d k _ _ => d < 4 && k < 2
  | .qctlWrite _ q _ => q < 128
  | .wdactKill _ t _ | .wdactLoad _ t _ _ => t < 512
  | .pllcWrite _ i _ | .pllLock i => i < 35
  | .gangSliceStart g _ | .gangSliceEnd g | .gangStartCheck g => g < 16
  | .placeJob | .jobComplete _ | .aging _ | .planInterval _ | .save _ | .resume _ | .notifyWrite _ _ _ _
  | .readReq _ | .writeReq _ | .atomicReq _ | .reduceStore _ | .waitmWatch _ | .peerWrite _ | .peerAtomic _
  | .peerReduceStore _ | .dataResp _ | .acknowledge _ | .remoteSignal _ | .tokenRequest _ | .tokenGrant _
  | .tokenReturn _ | .tokenPass _ | .tokenAcknowledge _ | .tokenSplit _ | .tokenJoin _ | .barrierArrival _
  | .barrierCompletion _ | .prehash _ _ | .prhtime | .chiplost _ _ | .chipidWrite _ _ | .pmapWrite _ _
  | .hsig _ _ | .qgo _ _ | .canctlGo _ _ | .ripeningPeriodEnd _ | .bootclr _ _ | .gtcadj _ _ | .pciectlReady _ _
  | .registerWrite _ _ _ | .reset | .boot | .bootTimeout | .failsClear | .alarm _ _ | .vrhot _
  | .patrolScrub _ _ _ _ _ | .stripeRecovery _ _ _ _ _ | .pageIn _ _ | .pcieCompletion _ _ | .pcieLinkUp _ _ _ => true

end Sys2Proof
end

