-- ==== Sys2Proof/Decode.lean ====
section
/-!
DEFINITION. From the syllables of a stream to instructions and back (R82 to R103), and the checks of steps 2 to 4 of
R379 that the bits alone decide. The assembly text and the NOF file of chapter 05 are no state of the machine
(DEDUCED, log 89).
-/

namespace Sys2Proof

/-! ## Codes -/

/-- SCOPE codes (R88). -/
def Scope.ofCode : Nat → Option Scope
  | 0 => some .tile | 1 => some .cl | 2 => some .die | 3 => some .pkg | 4 => some .sys | _ => none
def Scope.code : Scope → Nat
  | .tile => 0 | .cl => 1 | .die => 2 | .pkg => 3 | .sys => 4

/-- CMP and COND codes (R88). -/
def Cond.ofCode : Nat → Option Cond
  | 0 => some .eq | 1 => some .ne | 2 => some .lt | 3 => some .ge | 4 => some .ltu | 5 => some .geu | _ => none
def Cond.code : Cond → Nat
  | .eq => 0 | .ne => 1 | .lt => 2 | .ge => 3 | .ltu => 4 | .geu => 5

/-- MINOR codes (R88). -/
def XMinor.ofCode : Nat → Option XMinor
  | 0 => some .add | 1 => some .sub | 2 => some .mul | 3 => some .and | 4 => some .or | 5 => some .xor
  | 6 => some .shl | 7 => some .shr | 8 => some .sra | 9 => some .min | 10 => some .max | 11 => some .minu
  | 12 => some .maxu | 13 => some .mov | _ => none
def XMinor.code : XMinor → Nat
  | .add => 0 | .sub => 1 | .mul => 2 | .and => 3 | .or => 4 | .xor => 5 | .shl => 6 | .shr => 7 | .sra => 8
  | .min => 9 | .max => 10 | .minu => 11 | .maxu => 12 | .mov => 13

/-- SRC codes of xop.mov (R88). -/
def XSrc.ofCode : Nat → Option XSrc
  | 0 => some .operand | 1 => some .cycles | 2 => some .gtc | 3 => some .tile | 4 => some .party
  | 5 => some (.counter 0) | 6 => some (.counter 1) | 7 => some (.counter 2) | 8 => some (.counter 3)
  | 9 => some (.counter 4) | _ => none
def XSrc.code : XSrc → Nat
  | .operand => 0 | .cycles => 1 | .gtc => 2 | .tile => 3 | .party => 4 | .counter l => 5 + l

/-- MODE of xli (R87). -/
def XliMode.ofCode : Nat → Option XliMode
  | 0 => some .zx | 1 => some .sx | 2 => some .hi | _ => none
def XliMode.code : XliMode → Nat
  | .zx => 0 | .sx => 1 | .hi => 2

/-- Engine codes (R57, R87). -/
def Engine.ofCode : Nat → Engine
  | 0 => .le | 1 => .me | 2 => .ve | _ => .se
def Engine.code : Engine → Nat
  | .le => 0 | .me => 1 | .ve => 2 | .se => 3

/-- SPACE codes (R93). -/
def Space.ofCode : Nat → Option Space
  | 0 => some .ts | 1 => some .ta | 2 => some .vm | 3 => some .peer | 4 => some .cpx | _ => none
def Space.code : Space → Nat
  | .ts => 0 | .ta => 1 | .vm => 2 | .peer => 3 | .cpx => 4

/-- Format codes (R31); every code of the four-bit field is assigned. -/
def Fmt.ofCode (n : Nat) : Fmt :=
  [Fmt.f64, .f32, .bf16, .f16, .e5m2, .e4m3, .e3m2, .e2m3, .e2m1, .i64, .i32, .i16, .i8, .ui8, .i4, .ui4].getD n .ui4
def Fmt.code : Fmt → Nat
  | .f64 => 0 | .f32 => 1 | .bf16 => 2 | .f16 => 3 | .e5m2 => 4 | .e4m3 => 5 | .e3m2 => 6 | .e2m3 => 7 | .e2m1 => 8
  | .i64 => 9 | .i32 => 10 | .i16 => 11 | .i8 => 12 | .ui8 => 13 | .i4 => 14 | .ui4 => 15

/-- Rounding codes (R38). -/
def RMode.ofCode : Nat → Option RMode
  | 0 => some .rne | 1 => some .rtz | 2 => some .rup | 3 => some .rdn | 4 => some .rna | 5 => some .sr | _ => none
def RMode.code : RMode → Nat
  | .rne => 0 | .rtz => 1 | .rup => 2 | .rdn => 3 | .rna => 4 | .sr => 5

/-- AOP codes (R98). -/
def AOp.ofCode : Nat → Option AOp
  | 0 => some .add | 1 => some .fadd | 2 => some .min | 3 => some .max | 4 => some .and | 5 => some .or
  | 6 => some .xor | 7 => some .swap | 8 => some .cas | _ => none
def AOp.code : AOp → Nat
  | .add => 0 | .fadd => 1 | .min => 2 | .max => 3 | .and => 4 | .or => 5 | .xor => 6 | .swap => 7 | .cas => 8

/-- ORD codes (R98). -/
def AOrd.ofCode : Nat → AOrd
  | 0 => .none | 1 => .rel | 2 => .acq | _ => .ar
def AOrd.code : AOrd → Nat
  | .none => 0 | .rel => 1 | .acq => 2 | .ar => 3

/-- KIND codes of a range (R63). -/
def RKind.ofCode : Nat → RKind
  | 0 => .constant | 1 => .owned | 2 => .sync | _ => .host
def RKind.code : RKind → Nat
  | .constant => 0 | .owned => 1 | .sync => 2 | .host => 3

/-- SEL codes (R98). -/
def Sel.ofCode : Nat → Option Sel
  | 0 => some .a | 1 => some .b | 2 => some .split | _ => none
def Sel.code : Sel → Nat
  | .a => 0 | .b => 1 | .split => 2

/-- T codes (R100). -/
def VTy.ofCode : Nat → VTy
  | 0 => .f32 | 1 => .bf16 | 2 => .f16 | 3 => .i32 | 4 => .ui32 | 5 => .i16 | 6 => .i8 | _ => .special
def VTy.code : VTy → Nat
  | .f32 => 0 | .bf16 => 1 | .f16 => 2 | .i32 => 3 | .ui32 => 4 | .i16 => 5 | .i8 => 6 | .special => 7

/-- The body map in code order (R103). -/
def VOp.all : List VOp :=
  [.vnop, .vadd, .vsub, .vmul, .vfma, .vfms, .vfnma, .vmad, .vmin, .vmax, .vabs, .vneg, .vcpsgn, .vmulh, .vcmp, .vclass]
  ++ [.vand, .vor, .vxor, .vandn, .vnot, .vshl, .vshr, .vsra, .vrot, .vpopc, .vclz, .vsel, .vmov, .vmovi, .vlui, .vidx]
  ++ [.vbcast, .vperm, .vrotl, .vredsum, .vredmax, .vredmin, .vscan, .vargmax]
  ++ [.vcvt, .vpack, .vunpk, .vsplit3, .vscale, .vmxq, .vtox, .xtov]
  ++ [.vexp2, .vlog2, .vrcp, .vrsqrt, .vsqrt, .vsinpi, .vcospi, .vtanh]
  ++ [.pand, .por, .pxor, .pnot, .pmov, .pset, .pcnt]
def VOp.ofCode (n : Nat) : Option VOp := VOp.all[n]?
def VOp.code (o : VOp) : Nat := VOp.all.idxOf o

/-- Severity class in TYPE (R366) and cause values (R367). -/
def Cls.code : Cls → Nat
  | .corr => 0x80 | .defer => 0x81 | .stream => 0x82 | .task => 0x83 | .job => 0x84 | .device => 0x85
def Cause.code : Cause → Nat
  | .illop => 1 | .badfield => 2 | .shape => 3 | .align => 4 | .range => 5 | .unowned => 6 | .kindviol => 7
  | .rsovf => 8 | .rsunf => 9 | .semsat => 10 | .gentag => 11 | .patchbad => 12 | .dispnone => 13 | .brbound => 14
  | .rlimit => 15 | .bodyrule => 16 | .pageabs => 17 | .poisonuse => 18 | .toklost => 19 | .trapi => 20 | .proof => 21
  | .watchdog => 22 | .plane => 23 | .notifylate => 24 | .layout => 25 | .alarm => 26 | .bootfail => 27
  | .dataerr => 28 | .funcreset => 29

/-! ## Bits -/

/-- Bits `lo + n - 1` to `lo`, unsigned. -/
def bits (w : Word32) (lo n : Nat) : Nat := w.toNat / 2 ^ lo % 2 ^ n

/-- Bits of a 64-bit word. -/
def bits64 (w : Word64) (lo n : Nat) : Nat := w.toNat / 2 ^ lo % 2 ^ n

/-- A 32-bit pattern read as two's complement. -/
def signed32 (w : Word32) : Int := w.toInt

/-- A word of `n` bits from bytes, the first byte least significant (R4). -/
def wordOfBytes (n : Nat) : List Byte → BitVec n
  | [] => 0
  | b :: bs => b.setWidth n ||| (wordOfBytes n bs <<< 8)

/-- The `k` low bytes of a number, least significant first (R4). -/
def bytesOf (k : Nat) (v : Nat) : List Byte :=
  match k with
  | 0 => []
  | k + 1 => BitVec.ofNat 8 v :: bytesOf k (v / 256)

/-- The syllables of consecutive bytes (R82). -/
def syllables : List Byte → List Word32
  | a :: b :: c :: d :: rest => wordOfBytes 32 [a, b, c, d] :: syllables rest
  | _ => []

/-- The bytes of syllables, in memory order. -/
def syllableBytes (s : List Word32) : List Byte := s.flatMap (fun w => bytesOf 4 w.toNat)

/-! ## Findings -/

/-- What the checks of steps 2 to 4 of R379 refuse an instruction with (R381). -/
inductive DecErr where
  | illop (first : Word32)
  | badField (syl : Nat) (mask : Word32)
  | bodyRule (rule word : Nat)
deriving DecidableEq, Repr, Inhabited

/-- One finding: a syllable and the offending bits in it. -/
abbrev Finding := Nat × Nat

/-- Reserved bits `lo + n - 1` to `lo` of syllable `i` are zero, or the nonzero ones are the finding (R383). -/
def rsv (i : Nat) (w : Word32) (lo n : Nat) : List Finding :=
  if bits w lo n = 0 then [] else [(i, bits w lo n * 2 ^ lo)]

/-- The field of `n` bits at `lo` of syllable `i` holds a value it may hold, or the field is the finding (R383). -/
def field (i lo n : Nat) (ok : Bool) : List Finding :=
  if ok then [] else [(i, (2 ^ n - 1) * 2 ^ lo)]

/-- The finding that is reported: the first one's syllable, with the bits of every finding in that syllable
(R379, R381; DEDUCED, log 20). -/
def report : List Finding → Option DecErr
  | [] => none
  | (i, m) :: fs =>
    some (.badField i (BitVec.ofNat 32 ((fs.filter (·.1 = i)).foldl (fun acc f => acc ||| f.2) m)))

/-! ## Common instructions (R85 to R88) -/

/-- Whether a common instruction carries EXT (R86). -/
def hasExt (s0 : Word32) : Bool :=
  match bits s0 26 6 with
  | 6 | 7 | 8 | 11 | 12 => true
  | 13 => bits s0 9 1 = 1
  | _ => false

/-- Whether a first syllable holds an opcode assigned on the engine (R102, R383). -/
def assigned (e : Engine) (s0 : Word32) : Bool :=
  let op := bits s0 26 6
  if op < 0x10 then true
  else if op < 0x15 then e == .le || e == .se
  else if op = 0x15 then true
  else match e with
    | .le => 0x20 ≤ op && op ≤ 0x26
    | .se => 0x20 ≤ op && op ≤ 0x25
    | .me => 0x20 ≤ op && op ≤ 0x23
    | .ve => 0x20 ≤ op && op ≤ 0x21

/-- Whether a first syllable begins a control block of the engine (R83, R102). -/
def isMajor (e : Engine) (s0 : Word32) : Bool := 0x20 ≤ bits s0 26 6 && assigned e s0

/-- Words an instruction occupies (R83, R86, R89). -/
def instrWords (e : Engine) (s0 : Word32) : Nat :=
  if 0x20 ≤ bits s0 26 6 then bits s0 18 8 + 1
  else if e == .ve && hasExt s0 then 2 else 1

/-- Syllables in one word (R82). -/
def Engine.sylPerWord (e : Engine) : Nat := e.wordBytes / 4

/-- The findings within the first syllable of a common instruction (R87, R88, R383). -/
def commonFindings (s : Word32) : List Finding :=
  match bits s 26 6 with
  | 0x02 | 0x03 => field 0 0 20 (1 ≤ bits s 0 20 && bits s 0 20 ≤ 65535)
  | 0x04 => rsv 0 s 24 2 ++ field 0 0 14 (1 ≤ bits s 0 14)
  | 0x05 => rsv 0 s 23 3 ++ field 0 20 3 (bits s 20 3 < 5) ++ rsv 0 s 18 2 ++ rsv 0 s 0 14
  | 0x07 => rsv 0 s 24 2 ++ rsv 0 s 18 2 ++ rsv 0 s 3 11 ++ field 0 0 3 (bits s 0 3 < 6)
  | 0x0A => rsv 0 s 24 2 ++ rsv 0 s 18 2 ++ rsv 0 s 0 14
  | 0x0B => rsv 0 s 24 2 ++ rsv 0 s 18 2 ++ rsv 0 s 0 12
  | 0x0C => rsv 0 s 24 2 ++ rsv 0 s 16 4 ++ field 0 14 2 (bits s 14 2 < 3) ++ rsv 0 s 0 14
  | 0x0D =>
    rsv 0 s 24 2 ++ rsv 0 s 18 2 ++ field 0 10 4 (bits s 10 4 < 14)
      ++ field 0 4 5 (bits s 4 5 < 10 && (bits s 4 5 = 0 || bits s 10 4 = 13))
      ++ (if bits s 4 5 = 0 then (if bits s 9 1 = 1 then rsv 0 s 0 4 else []) else rsv 0 s 9 1 ++ rsv 0 s 0 4)
  | 0x0E => rsv 0 s 23 3 ++ field 0 20 3 (bits s 20 3 < 5) ++ rsv 0 s 0 20
  | 0x10 => rsv 0 s 24 2 ++ field 0 14 6 (log2Ok (bits s 14 6)) ++ rsv 0 s 1 7
  | 0x11 => rsv 0 s 24 2 ++ field 0 14 6 (log2Ok (bits s 14 6)) ++ rsv 0 s 0 8
  | 0x12 => rsv 0 s 24 2 ++ field 0 14 6 (log2Ok (bits s 14 6)) ++ rsv 0 s 4 4
  | 0x13 | 0x14 =>
    rsv 0 s 24 2 ++ field 0 14 6 (log2Ok (bits s 14 6)) ++ rsv 0 s 4 10
      ++ field 0 0 4 (splitOk (bits s 14 6) (bits s 0 4))
  | 0x15 => rsv 0 s 14 12
  | _ => rsv 0 s 0 26

/-- The instruction that a common syllable without findings stands for (R87, R88). -/
def commonInstr (s ext : Word32) : Instr :=
  let a := bits s 20 6
  let b := bits s 14 6
  match bits s 26 6 with
  | 0x00 => .nop
  | 0x01 => .tail
  | 0x02 => .wait a (bits s 0 20)
  | 0x03 => .signal a (bits s 0 20)
  | 0x04 => .sigr a b (bits s 0 14)
  | 0x05 => .bar ((Scope.ofCode a).getD .tile) b
  | 0x06 => .br (signed32 ext)
  | 0x07 => .brx ((Cond.ofCode (bits s 0 3)).getD .eq) a b (signed32 ext)
  | 0x08 => .call (signed32 ext)
  | 0x09 => .ret
  | 0x0A => .disp a b
  | 0x0B => .patch a b (Engine.ofCode (bits s 12 2)) ext.toNat
  | 0x0C => .xli a ((XliMode.ofCode (bits s 14 2)).getD .zx) ext
  | 0x0D =>
    let m := (XMinor.ofCode (bits s 10 4)).getD .add
    if bits s 9 1 = 1 then .xopImm a b m ext
    else .xop a b m ((XSrc.ofCode (bits s 4 5)).getD .operand) (bits s 0 4)
  | 0x0E => .fence ((Scope.ofCode a).getD .tile)
  | 0x0F => .pfence
  | 0x10 => .tkget a b (bits s 8 6) (bits s 0 1 = 1)
  | 0x11 => .tkput a b (bits s 8 6)
  | 0x12 => .tklend a b (bits s 8 6) (bits s 0 4)
  | 0x13 => .tksplit a b (bits s 0 4)
  | 0x14 => .tkjoin a b (bits s 0 4)
  | _ => .trap (bits s 0 14)

/-- Syllables of a common instruction's words beyond the first (R86): EXT where there is one, the others zero. -/
def upperFindings (ext : Bool) (i : Nat) : List Word32 → List Finding
  | [] => []
  | w :: ws => (if ext && i = 1 then [] else rsv i w 0 32) ++ upperFindings ext (i + 1) ws

/-- Decoding of a common instruction from all syllables of its words. -/
def decodeCommon (s : List Word32) : Except DecErr Instr :=
  let s0 := s.getD 0 0
  match report (commonFindings s0 ++ upperFindings (hasExt s0) 1 (s.drop 1)) with
  | some d => .error d
  | none => .ok (commonInstr s0 (s.getD 1 0))

/-! ## Control blocks (R89 to R99) -/

/-- A major of an engine. -/
inductive Major where
  | ldw | ldg | ldc | ldx | probe | pref | waitm | stw | sts | stk | stx | atom | stred | mwld | mstrm | mrb | mzero
  | vloop | vrst
deriving DecidableEq, Repr, Inhabited

/-- The major map (R102). -/
def Major.of (e : Engine) (op : Nat) : Option Major :=
  match e with
  | .le => [Major.ldw, .ldg, .ldc, .ldx, .probe, .pref, .waitm][op - 0x20]?
  | .se => [Major.stw, .sts, .stk, .stx, .atom, .stred][op - 0x20]?
  | .me => [Major.mwld, .mstrm, .mrb, .mzero][op - 0x20]?
  | .ve => [Major.vloop, .vrst][op - 0x20]?
def Major.code : Major → Nat
  | .ldw | .stw | .mwld | .vloop => 0x20
  | .ldg | .sts | .mstrm | .vrst => 0x21
  | .ldc | .stk | .mrb => 0x22
  | .ldx | .stx | .mzero => 0x23
  | .probe | .atom => 0x24
  | .pref | .stred => 0x25
  | .waitm => 0x26

/-- Operator syllables of a major (R98); VLOOP's own records are counted apart. -/
def Major.ops : Major → Nat
  | .ldw | .ldx | .probe | .waitm | .stk | .stx | .atom | .mrb => 1
  | .ldc => 2
  | .ldg | .pref | .stw | .sts | .stred | .mwld | .mstrm | .mzero | .vloop | .vrst => 0

/-- Limits of NL (R98, R175). -/
def Major.nlOk (m : Major) (nl : Nat) : Bool :=
  match m with
  | .waitm | .mrb | .vrst => nl = 0
  | .vloop => nl ≤ 4
  | .ldg | .sts => 2 ≤ nl && nl ≤ 5
  | .ldc => 3 ≤ nl && nl ≤ 5
  | _ => nl ≤ 5

/-- Syllable where window `k` begins (R89). -/
def winAt (nl k : Nat) : Nat := 4 + (nl + 1) / 2 + k * (4 + nl)

/-- Syllable where the operator syllables, or VX, begin. -/
def opAt (m : Major) (nl nw : Nat) : Nat := winAt nl nw + (if m = .ldc then 2 else 0)

/-- Syllables that the records of a block take (R89, R99). -/
def blockSyls (m : Major) (s : List Word32) : Nat :=
  let nl := bits (s.getD 0 0) 15 3
  let nw := bits (s.getD 0 0) 12 3
  let at' := opAt m nl nw
  if m = .vloop then at' + 9 + bits (s.getD at' 0) 26 6 + 1 else at' + m.ops

/-- FLAGS bits a major assigns (R98), counted from bit 0. -/
def Major.flagBits : Major → Nat
  | .ldw | .mzero => 1
  | .mwld => 3
  | .mstrm => 5
  | _ => 0

/-- Spaces and formats that a window role accepts (R151, R178, R180, R184, R197). -/
structure Role where
  spaces : List Space
  fmts : List Fmt
  image : Bool := false

def Fmt.every : List Fmt :=
  [.f64, .f32, .bf16, .f16, .e5m2, .e4m3, .e3m2, .e2m3, .e2m1, .i64, .i32, .i16, .i8, .ui8, .i4, .ui4]
def Fmt.matrix : List Fmt := [.bf16, .f16, .e5m2, .e4m3, .e3m2, .e2m3, .e2m1, .i16, .i8, .ui8, .i4, .ui4]
def Fmt.indices : List Fmt := [.i16, .i32, .i64, .ui8]
def Fmt.port : List Fmt := [.f32, .i32, .bf16, .f16, .i16, .e5m2, .e4m3, .i8, .ui8, .e2m1, .i4, .ui4]
def Fmt.word : List Fmt := [.f64, .f32, .bf16, .f16, .i64, .i32, .i16]

/-- The formats each atomic accepts (R170). -/
def AOp.fmts : AOp → List Fmt
  | .add | .min | .max => [.i16, .i32, .i64]
  | .fadd => [.f64, .f32, .bf16, .f16]
  | .and | .or | .xor | .swap | .cas => Fmt.word

/-- The roles of a major's windows, in window order; `ports` is VLOOP's PORTS field and `aop` atom's operation. -/
def Major.roles (m : Major) (aop : AOp) (ports : BitVec 7) : List Role :=
  match m with
  | .ldw => [⟨[.ts, .ta], Fmt.every, false⟩, ⟨[.ts, .ta, .vm, .cpx], Fmt.every, false⟩]
  | .ldg =>
    [⟨[.ts, .ta], Fmt.every, false⟩, ⟨[.ts, .vm, .cpx], Fmt.every, false⟩, ⟨[.ts], Fmt.indices, false⟩]
  | .ldc => [⟨[.ts], Fmt.every, false⟩, ⟨[.ts, .vm, .cpx], Fmt.every, true⟩]
  | .ldx => [⟨[.ts, .ta, .vm, .cpx], Fmt.every, false⟩]
  | .probe | .pref => [⟨[.vm], Fmt.every, false⟩]
  | .waitm => [⟨[.ts, .vm, .cpx], Fmt.word, false⟩]
  | .stw => [⟨[.ts, .vm, .peer, .cpx], Fmt.every, false⟩, ⟨[.ts, .ta], Fmt.every, false⟩]
  | .sts =>
    [⟨[.ts, .vm, .cpx], Fmt.every, false⟩, ⟨[.ts, .ta], Fmt.every, false⟩, ⟨[.ts], Fmt.indices, false⟩]
  | .stk =>
    [⟨[.ts, .vm, .cpx], Fmt.every, false⟩, ⟨[.ts, .vm, .cpx], Fmt.every, false⟩, ⟨[.ts, .ta], Fmt.every, false⟩,
      ⟨[.ts], [.i16, .i32, .i64], false⟩]
  | .stx => [⟨[.ts, .vm, .cpx], Fmt.every, false⟩]
  | .atom => [⟨[.ts, .vm, .peer, .cpx], aop.fmts, false⟩]
  | .stred => [⟨[.ts, .vm, .peer, .cpx], Fmt.word, false⟩, ⟨[.ts, .ta], Fmt.every, false⟩]
  | .mwld => [⟨[.ts], Fmt.matrix, false⟩, ⟨[.ts], [.ui8], false⟩]
  | .mstrm => [⟨[.ts], Fmt.matrix, false⟩, ⟨[.ta], [.f64, .i64], false⟩, ⟨[.ts], [.ui8], false⟩]
  | .mzero => [⟨[.ta], [.f64, .i64], false⟩]
  | .mrb | .vrst => []
  | .vloop =>
    ((List.range 7).filter (fun i => ports.getLsbD i)).map
      (fun i => if i = 6 then ⟨[.ta], [.f64, .i64], false⟩ else ⟨[.ts], Fmt.port, false⟩)

/-- Element width in bits (R31). -/
def Fmt.width : Fmt → Nat
  | .f64 | .i64 => 64
  | .f32 | .i32 => 32
  | .bf16 | .f16 | .i16 => 16
  | .e5m2 | .e4m3 | .i8 | .ui8 => 8
  | .e3m2 | .e2m3 => 6
  | .e2m1 | .i4 | .ui4 => 4

/-- Formats that hold integers (R31). -/
def Fmt.isInt : Fmt → Bool
  | .i64 | .i32 | .i16 | .i8 | .ui8 | .i4 | .ui4 => true
  | .f64 | .f32 | .bf16 | .f16 | .e5m2 | .e4m3 | .e3m2 | .e2m3 | .e2m1 => false

/-- The five formats that may carry block scales (R37, R176). -/
def Fmt.scalable : Fmt → Bool
  | .e5m2 | .e4m3 | .e3m2 | .e2m3 | .e2m1 => true
  | .f64 | .f32 | .bf16 | .f16 | .i64 | .i32 | .i16 | .i8 | .ui8 | .i4 | .ui4 => false

/-- Format groups of the matrix engine (R176); formats it does not take stand in group 7. -/
def Fmt.group : Fmt → Nat
  | .bf16 | .f16 => 0 | .i16 => 1 | .e5m2 | .e4m3 => 2 | .i8 | .ui8 => 3 | .e3m2 | .e2m3 | .e2m1 => 4 | .i4 | .ui4 => 5
  | .f64 | .f32 | .i64 | .i32 => 7

/-- K elements of one pass (R176). -/
def Fmt.kp : Fmt → Nat
  | .bf16 | .f16 | .i16 => 64
  | .e5m2 | .e4m3 | .i8 | .ui8 => 128
  | .e3m2 | .e2m3 | .e2m1 | .i4 | .ui4 => 256
  | .f64 | .f32 | .i64 | .i32 => 64

/-- The findings in the window that begins at syllable `b` (R93, R94, R96, R151, R383). -/
def winFindings (r : Role) (b nl : Nat) (s : List Word32) : List Finding :=
  let g := fun i => s.getD (b + i) 0
  let sp := Space.ofCode (bits (g 0) 28 4)
  let fmt := Fmt.ofCode (bits (g 0) 24 4)
  let bd := bits (g 0) 18 6
  field b 28 4 (match sp with | some x => r.spaces.contains x | none => false)
    ++ field b 24 4 (r.fmts.contains fmt && (sp != some .ta || fmt == .f64 || fmt == .i64))
    ++ field b 18 6 (bd = 63 || (bd < 32 && sp == some .ts))
    ++ field b 15 3 (bits (g 0) 15 3 < 7)
    ++ (if sp == some .vm then [] else rsv b (g 0) 12 3)
    ++ (if r.image then [] else rsv b (g 0) 4 8)
    ++ rsv b (g 0) 0 4
    ++ (match sp with
      | some .ts => rsv (b + 1) (g 1) 20 12 ++ rsv (b + 2) (g 2) 0 32
      | some .ta => rsv (b + 1) (g 1) 15 17 ++ rsv (b + 2) (g 2) 0 32
      | some .cpx => rsv (b + 1) (g 1) 24 8 ++ rsv (b + 2) (g 2) 0 32
      | some .vm => rsv (b + 2) (g 2) 8 24
      | some .peer => rsv (b + 2) (g 2) 12 12 ++ rsv (b + 2) (g 2) 5 3
      | none => [])
    ++ field (b + 3) 0 32 (bits (g 3) 0 32 < 4294967295)
    ++ (if r.image then
        (if 3 < nl then rsv (b + 7) (g 7) 0 32 else []) ++ (if 4 < nl then rsv (b + 8) (g 8) 0 32 else [])
          ++ (if fmt.width < 32 then rsv (b + 5 + nl) (g (5 + nl)) fmt.width (32 - fmt.width) else [])
      else [])

/-- Findings in the windows, in window order. -/
def winsFindings (nl : Nat) (s : List Word32) : Nat → List Role → List Finding
  | _, [] => []
  | k, r :: rs => winFindings r (winAt nl k) nl s ++ winsFindings nl s (k + 1) rs

/-- A window from its syllables (R93). -/
def winOf (b nl : Nat) (s : List Word32) : Win :=
  let g := fun i => s.getD (b + i) 0
  { space := (Space.ofCode (bits (g 0) 28 4)).getD .ts
    fmt := Fmt.ofCode (bits (g 0) 24 4)
    bd := if bits (g 0) 18 6 = 63 then none else some (bits (g 0) 18 6)
    wrm := RMode.ofCode (bits (g 0) 15 3)
    map := bits (g 0) 12 3
    dil := bits (g 0) 4 8
    w1 := g 1
    w2 := g 2
    extent := (g 3).toNat + 1
    stride := (List.range nl).map (fun i => signed32 (g (4 + i))) }

/-- Header and loop record from their syllables (R90, R91). -/
def hdrOf (s : List Word32) : Hdr :=
  let g := fun i => s.getD i 0
  { counts := (List.range (bits (g 0) 15 3)).map (fun i => bits (g (4 + i / 2)) (16 * (i % 2)) 16 + 1)
    slv := bits (g 0) 9 3
    wcnt := bits (g 1) 16 16
    scnt := bits (g 1) 0 16
    wsem := bits (g 2) 26 6
    ssem := bits (g 2) 20 6
    rm := (RMode.ofCode (bits (g 2) 17 3)).getD .rne
    pmask := BitVec.ofNat 16 (bits (g 2) 0 16)
    seed := g 3 }

/-- How many windows a block's NW must be (R98). -/
def windowsWanted (m : Major) (flags op0 : Nat) (ports : BitVec 7) : Nat :=
  match m with
  | .ldw | .ldc | .stw | .stred => 2
  | .ldg | .sts => 3
  | .ldx | .probe | .pref | .waitm | .stx | .atom | .mzero => 1
  | .stk => if op0 / 2 ^ 28 % 2 = 1 then 4 else 3
  | .mwld => if flags / 4 % 2 = 1 then 2 else 1
  | .mstrm => if flags / 16 % 2 = 1 then 3 else 2
  | .mrb | .vrst => 0
  | .vloop => ((List.range 7).filter (fun i => ports.getLsbD i)).length

/-- PFI fields that a block does not have (R101). -/
def pmaskBad (m : Major) (nl nw i : Nat) : Bool :=
  if i < 5 then nl ≤ i
  else if i < 9 then nw ≤ i - 5
  else if i < 13 then nw ≤ i - 9
  else if i = 15 then m.ops = 0 && m != .vloop
  else false

/-- Findings in H0 to H2, the loop record and the padding (R89 to R92, R98, R101). -/
def headFindings (m : Major) (s : List Word32) (bound : Bool) (op0 : Nat) (ports : BitVec 7) : List Finding :=
  let g := fun i => s.getD i 0
  let nl := bits (g 0) 15 3
  let nw := bits (g 0) 12 3
  let slv := bits (g 0) 9 3
  let flags := bits (g 0) 0 9
  field 0 15 3 (m.nlOk nl)
    ++ (if m = .vloop then [] else field 0 12 3 (nw = windowsWanted m flags op0 ports))
    ++ field 0 9 3 (slv = 7 || (slv < 5 && slv < nl && bound))
    ++ rsv 0 (g 0) m.flagBits (9 - m.flagBits)
    ++ (if m = .mstrm then field 0 0 2 (flags % 4 < 3) else [])
    ++ field 2 17 3 (bits (g 2) 17 3 < 6)
    ++ rsv 2 (g 2) 16 1
    ++ (List.range 16).flatMap (fun i =>
        if (g 2).getLsbD i && pmaskBad m nl nw i then [(2, 2 ^ i)] else [])
    ++ (if nl % 2 = 1 then rsv (4 + nl / 2) (g (4 + nl / 2)) 16 16 else [])

/-- Findings in the operator syllables and in the fields that depend on two records (R98, R151, R160, R170, R176,
R180, R184). -/
def opFindings (m : Major) (s : List Word32) (at' nl : Nat) : List Finding :=
  let o := s.getD at' 0
  let flags := bits (s.getD 0 0) 0 9
  let f0 := Fmt.ofCode (bits (s.getD (winAt nl 0) 0) 24 4)
  let f1 := Fmt.ofCode (bits (s.getD (winAt nl 1) 0) 24 4)
  let sp1 := bits (s.getD (winAt nl 1) 0) 28 4
  match m with
  | .ldw =>
    (if flags % 2 = 1 then field 0 0 1 (sp1 = 2) else rsv at' o 16 16) ++ rsv at' o 0 16
  | .ldx | .stx => field at' 24 8 (bits o 28 4 + bits o 24 4 ≤ 15) ++ rsv at' o 0 24
  | .probe => rsv at' o 0 28
  | .waitm => field at' 29 3 (bits o 29 3 < 6) ++ field at' 26 3 (bits o 26 3 < 5) ++ rsv at' o 0 18
  | .stk => rsv at' o 0 28
  | .atom =>
    field at' 28 4 (bits o 28 4 < 9) ++ field at' 23 3 (bits o 23 3 < 5)
      ++ (if bits o 22 1 = 1 then [] else rsv at' o 18 4)
      ++ (if bits o 28 4 = 8 then [] else rsv at' o 10 4) ++ rsv at' o 0 10
  | .mwld => if flags / 4 % 2 = 1 then field 0 2 1 f0.scalable else []
  | .mstrm =>
    (if flags / 16 % 2 = 1 then field 0 4 1 f0.scalable else [])
      ++ field (winAt nl 1) 24 4 (f1 == (if f0.isInt then Fmt.i64 else .f64))
  | .mrb => rsv at' o 7 25 ++ field at' 0 7 (bits o 0 7 ≤ 64)
  | .mzero => field (winAt nl 0) 24 4 (f0 == (if flags % 2 = 1 then Fmt.i64 else .f64))
  | .vloop => rsv at' o 7 19
  | .ldg | .ldc | .pref | .stw | .sts | .stred | .vrst => []

/-- Padding after the last record is zero (R89). -/
def padFindings (n : Nat) (i : Nat) : List Word32 → List Finding
  | [] => []
  | w :: ws => (if i < n then [] else rsv i w 0 32) ++ padFindings n (i + 1) ws

/-! ## Vector bodies (R100, R103, R205, R231, R389) -/

/-- What a field of a body word names. -/
inductive VUse where
  | none | vec | pred | xreg | other
deriving DecidableEq, Repr, Inhabited

/-- The kinds of modifier (R208 and the rows of R209 to R229). -/
inductive VMod where
  | zero | round | roundOvf | ovf | cond | pred | lc | pack | unpk | split | mx | half | cvt | imm
deriving DecidableEq, Repr, Inhabited

/-- A row of the operation tables: the types, the modifier, the use of D, A and B, and whether D is also read. -/
structure VRow where
  types : List VTy
  mod : VMod
  d : VUse
  a : VUse
  b : VUse
  dsrc : Bool := false

def VTy.floats : List VTy := [.f32, .bf16, .f16]
def VTy.ints : List VTy := [.i32, .ui32, .i16, .i8]
def VTy.isFloat : VTy → Bool
  | .f32 | .bf16 | .f16 => true
  | .i32 | .ui32 | .i16 | .i8 | .special => false

/-- R209, R212 to R230. -/
def VOp.row : VOp → VRow
  | .vnop => ⟨[.f32], .zero, .none, .none, .none, false⟩
  | .vadd | .vsub | .vmul => ⟨VTy.floats ++ VTy.ints, .roundOvf, .vec, .vec, .vec, false⟩
  | .vfma | .vfms | .vfnma => ⟨VTy.floats, .round, .vec, .vec, .vec, true⟩
  | .vmad => ⟨VTy.floats ++ VTy.ints, .roundOvf, .vec, .vec, .vec, true⟩
  | .vmin | .vmax => ⟨VTy.floats ++ VTy.ints, .zero, .vec, .vec, .vec, false⟩
  | .vabs | .vneg => ⟨VTy.floats ++ VTy.ints, .ovf, .vec, .vec, .none, false⟩
  | .vcpsgn => ⟨VTy.floats, .zero, .vec, .vec, .vec, false⟩
  | .vmulh => ⟨VTy.ints, .zero, .vec, .vec, .vec, false⟩
  | .vcmp => ⟨VTy.floats ++ VTy.ints, .cond, .pred, .vec, .vec, false⟩
  | .vclass => ⟨VTy.floats, .zero, .vec, .vec, .none, false⟩
  | .vand | .vor | .vxor | .vandn => ⟨[.special], .zero, .vec, .vec, .vec, false⟩
  | .vnot => ⟨[.special], .zero, .vec, .vec, .none, false⟩
  | .vshl | .vshr | .vsra | .vrot => ⟨VTy.ints, .zero, .vec, .vec, .vec, false⟩
  | .vpopc | .vclz => ⟨VTy.ints, .zero, .vec, .vec, .none, false⟩
  | .vsel => ⟨[.special], .pred, .vec, .vec, .vec, false⟩
  | .vmov => ⟨VTy.floats ++ VTy.ints ++ [.special], .zero, .vec, .vec, .none, false⟩
  | .vmovi => ⟨VTy.floats ++ VTy.ints ++ [.special], .imm, .vec, .other, .other, false⟩
  | .vlui => ⟨[.special], .imm, .vec, .other, .other, true⟩
  | .vidx => ⟨[.i32], .lc, .vec, .none, .none, false⟩
  | .vbcast | .vperm | .vrotl => ⟨[.special], .zero, .vec, .vec, .vec, false⟩
  | .vredsum | .vscan => ⟨VTy.floats ++ VTy.ints, .roundOvf, .vec, .vec, .none, false⟩
  | .vredmax | .vredmin | .vargmax => ⟨VTy.floats ++ VTy.ints, .zero, .vec, .vec, .none, false⟩
  | .vcvt => ⟨VTy.floats ++ [.i32, .ui32, .i16], .cvt, .vec, .vec, .other, false⟩
  | .vpack => ⟨[.bf16, .f16, .i16, .i8], .pack, .vec, .vec, .vec, false⟩
  | .vunpk => ⟨[.f32, .i32, .bf16, .f16, .i16, .i8], .unpk, .vec, .vec, .none, false⟩
  | .vsplit3 => ⟨[.f32, .bf16], .split, .vec, .vec, .vec, false⟩
  | .vscale => ⟨VTy.floats, .round, .vec, .vec, .vec, false⟩
  | .vmxq => ⟨[.f32, .ui32], .mx, .vec, .vec, .none, false⟩
  | .vtox => ⟨[.i32, .ui32], .zero, .xreg, .vec, .none, false⟩
  | .xtov => ⟨[.special], .half, .vec, .xreg, .none, false⟩
  | .vexp2 | .vlog2 | .vrcp | .vrsqrt | .vsqrt | .vsinpi | .vcospi | .vtanh =>
    ⟨[.f32], .round, .vec, .vec, .none, false⟩
  | .pand | .por | .pxor => ⟨[.special], .zero, .pred, .pred, .pred, false⟩
  | .pnot | .pmov => ⟨[.special], .zero, .pred, .pred, .none, false⟩
  | .pset => ⟨[.special], .zero, .pred, .vec, .none, false⟩
  | .pcnt => ⟨[.special], .zero, .vec, .pred, .none, false⟩

/-- The latency of an operation (R103). -/
def VOp.latency (o : VOp) (t : VTy) : Nat :=
  match o with
  | .vadd | .vsub | .vmul | .vmad | .vmin | .vmax => if t.isFloat then 4 else 1
  | .vfma | .vfms | .vfnma | .vcmp => 4
  | .vbcast | .vperm | .vrotl | .vredsum | .vredmax | .vredmin | .vscan | .vargmax | .vmxq => 6
  | .vcvt | .vpack | .vunpk | .vsplit3 | .vscale => 2
  | .vexp2 | .vlog2 | .vrcp | .vrsqrt | .vsqrt | .vsinpi | .vcospi | .vtanh => 8
  | .vnop | .vabs | .vneg | .vcpsgn | .vmulh | .vclass | .vand | .vor | .vxor | .vandn | .vnot | .vshl | .vshr | .vsra
  | .vrot | .vpopc | .vclz | .vsel | .vmov | .vmovi | .vlui | .vidx | .vtox | .xtov | .pand | .por | .pxor | .pnot
  | .pmov | .pset | .pcnt => 1

/-- Lane and special-function class, as against compute class (R103). -/
def VOp.isLane (o : VOp) : Bool := 6 ≤ o.latency .f32

/-- The group of a vcvt type (R221). -/
def cvtGroup : VTy → Nat
  | .f32 | .i32 | .ui32 => 0
  | .bf16 | .f16 | .i16 => 1
  | .i8 | .special => 2

/-- M within the operation's row (RULE 9 of R389). -/
def vmodOk (k : VMod) (t : VTy) (b m : Nat) : Bool :=
  match k with
  | .zero => m = 0
  | .round => m < 7
  | .roundOvf => if t.isFloat then m < 7 else m < 2
  | .ovf => if t.isFloat then m = 0 else m < 2
  | .cond | .pred | .imm => true
  | .lc => m < 6
  | .pack => if t.isFloat then m < 7 else m < 2
  | .unpk => m < 4
  | .split => m < 3
  | .mx => 4 ≤ m && m < 9
  | .half => m < 2
  | .cvt => if t.isFloat || (VTy.ofCode (b % 8)).isFloat then m < 7 else m = 0

/-- Bit of PORTS that an operand code names (R99, R100). -/
def portBit (c : Nat) : Option Nat :=
  if 48 ≤ c ∧ c < 52 then some (c - 48) else if c = 52 then some 6 else if c = 53 then some 4
  else if c = 54 then some 5 else none

/-- IMM16 of vmovi and vlui: bits 15 to 0 of the word (R100). -/
def VWord.imm16 (w : VWord) : BitVec 16 := BitVec.ofNat 16 (w.a * 1024 + w.b * 16 + w.m)

/-- The rules of R389 that one body word alone breaks. -/
def wordRules (ports : BitVec 7) (w : VWord) : List Nat :=
  let r := w.op.row
  let srcs := (if r.a = .vec then [w.a] else []) ++ (if r.b = .vec then [w.b] else [])
  let dst := if r.d = .vec then [w.d] else []
  let third := if r.dsrc then [w.d] else []
  let absent := fun c => match portBit c with | some i => !ports.getLsbD i | none => false
  let at' := fun (n : Nat) (b : Bool) => if b then [n] else []
  at' 3 ((dst ++ third).any (fun c => 48 ≤ c && c < 52))
    ++ at' 4 ((srcs ++ third).any (fun c => c = 53 || c = 54))
    ++ at' 5 ((dst ++ third).any (fun c => 56 ≤ c))
    ++ at' 6 ((dst ++ srcs ++ third).any absent)
    ++ at' 8 (!(r.types.contains w.ty))
    ++ at' 9 (!(vmodOk r.mod w.ty w.b w.m))
    ++ at' 10 ((r.d = .none && w.d != 0) || (r.a = .none && w.a != 0) || (r.b = .none && w.b != 0)
        || (w.op = .vsplit3 && w.ty = .f32 && w.b != 0) || (w.op = .vcvt && 8 ≤ w.b))
    ++ at' 11 ((r.d = .pred || r.d = .xreg) && 16 ≤ w.d || (r.a = .pred || r.a = .xreg) && 16 ≤ w.a
        || r.b = .pred && 16 ≤ w.b)
    ++ at' 12 (match w.op with
      | .vcmp => !w.ty.isFloat && 6 ≤ w.m % 8
      | .vcvt =>
        let s := VTy.ofCode (w.b % 8)
        s == w.ty || cvtGroup s != cvtGroup w.ty
      | .vmovi => w.ty == .special || (w.ty == .i8 && 256 ≤ w.imm16.toNat)
      | _ => false)

/-- The destination of an operation as (kind, number), for RULE 2; the zero operand is none. -/
def VWord.dest (w : VWord) : Option (VUse × Nat) :=
  match w.op.row.d with
  | .vec => if w.d = 55 then none else some (.vec, w.d)
  | .pred => some (.pred, w.d % 16)
  | .xreg => some (.xreg, w.d % 16)
  | .none | .other => none

/-- Bundles of a body: each with the index of its first word (R199). -/
def bundles (i : Nat) (cur : List VWord) : List VWord → List (Nat × List VWord)
  | [] => if cur.isEmpty then [] else [(i, cur)]
  | w :: ws =>
    if w.stop then (i, cur ++ [w]) :: bundles (i + cur.length + 1) [] ws else bundles i (cur ++ [w]) ws

/-- Whether a list has two equal members. -/
def hasDup {α : Type} [BEq α] : List α → Bool
  | [] => false
  | x :: xs => xs.contains x || hasDup xs

/-- The rules of R389 that a bundle breaks. -/
def bundleRules (b : List VWord) : List Nat :=
  (if 2 < (b.filter (fun w => !w.op.isLane)).length || 1 < (b.filter (fun w => w.op.isLane)).length then [1] else [])
    ++ (if hasDup (b.filterMap VWord.dest) then [2] else [])

/-- The least of the pairs (word, rule), the word first (R389). -/
def leastRule : List (Nat × Nat) → Option (Nat × Nat)
  | [] => none
  | x :: xs =>
    match leastRule xs with
    | none => some x
    | some y => if y.1 < x.1 || (y.1 = x.1 && y.2 < x.2) then some y else some x

/-- A body word from its bits (R100); none where OP is 0x3F. -/
def vwordOf (w : Word32) : Option VWord :=
  (VOp.ofCode (bits w 25 6)).map fun o =>
    { stop := bits w 31 1 = 1, op := o, ty := VTy.ofCode (bits w 22 3), d := bits w 16 6, a := bits w 10 6,
      b := bits w 4 6, m := bits w 0 4 }

/-- Every rule a body breaks, as (word, rule) (DEDUCED, log 24). -/
def bodyRules (ports : BitVec 7) (ws : List Word32) : List (Nat × Nat) :=
  let body := ws.map (fun w => (vwordOf w).getD { stop := bits w 31 1 = 1 })
  (List.range ws.length).flatMap (fun i =>
      match vwordOf (ws.getD i 0) with
      | some v => (wordRules ports v).map (fun r => (i, r))
      | none => [(i, 8)])
    ++ (bundles 0 [] body).flatMap (fun b =>
      (bundleRules ((List.range b.2.length).filterMap (fun k => vwordOf (ws.getD (b.1 + k) 0)))).map (fun r => (b.1, r)))
    ++ (if (body.getLast?.map VWord.stop).getD true then [] else [(ws.length - 1, 7)])

/-! ## Decoding of blocks -/

/-- A block's instruction from its syllables, every check of its bits passed. -/
def blockInstr (m : Major) (s : List Word32) : Instr :=
  let h := hdrOf s
  let nl := h.counts.length
  let nw := bits (s.getD 0 0) 12 3
  let w := fun k => winOf (winAt nl k) nl s
  let at' := opAt m nl nw
  let o := s.getD at' 0
  let o1 := s.getD (at' + 1) 0
  let flag := fun i => (s.getD 0 0).getLsbD i
  match m with
  | .ldw => .ldw h (w 0) (w 1) (flag 0) (bits o 16 16)
  | .ldg => .ldg h (w 0) (w 1) (w 2)
  | .ldc =>
    let p := s.getD (winAt nl 2) 0
    .ldc h (w 0) (w 1) ⟨bits p 24 8, bits p 16 8, bits p 8 8, bits p 0 8, s.getD (winAt nl 2 + 1) 0⟩
      (bits o 24 8 + 1) (bits o 16 8 + 1) (bits o 8 8 + 1) (bits o 0 8 + 1) (bits o1 16 16 + 1) (bits o1 0 16 + 1)
  | .ldx => .ldx h (w 0) (bits o 28 4) (bits o 24 4)
  | .probe => .probe h (w 0) (bits o 28 4)
  | .pref => .pref h (w 0)
  | .waitm =>
    .waitm h (w 0) ((Cond.ofCode (bits o 29 3)).getD .eq) ((Scope.ofCode (bits o 26 3)).getD .tile) (bits o 22 4)
      (bits o 18 4)
  | .stw => .stw h (w 0) (w 1)
  | .sts => .sts h (w 0) (w 1) (w 2)
  | .stk => .stk h (w 0) (w 1) (w 2) (if bits o 28 1 = 1 then some (w 3) else none) (bits o 29 3 + 1)
  | .stx => .stx h (w 0) (bits o 28 4) (bits o 24 4)
  | .atom =>
    .atom h (w 0) ((AOp.ofCode (bits o 28 4)).getD .add) (AOrd.ofCode (bits o 26 2))
      ((Scope.ofCode (bits o 23 3)).getD .tile) (bits o 22 1 = 1) (bits o 18 4) (bits o 14 4) (bits o 10 4)
  | .stred => .stred h (w 0) (w 1)
  | .mwld => .mwld h (w 0) (if flag 2 then some (w 1) else none) (flag 0) (flag 1)
  | .mstrm =>
    .mstrm h (w 0) (w 1) (if flag 4 then some (w 2) else none) ((Sel.ofCode (bits (s.getD 0 0) 0 2)).getD .a) (flag 2)
      (flag 3)
  | .mrb => .mrb h (bits o 0 7)
  | .mzero => .mzero h (w 0) (flag 0)
  | .vloop =>
    .vloop h (BitVec.ofNat 7 (bits o 0 7)) ((List.range nw).map w) ((s.drop (at' + 1)).take 8)
      (((s.drop (at' + 9)).take (bits o 26 6 + 1)).map (fun x => (vwordOf x).getD {}))
  | .vrst => .vrst h

/-- The least LEN of an engine (R90). -/
def Engine.minLen : Engine → Nat
  | .le | .se => 1
  | .me => 0
  | .ve => 3

/-- Whether LEN is the least number of words, less one, that holds the records (R89) (DEDUCED, log 25). -/
def lenOk (e : Engine) (m : Major) (s : List Word32) : Bool :=
  let words := bits (s.getD 0 0) 18 8 + 1
  let n := blockSyls m s
  (words - 1) * e.sylPerWord < n && n ≤ words * e.sylPerWord

/-- Whether some window of the block is bound to a buffer (R92). -/
def anyBound (s : List Word32) : Bool :=
  let nl := bits (s.getD 0 0) 15 3
  (List.range (bits (s.getD 0 0) 12 3)).any (fun k => bits (s.getD (winAt nl k) 0) 18 6 < 32)

/-- The findings of a control block in its syllables: header, windows, operator, padding (R380). -/
def blockFindings (m : Major) (s : List Word32) : List Finding :=
  let nl := bits (s.getD 0 0) 15 3
  let nw := bits (s.getD 0 0) 12 3
  let at' := opAt m nl nw
  let o := s.getD at' 0
  let ports := BitVec.ofNat 7 (bits o 0 7)
  headFindings m s (anyBound s) o.toNat ports
    ++ winsFindings nl s 0 ((m.roles ((AOp.ofCode (bits o 28 4)).getD .and) ports).take nw)
    ++ opFindings m s at' nl
    ++ (if m = .vloop then field at' 0 7 (nw = windowsWanted m 0 0 ports) else [])
    ++ padFindings (blockSyls m s) 0 s

/-- The rules that a vector block's body breaks, each with its word (R383); none of any other block. -/
def blockRules (m : Major) (s : List Word32) : List (Nat × Nat) :=
  let at' := opAt m (bits (s.getD 0 0) 15 3) (bits (s.getD 0 0) 12 3)
  let o := s.getD at' 0
  if m = .vloop then bodyRules (BitVec.ofNat 7 (bits o 0 7)) ((s.drop (at' + 9)).take (bits o 26 6 + 1)) else []

/-- Decoding of a control block from all its syllables: steps 3 and 4 of R379 as far as the bits decide them. -/
def decodeBlock (e : Engine) (m : Major) (s : List Word32) : Except DecErr Instr :=
  if bits (s.getD 0 0) 18 8 < e.minLen then .error (.badField 0 0x03FC0000)
  else if !lenOk e m s then .error (.badField 0xFFFF 0)
  else
    match report (blockFindings m s) with
    | some d => .error d
    | none =>
      match leastRule (blockRules m s) with
      | some (i, r) => .error (.bodyRule r i)
      | none => .ok (blockInstr m s)

/-- Decoding of an instruction from the syllables of all its words: total, with a name for every refusal. -/
def decode (e : Engine) (s : List Word32) : Except DecErr Instr :=
  let s0 := s.getD 0 0
  if !assigned e s0 then .error (.illop s0)
  else match isMajor e s0, Major.of e (bits s0 26 6) with
    | true, some m => decodeBlock e m s
    | _, _ => decodeCommon s

/-! ## Patched fields (R101) -/

/-- Where the patched field stands: the syllable, its low bit and its width. -/
def pfiPlace (m : Major) (s : List Word32) (pfi : Nat) : Nat × Nat × Nat :=
  let nl := bits (s.getD 0 0) 15 3
  let nw := bits (s.getD 0 0) 12 3
  if pfi < 5 then (4 + pfi / 2, 16 * (pfi % 2), 16)
  else if pfi < 9 then (winAt nl (pfi - 5) + 1, 0, 32)
  else if pfi < 13 then (winAt nl (pfi - 9) + 3, 0, 32)
  else if pfi = 13 then (1, 16, 16)
  else if pfi = 14 then (1, 0, 16)
  else (opAt m nl nw + (if m = .vloop then 1 else 0), 0, 32)

/-- Whether a patch value lies in the Values column of R101. -/
def pfiValueOk (pfi v : Nat) : Bool :=
  if pfi < 5 then v ≤ 65536 else if pfi = 13 ∨ pfi = 14 then v ≤ 65535 else true

/-- Whether the patch skips its block (R101): a count or an EXTENT of 0. -/
def pfiSkips (pfi v : Nat) : Bool := v = 0 && (pfi < 5 || (9 ≤ pfi && pfi < 13))

/-- The syllables with one field patched; a count or EXTENT of 0 leaves the coded field, since the block is
skipped. -/
def patchSyl (m : Major) (s : List Word32) (pfi v : Nat) : List Word32 :=
  if pfiSkips pfi v then s
  else
    let (i, lo, n) := pfiPlace m s pfi
    let x := if pfi < 5 ∨ (9 ≤ pfi ∧ pfi < 13) then v - 1 else v
    let w := (s.getD i 0).toNat
    s.set i (BitVec.ofNat 32 (w - w / 2 ^ lo % 2 ^ n * 2 ^ lo + x % 2 ^ n * 2 ^ lo))

/-- Every patch applied, in the order given (R142: ascending PFI). -/
def patchAll (m : Major) (s : List Word32) : List (Nat × Nat) → List Word32
  | [] => s
  | (pfi, v) :: ps => patchAll m (patchSyl m s pfi v) ps

/-! ## The encoder -/

/-- A syllable from (low bit, value) pairs. -/
def syl (fs : List (Nat × Nat)) : Word32 := BitVec.ofNat 32 ((fs.map (fun f => f.2 * 2 ^ f.1)).sum)

/-- A signed offset as its 32 bits. -/
def off32 (o : Int) : Word32 := BitVec.ofInt 32 o

/-- First syllable and extension of a common instruction (R86, R87). -/
def encodeCommon : Instr → Option (Word32 × Option Word32)
  | .nop => some (syl [], none)
  | .tail => some (syl [(26, 1)], none)
  | .wait s n => some (syl [(26, 2), (20, s), (0, n)], none)
  | .signal s n => some (syl [(26, 3), (20, s), (0, n)], none)
  | .sigr p s n => some (syl [(26, 4), (20, p), (14, s), (0, n)], none)
  | .bar sc id => some (syl [(26, 5), (20, sc.code), (14, id)], none)
  | .br o => some (syl [(26, 6)], some (off32 o))
  | .brx c a b o => some (syl [(26, 7), (20, a), (14, b), (0, c.code)], some (off32 o))
  | .call o => some (syl [(26, 8)], some (off32 o))
  | .ret => some (syl [(26, 9)], none)
  | .disp c t => some (syl [(26, 10), (20, c), (14, t)], none)
  | .patch v f e pos => some (syl [(26, 11), (20, v), (14, f), (12, e.code)], some (BitVec.ofNat 32 pos))
  | .xli d m i => some (syl [(26, 12), (20, d), (14, m.code)], some i)
  | .xop d a m src b => some (syl [(26, 13), (20, d), (14, a), (10, m.code), (4, src.code), (0, b)], none)
  | .xopImm d a m i => some (syl [(26, 13), (20, d), (14, a), (10, m.code), (9, 1)], some i)
  | .fence sc => some (syl [(26, 14), (20, sc.code)], none)
  | .pfence => some (syl [(26, 15)], none)
  | .tkget r l s sh => some (syl [(26, 16), (20, r), (14, l), (8, s), (0, sh.toNat)], none)
  | .tkput r l s => some (syl [(26, 17), (20, r), (14, l), (8, s)], none)
  | .tklend r l s p => some (syl [(26, 18), (20, r), (14, l), (8, s), (0, p)], none)
  | .tksplit r l n => some (syl [(26, 19), (20, r), (14, l), (0, n)], none)
  | .tkjoin r l n => some (syl [(26, 20), (20, r), (14, l), (0, n)], none)
  | .trap c => some (syl [(26, 21), (0, c)], none)
  | _ => none

/-- A window's syllables (R93, R96). -/
def encodeWin (w : Win) (pad : Option Pad) : List Word32 :=
  [syl [(28, w.space.code), (24, w.fmt.code), (18, w.bd.getD 63), (15, (w.wrm.map RMode.code).getD 6), (12, w.map),
      (4, w.dil)], w.w1, w.w2, BitVec.ofNat 32 (w.extent - 1)]
    ++ w.stride.map off32
    ++ (match pad with
      | none => []
      | some p => [syl [(24, p.t), (16, p.b), (8, p.l), (0, p.r)], p.v])

/-- The loop record (R91). -/
def encodeLoop : List Nat → List Word32
  | a :: b :: rest => syl [(0, a - 1), (16, b - 1)] :: encodeLoop rest
  | [a] => [syl [(0, a - 1)]]
  | [] => []

/-- A vector body word (R100). -/
def encodeVWord (w : VWord) : Word32 :=
  syl [(31, w.stop.toNat), (25, w.op.code), (22, w.ty.code), (16, w.d), (10, w.a), (4, w.b), (0, w.m)]

/-- A block's syllables, padded to whole words, with LEN as R89 gives it. -/
def encodeBlock (e : Engine) (m : Major) (h : Hdr) (flags : Nat) (wins : List (Win × Option Pad))
    (ops : List Word32) : List Word32 :=
  let recs := encodeLoop h.counts ++ wins.flatMap (fun w => encodeWin w.1 w.2) ++ ops
  let k := e.sylPerWord
  let words := (4 + recs.length + k - 1) / k
  [syl [(26, m.code), (18, words - 1), (15, h.counts.length), (12, wins.length), (9, h.slv), (0, flags)],
    syl [(16, h.wcnt), (0, h.scnt)], syl [(26, h.wsem), (20, h.ssem), (17, h.rm.code), (0, h.pmask.toNat)], h.seed]
    ++ recs ++ List.replicate (words * k - 4 - recs.length) 0

/-- The record of a control block: header, flags, windows and operator syllables. -/
def blockRecords : Instr → Option (Major × Hdr × Nat × List (Win × Option Pad) × List Word32)
  | .ldw h d s sc spg => some (.ldw, h, sc.toNat, [(d, none), (s, none)], [syl [(16, spg)]])
  | .ldg h d s i => some (.ldg, h, 0, [(d, none), (s, none), (i, none)], [])
  | .ldc h d s p kh kw sh sw ih iw =>
    some (.ldc, h, 0, [(d, none), (s, some p)],
      [syl [(24, kh - 1), (16, kw - 1), (8, sh - 1), (0, sw - 1)], syl [(16, ih - 1), (0, iw - 1)]])
  | .ldx h s d n => some (.ldx, h, 0, [(s, none)], [syl [(28, d), (24, n)]])
  | .probe h s x => some (.probe, h, 0, [(s, none)], [syl [(28, x)]])
  | .pref h s => some (.pref, h, 0, [(s, none)], [])
  | .waitm h s c sc v r =>
    some (.waitm, h, 0, [(s, none)], [syl [(29, c.code), (26, sc.code), (22, v), (18, r)]])
  | .stw h d s => some (.stw, h, 0, [(d, none), (s, none)], [])
  | .sts h d s i => some (.sts, h, 0, [(d, none), (s, none), (i, none)], [])
  | .stk h v i s c k =>
    some (.stk, h, 0, [(v, none), (i, none), (s, none)] ++ c.toList.map (fun w => (w, none)),
      [syl [(29, k - 1), (28, c.isSome.toNat)]])
  | .stx h d s n => some (.stx, h, 0, [(d, none)], [syl [(28, s), (24, n)]])
  | .atom h d op ord sc f xd xa xb =>
    some (.atom, h, 0, [(d, none)],
      [syl [(28, op.code), (26, ord.code), (23, sc.code), (22, f.toNat), (18, xd), (14, xa), (10, xb)]])
  | .stred h d s => some (.stred, h, 0, [(d, none), (s, none)], [])
  | .mwld h w sc b tr =>
    some (.mwld, h, b.toNat + 2 * tr.toNat + 4 * sc.isSome.toNat, (w, none) :: sc.toList.map (fun w => (w, none)), [])
  | .mstrm h a acc sc sel set ret =>
    some (.mstrm, h, sel.code + 4 * set.toNat + 8 * ret.toNat + 16 * sc.isSome.toNat,
      (a, none) :: (acc, none) :: sc.toList.map (fun w => (w, none)), [])
  | .mrb h n => some (.mrb, h, 0, [], [syl [(0, n)]])
  | .mzero h a i => some (.mzero, h, i.toNat, [(a, none)], [])
  | .vloop h ports ws ks body =>
    some (.vloop, h, 0, ws.map (fun w => (w, none)),
      syl [(26, body.length - 1), (0, ports.toNat)] :: ks ++ body.map encodeVWord)
  | .vrst h => some (.vrst, h, 0, [], [])
  | _ => none

/-- The syllables of the words of a stream instruction; a step of the machine that no stream fetches has none. -/
def encode (e : Engine) (i : Instr) : List Word32 :=
  match encodeCommon i with
  | some (s0, ext) =>
    match e, ext with
    | .ve, none => [s0]
    | .ve, some x => [s0, x]
    | .me, x => [s0, x.getD 0, 0, 0]
    | .le, x => [s0, x.getD 0]
    | .se, x => [s0, x.getD 0]
  | none =>
    match blockRecords i with
    | some (m, h, f, ws, ops) => encodeBlock e m h f ws ops
    | none => []

/-! ## The table's words -/

/-- The instruction that the load engine's decoder reads from the bits of a row of spec/opcode_table.json. A row's
bits are a first syllable; the syllables above it are zero. -/
def decodeTableWord (_nbits w : Nat) : Option Instr :=
  let s0 := BitVec.ofNat 32 w
  match decode .le (BitVec.ofNat 32 w :: BitVec.ofNat 32 (w / 2 ^ 32)
      :: List.replicate ((instrWords .le s0 - 1) * 2) 0) with
  | .ok i => some i
  | .error _ => none

end Sys2Proof
end

