-- ==== Sys2Proof/Machine/Crypto.lean ====
section
/-!
DEFINITION. The security block's arithmetic: SHA-256 and HMAC-SHA-256, which the manual names (R344, R347), the derivation of
a key slot's RSA-3072 pair and its signature (R345, R349), and the DER of its certificates (R346).
-/

namespace Sys2Proof

/-! ## SHA-256 -/

def shaK : List Word32 :=
  [0x428a2f98#32, 0x71374491#32, 0xb5c0fbcf#32, 0xe9b5dba5#32, 0x3956c25b#32, 0x59f111f1#32, 0x923f82a4#32, 0xab1c5ed5#32]
  ++ [0xd807aa98#32, 0x12835b01#32, 0x243185be#32, 0x550c7dc3#32, 0x72be5d74#32, 0x80deb1fe#32, 0x9bdc06a7#32, 0xc19bf174#32]
  ++ [0xe49b69c1#32, 0xefbe4786#32, 0x0fc19dc6#32, 0x240ca1cc#32, 0x2de92c6f#32, 0x4a7484aa#32, 0x5cb0a9dc#32, 0x76f988da#32]
  ++ [0x983e5152#32, 0xa831c66d#32, 0xb00327c8#32, 0xbf597fc7#32, 0xc6e00bf3#32, 0xd5a79147#32, 0x06ca6351#32, 0x14292967#32]
  ++ [0x27b70a85#32, 0x2e1b2138#32, 0x4d2c6dfc#32, 0x53380d13#32, 0x650a7354#32, 0x766a0abb#32, 0x81c2c92e#32, 0x92722c85#32]
  ++ [0xa2bfe8a1#32, 0xa81a664b#32, 0xc24b8b70#32, 0xc76c51a3#32, 0xd192e819#32, 0xd6990624#32, 0xf40e3585#32, 0x106aa070#32]
  ++ [0x19a4c116#32, 0x1e376c08#32, 0x2748774c#32, 0x34b0bcb5#32, 0x391c0cb3#32, 0x4ed8aa4a#32, 0x5b9cca4f#32, 0x682e6ff3#32]
  ++ [0x748f82ee#32, 0x78a5636f#32, 0x84c87814#32, 0x8cc70208#32, 0x90befffa#32, 0xa4506ceb#32, 0xbef9a3f7#32, 0xc67178f2#32]

def shaInit : List Word32 :=
  [0x6a09e667#32, 0xbb67ae85#32, 0x3c6ef372#32, 0xa54ff53a#32, 0x510e527f#32, 0x9b05688c#32, 0x1f83d9ab#32, 0x5be0cd19#32]

/-- A number from bytes, most significant first, and its bytes. -/
def beVal (bs : List Byte) : Nat := bs.foldl (fun v b => v * 256 + b.toNat) 0
def beBytes (n v : Nat) : List Byte := (bytesOf n v).reverse

/-- The words of a 64-byte block, then those of the schedule, newest first. -/
def shaWords (block : List Byte) : List Word32 :=
  (List.range 16).map (fun i => BitVec.ofNat 32 (beVal ((block.drop (4 * i)).take 4)))
def shaExtend : Nat → List Word32 → List Word32
  | 0, ws => ws
  | n + 1, ws =>
    let w := fun (i : Nat) => ws.getD i 0
    let x := w 14
    let y := w 1
    let s0 := x.rotateRight 7 ^^^ x.rotateRight 18 ^^^ (x >>> 3)
    let s1 := y.rotateRight 17 ^^^ y.rotateRight 19 ^^^ (y >>> 10)
    shaExtend n ((w 15 + s0 + w 6 + s1) :: ws)
def shaSchedule (block : List Byte) : List Word32 := (shaExtend 48 (shaWords block).reverse).reverse

/-- One round on the eight working words. -/
def shaRound (st : List Word32) (kw : Word32 × Word32) : List Word32 :=
  let g := fun (i : Nat) => st.getD i 0
  let e := g 4
  let a := g 0
  let t1 := g 7 + (e.rotateRight 6 ^^^ e.rotateRight 11 ^^^ e.rotateRight 25)
    + ((e &&& g 5) ^^^ (~~~e &&& g 6)) + kw.1 + kw.2
  let t2 := (a.rotateRight 2 ^^^ a.rotateRight 13 ^^^ a.rotateRight 22) + ((a &&& g 1) ^^^ (a &&& g 2) ^^^ (g 1 &&& g 2))
  [t1 + t2, a, g 1, g 2, g 3 + t1, e, g 5, g 6]

def shaBlock (h : List Word32) (block : List Byte) : List Word32 :=
  (h.zip ((shaK.zip (shaSchedule block)).foldl shaRound h)).map (fun x => x.1 + x.2)

/-- Blocks of 64 bytes in turn; `fuel` bounds their number. -/
def shaLoop : Nat → List Word32 → List Byte → List Word32
  | 0, h, _ => h
  | n + 1, h, bs => if bs.isEmpty then h else shaLoop n (shaBlock h (bs.take 64)) (bs.drop 64)

/-- The message with its padding. -/
def shaPad (bs : List Byte) : List Byte :=
  bs ++ [0x80#8] ++ List.replicate ((119 - bs.length % 64) % 64) 0 ++ beBytes 8 (8 * bs.length)

/-- SHA-256, as 32 bytes. -/
def sha256 (bs : List Byte) : List Byte :=
  let p := shaPad bs
  (shaLoop (p.length / 64) shaInit p).flatMap (fun w => beBytes 4 w.toNat)

/-- A digest as a 256-bit value, and its bytes, most significant first. -/
def digest (bs : List Byte) : BitVec 256 := BitVec.ofNat 256 (beVal (sha256 bs))
def digestBytes (d : BitVec 256) : List Byte := beBytes 32 d.toNat

/-- HMAC-SHA-256. -/
def hmac (key msg : List Byte) : List Byte :=
  let k := if 64 < key.length then sha256 key else key
  let k := k ++ List.replicate (64 - k.length) 0
  sha256 (k.map (· ^^^ 0x5C#8) ++ sha256 (k.map (· ^^^ 0x36#8) ++ msg))

/-! ## HMAC_DRBG of SP 800-90A (R345) -/

/-- The generator's state. -/
structure Drbg where
  k : List Byte
  v : List Byte

def Drbg.update (g : Drbg) (seed : List Byte) : Drbg :=
  let k := hmac g.k (g.v ++ [0x00#8] ++ seed)
  let v := hmac k g.v
  if seed.isEmpty then ⟨k, v⟩
  else
    let k := hmac k (v ++ [0x01#8] ++ seed)
    ⟨k, hmac k v⟩

def Drbg.start (entropy nonce : List Byte) : Drbg :=
  Drbg.update ⟨List.replicate 32 0x00#8, List.replicate 32 0x01#8⟩ (entropy ++ nonce)

/-- `n` further outputs of 32 bytes. -/
def Drbg.run (k : List Byte) : Nat → List Byte → List Byte × List Byte
  | 0, v => ([], v)
  | n + 1, v =>
    let v := hmac k v
    let (out, w) := Drbg.run k n v
    (v ++ out, w)

/-- 192 bytes drawn. -/
def Drbg.draw (g : Drbg) : List Byte × Drbg :=
  let (out, v) := Drbg.run g.k 6 g.v
  (out, Drbg.update ⟨g.k, v⟩ [])

/-! ## The RSA-3072 pair (R345) -/

/-- b ^ e mod n; `fuel` is at least the bits of e. -/
def powMod (n : Nat) : Nat → Nat → Nat → Nat
  | 0, _, _ => 1 % n
  | fuel + 1, b, e =>
    if e = 0 then 1 % n
    else
      let r := powMod n fuel (b * b % n) (e / 2)
      if e % 2 = 1 then r * b % n else r

/-- Powers of two in a number, and what is left of it. -/
def oddPart : Nat → Nat → Nat × Nat
  | 0, d => (0, d)
  | fuel + 1, d => if d % 2 = 0 then ((oddPart fuel (d / 2)).1 + 1, (oddPart fuel (d / 2)).2) else (0, d)

/-- Whether one of the `n` values got from x by squaring is c - 1. -/
def hitsMinusOne (c : Nat) : Nat → Nat → Bool
  | 0, _ => false
  | n + 1, x => x = c - 1 || hitsMinusOne c n (x * x % c)

/-- Miller-Rabin with base b accepts c. -/
def millerRabin (c b : Nat) : Bool :=
  let (s, d) := oddPart 1536 (c - 1)
  let x := powMod c 1536 b d
  x = 1 || hitsMinusOne c s x

/-- Whether the candidate stands five rounds, each with its own draw; and the generator after the draws made. -/
def primeRounds (c : Nat) : Nat → Drbg → Bool × Drbg
  | 0, g => (true, g)
  | n + 1, g =>
    let (bs, g) := g.draw
    if millerRabin c (beVal bs % (c - 3) + 2) then primeRounds c n g else (false, g)

/-- Candidates drawn until one stands; `fuel` bounds their number. -/
def findPrime : Nat → Drbg → Nat × Drbg
  | 0, g => (0, g)
  | fuel + 1, g =>
    let (bs, g) := g.draw
    let c := beVal bs ||| 2 ^ 1535 ||| 2 ^ 1534 ||| 1
    let small := (List.range 999).any (fun i => c % (2 * i + 3) = 0)
    if small || Nat.gcd (c - 1) 65537 ≠ 1 then findPrime fuel g
    else
      let (ok, g) := primeRounds c 5 g
      if ok then (c, g) else findPrime fuel g

/-- q drawn until it lies far enough from p. -/
def findSecond (p : Nat) : Nat → Drbg → Nat
  | 0, _ => 0
  | fuel + 1, g =>
    let (q, g) := findPrime (2 ^ 20) g
    if 2 ^ 1436 < (if p < q then q - p else p - q) then q else findSecond p fuel g

/-- A key slot's pair: modulus and private exponent. -/
structure RsaKey where
  n : Nat
  d : Nat

/-- The labels of layers 0 to 2. -/
def slotLabel (layer : Nat) : List Byte :=
  "RYNIS-CRIEG-L".toList.map (fun c => BitVec.ofNat 8 c.toNat) ++ [BitVec.ofNat 8 (48 + layer)]

/-- The pair of a secret and a layer's label. -/
def deriveKey (secret : BitVec 256) (layer : Nat) : RsaKey :=
  let (p, g) := findPrime (2 ^ 20) (Drbg.start (digestBytes secret) (slotLabel layer))
  let q := findSecond p (2 ^ 20) g
  let l := Nat.lcm (p - 1) (q - 1)
  let k := ((List.range 65537).find? (fun k => (1 + k * l) % 65537 = 0)).getD 0
  ⟨p * q, (1 + k * l) / 65537⟩

/-- RSASSA-PKCS1-v1_5 over SHA-256. -/
def rsaSign (key : RsaKey) (msg : List Byte) : List Byte :=
  let info : List Byte :=
    [0x30#8, 0x31#8, 0x30#8, 0x0D#8, 0x06#8, 0x09#8, 0x60#8, 0x86#8, 0x48#8, 0x01#8] ++ [0x65#8, 0x03#8, 0x04#8, 0x02#8, 0x01#8]
      ++ [0x05#8, 0x00#8, 0x04#8, 0x20#8]
  let em := [0x00#8, 0x01#8] ++ List.replicate 330 0xFF#8 ++ [0x00#8] ++ info ++ sha256 msg
  beBytes 384 (powMod key.n 3072 (beVal em) key.d)

/-! ## Certificates (R346)

X.509, DER, PKCS #1 and the DICE extension are as their own standards give them; the choices that these leave are those of
log 7. -/

/-- Length octets, and an element: tag, length, content. -/
def derLen (n : Nat) : List Byte :=
  if n < 128 then beBytes 1 n else if n < 256 then [0x81#8] ++ beBytes 1 n else [0x82#8] ++ beBytes 2 n
def der (tag : Nat) (content : List Byte) : List Byte := beBytes 1 tag ++ derLen content.length ++ content
def derSeq (parts : List (List Byte)) : List Byte := der 0x30 parts.flatten

/-- A nonnegative INTEGER of at most `k` bytes, in the fewest. -/
def derInt (k v : Nat) : List Byte :=
  let bs := (beBytes k v).dropWhile (· = 0)
  der 2 (if bs.isEmpty || (bs.headD 0).msb then 0x00#8 :: bs else bs)

def asciiBytes (s : String) : List Byte := s.toList.map (fun c => BitVec.ofNat 8 c.toNat)
def hexBytes (bs : List Byte) : List Byte :=
  let digit := fun (n : Nat) => BitVec.ofNat 8 (if n < 10 then 48 + n else 87 + n)
  bs.flatMap (fun b => [digit (b.toNat / 16), digit (b.toNat % 16)])

/-- An OBJECT IDENTIFIER from its content octets. -/
def derOid (ns : List Nat) : List Byte := der 6 (ns.map (BitVec.ofNat 8))
/-- rsaEncryption and sha256WithRSAEncryption, each with its NULL parameter: the last arc tells them apart. -/
def rsaAlg (last : Nat) : List Byte :=
  derSeq [derOid [0x2A, 0x86, 0x48, 0x86, 0xF7, 0x0D, 0x01, 0x01, last], der 5 []]

/-- The RSA public key of a modulus, and its SubjectPublicKeyInfo. -/
def rsaPublic (n : Nat) : List Byte := derSeq [derInt 384 n, derInt 3 65537]
def rsaSpki (n : Nat) : List Byte := derSeq [rsaAlg 1, der 3 (0x00#8 :: rsaPublic n)]

/-- The 16 bytes of a certificate's serial number: of the digest of the key's RSAPublicKey, which R346 calls the subject public
key's DER encoding (DEDUCED, log 7). -/
def certSerial (n : Nat) : List Byte :=
  let h := (sha256 (rsaPublic n)).take 16
  (h.headD 0 &&& 0x7F#8) :: h.drop 1

/-- The name of a slot: its CN alone, the serial's digits in lower case right after the layer's (DESIGN CHOICE, log 7). -/
def certName (layer n : Nat) : List Byte :=
  let cn := asciiBytes "Crieg L" ++ [BitVec.ofNat 8 (48 + layer)] ++ hexBytes (certSerial n)
  derSeq [der 0x31 (derSeq [derOid [0x55, 0x04, 0x03], der 0x0C cn])]

/-- An extension, critical or not, and the extensions of a layer's certificate: basicConstraints and keyUsage are critical and
TcbInfo is not (DESIGN CHOICE, log 7). -/
def certExt (oid : List Nat) (critical : Bool) (value : List Byte) : List Byte :=
  derSeq [derOid oid, if critical then der 1 [0xFF#8] else [], der 4 value]
def certExts (layer : Nat) (fwid : BitVec 256) : List Byte :=
  let signs := layer ≤ 1
  let basic := if signs then certExt [0x55, 0x1D, 0x13] true (derSeq [der 1 [0xFF#8]]) else []
  let usage := certExt [0x55, 0x1D, 0x0F] true (der 3 (if signs then [0x02#8, 0x04#8] else [0x07#8, 0x80#8]))
  let sha := derOid [0x60, 0x86, 0x48, 0x01, 0x65, 0x03, 0x04, 0x02, 0x01]
  let tcb := if layer = 0 then [] else certExt [0x67, 0x81, 0x05, 0x05, 0x04, 0x01] false
    (derSeq [der 0xA6 (derSeq [sha, der 4 (digestBytes fwid)])])
  der 0xA3 (derSeq [basic, usage, tcb])

/-- What a layer's certificate signs: version 3, serial, issuer, validity, subject, key, extensions. -/
def certBody (layer subject issuer : Nat) (fwid : BitVec 256) : List Byte :=
  let time := fun (s : String) => der 0x18 (asciiBytes s)
  derSeq [der 0xA0 (derInt 1 2), derInt 16 (beVal (certSerial subject)), rsaAlg 11, certName (layer - 1) issuer,
    derSeq [time "20000101000000Z", time "99991231235959Z"], certName layer subject, rsaSpki subject, certExts layer fwid]

/-- A certificate, signed by the issuer's key. -/
def certDer (key : RsaKey) (layer subject : Nat) (fwid : BitVec 256) : List Byte :=
  let body := certBody layer subject key.n fwid
  derSeq [body, rsaAlg 11, der 3 (0x00#8 :: rsaSign key body)]

end Sys2Proof
end

