-- ==== Sys2Proof/Machine/Arith.lean ====
section
/-!
DEFINITION. Exact arithmetic: values of element formats, one rounding (R31 to R43), sums and products, the pass of the
matrix engine (R46, R49), and the saturating and rounding addition of reduce-stores (R159).
-/

namespace Sys2Proof


/-- A value: NaN, an infinity, or (-1)^neg * m * 2^e. Integers are values with e = 0. -/
inductive Num where
  | nan
  | inf (neg : Bool)
  | fin (neg : Bool) (m : Nat) (e : Int)
deriving DecidableEq, Repr, Inhabited

/-- Sticky flags of FPF, in its bit order (R44). -/
def flNV : BitVec 5 := 1
def flDZ : BitVec 5 := 2
def flOF : BitVec 5 := 4
def flUF : BitVec 5 := 8
def flNX : BitVec 5 := 16

/-- Layout of a floating-point format (R32): exponent and fraction bits, bias, and whether it has infinities and
NaN. -/
structure FSpec where
  ew : Nat
  fw : Nat
  bias : Nat
  hasInf : Bool
  hasNan : Bool

/-- R32; integer formats have no layout here. -/
def Fmt.spec : Fmt → FSpec
  | .f64 => ⟨11, 52, 1023, true, true⟩
  | .f32 => ⟨8, 23, 127, true, true⟩
  | .bf16 => ⟨8, 7, 127, true, true⟩
  | .f16 => ⟨5, 10, 15, true, true⟩
  | .e5m2 => ⟨5, 2, 15, true, true⟩
  | .e4m3 => ⟨4, 3, 7, false, true⟩
  | .e3m2 => ⟨3, 2, 3, false, false⟩
  | .e2m3 => ⟨2, 3, 1, false, false⟩
  | .e2m1 => ⟨2, 1, 1, false, false⟩
  | .i64 | .i32 | .i16 | .i8 | .ui8 | .i4 | .ui4 => ⟨0, 0, 0, false, false⟩

/-- Magnitude pattern of the largest finite value (R32). -/
def FSpec.maxMag (f : FSpec) : Nat :=
  if f.hasInf then (2 ^ f.ew - 1) * 2 ^ f.fw - 1
  else if f.hasNan then 2 ^ (f.ew + f.fw) - 2
  else 2 ^ (f.ew + f.fw) - 1

/-- Exponent of the least unit, that of the subnormal grid (R32). -/
def FSpec.qmin (f : FSpec) : Int := 1 - f.bias - f.fw

/-- The canonical NaN (R33). -/
def FSpec.nanPat (f : FSpec) : Nat :=
  if f.hasInf then (2 ^ f.ew - 1) * 2 ^ f.fw + 2 ^ (f.fw - 1) else 2 ^ (f.ew + f.fw) - 1

/-- The pattern of an infinity of a format that has them. -/
def FSpec.infPat (f : FSpec) : Nat := (2 ^ f.ew - 1) * 2 ^ f.fw

/-- A pattern's value (R32). -/
def FSpec.value (f : FSpec) (bits : Nat) : Num :=
  let s := bits / 2 ^ (f.ew + f.fw) % 2 = 1
  let ex := bits / 2 ^ f.fw % 2 ^ f.ew
  let fr := bits % 2 ^ f.fw
  if f.hasInf && ex = 2 ^ f.ew - 1 then (if fr = 0 then .inf s else .nan)
  else if !f.hasInf && f.hasNan && ex = 2 ^ f.ew - 1 && fr = 2 ^ f.fw - 1 then .nan
  else if ex = 0 then .fin s fr f.qmin
  else .fin s (2 ^ f.fw + fr) (f.qmin + (ex - 1 : Nat))

/-- floor(log2 n) for n > 0. -/
def flog2 (n : Nat) : Nat := Nat.log2 n

/-- The exponent floor(log2 |x|) of a nonzero finite value. -/
def topExp (m : Nat) (e : Int) : Int := flog2 m + e

/-- How a value with remainder `rem` of 2^sh above its lower neighbour in magnitude is rounded: whether the
magnitude goes up (R38, R41). `odd` is the parity of the lower neighbour, `r` the draw. -/
def roundsUp (mode : RMode) (neg odd : Bool) (rem sh : Nat) (r : Nat) : Bool :=
  if rem = 0 then false
  else match mode with
    | .rne => 2 * rem > 2 ^ sh || (2 * rem = 2 ^ sh && odd)
    | .rtz => false
    | .rup => !neg
    | .rdn => neg
    | .rna => 2 * rem ≥ 2 ^ sh
    | .sr =>
      if neg then !(r < (2 ^ sh - rem) * 2 ^ 32 / 2 ^ sh) else r < rem * 2 ^ 32 / 2 ^ sh

/-- What an overflow gives (R39). -/
def overflowPat (f : FSpec) (mode : RMode) (neg : Bool) : Nat :=
  if f.hasInf then
    match mode with
    | .rne | .rna | .sr => f.infPat
    | .rtz => f.maxMag
    | .rup => if neg then f.maxMag else f.infPat
    | .rdn => if neg then f.infPat else f.maxMag
  else f.maxMag

/-- A finite exact value rounded once into a format (R38 to R43), with its flags. -/
def roundFin (f : FSpec) (mode : RMode) (neg : Bool) (m : Nat) (e : Int) (r : Nat) : Nat × BitVec 5 :=
  let sgn := if neg then 2 ^ (f.ew + f.fw) else 0
  if m = 0 then (sgn, 0)
  else
    let top := topExp m e
    let q := max f.qmin (top - f.fw)
    let sh := (q - e).toNat
    let k := if q ≤ e then m * 2 ^ (e - q).toNat else m / 2 ^ sh
    let rem := if q ≤ e then 0 else m % 2 ^ sh
    let mag := (q - f.qmin).toNat * 2 ^ f.fw + k
    let mag := if roundsUp mode neg (k % 2 = 1) rem sh r then mag + 1 else mag
    if mag > f.maxMag then (sgn + overflowPat f mode neg, flOF ||| flNX)
    else
      let nx := if rem = 0 then 0 else flNX
      let uf := if rem ≠ 0 && top < 1 - f.bias then flUF else 0
      (sgn + mag, nx ||| uf)

/-- A value into a floating-point format (R39, R43). -/
def roundF (f : FSpec) (mode : RMode) (x : Num) (r : Nat) : Nat × BitVec 5 :=
  match x with
  | .nan => if f.hasNan then (f.nanPat, 0) else (0, flNV)
  | .inf s =>
    let sgn := if s then 2 ^ (f.ew + f.fw) else 0
    if f.hasInf then (sgn + f.infPat, 0) else (sgn + f.maxMag, flOF ||| flNX)
  | .fin s m e => roundFin f mode s m e r

/-- A finite value rounded to an integer, and whether it was inexact (R43). -/
def roundInt (mode : RMode) (neg : Bool) (m : Nat) (e : Int) (r : Nat) : Int × Bool :=
  let sh := (-e).toNat
  let k := if 0 ≤ e then m * 2 ^ e.toNat else m / 2 ^ sh
  let rem := if 0 ≤ e then 0 else m % 2 ^ sh
  let k := if roundsUp mode neg (k % 2 = 1) rem sh r then k + 1 else k
  (if neg then -(k : Int) else k, rem ≠ 0)

/-- Least and greatest value of an integer format (R34). -/
def Fmt.intMin : Fmt → Int
  | .i64 => -2 ^ 63 | .i32 => -2 ^ 31 | .i16 => -32768 | .i8 => -128 | .i4 => -8
  | .ui8 | .ui4 | .f64 | .f32 | .bf16 | .f16 | .e5m2 | .e4m3 | .e3m2 | .e2m3 | .e2m1 => 0
def Fmt.intMax : Fmt → Int
  | .i64 => 2 ^ 63 - 1 | .i32 => 2 ^ 31 - 1 | .i16 => 32767 | .i8 => 127 | .i4 => 7 | .ui8 => 255 | .ui4 => 15
  | .f64 | .f32 | .bf16 | .f16 | .e5m2 | .e4m3 | .e3m2 | .e2m3 | .e2m1 => 0

/-- An integer clamped to a range. -/
def clamp (lo hi x : Int) : Int := max lo (min hi x)

/-- The low `w` bits of an integer. -/
def wrapNat (w : Nat) (x : Int) : Nat := (x % (2 ^ w : Nat)).toNat

/-- Two's complement value of `w` bits. -/
def sextNat (w : Nat) (x : Nat) : Int :=
  if x % 2 ^ w < 2 ^ (w - 1) then (x % 2 ^ w : Nat) else (x % 2 ^ w : Nat) - (2 ^ w : Nat)

/-- An integer as a value. -/
def Num.ofInt (x : Int) : Num := .fin (x < 0) x.natAbs 0

/-- The value an element's pattern stands for (R31 to R34). -/
def Fmt.value (f : Fmt) (bits : Nat) : Num :=
  match f with
  | .ui8 | .ui4 => .ofInt (bits % 2 ^ f.width : Nat)
  | .i64 | .i32 | .i16 | .i8 | .i4 => .ofInt (sextNat f.width bits)
  | .f64 | .f32 | .bf16 | .f16 | .e5m2 | .e4m3 | .e3m2 | .e2m3 | .e2m1 => f.spec.value bits

/-- A value rounded and saturated into an integer range, NaN giving 0, with its flags (R43): NX wherever the result differs
from a finite exact value (DEDUCED, log 26). -/
def intOf (lo hi : Int) (mode : RMode) (x : Num) (r : Nat) : Int × BitVec 5 :=
  match x with
  | .nan => (0, flNV)
  | .inf s => (if s then lo else hi, flNV)
  | .fin s m e =>
    let (v, nx) := roundInt mode s m e r
    if v < lo ∨ hi < v then (clamp lo hi v, flNV ||| flNX) else (v, if nx then flNX else 0)

/-- A conversion into a format (R43). -/
def convNum (f : Fmt) (mode : RMode) (x : Num) (r : Nat) : Nat × BitVec 5 :=
  if f.isInt then
    let (v, fl) := intOf f.intMin f.intMax mode x r
    (wrapNat f.width v, fl)
  else roundF f.spec mode x r

/-- A conversion of an element of format `a` into format `b`; equal formats move the bits (R33, R153). -/
def convert (a b : Fmt) (mode : RMode) (bits : Nat) (r : Nat) : Nat :=
  if a = b then bits % 2 ^ a.width else (convNum b mode (a.value bits) r).1

/-! ## Exact sums and products -/

def Num.neg : Num → Num
  | .nan => .nan
  | .inf s => .inf (!s)
  | .fin s m e => .fin (!s) m e

def Num.isNan : Num → Bool
  | .nan => true | .inf _ => false | .fin _ _ _ => false
def Num.isInf : Num → Bool
  | .nan => false | .inf _ => true | .fin _ _ _ => false
def Num.isZero : Num → Bool
  | .nan => false | .inf _ => false | .fin _ m _ => m = 0
def Num.sign : Num → Bool
  | .nan => false | .inf s => s | .fin s _ _ => s

/-- A product: NaN for NaN operands and for 0 times infinity (R46, R210). -/
def Num.mul : Num → Num → Num
  | .fin s m e, .fin t n f => .fin (s != t) (m * n) (e + f)
  | .nan, _ => .nan
  | _, .nan => .nan
  | .inf s, y => if y.isZero then .nan else .inf (s != y.sign)
  | x, .inf t => if x.isZero then .nan else .inf (x.sign != t)

/-- The least exponent of a list's finite members. -/
def minExp : List Num → Int → Int
  | [], e => e
  | .fin _ _ f :: t, e => minExp t (min f e)
  | _ :: t, e => minExp t e

/-- The exact sum of finite values at the exponent `e`, which is at most each one's. -/
def sumAt (e : Int) : List Num → Int
  | [] => 0
  | .fin s m f :: t => (if s then -((m * 2 ^ (f - e).toNat : Nat) : Int) else (m * 2 ^ (f - e).toNat : Nat)) + sumAt e t
  | _ :: t => sumAt e t

/-- The exact sum of values, with the zero sign of R40 and R219, and whether infinities clash. -/
def sumNum (mode : RMode) (l : List Num) : Num × Bool :=
  if l.any Num.isNan then (.nan, false)
  else if l.any Num.isInf then
    let p := l.any (fun x => x.isInf && !x.sign)
    let n := l.any (fun x => x.isInf && x.sign)
    if p && n then (.nan, true) else (.inf n, false)
  else
    let e := minExp l 0
    let s := sumAt e l
    if s ≠ 0 then (.fin (s < 0) s.natAbs e, false)
    else if l.all (fun x => x.isZero && x.sign) && !l.isEmpty then (.fin true 0 0, false)
    else if l.all (fun x => x.isZero && !x.sign) then (.fin false 0 0, false)
    else (.fin (mode == .rdn) 0 0, false)

/-- Order of two numbers that are not NaN: whether x < y. Zeros are equal. -/
def Num.lt (x y : Num) : Bool :=
  match x, y with
  | .nan, _ => false
  | _, .nan => false
  | .inf s, .inf t => s && !t
  | .inf s, .fin _ _ _ => s
  | .fin _ _ _, .inf t => !t
  | .fin s m e, .fin t n f =>
    let g := min e f
    let a : Int := m * 2 ^ (e - g).toNat
    let b : Int := n * 2 ^ (f - g).toNat
    (if s then -a else a) < (if t then -b else b)

/-- The reduce addition of R159: `d` of format `f`, `s` exact. -/
def radd (f : Fmt) (mode : RMode) (d : Nat) (s : Num) (r : Nat) : Nat :=
  if f.isInt then
    let x : Int := match s with
      | .nan => 0
      | .inf t => if t then -2 ^ 64 else 2 ^ 64
      | .fin t m e => (roundInt mode t m e r).1
    let old : Int := if f = .ui8 ∨ f = .ui4 then (d % 2 ^ f.width : Nat) else sextNat f.width d
    wrapNat f.width (clamp f.intMin f.intMax (old + x))
  else
    let (x, _) := sumNum mode [f.value d, s]
    (roundF f.spec mode x r).1

/-! ## Stochastic draws (R42) -/

def mix32 (x : BitVec 32) : BitVec 32 :=
  let x := x ^^^ (x >>> 16)
  let x := x * 0x7FEB352D#32
  let x := x ^^^ (x >>> 15)
  let x := x * 0x846CA68B#32
  x ^^^ (x >>> 16)

def drawLoop (h : BitVec 32) (c : List Nat) : Nat → Nat → BitVec 32
  | _, 0 => h
  | i, n + 1 => drawLoop (mix32 (h ^^^ BitVec.ofNat 32 (c.getD i 0 % 65536 * 65536 + i))) c (i + 1) n

/-- sr_draw of R42: seed, element position, operation index, loop counters. -/
def srDraw (seed : Word32) (j op : Nat) (c : List Nat) : Nat :=
  (drawLoop (mix32 (mix32 (seed ^^^ 0x9E3779B9#32) ^^^ BitVec.ofNat 32 (op % 256 * 65536 + j % 65536))) c 0 5).toNat

/-! ## Matrix passes (R46, R49) -/

/-- An E8M0 scale (R37). -/
def scaleNum (s : Nat) : Num := if s % 256 = 255 then .nan else .fin false 1 ((s % 256 : Nat) - 127)

/-- A product truncated toward zero on the grid of 2^g (R46). -/
def truncTo (g : Int) : Num → Int
  | .fin s m e =>
    let k := if g ≤ e then m * 2 ^ (e - g).toNat else m / 2 ^ (g - e).toNat
    if s then -(k : Int) else k
  | _ => 0

/-- The greatest exponent among the nonzero finite products. -/
def topOf : List Num → Option Int
  | [] => none
  | .fin _ m e :: t =>
    if m = 0 then topOf t
    else match topOf t with
      | none => some (topExp m e)
      | some x => some (max x (topExp m e))
  | _ :: t => topOf t

/-- The exact sum of a pass, none when every product is zero. -/
def passSum (ps : List Num) : Option Num :=
  if ps.any Num.isNan then some .nan
  else if ps.any Num.isInf then some (sumNum .rne ps).1
  else match topOf ps with
    | none => none
    | some e =>
      let s := (ps.map (truncTo (e - 96))).foldl (· + ·) 0
      some (.fin (s < 0) s.natAbs (e - 96))

/-- One floating-point pass into an accumulator pattern (R46). -/
def passF (acc : Nat) (ps : List Num) : Nat :=
  let a := Fmt.f64.value acc
  match passSum ps with
  | none => if a.isNan then Fmt.f64.spec.nanPat else acc
  | some .nan => Fmt.f64.spec.nanPat
  | some s =>
    if s.isZero then (if a.isNan then Fmt.f64.spec.nanPat else acc)
    else (roundF Fmt.f64.spec .rne (sumNum .rne [a, s]).1 0).1

/-- One integer pass: the new pattern and whether it clamped (R49). -/
def passI (acc : Nat) (ps : List Int) : Nat × Bool :=
  let s := sextNat 64 acc + ps.foldl (· + ·) 0
  let v := clamp Fmt.i64.intMin Fmt.i64.intMax s
  (wrapNat 64 v, v ≠ s)

/-! ## Fixed-point series for the special functions (R227)

Each result is formed to 400 binary places and more, far past the places that any f32 result needs, and its last bit
is set to mark that the value is not representable. -/

/-- Binary places of the fixed point. -/
def places : Nat := 700

/-- Sum over n of z^n / n! in fixed point. -/
def expSeries (z term : Nat) : Nat → Nat → Nat
  | _, 0 => 0
  | n, fuel + 1 => term + expSeries z (term * z / 2 ^ places / (n + 1)) (n + 1) fuel

/-- Sum over odd n of z^n / n, with alternating signs when `alt`. -/
def oddSeries (alt : Bool) (z2 term : Nat) (neg : Bool) : Nat → Nat → Int
  | _, 0 => 0
  | n, fuel + 1 =>
    (if neg then -((term / n : Nat) : Int) else (term / n : Nat))
      + oddSeries alt z2 (term * z2 / 2 ^ places) (neg != alt) (n + 2) fuel

/-- Alternating sum over n of z^n / n! with n = n0, n0 + 2, ...: sine from 1, cosine from 0. -/
def trigSeries (z2 term : Nat) (neg : Bool) : Nat → Nat → Int
  | _, 0 => 0
  | n, fuel + 1 =>
    (if neg then -(term : Int) else term)
      + trigSeries z2 (term * z2 / 2 ^ places / ((n + 1) * (n + 2))) (!neg) (n + 2) fuel

/-- ln 2 = 2 atanh(1/3). -/
def ln2Fix : Nat := 2 * (oddSeries false (2 ^ places / 9) (2 ^ places / 3) false 1 230).toNat

/-- pi = 16 atan(1/5) - 4 atan(1/239). -/
def piFix : Nat :=
  (16 * oddSeries true (2 ^ places / 25) (2 ^ places / 5) false 1 155
    - 4 * oddSeries true (2 ^ places / 57121) (2 ^ places / 239) false 1 50).toNat

/-- A positive fixed-point value with a sticky last bit. -/
def sticky (neg : Bool) (v : Nat) (e : Int) : Num := .fin neg (2 * v + 1) (e - 1)

/-- 2^f for f in [0, 1), as fixed point. -/
def exp2Fix (f : Nat) : Nat := expSeries (f * ln2Fix / 2 ^ places) (2 ^ places) 0 135

/-- An f32 magnitude m * 2^e split at the binary point: whole part and fraction in fixed point. The magnitude is below
2^40 and its least bit at least 2^-149. -/
def splitFix (m : Nat) (e : Int) : Nat × Nat :=
  let v := if 0 ≤ e then m * 2 ^ (e.toNat + places) else m * 2 ^ places / 2 ^ (-e).toNat
  (v / 2 ^ places, v % 2 ^ places)

/-- vexp2 of a finite operand. -/
def exp2Num (s : Bool) (m : Nat) (e : Int) : Num :=
  if m = 0 then .fin false 1 0
  else if 200 ≤ topExp m e ∨ (10 ≤ topExp m e) then (if s then .fin false 1 (-2000) else .fin false 1 2000)
  else
    let (n, f) := splitFix m e
    if f = 0 then .fin false 1 (if s then -(n : Int) else n)
    else if s then sticky false (exp2Fix (2 ^ places - f)) (-(n : Int) - 1 - places)
    else sticky false (exp2Fix f) (n - places)

/-- vlog2 of a positive finite operand. -/
def log2Num (m : Nat) (e : Int) : Num :=
  let t := flog2 m
  let k := t + e
  if m = 2 ^ t then .ofInt k
  else
    let x := m * 2 ^ places / 2 ^ t
    let z := (x - 2 ^ places) * 2 ^ places / (x + 2 ^ places)
    let l := (2 * oddSeries false (z * z / 2 ^ places) z false 1 230).toNat * 2 ^ places / ln2Fix
    let v : Int := k * 2 ^ places + l
    if v < 0 then sticky true (-v - 1).toNat (-places) else sticky false v.toNat (-places)

/-- Sine of pi * f for f in (0, 1/2), by the shorter of the two series. -/
def sinPiFix (f : Nat) : Nat :=
  let y := f * piFix / 2 ^ places
  (trigSeries (y * y / 2 ^ places) y false 1 90).toNat

/-- sin(pi a) of a finite operand: zero and exact values at multiples of 1/2, otherwise a sticky value. -/
def sinPiNum (s : Bool) (m : Nat) (e : Int) : Num :=
  if 24 ≤ topExp m e then .fin s 0 0
  else
    let (n, f) := splitFix m e
    if f = 0 then .fin s 0 0
    else
      let neg := s != (n % 2 = 1)
      if 2 * f = 2 ^ places then .fin neg 1 0
      else sticky neg (sinPiFix (if 2 * f < 2 ^ places then f else 2 ^ places - f)) (-places)

/-- cos(pi a) of a finite operand. -/
def cosPiNum (m : Nat) (e : Int) : Num :=
  if m = 0 then .fin false 1 0
  else if 24 ≤ topExp m e then
    (if 25 ≤ topExp m e then .fin false 1 0
     else let (n, _) := splitFix m e
          .fin (n % 2 = 1) 1 0)
  else
    let (n, f) := splitFix m e
    if f = 0 then .fin (n % 2 = 1) 1 0
    else if 2 * f = 2 ^ places then .fin false 0 0
    else if 2 * f < 2 ^ places then
      sticky (n % 2 = 1) (sinPiFix (2 ^ places / 2 - f)) (-places)
    else sticky (n % 2 = 0) (sinPiFix (f - 2 ^ places / 2)) (-places)

/-- tanh of a nonzero finite operand: (2^t - 1) / (2^t + 1) with t = 2 a / ln 2; a small operand is the operand less a
positive remainder, a large one is 1 less a remainder. -/
def tanhNum (s : Bool) (m : Nat) (e : Int) : Num :=
  if 6 ≤ topExp m e then .fin s (2 ^ 100 - 1) (-100)
  else if topExp m e < -60 then .fin s (m * 2 ^ 200 - 1) (e - 200)
  else
    let v := if 0 ≤ e then m * 2 ^ (e.toNat + places) else m * 2 ^ places / 2 ^ (-e).toNat
    let t := 2 * v * 2 ^ places / ln2Fix
    let n := t / 2 ^ places
    let y := exp2Fix (t % 2 ^ places) * 2 ^ n
    sticky s ((y - 2 ^ places) * 2 ^ places / (y + 2 ^ places)) (-places)

/-- Integer square root by bits. -/
def isqrtLoop (n r : Nat) : Nat → Nat
  | 0 => r
  | b + 1 => if (r + 2 ^ b) * (r + 2 ^ b) ≤ n then isqrtLoop n (r + 2 ^ b) b else isqrtLoop n r b

def isqrt (n : Nat) : Nat := isqrtLoop n 0 (flog2 n / 2 + 1)

/-- Square root of a positive value, exact or sticky. -/
def sqrtNum (m : Nat) (e : Int) : Num :=
  let e2 := if e % 2 = 0 then e - 100 else e - 101
  let n := m * 2 ^ (e - e2).toNat
  let r := isqrt n
  if r * r = n then .fin false r (e2 / 2) else sticky false r (e2 / 2)

/-- Reciprocal of a nonzero value, exact or sticky. -/
def rcpNum (s : Bool) (m : Nat) (e : Int) : Num :=
  let n := 2 ^ (flog2 m + 80)
  if n % m = 0 then .fin s (n / m) (-(e + (flog2 m + 80 : Nat)))
  else sticky s (n / m) (-(e + (flog2 m + 80 : Nat)))

/-- Reciprocal square root of a positive value: the root of its reciprocal, exact or sticky. -/
def rsqrtNum (m : Nat) (e : Int) : Num :=
  let e2 := if e % 2 = 0 then e else e - 1
  let m2 := m * 2 ^ (e - e2).toNat
  let n := 2 ^ (2 * (flog2 m2 + 60)) * m2
  let r := isqrt n
  -- 1 / sqrt(m2) = sqrt(m2) / m2 = r / (2^(flog2 m2 + 60) * m2)
  let d := 2 ^ (flog2 m2 + 60) * m2
  let q := r * 2 ^ 120 / d
  if r * r = n && r * 2 ^ 120 % d = 0 then .fin false q (-(e2 / 2) - 120) else sticky false q (-(e2 / 2) - 120)

end Sys2Proof
end

