-- ==== Sys2Proof/Machine/State.lean ====
section
/-!
DEFINITION. The state of the device, as plain data, and the state right after reset. INVENTORY.md names, for every
field, the rule of spec/ that gives it and its reset value.
-/

namespace Sys2Proof.Machine

open Sys2Proof

/-- Why a step stops with a fault. No step of this model does: every failure that the manual describes is taken
inside the machine. -/
inductive Fault where
  /-- Raised by nobody. Safe. -/
  | none
deriving DecidableEq, Repr, Inhabited

/-- Why a step refuses an instruction. -/
inductive Refusal where
  /-- Raised by an arm of exec whose instruction has no meaning yet. Safe. -/
  | notModelled (mnemonic : String)
deriving DecidableEq, Repr, Inhabited

/-- An x register with its poison bit (R129, R373). -/
structure XReg where
  v : Word64 := 0
  p : Bool := false
deriving DecidableEq, Repr, Inhabited

/-- A buffer descriptor with its counts and tags (R62, R72). -/
structure Buf where
  raw : Word64 := 0
  pc : Nat := 0
  cc : Nat := 0
  tags : List Nat := []
deriving DecidableEq, Repr, Inhabited

/-- A range register (R63). -/
structure Range where
  w0 : Word64 := 0
  w1 : Word64 := 0
deriving DecidableEq, Repr, Inhabited

/-- A pending patch (R141, R142). -/
structure Pending where
  pos : Nat := 0
  pfi : Nat := 0
  v : Nat := 0
deriving DecidableEq, Repr, Inhabited

/-- How far a block has come (R71, R72). -/
inductive Phase where
  /-- Issued; the header wait is not yet served. -/
  | header
  /-- An iteration of the nest is next; its slot waits may be outstanding. -/
  | body
  /-- Every iteration has run; results may be in flight (vector) or writes unacknowledged. -/
  | finish
deriving DecidableEq, Repr, Inhabited

/-- A control block that has issued and not finished (R127, R185). -/
structure Active where
  instr : Instr := .nop
  off : Nat := 0
  len : Nat := 0
  phase : Phase := .header
  /-- A count or EXTENT was patched to 0 (R71, R101). -/
  skip : Bool := false
  /-- Counters of the iteration to run next, L0 first. -/
  c : List Nat := []
  /-- Iterations still to run. -/
  left : Nat := 0
  /-- Iterations run (the nest order index). -/
  done : Nat := 0
  /-- Bound windows whose slot wait of this slot-level iteration has been served (R73). -/
  served : List Nat := []
  /-- Whether the slots of the current slot-level iteration are held. -/
  inSlot : Bool := false
  /-- The waiter entered in a semaphore's order has been served. -/
  granted : Bool := false
  /-- Whether a waiter of this block stands in a semaphore's order. -/
  queued : Bool := false
  /-- Gathered index list, in nest order (R161). -/
  idx : List Int := []
  /-- Registers read at issue (R165, R170). -/
  xs : List XReg := []
  /-- Elements read so far, for blocks that return values or whole rows; of a group of sub-byte elements for a host window or
  another chip, the values of its members so far (R158). -/
  got : List PByte := []
  /-- The same of stk's index window, and the row that stk has taken, until both its elements are written (R158, R174). -/
  gotInd : List PByte := []
  row : Option (List (Fmt × Nat × Bool)) := none
  /-- How many of the present rank's writes stk has done: its value, its index (R174). -/
  wrote : Nat := 0
  /-- Tag of the request whose answer the block waits for. -/
  await : Option Nat := none
  /-- That answer. -/
  resp : Option (List PByte) := none
  /-- Answers that the present iteration has taken, by address. -/
  cache : List (Nat × List PByte) := []
  /-- Bytes that one read has fetched for this and later elements: the contiguous run from an IA (R281). -/
  ahead : Option (Nat × List PByte) := none
  /-- The packet that collects the contiguous run of elements being written, not sent yet, with the VA and the counters of
  its first element (R281, R405). -/
  out : Option (Packet × Word64 × List Nat) := none
  /-- Pages brought in by probe or a scout (R167, R160). -/
  pages : List Word64 := []
  /-- Value last read by atom or waitm. -/
  last : XReg := {}
  /-- Patches applied to an ME block (R142, R382), and its place in the order of issue. -/
  applied : List (Nat × Nat) := []
  ser : Nat := 0
deriving DecidableEq, Repr, Inhabited

/-- No part of a group of sub-byte elements is kept back. -/
def Active.whole (b : Active) : Bool := b.got.isEmpty && b.gotInd.isEmpty && b.row.isNone

/-- What a stream is doing (R415). -/
inductive Mode where
  | off | run
  | waiting (sem n : Nat)
  | barrier (scope : Scope) (id : Nat)
  /-- A tksplit or tkjoin until the home has acknowledged (R263). -/
  | token
  /-- A token instruction held at issue for want of holdings entries: as if in a wait (R258). -/
  | held
  /-- A STREAM record stands in the trap queue, or waits for room in it (R378). -/
  | trapped
  /-- Parked at an element for want of a token (R400). -/
  | parked
  | stopped | tail
deriving DecidableEq, Repr, Inhabited

/-- What a RESUME entry tells the instruction at a stream's offset (R316): the iteration it continues at, the bound windows
whose slot wait was served, whether its header wait was, and of a VE's block the run count of each PORTS bit. -/
structure Resume where
  c : List Nat := []
  swd : List Nat := []
  inblk : Bool := false
  hwdone : Bool := false
  ports : List Nat := []
deriving DecidableEq, Repr, Inhabited

/-- PARKED entry beyond the RESUME layout (R400). -/
structure Park where
  ia : Word64 := 0
  va : Word64 := 0
  win : Nat := 0
  need : Nat := 0
  bytes : Nat := 0
deriving DecidableEq, Repr, Inhabited

/-- A signal of a stream that stands behind the pfence of a sigr (R133, R148): the party it goes to, none for one to a
semaphore of the task itself. -/
structure Post where
  dest : Option Nat := none
  sem : Nat := 0
  n : Nat := 0
deriving DecidableEq, Repr, Inhabited

/-- One engine's stream of one context (R19, R59, R67). -/
structure Stream where
  mode : Mode := .off
  enabled : Bool := false
  code : Word64 := 0
  clen : Nat := 0
  entry : Nat := 0
  x0 : List Word64 := []
  pc : Nat := 0
  x : List XReg := []
  rs : List Nat := []
  pend : List Pending := []
  lc : List Nat := []
  /-- Offset of the most recently issued instruction; on the ME, of the last block to enter the queue (R141, R185). `prev` is
  what it was before the instruction at `pc`, which a refusal gives back. -/
  last : Option Nat := none
  prev : Option Nat := none
  blk : Option Active := none
  /-- Patches applied to the block at `pc` that was stopped or refused: APPLIED of the replay queue (R316, R382). -/
  applied : List (Nat × Nat) := []
  park : Option Park := none
  safe : Word64 := 0
  live : Word64 := 0
  /-- The wait of the instruction at `pc` has been served. -/
  granted : Bool := false
  /-- Offset the trap record of a stopped stream names, and its instruction's length (R378). -/
  trapOff : Nat := 0
  trapLen : Nat := 0
  /-- A LATE patch record: continue at `pc`, never re-issuing the patch (R387). -/
  late : Bool := false
  /-- GTC, in ns, when the present mode was entered (R415). -/
  since : Nat := 0
  /-- The barrier at which an ME stream had arrived when a block behind it stopped (R136, R378). -/
  bar : Option (Scope × Nat) := none
  /-- Bytes that code and table reads of the present instruction fetched from another chip: (IA, bytes). -/
  rcache : List (Nat × List PByte) := []
  /-- Such a read whose answer is outstanding: tag and IA. -/
  rwant : Option (Nat × Nat) := none
  /-- The RESUME entry that the instruction at `pc` has still to take up (R322). -/
  resume : Option Resume := none
  /-- WSEM and WCNT of a stopped stream: the wait it was blocked in (R316). -/
  blocked : Option (Nat × Nat) := none
  /-- A sigr whose pfence has not completed, and the signals behind it, in order (R133, R148). -/
  posts : List Post := []
deriving DecidableEq, Repr, Inhabited

/-- Who waits in a semaphore's order: a stream at its wait instruction or in its block, or an ME pipe's block. -/
inductive Who where
  | stream | pipe (load : Bool)
deriving DecidableEq, Repr, Inhabited

/-- One waiter (R69). -/
structure Waiter where
  sem : Nat := 0
  n : Nat := 0
  eng : Engine := .le
  who : Who := .stream
deriving DecidableEq, Repr, Inhabited

/-- An event or error record (R302, R368). For an error record `status` is CAUSE, `id` PARTY, `a0` JOB with OFF above
it, `a1` ADDR. -/
structure Event where
  src : Nat := 0
  seq : Nat := 0
  type : Nat := 0
  status : Nat := 0
  flags : Nat := 0
  eng : Nat := 0
  id : Nat := 0
  gtc : Nat := 0
  a0 : Word64 := 0
  a1 : Word64 := 0
  detail : Word64 := 0
  iter : List Nat := []
  lost : Nat := 0
deriving DecidableEq, Repr, Inhabited

/-- A token held by a party of the cluster or by the hub or a host function (R258, R323). -/
structure Holding where
  base : Word64 := 0
  log2 : Nat := 0
  ex : Bool := false
  party : Nat := 0
  job : Nat := 0
deriving DecidableEq, Repr, Inhabited

/-- A release that its instruction has begun (R262): the engine, the token, the message due (0x43, 0x44, or 0 for a lend to
the lender itself), its semaphore and its receiver, and whether its pfence has completed. -/
structure Release where
  eng : Nat := 0
  h : Holding := {}
  op : Nat := 0
  sem : Nat := 0
  dest : Nat := 0
  out : Bool := false
deriving DecidableEq, Repr, Inhabited

/-- A task context of a tile (R65). -/
structure Ctx where
  loaded : Bool := false
  party : Nat := 0
  job : Nat := 0
  fidx : Nat := 0
  forme : Word64 := 0
  roll : Bool := false
  /-- Order of loading on the device: the greater of a tile's two is its newest (R68). -/
  age : Nat := 0
  /-- Barrier groups at cluster, die, package and system scope; none where MEMBER is 0 (R58). -/
  groups : List (Option Nat) := []
  mdir : Word64 := 0
  mdn : Nat := 0
  le : Stream := {}
  me : Stream := {}
  ve : Stream := {}
  se : Stream := {}
  sems : List Nat := []
  resv : List Nat := []
  waitq : List Waiter := []
  bufs : List Buf := []
  maps : List Range := []
  tracker : List Nat := []
  /-- The TASK record of a kill under way (R376). -/
  dying : Option Event := none
  /-- A stop request is pending (R314). -/
  stopping : Bool := false
  /-- Job and party of the task last killed here (R416). -/
  killed : Option (Nat × Nat) := none
  energy : Word64 := 0
  /-- ME_SAT and FPF as the task's ME and VE streams left them at tail (R44, R192, R414). -/
  sat : Bool := false
  fpf : BitVec 5 := 0
  /-- Releases accepted whose message is not sent yet, in order (R262, R376). -/
  leaving : List Release := []
deriving DecidableEq, Repr, Inhabited

/-- A weight set (R177): cells keyed k * 64 + n as (pattern, poison), scales keyed b * 64 + n. -/
structure WSet where
  fmt : Fmt := .bf16
  scaled : Bool := false
  w : Sparse (Nat × Bool) := []
  sw : Sparse (Nat × Bool) := []
  /-- SETLOAD: the block as it started, with its patches; `idx` holds CC of its bound windows (R191, R316). -/
  load : Option Active := none
deriving DecidableEq, Repr, Inhabited

/-- A weight load that a restored ME stream has still to repeat (R191): the set, the block's offset, its patches, the consumer
counts of its bound windows, and whether the stream resumes at it, so that it had not completed. -/
structure Reload where
  setB : Bool := false
  off : Nat := 0
  ps : List (Nat × Nat) := []
  ccs : List Nat := []
  part : Bool := false
deriving DecidableEq, Repr, Inhabited

/-- An accumulator entry (R183). -/
structure AccEntry where
  v : Word64 := 0
  int : Bool := false
  p : Bool := false
deriving DecidableEq, Repr, Inhabited

/-- Matrix engine (R177 to R192). -/
structure MatEng where
  a : WSet := {}
  b : WSet := {}
  mrb : Nat := 64
  sat : Bool := false
  /-- Blocks issued and not started, and signals that wait for the blocks before them (R132). -/
  queue : List Active := []
  /-- Blocks and waiting signals issued so far. -/
  issued : Nat := 0
  load : Option Active := none
  strm : Option Active := none
  isOpen : Bool := false
  openOff : Nat := 0
  count : Nat := 0
  limit : Nat := 0
  reloads : List Reload := []
deriving DecidableEq, Repr, Inhabited

/-- A vector register: 64 lanes, each with its poison bit (R195, R373). -/
structure VReg where
  v : List Word32 := []
  p : BitVec 64 := 0
deriving DecidableEq, Repr, Inhabited

/-- A predicate register (R195, R373). -/
structure PReg where
  v : BitVec 64 := 0
  p : BitVec 64 := 0
deriving DecidableEq, Repr, Inhabited

/-- Where a result in flight lands (R200, R207). -/
inductive Land where
  | vec (phys : Nat) (r : VReg)
  | pred (phys : Nat) (r : PReg)
  | xreg (x : Nat) (r : XReg)
  /-- A push: the port, and the scratchpad offset or accumulator entry where its run begins, fixed at issue. -/
  | push (port start : Nat) (r : VReg)
  /-- The slot signals of the slot-level iteration that ended with counters `c`, once its pushes have landed. -/
  | slot (c : List Nat)
  | drop
deriving DecidableEq, Repr, Inhabited

/-- A result in flight: issued cycles until it lands, its flags and its destination (R200). -/
structure Flight where
  left : Nat := 0
  flags : BitVec 5 := 0
  land : Land := .drop
deriving DecidableEq, Repr, Inhabited

/-- Vector engine (R195, R44). FPF has no address in any register block, so that no actor reads or writes it there
(DESIGN CHOICE, log 90). -/
structure VecEng where
  v : Sparse VReg := []
  p : Sparse PReg := []
  k : List Word32 := []
  vrb : Nat := 0
  prb : Nat := 0
  fpf : BitVec 5 := 0
  flight : List Flight := []
deriving DecidableEq, Repr, Inhabited

/-- A tile's own part, beside its contexts and memories. -/
structure Tile where
  rlim : Nat := 262144
  prow : Nat := 0
  /-- ME_PROOF (R411). -/
  quar : Bool := false
  taken : Bool := false
  off : Bool := false
  row : Nat := 0
  col : Nat := 0
  /-- The last cell blamed: a proof cell (true) or an array cell, its row and column (R411). -/
  blamed : Option (Bool × Nat × Nat) := none
  /-- Faulty cells, a proof cell (true) or an array cell with its row and column: the model's own field, since damage
  comes from outside the device (R409, DESIGN CHOICE, log 21). -/
  bad : List (Bool × Nat × Nat) := []
  cycles : Nat := 0
  /-- The context each engine runs, LE, ME, VE, SE (R65). -/
  runs : List (Option Bool) := []
  mat : MatEng := {}
  vec : VecEng := {}
  /-- The job whose data the scratchpad and accumulators hold (R66). -/
  owner : Nat := 0
deriving DecidableEq, Repr, Inhabited

/-- A cluster's own part (R17, R266, R310, R311, R341, R343, R378). -/
structure Cluster where
  /-- Explicit part in force and as written, in 2 MiB (R247). -/
  expl : Nat := 4
  explW : Nat := 4
  /-- Energy attributed, in pJ (R310, R359). -/
  pj : Nat := 0
  /-- CLK_SWALLOW as written, in force, and the pulse within the group of 64 (R311). -/
  swallowW : Nat := 0
  swallow : Nat := 0
  pulse : Nat := 0
  tkbase : Word64 := 0
  tkparty : Nat := 0
  /-- A supervisor lend, put or get still being accepted (R266). -/
  busy : Bool := false
  /-- A supervisor operation that waits for room in the holdings table: TKOP, TKBASE and TKPARTY as written (R258, R266). -/
  tkheld : Option (Word64 × Nat × Nat) := none
  /-- The holding that a put or lend under way has given up, its message not sent yet (R262). -/
  tkgone : Option Holding := none
  db : Sparse Nat := []
  dbmask : Word64 := 0
  svrun : Bool := false
  svhalf : Bool := false
  /-- What the supervisor's last load gave, and whether a load or fetch took its access-fault exception (R337, R394). -/
  ld : List PByte := []
  exc : Bool := false
  hold : List Holding := []
  trapq : List Event := []
  /-- STREAM records that found the queue full, in order (R378). -/
  trapHeld : List Event := []
deriving DecidableEq, Repr, Inhabited

/-- A token table entry (R255); absent where free. -/
structure TokEntry where
  excl : Bool := false
  share : Nat := 0
  split : Bool := false
  pois : Bool := false
  log2 : Nat := 0
  nspl : Nat := 0
  base : Nat := 0
  party : Nat := 0
  child : Nat := 0
  /-- The parties that hold its shares, which reclamation needs to know (R407). -/
  sharers : List Nat := []
deriving DecidableEq, Repr, Inhabited

/-- A request that waits at a home: get, split and reclamation sweeps keep arrival order (R254, R256). -/
structure TokWait where
  pkt : Packet := {}
deriving DecidableEq, Repr, Inhabited

/-- An HBM stack's training state (R361). -/
structure Stack where
  busy : Bool := false
  fail : Bool := false
  rep : Nat := 0
  done : Nat := 0
  step : Nat := 0
  all : Bool := false
deriving DecidableEq, Repr, Inhabited

/-- A page-in asked of a home's firmware: the page, the pin key of the stream that asked, and the pages of its probe, none
for a scout (R160, R166, R404). -/
structure PageIn where
  page : Word64 := 0
  key : Nat := 0
  ps : List Word64 := []
deriving DecidableEq, Repr, Inhabited

/-- A compute die's own part (R240, R241, R248, R254, R361, R403, R434). -/
structure Die where
  pdbase : Word64 := 0
  tcinv : Word64 := 0
  expl : Nat := 0
  explW : Nat := 0
  frcap : Nat := 1572864
  tmax : Nat := 0
  tcrit : Nat := 115
  thot : Nat := 105
  /-- What the hottest sensor of each cluster reports, in °C; 0 until one has reported (R434). -/
  temps : List Nat := []
  st0 : Stack := {}
  st1 : Stack := {}
  tok : Sparse TokEntry := []
  waits : List TokWait := []
  /-- Pages pinned: (page IA, job or scouting stream's key) (R166, R160). -/
  pins : List (Word64 × Nat) := []
  /-- Page-ins requested and not done, in arrival order, and those that ended NOFRAME: page and key (R244, R404). -/
  pageins : List PageIn := []
  noframe : List (Word64 × Nat) := []
  /-- Poisoned pages whose one DATAERR record has been written (R406). -/
  told : List Word64 := []
deriving DecidableEq, Repr, Inhabited

/-- A plane's external port (R284, R285, R362, R419, R420). -/
structure Link where
  en : Bool := false
  media : Bool := false
  state : Nat := 0
  peer : Nat := 0
  crc : Nat := 0
  epis : Nat := 0
  downs : Nat := 0
  /-- Next sequence number to send, and the next expected. -/
  txSeq : Nat := 0
  rxSeq : Nat := 0
  /-- Numbered flits sent and not acknowledged: (sequence number, kind and channel, payload). -/
  unacked : List (Nat × Nat × Nat × List Byte) := []
  /-- Packets that wait to be sent. -/
  txq : List Packet := []
  /-- Credits held for the three channels. -/
  credits : List Nat := [512, 512, 128]
  /-- Link-control payloads that wait for room among the unacknowledged flits (R285). -/
  ctl : List (List Byte) := []
  /-- The flits that the port has sent, 64 bytes each, oldest first (R284). -/
  wire : List (List Byte) := []
  /-- Sequence number of the last numbered flit received intact: the ACK that the port sends (R284). -/
  rxAck : Nat := 0
  /-- Packets being received: header and data flits of each channel. -/
  rx : List (Nat × List (List Byte)) := []
  /-- A discarded flit opened a retry episode (R419). -/
  retry : Bool := false
  resends : Nat := 0
  lastAck : Nat := 0
deriving DecidableEq, Repr, Inhabited

/-- A command fetched and not started (R296, R297). -/
structure Cmd where
  index : Nat := 0
  bytes : List PByte := []
deriving DecidableEq, Repr, Inhabited

/-- A command started and not completed (R298, R299). -/
structure OpenCmd where
  index : Nat := 0
  opc : Nat := 0
  cid : Nat := 0
  noev : Bool := false
  job : Nat := 0
deriving DecidableEq, Repr, Inhabited

/-- A queue slot (R294, R295, R427). -/
structure Queue where
  ctl : Option Word64 := none
  /-- A write to QCTL that has not taken effect (R295). -/
  ctlW : Option Word64 := none
  base : Word64 := 0
  save : Word64 := 0
  savesz : Word64 := 0
  head : Nat := 0
  tail : Nat := 0
  fetched : Nat := 0
  cmds : List Cmd := []
  started : List OpenCmd := []
  /-- Value, FUNC and QBASE of a captured notify write (R427). -/
  late : Option (Nat × Nat × Word64) := none
  /-- The slot's notify page was unmapped in this very cycle for the old function (R427). -/
  unmapped : Option (Nat × Word64) := none
deriving DecidableEq, Repr, Inhabited

/-- A function block (R301). -/
structure Func where
  en : Bool := false
  log2n : Nat := 0
  base : Word64 := 0
  head : Nat := 0
  tail : Nat := 0
  b4 : Word64 := 0
deriving DecidableEq, Repr, Inhabited

/-- Where one of a job's tasks stands (R52, R376). -/
inductive TaskSt where
  | unplaced | reserved | loaded | retired | killed | ended | stopped
deriving DecidableEq, Repr, Inhabited

/-- A forme entry of a job (R54). -/
structure FormeEnt where
  forme : Word64 := 0
  place : Word32 := 0
  tile : Nat := 0
  ctx : Bool := false
  st : TaskSt := .unplaced
  /-- Order of loading on the device: the greatest of a tile is its newest task's (R408). -/
  age : Nat := 0
  /-- The TASK record of a stopped task that is killed, while it waits for room (R370, R408). -/
  doom : Option Event := none
  /-- Where the task's save area lies, once written, and its size (R317). -/
  area : Word64 := 0
  size : Nat := 0
deriving DecidableEq, Repr, Inhabited

/-- A job's life (R52, R304, R308). -/
inductive JobSt where
  | waiting | placed | running | stopping | stopped
deriving DecidableEq, Repr, Inhabited

/-- A job (R52, R53). -/
structure Job where
  id : Nat := 0
  queue : Option Nat := none
  index : Nat := 0
  cid : Nat := 0
  imp : Word64 := 0
  /-- FTAB, for a JOB record that names a forme entry (R305). -/
  ftab : Word64 := 0
  prio : Nat := 0
  arrival : Nat := 0
  start : Nat := 0
  aged : Bool := false
  gang : Nat := 0
  energy : Nat := 0
  strict : Bool := true
  savever : Nat := 1
  st : JobSt := .waiting
  placed : Nat := 0
  formes : List FormeEnt := []
  /-- Initial grants still to be performed: base, log2, shared, forme index (R55). -/
  grants : List (Word64 × Nat × Bool × Nat) := []
  /-- Members of each barrier group, counted at launch: scope code, group, count (R75). -/
  members : List (Nat × Nat × Nat) := []
  /-- Which counts of members on the other devices of its gang hold for it (R75): an open one for each launch, a free value
  (DESIGN CHOICE, log 36). -/
  gangKey : Nat := 0
  /-- Its tasks are restored, and weight loads of theirs have still to be repeated (R322). -/
  reviving : Bool := false
  noStop : Bool := false
  fail : Option Nat := none
  /-- The end of the job, with its JOB record, waits for room in the hub's store: cause and DETAIL (R370). -/
  doom : Option (Cause × Nat) := none
  sat : Bool := false
  aborts : Nat := 0
  /-- End of the slice in which a gang job's tasks run (R325). -/
  till : Nat := 0
deriving DecidableEq, Repr, Inhabited

/-- Why a PCIe read is outstanding (R238, R296). -/
inductive ReadFor where
  | command (q index : Nat)
  /-- A read of a host window, asked for by a packet. -/
  | remote (p : Packet)
deriving DecidableEq, Repr, Inhabited

/-- A PCIe non-posted read outstanding (R238). -/
structure PRead where
  tag : Nat := 0
  fn : Nat := 0
  addr : Word64 := 0
  len : Nat := 0
  why : ReadFor := .command 0 0
deriving DecidableEq, Repr, Inhabited

/-- A BAR4 read under way: the function, and its parts, one for each request of one line: tag, and bytes once answered (R267,
R281). -/
structure HRead where
  fn : Nat := 0
  parts : List (Nat × Option (List PByte)) := []
  /-- Some part was answered with a nonzero status. -/
  bad : Bool := false
deriving DecidableEq, Repr, Inhabited

/-- What the device has sent to the host, oldest first: posted writes, completions and messages. -/
inductive PcieOut where
  | write (fn : Nat) (addr : Word64) (data : List PByte)
  | read (tag fn : Nat) (addr : Word64) (len : Nat)
  | completion (fn : Nat) (status : Nat) (data : List PByte)
  | ready
deriving DecidableEq, Repr, Inhabited

/-- A record raised and not yet written to every ring that takes it (R370, R372). -/
structure Raised where
  ev : Event := {}
  rings : List Nat := []
  /-- The queue of the job that it names, as it was raised (R351). -/
  queue : Option Nat := none
deriving DecidableEq, Repr, Inhabited

/-- A source's numbering (R302, R370). -/
structure Source where
  seq : Nat := 0
  lost : Nat := 0
deriving DecidableEq, Repr, Inhabited

/-- A signal that reaches a semaphore of a context in the present cycle (R70, R386): what its SEMSAT record would say, and
the packet whose sender is told. -/
structure Sig where
  tile : Nat := 0
  ctx : Bool := false
  sem : Nat := 0
  n : Nat := 0
  ev : Event := {}
  pkt : Option Packet := none
deriving DecidableEq, Repr, Inhabited

/-- A request of this chip whose response is outstanding (R280). -/
structure Request where
  plane : Nat := 0
  tag : Nat := 0
  agent : Option Agent := none
  pipe : Option Bool := none
  /-- The tracker entry that the request entered at tail (R79). -/
  tracked : Option Nat := none
  write : Bool := true
  party : Nat := 0
  h : Nat := 0
  /-- The OP, the destination chip, the target tile of a party-addressed request, and ADDR. -/
  op : Nat := 0
  chip : Nat := 0
  tile : Option Nat := none
  addr : Word64 := 0
  /-- Where the access stands in its stream, for the record of an absent page (R405): VA, offset, and counters inside a
  block. -/
  va : Word64 := 0
  off : Nat := 0
  iter : Option (List Nat) := none
  /-- The job whose initial grant it asks for (R52). -/
  job : Option Nat := none
  /-- The job of the task that asked for a token and has been killed since (R402). -/
  gone : Option Nat := none
  /-- Entries of the holdings table that its grant or its split will take (R258); of a core's load, its bytes. -/
  need : Nat := 0
  /-- The started command, by slot and index, that its answer completes (R298). -/
  cmd : Option (Nat × Nat) := none
  /-- The cluster whose supervisor asked for a tile task (ONB): its doorbell rings at the grant (R266). -/
  bell : Option Nat := none
  /-- The job whose bytes a cache's write-back carries (R246, R424). -/
  whose : Option Nat := none
deriving DecidableEq, Repr, Inhabited

/-- A system barrier instance at a hub (R76): its job, group and id; at the gang's coordinator, the devices that have arrived
and the arrivals that those of other devices carried; whether this device's arrival has been sent on, and whether its
completion came while its job was stopped. -/
structure SysBar where
  job : Nat := 0
  group : Nat := 0
  id : Nat := 0
  seen : List Nat := []
  far : Nat := 0
  sent : Bool := false
  done : Bool := false
deriving DecidableEq, Repr, Inhabited

/-- The hub: scheduling, queues, functions, records and the host link. -/
structure Hub where
  chip : Nat := 0
  /-- PMAP in force and as written (R276). -/
  pmap : Word32 := 0x00FAC688
  pmapW : Word32 := 0x00FAC688
  sems : List Nat := []
  /-- Waiters on hub semaphores, in order: queue, command index, semaphore, count (R69). -/
  waiters : List (Nat × Nat × Nat × Nat) := []
  hold : List Holding := []
  queues : Sparse Queue := []
  funcs : Sparse Func := []
  jobs : List Job := []
  nextJob : Nat := 1
  arrivals : Nat := 0
  placements : Nat := 0
  loads : Nat := 0
  raised : List Raised := []
  sources : Sparse Source := []
  preads : List PRead := []
  nextTag : Nat := 0
  pcie : List PcieOut := []
  hreads : List HRead := []
  pcieUp : Bool := false
  pcieReady : Bool := false
  pcieSpeed : Nat := 0
  pcieWidth : Nat := 0
  pcieFlit : Bool := false
  requests : List Request := []
  /-- Waitm watches of other chips, kept until their condition is met (R173, R283). -/
  watches : List Packet := []
  sysbars : List SysBar := []
  /-- Packets held for marked parties (R327), in arrival order. -/
  held : List Packet := []
  /-- Party ids marked (R327, R429). -/
  marked : List Nat := []
  /-- PREHASH: dead planes, state, and requests that wait at their tile egress (R422, R423). -/
  dead : BitVec 8 := 0
  rehash : Nat := 0
  waiting : List Packet := []
  lostChips : List Nat := []
  /-- Budget in force for this plan interval, in nJ (R308, R309). -/
  plimit : Nat := 1800
  vrhotLow : Bool := false
  rails : BitVec 10 := 0x3FF
  /-- PMETER, in nJ, and where the present plan interval began (R312, R360). -/
  meter : Nat := 0
  meterAt : Nat := 0
  serving : Bool := true
  /-- Cluster whose canary image waits to be loaded: no new placement there (R351). -/
  canaryCl : Option Nat := none
  /-- What the policy core's last load gave, and whether it took its access-fault exception (R337, R394). -/
  ld : List PByte := []
  exc : Bool := false
  /-- Headers that Advanced Error Reporting has logged: function, whether a write, address (R398). -/
  aer : List (Nat × Bool × Word64) := []
  /-- Size of BAR4, log2, by function; unlisted at 256 MiB (R290). -/
  bar4 : Sparse Nat := []
  /-- Start time of the slice last checked, by gang table entry (R429). -/
  checked : Sparse Nat := []
  /-- What each queue core's last load gave (R337). -/
  qld : List (List PByte) := []
  /-- Directory and page-table accesses of the policy core that an untrained stack holds: die, physical address, and the
doubleword of a store (R361). -/
  entries : List (Nat × Nat × Option Word64) := []
  /-- Operations that wait for room for a record they raise, or for a page that migrates, in order (R242, R370). -/
  ops : List Instr := []
deriving DecidableEq, Repr, Inhabited

/-- The machine proper: everything but the firmware complex. -/
structure Mach where
  /-- The stream that acts. -/
  cur : Agent := {tile := 0, ctx := false, eng := .le}
  /-- Counter of free values. -/
  free : Nat := 0
  /-- All byte stores in one map; the keys stand in Machine/Memory.lean. -/
  mem : List Host.Cell := []
  /-- Poisoned granules, keyed by byte key over 8 (R373). -/
  poison : Sparse Bool := []
  acc : Sparse AccEntry := []
  /-- Dirty bytes of the cluster caches, keyed cluster * 2^64 + IA (R246). -/
  dirty : Sparse PByte := []
  tiles : Sparse Tile := []
  ctxs : Sparse Ctx := []
  clusters : Sparse Cluster := []
  dies : Sparse Die := []
  links : Sparse Link := []
  hub : Hub := {}
  /-- Messages in flight on the package: packets that this chip receives or sends to itself. -/
  net : List Packet := []
  /-- Requests that their home holds until it can perform them, in order of arrival (R242, R361). -/
  homeq : List Packet := []
  /-- Whether several turns of the agenda make up the present cycle, and the slot and remote signals that have reached
  a semaphore in it: the model's own fields (R70, R386; DESIGN CHOICE, log 1). -/
  cycle : Bool := false
  sigs : List Sig := []
  /-- Doorbells rung in the present cycle: cluster, doorbell, count (R343). -/
  rings : List (Nat × Nat × Nat) := []
  /-- Energy events counted and not yet taken into `Cluster.pj`, keyed cluster * 16 + event (R359). -/
  events : Sparse Nat := []
  /-- The stripe that the patrol scrub reads next, keyed array code * 1024 + unit (R395). -/
  scrubs : Sparse Nat := []
  /-- Plain registers by BAR0 offset; unlisted at their reset value. -/
  regs : Sparse Word64 := []
  /-- PLLs whose output is enabled (R356). -/
  locked : List Nat := []
  /-- Edges of the reference clock since reset, and GTCADJ's shift applied and still to apply, in ns (R358). -/
  edges : Nat := 0
  adj : Int := 0
  adjLeft : Int := 0
deriving DecidableEq, Repr, Inhabited

/-- A canary under way (R350, R351). -/
structure Canary where
  state : Nat := 0
  why : Nat := 0
  /-- CANCTL as written (R350). -/
  period : Nat := 600
  cl : Nat := 0
  supervisor : Bool := false
  /-- PERIOD, CL and KIND of the canary under way; whether its image has still to be read, from a migrating page; CAUSE of an
  error record of its code that has left the hub's store (R351). -/
  goPeriod : Nat := 600
  goCl : Nat := 0
  goSv : Bool := false
  go : Bool := false
  err : Option Nat := none
  img : Word64 := 0
  digest : BitVec 256 := 0
  ver : Word32 := 0
  size : Nat := 0
  /-- The image, its layout span RMIN and WVER, and when it began to run, in ns of GTC (R348, R351). -/
  bytes : List Byte := []
  rmin : Nat := 0
  wver : Nat := 0
  since : Nat := 0
  /-- Supervisors (true) and queue cores that still wait for the committed image (R351). -/
  left : List (Bool × Nat) := []
deriving DecidableEq, Repr, Inhabited

/-- How far the boot chain has come (R344, R365, R433). -/
inductive Stage where
  /-- Out of reset, nothing done. -/
  | rom
  /-- FAILS counted; PLL 0 is locking. -/
  | pll0
  /-- Layer 1: PLLs 1 to 34 lock; the HBM stacks train; PCIe comes up; the images of layer 2. -/
  | plls | hbm | pcie | images
  | serving
  /-- Minimal mode: PLLs 0 and 1 lock, then PCIe comes up. -/
  | minPll | minPcie | minimal
  /-- The start has failed. -/
  | halted
deriving DecidableEq, Repr, Inhabited

/-- A certificate of the chain: its layer, the modulus of its subject and of its issuer, the digest in its fwids, and its bytes
(R346). -/
structure Cert where
  layer : Nat := 0
  subject : Nat := 0
  issuer : Nat := 0
  fwid : BitVec 256 := 0
  der : List Byte := []
deriving DecidableEq, Repr, Inhabited

/-- The firmware complex and the security block (R337 to R352, R431 to R433). -/
structure Firmware where
  layer : Nat := 0
  stage : Stage := .rom
  /-- When the present stage began, in ns of GTC. -/
  stageAt : Nat := 0
  hostdbg : Bool := false
  /-- Chip id of the configuration blob (R236). -/
  chip : Nat := 0
  rmin : Nat := 0
  wver : Nat := 0
  can : Canary := {}
  qcctl : List Word64 := []
  nonce : List Byte := []
  /-- The nonce, LOGCNT and LOGD that a quote in progress captured: bytes 0x000 to 0x047 of the quote (R349). -/
  capture : Option (List Byte) := none
  quoteDone : Bool := false
  quote : List Byte := []
  /-- Measurement log, entries of 64 bytes, and its running digest (R347). -/
  log : List (List Byte) := []
  logd : BitVec 256 := 0
  /-- Mc and M1, as layer 0 measured them (R344). -/
  mc : BitVec 256 := 0
  m1 : BitVec 256 := 0
  /-- Secrets, absent when erased (R344, R431). -/
  uds : Option (BitVec 256) := some Config.uds
  cdi1 : Option (BitVec 256) := none
  cdi2 : Option (BitVec 256) := none
  /-- PUF readout is locked, and the key slots that are locked (R344). -/
  pufLocked : Bool := false
  lockedSlots : List Bool := [false, false, false]
  certs : List Cert := []
  alarm : Option Nat := none
  /-- An alarm that waits for room for its record: source and RAILST bit (R370, R431). -/
  alarmDue : Option (Nat × Nat) := none
  minimal : Bool := false
  /-- Bytes written through BAR4 in minimal mode and not programmed yet (R433). -/
  staged : List (Nat × Byte) := []
deriving DecidableEq, Repr, Inhabited

/-- The whole state: the agenda (which agent moves next, the model's own field), the firmware complex, and the rest
of the machine. -/
structure State where
  agenda : List Turn := []
  fw : Firmware := {}
  m : Mach := {}
deriving DecidableEq, Repr, Inhabited

/-- The device right after reset (R355): no context holds a task, every link is down, only the policy core runs, at
layer 0. Registers without a reset value in the manual hold 0 (DESIGN CHOICE, log 4). -/
def State.reset : State := {}

end Sys2Proof.Machine
end

