-- ==== Sys2Proof/Machine/Memory.lean ====
section
/-!
DEFINITION. Sparse tables in canonical form, the byte stores of the device in one map, and the poison bit of each
granule (R251, R373, R374).
-/

namespace Sys2Proof.Machine

open Sys2Proof

/-! ## Sparse tables -/

/-- What key `k` reads as; `d` is what an unlisted key reads as. -/
def look {α : Type} (d : α) : Sparse α → Nat → α
  | [], _ => d
  | (j, v) :: t, k => if j = k then v else if k < j then d else look d t k

/-- Key `k` set to `v`. Setting the value an unlisted key reads as removes the entry. -/
def store {α : Type} [DecidableEq α] (d : α) : Sparse α → Nat → α → Sparse α
  | [], k, v => if v = d then [] else [(k, v)]
  | (j, w) :: t, k, v =>
    if k < j then (if v = d then (j, w) :: t else (k, v) :: (j, w) :: t)
    else if k = j then (if v = d then t else (k, v) :: t)
    else (j, w) :: store d t k v

/-- Strictly rising keys above `lo`, and no value `d`: the canonical form. -/
def sparseOk {α : Type} [DecidableEq α] (d : α) : Nat → Sparse α → Bool
  | _, [] => true
  | lo, (k, v) :: t => lo ≤ k && v ≠ d && sparseOk d (k + 1) t

/-- The keys from `lo` up to, and without, `hi` are taken out. -/
def clearKeys {α : Type} (lo hi : Nat) (t : Sparse α) : Sparse α := t.filter (fun e => e.1 < lo || hi ≤ e.1)

/-- Element `i` of a list that reads as `d` past its end. -/
def at' {α : Type} (d : α) (l : List α) (i : Nat) : α := l.getD i d

/-- Element `i` replaced, the list lengthened with `d` when it is too short. -/
def put {α : Type} (d : α) : List α → Nat → α → List α
  | [], 0, v => [v]
  | [], i + 1, v => d :: put d [] i v
  | _ :: t, 0, v => v :: t
  | x :: t, i + 1, v => x :: put d t i v

/-! ## What an unlisted key reads as -/

def Tile.blank : Tile := {}
def Ctx.blank : Ctx := {}
def Cluster.blank : Cluster := {}
def Die.blank : Die := {}
def Link.blank : Link := {}
def Queue.blank : Queue := {}
def Func.blank : Func := {}
def AccEntry.blank : AccEntry := {}
def Source.blank : Source := {}
def VReg.blank : VReg := {}
def PReg.blank : PReg := {}
def TokEntry.blank : TokEntry := {}
def XReg.blank : XReg := {}
def Buf.blank : Buf := {}
def Range.blank : Range := {}

/-! ## Keys of the byte map (R235, R19, R22) -/

/-- Device memory of die `d` at die-local physical address `p` (R239). -/
def hbmKey (d p : Nat) : Nat := d * 2 ^ 37 + p % 2 ^ 37

/-- A scratchpad offset past the scratchpad's end: the manual gives it no place (R94, DESIGN CHOICE, log 9). -/
def tsOff (o : Nat) : Nat := if o < 2 ^ 20 then o else Config.choice o % 2 ^ 20

/-- An accumulator entry index past the last entry, likewise (DESIGN CHOICE, log 9). -/
def taIdx (j : Nat) : Nat := if j < 2 ^ 15 then j else Config.choice j % 2 ^ 15

/-- Scratchpad of tile `n`. -/
def tsKey (n o : Nat) : Nat := 2 ^ 40 + n % 512 * 2 ^ 20 + tsOff o

/-- Pool of cluster `c` of the device (die * 8 + cluster). -/
def clKey (c o : Nat) : Nat := 2 ^ 41 + c % 32 * 2 ^ 24 + o % 2 ^ 24

/-- Pool of die `d`. -/
def diePoolKey (d o : Nat) : Nat := 2 ^ 42 + d % 4 * 2 ^ 26 + o % 2 ^ 26

/-- SRAM of the supervisor of cluster `c` (R342). -/
def svKey (c o : Nat) : Nat := 2 ^ 43 + c % 32 * 2 ^ 18 + o % 2 ^ 18

/-- External flash (R432, R433). -/
def flashKey (o : Nat) : Nat := 2 ^ 44 + o % 2 ^ 40

/-- Hub boot SRAM (R337). -/
def bootKey (o : Nat) : Nat := 2 ^ 45 + o % 2 ^ 20

/-- SRAM of queue core `q` (R337). -/
def qcKey (q o : Nat) : Nat := 2 ^ 46 + q % 6 * 2 ^ 16 + o % 2 ^ 16

/-! ## Bytes -/

/-- What a byte that nothing has written reads as (DESIGN CHOICE, log 3). -/
def unwritten : Byte := 0

/-- The canonical form of the byte map. -/
def Memory.wf (m : List Host.Cell) : Bool := sparseOk unwritten 0 m

/-- One byte. -/
def rdRaw (m : Mach) (k : Nat) : Byte := look unwritten m.mem k

/-- One byte with its granule's poison bit (R373). -/
def rdByte (m : Mach) (k : Nat) : PByte := ⟨rdRaw m k, look false m.poison (k / 8)⟩

/-- `n` bytes from key `k`. -/
def rdRun (m : Mach) (k : Nat) : Nat → List PByte
  | 0 => []
  | n + 1 => rdByte m k :: rdRun m (k + 1) n

/-- Bytes written, poison aside. -/
def wrRaw (m : List Host.Cell) (k : Nat) : List Byte → List Host.Cell
  | [] => m
  | b :: bs => wrRaw (store unwritten m k b) (k + 1) bs

/-- A fresh pattern that nothing constrains, and the counter moved on (R373). -/
def fresh (m : Mach) : Word64 × Mach := (Config.freeBits m.free, { m with free := m.free + 1 })

/-- Granule `g` takes the poison bit: every byte of it then holds an open pattern (R373). -/
def poisonGranule (m : Mach) (g : Nat) : Mach :=
  { m with
    mem := wrRaw m.mem (8 * g) (bytesOf 8 (Config.freeBits m.free).toNat)
    poison := store false m.poison g true
    free := m.free + 1 }

/-- The part of an access that falls in one granule (R251): clean bytes over the whole granule clear its poison bit,
a poisoned byte sets it, and a partial write leaves it (R374) (DEDUCED, log 28). -/
def wrPart (m : Mach) (k : Nat) (bs : List PByte) : Mach :=
  let g := k / 8
  if bs.any (·.p) || (bs.length < 8 && look false m.poison g) then poisonGranule m g
  else { m with mem := wrRaw m.mem k (bs.map (·.b)), poison := store false m.poison g false }

/-- Bytes written from key `k`, split at granule boundaries; `fuel` bounds the number of parts. -/
def wrParts (m : Mach) (k : Nat) (bs : List PByte) : Nat → Mach
  | 0 => m
  | fuel + 1 =>
    if bs.isEmpty then m
    else
      let n := 8 - k % 8
      wrParts (wrPart m k (bs.take n)) (k + n) (bs.drop n) fuel

/-- Bytes written from key `k`. -/
def wrRun (m : Mach) (k : Nat) (bs : List PByte) : Mach := wrParts m k bs (bs.length / 8 + 2)

/-- Bytes of a tile's scratchpad; each that lies past its end is at an open place of it (DESIGN CHOICE, log 9). -/
def tsRead (m : Mach) (tile o n : Nat) : List PByte :=
  if o + n ≤ 2 ^ 20 then rdRun m (tsKey tile o) n else (List.range n).map (fun i => rdByte m (tsKey tile (o + i)))

/-- Bytes of a tile's scratchpad written, likewise. -/
def tsWrite (m : Mach) (tile o : Nat) (bs : List PByte) : Mach :=
  if o + bs.length ≤ 2 ^ 20 then wrRun m (tsKey tile o) bs
  else ((List.range bs.length).zip bs).foldl (fun m x => wrRun m (tsKey tile (o + x.1)) [x.2]) m

/-- A span of a byte store cleared to zero, poison bits too. -/
def clearRun (m : Mach) (k n : Nat) : Mach :=
  { m with
    mem := clearKeys k (k + n) m.mem
    poison := clearKeys (k / 8) ((k + n) / 8) m.poison }

/-- Clean bytes as data. -/
def clean (bs : List Byte) : List PByte := bs.map (fun b => ⟨b, false⟩)

/-- The low bits of data bytes, least significant first. -/
def valOf : List PByte → Nat
  | [] => 0
  | b :: bs => b.b.toNat + 256 * valOf bs

/-- Whether any byte carries poison. -/
def anyPois (bs : List PByte) : Bool := bs.any (·.p)

/-- A number as data bytes, each with the poison bit `p`. -/
def pbytes (k v : Nat) (p : Bool) : List PByte := (bytesOf k v).map (fun b => ⟨b, p⟩)

/-! ## Parts of the machine -/

def Mach.tile (m : Mach) (n : Nat) : Tile := look Tile.blank m.tiles n
def Mach.setTile (m : Mach) (n : Nat) (t : Tile) : Mach := { m with tiles := store Tile.blank m.tiles n t }

/-- Key of a context. -/
def ctxKey (tile : Nat) (ctx : Bool) : Nat := 2 * tile + ctx.toNat
def Mach.ctx (m : Mach) (tile : Nat) (c : Bool) : Ctx := look Ctx.blank m.ctxs (ctxKey tile c)
def Mach.setCtx (m : Mach) (tile : Nat) (c : Bool) (x : Ctx) : Mach :=
  { m with ctxs := store Ctx.blank m.ctxs (ctxKey tile c) x }

def Mach.cluster (m : Mach) (c : Nat) : Cluster := look Cluster.blank m.clusters c
def Mach.setCluster (m : Mach) (c : Nat) (x : Cluster) : Mach := { m with clusters := store Cluster.blank m.clusters c x }
def Mach.die (m : Mach) (d : Nat) : Die := look Die.blank m.dies d
def Mach.setDie (m : Mach) (d : Nat) (x : Die) : Mach := { m with dies := store Die.blank m.dies d x }
/-- HOT: the clusters that have a sensor at or above THOT (R434). -/
def Die.hot (x : Die) : BitVec 8 := BitVec.ofNat 8 (((List.range 8).map (fun c => if x.thot ≤ at' 0 x.temps c then 2 ^ c else 0)).sum)
def Mach.link (m : Mach) (p : Nat) : Link := look Link.blank m.links p
def Mach.setLink (m : Mach) (p : Nat) (x : Link) : Mach := { m with links := store Link.blank m.links p x }
def Mach.queue (m : Mach) (q : Nat) : Queue := look Queue.blank m.hub.queues q
def Mach.setQueue (m : Mach) (q : Nat) (x : Queue) : Mach :=
  { m with hub := { m.hub with queues := store Queue.blank m.hub.queues q x } }
def Mach.func (m : Mach) (f : Nat) : Func := look Func.blank m.hub.funcs f
def Mach.setFunc (m : Mach) (f : Nat) (x : Func) : Mach :=
  { m with hub := { m.hub with funcs := store Func.blank m.hub.funcs f x } }

/-- An accumulator entry of tile `n` (R19). -/
def Mach.accE (m : Mach) (n j : Nat) : AccEntry := look AccEntry.blank m.acc (n * 32768 + taIdx j)

/-- An accumulator entry written; a poisoned one holds an open pattern (R373). -/
def Mach.setAcc (m : Mach) (n j : Nat) (e : AccEntry) : Mach :=
  if e.p then
    { m with acc := store AccEntry.blank m.acc (n * 32768 + taIdx j) { e with v := Config.freeBits m.free }, free := m.free + 1 }
  else { m with acc := store AccEntry.blank m.acc (n * 32768 + taIdx j) e }

def Ctx.stream (c : Ctx) : Engine → Stream
  | .le => c.le | .me => c.me | .ve => c.ve | .se => c.se
def Ctx.setStream (c : Ctx) (e : Engine) (s : Stream) : Ctx :=
  match e with
  | .le => { c with le := s }
  | .me => { c with me := s }
  | .ve => { c with ve := s }
  | .se => { c with se := s }

/-- The acting stream's context and stream. -/
def Mach.curCtx (m : Mach) : Ctx := m.ctx m.cur.tile m.cur.ctx
def Mach.setCurCtx (m : Mach) (c : Ctx) : Mach := m.setCtx m.cur.tile m.cur.ctx c
def Mach.str (m : Mach) : Stream := m.curCtx.stream m.cur.eng
def Mach.setStr (m : Mach) (s : Stream) : Mach := m.setCurCtx (m.curCtx.setStream m.cur.eng s)

/-- The stream of an agent. -/
def Mach.streamOf (m : Mach) (a : Agent) : Stream := (m.ctx a.tile a.ctx).stream a.eng
def Mach.setStreamOf (m : Mach) (a : Agent) (s : Stream) : Mach :=
  m.setCtx a.tile a.ctx ((m.ctx a.tile a.ctx).setStream a.eng s)

/-- Cluster and die of a tile (R18). -/
def clusterOf (tile : Nat) : Nat := tile / 16
def dieOf (tile : Nat) : Nat := tile / 128

/-- Whether a tile receives pulses: its cluster's PLL is locked (R356). -/
def Mach.clocked (m : Mach) (tile : Nat) : Bool := m.locked.contains (3 + clusterOf tile)

/-! ## x registers (R129, R373) -/

/-- Register `i` of the acting stream. -/
def Mach.xr (m : Mach) (i : Nat) : XReg := at' XReg.blank m.str.x i

/-- Register `i` of the acting stream written; a poisoned value holds an open pattern. -/
def Mach.setX (m : Mach) (i : Nat) (r : XReg) : Mach :=
  if r.p then
    { m.setStr { m.str with x := put XReg.blank m.str.x i ⟨Config.freeBits m.free, true⟩ } with free := m.free + 1 }
  else m.setStr { m.str with x := put XReg.blank m.str.x i r }

/-- GTC in ns (R358). -/
def Mach.gtc (m : Mach) : Nat := ((m.edges * 32 / 5 : Nat) + m.adj).toNat

end Sys2Proof.Machine
end

