-- ==== Sys2Proof/Machine/Ops.lean ====
section
/-!
DEFINITION. The operations that many meanings share: records (R302, R366 to R372), taking a failure and returning from
it (R376, R378), semaphores and slots (R69 to R72), planes and messages (R275 to R283).
-/

namespace Sys2Proof

/-! ## Blocks of the ME -/

/-- Whether a block ends a reduction (R189). -/
def Instr.rets : Instr → Bool
  | .mstrm _ _ _ _ _ _ r => r
  | _ => false

/-- A remote signal that waits in the queue (R133). -/
def Instr.isSigr : Instr → Bool
  | .sigr _ _ _ => true
  | _ => false

/-- A signal that waits in the queue (R132, R133). -/
def Instr.isSignal (i : Instr) : Bool :=
  i.isSigr || match i with
    | .signal _ _ => true
    | _ => false

/-- Whether a block of the ME reads or writes scratchpad or accumulator memory, and whether it writes any (R147, R148). -/
def Instr.meAccess : Instr → Bool
  | .mwld _ _ _ _ _ | .mstrm _ _ _ _ _ _ _ | .mzero _ _ _ => true
  | _ => false
def Instr.meStores : Instr → Bool
  | .mstrm _ _ _ _ _ _ _ | .mzero _ _ _ => true
  | _ => false

/-! ## Hashes of addresses and messages -/

/-- The XOR of the octal digits of bits 8 to 61 (R275). -/
def hashLoop (a : Nat) : Nat → Nat
  | 0 => 0
  | n + 1 => (a % 8) ^^^ hashLoop (a / 8) n
def planeHash (a : Nat) : Nat := hashLoop (a / 256) 18

/-- Synthetic addresses of R277. -/
def peerHash (party buf slot : Nat) : Nat := planeHash (party * 2 ^ 30 + 2 ^ 28 + buf * 2 ^ 12 + slot * 2 ^ 8)
def signalHash (party sem : Nat) : Nat := planeHash (party * 2 ^ 30 + 2 * 2 ^ 28 + sem * 2 ^ 8)
def barrierHash (party group id : Nat) : Nat := planeHash (party * 2 ^ 30 + 3 * 2 ^ 28 + group * 2 ^ 12 + id * 2 ^ 8)

/-- The target party of a party-addressed message. -/
def Packet.party (p : Packet) : Nat := p.addr.toNat / 2 ^ 32

/-- Whether an OP is party-addressed (R282, R283). -/
def Packet.toParty (p : Packet) : Bool := p.op = 6 || p.op = 7 || p.op = 8 || p.op = 0x40

/-- Whether a packet is a message of a system barrier, which goes from a party to a hub (R77, R283). -/
def Packet.ofBarrier (p : Packet) : Bool := p.op = 0x48 || p.op = 0x49

/-- The hash of a packet's traffic (R275, R277). -/
def Packet.hash (p : Packet) : Nat :=
  if p.op = 6 ∨ p.op = 7 ∨ p.op = 8 then peerHash p.party (bits p.arg 12 5) (bits p.arg 8 4)
  else if p.op = 0x40 then signalHash p.party (p.addr.toNat % 64)
  else if p.op = 0x48 ∨ p.op = 0x49 then barrierHash p.party (bits p.arg 12 12) (bits p.arg 8 4)
  else planeHash p.addr.toNat

/-- Formats, rounding mode and F of an atomic or a reduce-store, from ARG (R283). -/
def Packet.fmt1 (p : Packet) : Fmt := Fmt.ofCode (bits p.arg 24 4)
def Packet.fmt0 (p : Packet) : Fmt := Fmt.ofCode (bits p.arg 28 4)
def Packet.rmode (p : Packet) : RMode := (RMode.ofCode (bits p.arg 20 3)).getD .rne
def Packet.wantsOld (p : Packet) : Bool := p.arg.getLsbD 23

/-- The header of a control block. -/
def Instr.hdr : Instr → Hdr
  | .ldw h _ _ _ _ | .ldg h _ _ _ | .ldc h _ _ _ _ _ _ _ _ _ | .ldx h _ _ _ | .probe h _ _ | .pref h _
  | .waitm h _ _ _ _ _ | .stw h _ _ | .sts h _ _ _ | .stk h _ _ _ _ _ | .stx h _ _ _ | .atom h _ _ _ _ _ _ _ _
  | .stred h _ _ | .mwld h _ _ _ _ | .mstrm h _ _ _ _ _ _ | .mrb h _ | .mzero h _ _ | .vloop h _ _ _ _ | .vrst h => h
  | _ => {}

end Sys2Proof

namespace Sys2Proof.Machine

open Sys2Proof

/-! ## Records -/

/-- The 64 bytes of a record (R302, R368). -/
def Event.bytes (e : Event) : List Byte :=
  bytesOf 4 e.src ++ bytesOf 4 e.seq ++ bytesOf 1 e.type ++ bytesOf 1 e.status ++ bytesOf 1 e.flags ++ bytesOf 1 e.eng
    ++ bytesOf 4 e.id ++ bytesOf 8 e.gtc ++ bytesOf 8 e.a0.toNat ++ bytesOf 8 e.a1.toNat ++ bytesOf 8 e.detail.toNat
    ++ (List.range 5).flatMap (fun i => bytesOf 2 (e.iter.getD i 0)) ++ bytesOf 2 e.lost ++ bytesOf 4 0

/-- Source ids (R303, R369). -/
def srcQueue (q : Nat) : Nat := q
def srcSignal (f s : Nat) : Nat := 0x10000 + 64 * f + s
def srcTile (n : Nat) : Nat := 0x20000 + n
def srcCluster (c : Nat) : Nat := 0x30000 + c
def srcDie (d : Nat) : Nat := 0x40000 + d
def srcPlane (p : Nat) : Nat := 0x50000 + p
def srcHub : Nat := 0x60000

/-- A job by id. -/
def Mach.job? (m : Mach) (id : Nat) : Option Job := m.hub.jobs.find? (·.id == id)

/-- A job replaced. -/
def Mach.setJob (m : Mach) (j : Job) : Mach :=
  { m with hub := { m.hub with jobs := m.hub.jobs.map (fun k => if k.id = j.id then j else k) } }

/-- QCTL as it stands: the written value, or the reset value with QC = q mod 5 (R295). -/
def Queue.qctl (x : Queue) (q : Nat) : Word64 := x.ctl.getD (BitVec.ofNat 64 (q % 5 * 512))
def qctlFunc (w : Word64) : Nat := bits64 w 12 4

/-- Function whose ring takes the records of a job (R372). -/
def Mach.jobFunc (m : Mach) (id : Nat) : Nat :=
  match m.job? id with
  | some j => match j.queue with
    | some q => qctlFunc ((m.queue q).qctl q)
    | none => 0
  | none => 0

/-- Records of a source not yet written to every ring (R370). -/
def Mach.heldBy (m : Mach) (src : Nat) : Nat := (m.hub.raised.filter (·.ev.src == src)).length

/-- Whether a source has room for a record that may not be dropped (R370). -/
def Mach.roomFor (m : Mach) (src : Nat) : Bool := m.heldBy src < 16

/-- A record under its source's next SEQ, with OVF and LOST when records were dropped before it (R303, R368, R370)
(DEDUCED, log 45). -/
def Mach.number (m : Mach) (e : Event) : Event × Mach :=
  let s := look Source.blank m.hub.sources e.src
  let err := 0x80 ≤ e.type
  ({ e with
      seq := s.seq
      gtc := if e.gtc = 0 then m.gtc else e.gtc
      flags := if err && s.lost ≠ 0 then e.flags ||| 16 else e.flags
      lost := if err then s.lost else e.lost },
   { m with hub := { m.hub with
      sources := store Source.blank m.hub.sources e.src
        { seq := (s.seq + 1) % 2 ^ 32, lost := if err then 0 else s.lost } } })

/-- A record appended to those that wait for their rings. -/
def Mach.post (m : Mach) (e : Event) (rings : List Nat) : Mach :=
  let (e, m) := m.number e
  { m with hub := { m.hub with
      raised := m.hub.raised ++ [{ ev := e, rings := rings, queue := (m.job? (e.a0.toNat % 2 ^ 32)).bind (·.queue) }] } }

/-- A CORR record that finds its source full is dropped and counted (R370). -/
def Mach.loseRecord (m : Mach) (src : Nat) : Mach :=
  let s := look Source.blank m.hub.sources src
  { m with hub := { m.hub with
      sources := store Source.blank m.hub.sources src { s with lost := min 65535 (s.lost + 1) } } }

/-- An error record of class CORR, dropped and counted when its source is full; any other class is kept (R370). It goes
to the PF's ring, and to the ring of the VF that owns the job's queue (R372). -/
def Mach.raise (m : Mach) (cls : Cls) (cause : Cause) (e : Event) : Mach :=
  if cls = .corr && !m.roomFor e.src then m.loseRecord e.src
  else
    let job := e.a0.toNat % 2 ^ 32
    let f := m.jobFunc job
    let m := if (cls = .task || cls = .job) && job ≠ 0 then
        match m.job? job with
        | some j => m.setJob { j with fail := some (j.fail.getD cause.code) }
        | none => m
      else m
    m.post { e with type := cls.code, status := cause.code } (if f = 0 then [0] else [0, f])

/-- JOB in bits 31 to 0, OFF in bits 63 to 32 of the third doubleword (R368). -/
def jobOff (job off : Nat) : Word64 := BitVec.ofNat 64 (off % 2 ^ 32 * 2 ^ 32 + job % 2 ^ 32)

/-! ## Taking a failure -/

/-- What a failing check says: its cause, whether its class is TASK, and the fields of the record (R381, R397). -/
structure Trap where
  cause : Cause
  task : Bool := false
  addr : Word64 := 0
  detail : Word64 := 0
  inblk : Bool := false
  iter : List Nat := []
  off : Option Nat := none
deriving DecidableEq, Repr, Inhabited

/-- The record of a failure of the acting stream (R368, R381). -/
def Mach.trapRec (m : Mach) (t : Trap) : Event :=
  let c := m.curCtx
  { src := srcTile m.cur.tile
    type := if t.task then Cls.task.code else Cls.stream.code
    status := t.cause.code
    flags := (if t.inblk then 4 else 0) + (if m.cur.ctx then 8 else 0) + (if t.cause = .poisonuse then 2 else 0)
    eng := m.cur.eng.code
    id := c.party
    gtc := m.gtc
    a0 := jobOff c.job (t.off.getD m.str.pc)
    a1 := t.addr
    detail := t.detail
    iter := if t.inblk then t.iter else [] }

/-- A stream's mode set, and the time of its change (R415). -/
def Mach.setMode (m : Mach) (a : Agent) (x : Mode) : Mach :=
  let s := m.streamOf a
  if s.mode = x then m else m.setStreamOf a { s with mode := x, since := m.gtc }

/-- Whether a record belongs to a context: by tile, CTX and party. -/
def Event.ofCtx (e : Event) (tile : Nat) (ctx : Bool) : Bool :=
  e.src = srcTile tile && (e.flags / 8 % 2 = 1) == ctx

/-- Records that had found the queue full enter it as room appears, each numbered by its source as it does (R303, R371, R378);
`fuel` bounds their number. -/
def Mach.refillTraps (m : Mach) (cl : Nat) : Nat → Mach
  | 0 => m
  | fuel + 1 =>
    let c := m.cluster cl
    match c.trapHeld with
    | [] => m
    | e :: es =>
      if 16 ≤ c.trapq.length then m
      else
        let (e, m) := m.number e
        (m.setCluster cl { c with trapq := c.trapq ++ [e], trapHeld := es }).refillTraps cl fuel

/-- The trap queue and what waits for room in it set, and refilled. -/
def Mach.setTraps (m : Mach) (cl : Nat) (q h : List Event) : Mach :=
  (m.setCluster cl { m.cluster cl with trapq := q, trapHeld := h }).refillTraps cl h.length

/-- A STREAM record enters the cluster's trap queue of 16, or waits for room (R378). -/
def Mach.enqueueTrap (m : Mach) (cl : Nat) (e : Event) : Mach :=
  let c := m.cluster cl
  m.setTraps cl c.trapq (c.trapHeld ++ [e])

/-- The records of a cluster that fail a test leave its trap queue. -/
def Mach.keepTraps (m : Mach) (cl : Nat) (keep : Event → Bool) : Mach :=
  let c := m.cluster cl
  m.setTraps cl (c.trapq.filter keep) (c.trapHeld.filter keep)

/-- Whether a tile's party id keeps its mark when a task of a job dies there: only a gang's task marks it, and a stopped task
of another gang job of the tile still needs it (R327). -/
def Mach.markStays (m : Mach) (tile job : Nat) : Bool :=
  !(m.job? job).any (·.gang ≠ 0) || m.hub.jobs.any (fun j =>
    j.id ≠ job && j.gang ≠ 0 && j.formes.any (fun f => f.tile = tile && f.st = .stopped))

/-- A party id is marked no longer, and what the hub holds for it is discarded: its task has died (R376). -/
def Mach.dropMark (m : Mach) (party : Nat) : Mach :=
  { m with hub := { m.hub with
    marked := m.hub.marked.filter (· ≠ party), held := m.hub.held.filter (fun p => p.party ≠ party) } }

/-- A kill begins (R376): no stream of the task issues any more, its records leave the trap queue, its remote signals
and token messages not yet sent are discarded, and the TASK record stands ready; TASK_KILL ends it. -/
def Mach.kill (m : Mach) (tile : Nat) (ctx : Bool) (rec : Event) : Mach :=
  let c := m.ctx tile ctx
  if c.loaded && c.dying.isNone then
    let m := m.setCtx tile ctx { c with dying := some rec, waitq := [], stopping := false }
    let m := if m.markStays tile c.job then m else m.dropMark c.party
    m.keepTraps (clusterOf tile) (fun e => !e.ofCtx tile ctx)
  else m

/-- TAKING A FAILURE, the one operation for every cause (R376, R378). Class STREAM: the acting stream stops at its
instruction, nothing of which (or nothing from the failing element on) has been performed, and the record enters the
trap queue. Class TASK: the kill begins. -/
def Mach.take (m : Mach) (t : Trap) : Mach :=
  let e := m.trapRec t
  if t.task then m.kill m.cur.tile m.cur.ctx e
  else
    let s := m.str
    let m := m.setStr { s with
      mode := .trapped, since := if s.mode = .trapped then s.since else m.gtc
      trapOff := t.off.getD s.pc, late := false }
    m.enqueueTrap (clusterOf m.cur.tile) e

/-- A stream stops for a block of its own that has failed in a pipe: it stands in the trap queue, its position as it is, and
an arrival at a barrier stays made (R378). -/
def Stream.halt (s : Stream) (now : Nat) : Stream :=
  match s.mode with
  | .trapped => s
  | .barrier sc id => { s with mode := .trapped, since := now, bar := some (sc, id) }
  | _ => { s with mode := .trapped, since := now }

/-- A failure inside a block of an ME pipe (R378): the stream stands at that block while its common instructions may have
issued further. -/
def Mach.takePipe (m : Mach) (t : Trap) : Mach :=
  let e := m.trapRec t
  if t.task then m.kill m.cur.tile m.cur.ctx e
  else (m.setStr (m.str.halt m.gtc)).enqueueTrap (clusterOf m.cur.tile) e

/-! ## Semaphores (R69, R70, R385, R386) -/

def Ctx.sem (c : Ctx) (s : Nat) : Nat := at' 0 c.sems s
def Ctx.rsv (c : Ctx) (s : Nat) : Nat := at' 0 c.resv s

/-- The first waiter that can be served: no earlier waiter on its semaphore remains, and the value suffices (R69). -/
def servable (sems : List Nat) (seen : List Nat) : List Waiter → Option Waiter
  | [] => none
  | w :: ws =>
    if !seen.contains w.sem && w.n ≤ at' 0 sems w.sem then some w else servable sems (w.sem :: seen) ws

/-- The served waiter's stream or block is told. -/
def Mach.grant (m : Mach) (tile : Nat) (ctx : Bool) (w : Waiter) : Mach :=
  match w.who with
  | .stream =>
    let a : Agent := ⟨tile, ctx, w.eng⟩
    let s := m.streamOf a
    -- a stream that stands in the trap queue stays there; its wait is served all the same
    let s := if s.mode = .trapped then s else { s with mode := .run, since := m.gtc }
    m.setStreamOf a (match s.blk with
      | some b => { s with blk := some { b with granted := true, queued := false } }
      | none => { s with granted := true })
  | .pipe load =>
    let t := m.tile tile
    let up := fun (b : Option Active) => b.map (fun x => { x with granted := true, queued := false })
    m.setTile tile (if load then { t with mat := { t.mat with load := up t.mat.load } }
      else { t with mat := { t.mat with strm := up t.mat.strm } })

/-- KIND of a stream (R415), with its semaphore and count. A stream that has not started yet shows 1 (DESIGN CHOICE, log 96). -/
def Mach.wsKind (m : Mach) (a : Agent) : Nat × Nat × Nat :=
  let c := m.ctx a.tile a.ctx
  let s := c.stream a.eng
  let block := fun (who : Who) (b : Active) =>
    match (if b.queued then c.waitq.find? (fun w => w.eng == a.eng && w.who == who) else none) with
    | some w => if b.phase = .header then (3, w.sem, w.n) else (4, w.sem, w.n)
    | none => match b.instr with
      | .waitm _ _ _ _ _ _ => (6, 0, 0)
      | .probe _ _ _ => (7, 0, 0)
      | _ => (1, 0, 0)
  if !c.loaded then (0, 0, 0)
  else match s.mode with
    | .off | .run => match s.blk with
      | some b => block .stream b
      | none =>
        let x := (m.tile a.tile).mat
        match (if a.eng = .me then x.load else none), (if a.eng = .me then x.strm else none) with
        | some b, _ => block (.pipe true) b
        | none, some b => block (.pipe false) b
        | none, none => (1, 0, 0)
    | .waiting sem n => match s.blk with
      | some b => if b.phase = .header then (3, sem, n) else (4, sem, n)
      | none => (2, sem, n)
    | .barrier _ _ => (5, 0, 0)
    | .token | .held => (8, 0, 0)
    | .trapped | .parked => (9, 0, 0)
    | .tail => (10, 0, 0)
    | .stopped => (11, 0, 0)

/-- The machine `m` after a step that found the stream as it is in `m0`: AGE counts from here where its KIND has changed
(R415). -/
def Mach.aged (m0 : Mach) (a : Agent) (m : Mach) : Mach :=
  if (m.wsKind a).1 = (m0.wsKind a).1 then m else m.setStreamOf a { m.streamOf a with since := m.gtc }

/-- Waiters are served in order for as long as the oldest of a semaphore can be (R70). -/
def Mach.serve (m : Mach) (tile : Nat) (ctx : Bool) : Nat → Mach
  | 0 => m
  | fuel + 1 =>
    let c := m.ctx tile ctx
    match servable c.sems [] c.waitq with
    | none => m
    | some w =>
      let c := { c with sems := put 0 c.sems w.sem (c.sem w.sem - w.n), waitq := c.waitq.erase w }
      let m' := (m.setCtx tile ctx c).grant tile ctx w
      (match w.who with
        | .stream => m'
        | .pipe _ => m.aged ⟨tile, ctx, w.eng⟩ m').serve tile ctx fuel

/-- The waiters of a context are served, at the end of the cycle (R70). -/
def Mach.serveAll (m : Mach) (tile : Nat) (ctx : Bool) : Mach :=
  if m.cycle then m else m.serve tile ctx ((m.ctx tile ctx).waitq.length)

/-- A signal instruction's or a header signal's count moves from the reserved total into the value (R385). -/
def Mach.addReserved (m : Mach) (tile : Nat) (ctx : Bool) (sem n : Nat) : Mach :=
  let c := m.ctx tile ctx
  (m.setCtx tile ctx { c with
    sems := put 0 c.sems sem (c.sem sem + n), resv := put 0 c.resv sem (c.rsv sem - n) }).serveAll tile ctx

/-- The SEMSAT record of a refused slot or remote signal (R381, R386). -/
def semsatRec (m : Mach) (tile : Nat) (ctx : Bool) (sem n sender kind : Nat) (eng : Nat) (off : Nat)
    (inblk : Bool) (iter : List Nat) : Event :=
  let c := m.ctx tile ctx
  { src := srcTile tile, status := Cause.semsat.code, type := Cls.task.code
    flags := (if inblk then 4 else 0) + (if ctx then 8 else 0)
    eng := eng, id := c.party, gtc := m.gtc, a0 := jobOff c.job off
    detail := BitVec.ofNat 64 (sender * 2 ^ 32 + min n 65535 * 65536 + kind * 64 + sem)
    iter := if inblk then iter else [] }

/-- A slot signal of the acting stream's block (R72). -/
def Mach.slotSig (m : Mach) (sem : Nat) (b : Active) : Sig :=
  { tile := m.cur.tile, ctx := m.cur.ctx, sem := sem, n := 1
    ev := semsatRec m m.cur.tile m.cur.ctx sem 1 0 2 m.cur.eng.code b.off true b.c }

/-- A remote signal, or a PEER slot's FULL signal, at a context, with the packet to acknowledge (R70, R134). -/
def Mach.remoteSig (m : Mach) (tile : Nat) (ctx : Bool) (sem n sender : Nat) (p : Option Packet) : Sig :=
  { tile := tile, ctx := ctx, sem := sem, n := n, pkt := p
    ev := semsatRec m tile ctx sem n sender 3 255 0 false [] }

/-- The sum of the signals that reach the semaphore of `s` in one cycle. -/
def sigSum (ss : List Sig) (s : Sig) : Nat :=
  ((ss.filter (fun x => x.tile = s.tile && x.ctx == s.ctx && x.sem = s.sem)).map (·.n)).sum

/-- The judgement of R386, made once over a cycle's sum: it is refused whole when the value, with the counts still
reserved, would pass 65,535, for those always fit (R69, R385) (DEDUCED, log 79). -/
def Mach.refuses (m : Mach) (ss : List Sig) (s : Sig) : Bool :=
  65535 < (m.ctx s.tile s.ctx).sem s.sem + (m.ctx s.tile s.ctx).rsv s.sem + sigSum ss s

/-- Step 11 of R379 and the reservation of R385. -/
def Mach.reserve (m : Mach) (sem n : Nat) : Option Mach :=
  let c := m.curCtx
  if c.sem sem + c.rsv sem + n > 65535 then none
  else some (m.setCurCtx { c with resv := put 0 c.resv sem (c.rsv sem + n) })

/-- A reservation released without its signal (R385). -/
def Mach.release (m : Mach) (tile : Nat) (ctx : Bool) (sem n : Nat) : Mach :=
  let c := m.ctx tile ctx
  m.setCtx tile ctx { c with resv := put 0 c.resv sem (c.rsv sem - n) }

/-- SEMSAT at issue (R381). -/
def semsatTrap (sem n kind : Nat) : Trap :=
  { cause := .semsat, detail := BitVec.ofNat 64 (min n 65535 * 65536 + kind * 64 + sem) }

/-- A waiter enters the order of a semaphore and is served at once if it can be (R69, R70). -/
def Mach.enterWait (m : Mach) (sem n : Nat) (who : Who) : Mach :=
  let c := m.curCtx
  let m' := m.setCurCtx { c with waitq := c.waitq ++ [{ sem := sem, n := n, eng := m.cur.eng, who := who }] }
  let m := match who with
    | .stream => m'.setMode m.cur (.waiting sem n)
    | .pipe _ => m.aged m.cur m'
  m.serveAll m.cur.tile m.cur.ctx

/-! ## Hub semaphores (R134, R298, R339) -/

/-- The first waiter of the hub's semaphores that can be served. -/
def hubServable (sems : List Nat) (seen : List Nat) : List (Nat × Nat × Nat × Nat) → Option (Nat × Nat × Nat × Nat)
  | [] => none
  | w :: ws =>
    if !seen.contains w.2.2.1 && w.2.2.2 ≤ at' 0 sems w.2.2.1 then some w
    else hubServable sems (w.2.2.1 :: seen) ws

/-- The CMDDONE of a started command, unless NOEV (R297, R302). -/
def Mach.cmdDone (m : Mach) (q index status : Nat) (gtc : Option Nat) (flags job : Nat) : Mach :=
  let x := m.queue q
  match x.started.find? (·.index == index) with
  | none => m
  | some c =>
    let m := m.setQueue q { x with started := x.started.filter (·.index != index) }
    if c.noev then m
    else m.post { src := srcQueue q, type := 1, status := status, flags := flags, id := c.cid
                  gtc := gtc.getD m.gtc, a0 := BitVec.ofNat 64 job } [qctlFunc (x.qctl q)]

def Mach.serveHub (m : Mach) : Nat → Mach
  | 0 => m
  | fuel + 1 =>
    match hubServable m.hub.sems [] m.hub.waiters with
    | none => m
    | some w =>
      let m := { m with hub := { m.hub with
        sems := put 0 m.hub.sems w.2.2.1 (at' 0 m.hub.sems w.2.2.1 - w.2.2.2), waiters := m.hub.waiters.erase w } }
      (m.cmdDone w.1 w.2.1 0 none 0 0).serveHub fuel

/-- N added to a hub semaphore, stopping at 65,535 (R386); its waiters are served. -/
def Mach.hubSignal (m : Mach) (sem n : Nat) : Mach :=
  let m := { m with hub := { m.hub with sems := put 0 m.hub.sems sem (min 65535 (at' 0 m.hub.sems sem + n)) } }
  m.serveHub m.hub.waiters.length

/-- N added to a supervisor's doorbell, stopping at 65,535 (R134, R343, R386). -/
def Mach.addBell (m : Mach) (cl db n : Nat) : Mach :=
  let c := m.cluster cl
  m.setCluster cl { c with db := store 0 c.db db (min 65535 (look 0 c.db db + n)) }

/-- A doorbell rung: in an open cycle, what is counted is added at its end, after the reads of the cycle (R343). -/
def Mach.ring (m : Mach) (cl db n : Nat) : Mach :=
  if m.cycle then { m with rings := m.rings ++ [(cl, db, n)] } else m.addBell cl db n

/-! ## Parties (R11) -/

def partyChip (p : Nat) : Nat := p / 2048
def partyKind (p : Nat) : Nat := p % 4
def partyTile (p : Nat) : Nat := p / 4 % 512
def partyCluster (p : Nat) : Nat := p / 64 % 32
def partyFunc (p : Nat) : Nat := p / 4 % 16
def Mach.tileParty (m : Mach) (n : Nat) : Nat := m.hub.chip * 2048 + n * 4
def Mach.supParty (m : Mach) (c : Nat) : Nat := m.hub.chip * 2048 + c * 64 + 1
def Mach.hubParty (m : Mach) : Nat := m.hub.chip * 2048 + 2
def Mach.hostParty (m : Mach) (f : Nat) : Nat := m.hub.chip * 2048 + f * 4 + 3

/-- The newest context loaded on a tile (R68). -/
def Mach.newest (m : Mach) (tile : Nat) : Option Bool :=
  let a := m.ctx tile false
  let b := m.ctx tile true
  if a.loaded && b.loaded then some (a.age < b.age)
  else if a.loaded then some false
  else if b.loaded then some true
  else none

/-! ## The intermediate address map (R235) -/

/-- Areas of a chip's local address space. -/
inductive Area where
  | mem (die off : Nat)
  | cpool (c off : Nat)
  | dpool (d off : Nat)
  | host (w off : Nat)
  | regs (off : Nat)
  | boot (off : Nat)
  | none
deriving DecidableEq, Repr, Inhabited

/-- The area of a local address (bits 42 to 0; the hub boot SRAM by R337). -/
def areaOf (l : Nat) : Area :=
  if l < 2 ^ 40 then .mem (l / 2 ^ 38) (l % 2 ^ 38)
  else if 0x40000000000 ≤ l ∧ l < 0x40020000000 then .cpool ((l - 0x40000000000) / 2 ^ 24) (l % 2 ^ 24)
  else if 0x50000000000 ≤ l ∧ l < 0x50010000000 then .dpool ((l - 0x50000000000) / 2 ^ 26) (l % 2 ^ 26)
  else if 0x60000000000 ≤ l ∧ l < 0x70000000000 then .host ((l - 0x60000000000) / 2 ^ 34) (l % 2 ^ 34)
  else if 0x70000000000 ≤ l ∧ l < 0x70004000000 then .regs (l - 0x70000000000)
  else if 0x7F000000000 ≤ l ∧ l < 0x7F000100000 then .boot (l - 0x7F000000000)
  else .none

def iaChip (ia : Nat) : Nat := ia / 2 ^ 43
def iaLocal (ia : Nat) : Nat := ia % 2 ^ 43

/-- The home die of an area: for explicit SRAM, the die that holds the pool; none for host windows and registers (R235). -/
def Area.home : Area → Option Nat
  | .mem d _ | .dpool d _ => some d
  | .cpool c _ => some (c / 8)
  | .host _ _ | .regs _ | .boot _ | .none => Option.none

/-- The parts between which a plane keeps its packets in order (R279): a tile, a cluster port, a home or a hub, each of a
chip. -/
inductive Node where
  | tile (chip n : Nat)
  | port (chip c : Nat)
  | home (chip d : Nat)
  | hub (chip : Nat)
deriving DecidableEq, Repr, Inhabited

/-- The part that performs an access to an IA. -/
def iaNode (ia : Nat) : Node :=
  match areaOf (iaLocal ia) with
  | .mem d _ | .dpool d _ => .home (iaChip ia) d
  | .cpool c _ => .port (iaChip ia) c
  | .host _ _ | .regs _ | .boot _ | .none => .hub (iaChip ia)

/-- The part that a party is, for its own messages (R11, R279). -/
def partyNode (p : Nat) : Node :=
  match partyKind p with
  | 0 => .tile (partyChip p) (partyTile p)
  | 1 => .port (partyChip p) (partyCluster p)
  | _ => .hub (partyChip p)

/-! ## Planes and messages (R275 to R283) -/

/-- PMAP's entry h (R276). -/
def pmapEntry (w : Word32) (h : Nat) : Nat := bits w (3 * h) 3

/-- ADDR of a party-addressed message (R282). -/
def partyAddr (party low : Nat) : Word64 := BitVec.ofNat 64 (party * 2 ^ 32 + low)

/-- Virtual channel of an OP (R283). -/
def opVc (op : Nat) : Nat := if op < 0x20 then 0 else if op < 0x40 then 1 else 2

/-- Whether a packet answers a request: its requester, its tag, and its plane, or for a token message its region (R282). -/
def Request.answeredBy (r : Request) (p : Packet) : Bool :=
  r.tag = p.tag && r.party = p.src.toNat && (if opVc p.op = 1 then r.plane = p.plane else r.addr = p.addr)

/-- The part that sends a packet (R279): of a response, the one that its request named. -/
def Mach.fromNode (m : Mach) (p : Packet) : Node :=
  if p.op = 0x20 ∨ p.op = 0x21 then
    match m.hub.requests.find? (·.answeredBy p) with
    | some r => if 6 ≤ r.op && r.op ≤ 8 || r.op = 0x40 then partyNode (r.addr.toNat / 2 ^ 32) else iaNode r.addr.toNat
    | none => iaNode p.addr.toNat
  else if p.op = 0x42 ∨ p.op = 0x45 then iaNode p.addr.toNat
  else partyNode p.src.toNat

/-- The part that a packet goes to: SRC names it in a response, a grant or an acknowledgement. -/
def toNode (p : Packet) : Node :=
  if p.op = 0x20 ∨ p.op = 0x21 ∨ p.op = 0x42 ∨ p.op = 0x45 then partyNode p.src.toNat
  else if p.toParty || p.op = 0x48 || p.op = 0x49 then partyNode p.party
  else iaNode p.addr.toNat

/-- The compute die of a part of this chip; none for the hub die, by which other chips are reached. -/
def Node.die (chip : Nat) : Node → Option Nat
  | .tile k n => if k = chip then some (n / 128) else none
  | .port k c => if k = chip then some (c / 8) else none
  | .home k d => if k = chip then some d else none
  | .hub _ => none

/-- Die-to-die links on the path between two dies (R15): opposite compute dies meet over the hub die. -/
def crossings : Option Nat → Option Nat → Nat
  | none, none => 0
  | some a, some b => if a = b then 0 else if (a + 2) % 4 = b then 2 else 1
  | _, _ => 1

/-- Flits of a packet (R281). -/
def flitCount (p : Packet) : Nat := if p.data.length ≤ 32 then 1 else 1 + (p.data.length - 32 + 55) / 56

/-- `n` energy events of a kind counted in a cluster (R359). -/
def Mach.spend (m : Mach) (c i n : Nat) : Mach :=
  if n = 0 then m else { m with events := store 0 m.events (c * 16 + i) (look 0 m.events (c * 16 + i) + n) }

/-- Events of a packet's flits, counted in the cluster of the party in SRC, if it is of this chip (R359; DEDUCED, log 6). -/
def Mach.spendFlits (m : Mach) (p : Packet) (i n : Nat) : Mach :=
  let s := p.src.toNat
  if partyChip s = m.hub.chip && partyKind s ≤ 1 then m.spend (partyCluster s) i (n * flitCount p) else m

/-- Whether the planes are free for an access that the hub party itself makes to `n` bytes of this chip: no rehash holds a hash
of them, and no packet of the hub to the same part is under way on their planes (R274, R279, R423). The request, its
performance and its answer are then one step (DEDUCED, log 97). -/
def Mach.hubOpen (m : Mach) (ia n : Nat) : Bool :=
  (List.range ((ia + n - 1) / 256 - ia / 256 + 1)).all (fun k =>
    let e := pmapEntry m.hub.pmap (planeHash (ia + 256 * k))
    !(m.hub.rehash = 1 && m.hub.dead.getLsbD e) && !m.net.any (fun p =>
      p.plane = e && p.vc = 0 && m.fromNode p = .hub m.hub.chip && toNode p = iaNode (ia + 256 * k)))

/-- A packet sent on its plane: it stays on the package when DCHIP is this chip's, and otherwise leaves by the plane's
external port (R286). While a rehash holds its hash, a request or control message waits at its tile egress (R423). -/
def Mach.send (m : Mach) (p : Packet) : Mach :=
  let h := p.hash
  let e := pmapEntry m.hub.pmap h
  if m.hub.rehash = 1 && m.hub.dead.getLsbD e && opVc p.op != 1 then
    { m with hub := { m.hub with waiting := m.hub.waiting ++ [p] } }
  else
    let p := { p with plane := if opVc p.op = 1 then p.plane else e, vc := opVc p.op }
    let m := m.spendFlits p 9 (crossings ((m.fromNode p).die m.hub.chip) ((toNode p).die m.hub.chip))
    if p.dchip = m.hub.chip then { m with net := m.net ++ [p] }
    else
      let l := m.link p.plane
      m.setLink p.plane { l with txq := l.txq ++ [p] }

/-- The first tag from `t` on that no outstanding request has (R282); `fuel` bounds the search. -/
def freeTag (used : List Nat) (t : Nat) : Nat → Nat
  | 0 => t
  | fuel + 1 => if used.contains t then freeTag used ((t + 1) % 65536) fuel else t

/-- The requests outstanding of a party, and of an agent under whatever party. -/
def Hub.beside (h : Hub) (party : Nat) (a : Option Agent) : List Request :=
  h.requests.filter (fun r => r.party = party || (a.isSome && r.agent == a))

/-- A tag for a request: unique among the outstanding ones of its party, on whatever plane, and of its agent (R282). -/
def Hub.tagFor (h : Hub) (party : Nat) (a : Option Agent) : Nat :=
  let used := (h.beside party a).map (·.tag)
  freeTag used h.nextTag used.length

/-- How many requests a party sends before answers have come: the tags of R282 bound them, and how close to that bound a party
goes is open (DESIGN CHOICE, log 98). -/
def maxOutstanding : Nat := 49152

/-- Whether a party has so many requests outstanding that it sends no further access. -/
def Mach.crowded (m : Mach) (party : Nat) : Bool := maxOutstanding ≤ (m.hub.beside party (some m.cur)).length

/-- A request sent under a fresh tag and counted as outstanding (R280, R282). -/
def Mach.requestAs (m : Mach) (p : Packet) (r : Request) : Mach × Nat :=
  let tag := m.hub.tagFor p.src.toNat r.agent
  let r : Request := { r with
    plane := pmapEntry m.hub.pmap p.hash, tag := tag, party := p.src.toNat, h := p.hash, op := p.op, chip := p.dchip
    addr := p.addr, tile := if p.toParty && partyKind p.party = 0 then some (partyTile p.party) else none }
  let m := { m with hub := { m.hub with nextTag := (tag + 1) % 65536, requests := m.hub.requests ++ [r] } }
  (m.send { p with tag := tag }, tag)

/-- A request of an agent. -/
def Mach.request (m : Mach) (p : Packet) (a : Option Agent) (pipe : Option Bool) (write : Bool) : Mach × Nat :=
  m.requestAs p { agent := a, pipe := pipe, write := write }

/-- A response to a packet, on its plane (R278): OP 0x20 with data, or 0x21. -/
def Mach.respond (m : Mach) (p : Packet) (op status : Nat) (data : List PByte) : Mach :=
  m.send { op := op, addr := p.addr, src := p.src, dchip := partyChip p.src.toNat, tag := p.tag, bcnt := data.length
           arg := BitVec.ofNat 32 status, data := data, plane := p.plane }

def Mach.ack (m : Mach) (p : Packet) (status : Nat) : Mach := m.respond p 0x21 status []

/-! ## The sum of a cycle (R70, R386) -/

/-- A signal taken or refused: the value, or the kill of its task, and the word to its sender. -/
def Mach.settleSig (m : Mach) (bad : Bool) (s : Sig) : Mach :=
  let m := if bad then m.kill s.tile s.ctx s.ev
    else
      let c := m.ctx s.tile s.ctx
      m.setCtx s.tile s.ctx { c with sems := put 0 c.sems s.sem (c.sem s.sem + s.n) }
  match s.pkt with
  | some p => m.ack p (if bad then 2 else 0)
  | none => m

/-- The signals of one cycle, judged on the values before any of them, and the waiters served after all (R70, R386). -/
def Mach.judge (m : Mach) (ss : List Sig) : Mach :=
  let m' := ss.foldl (fun a s => a.settleSig (m.refuses ss s) s) m
  ss.foldl (fun a s => a.serveAll s.tile s.ctx) m'

/-- Signals that reach their semaphores: with the rest of an open cycle, else as a cycle of their own. -/
def Mach.count (m : Mach) (ss : List Sig) : Mach :=
  if m.cycle then { m with sigs := m.sigs ++ ss } else m.judge ss

/-- A cycle of several turns ends: its doorbells are counted, its signals judged, and every waiter that can be is served (R70,
R343, R386). -/
def Mach.endCycle (m : Mach) : Mach :=
  let m' := { m with cycle := false, sigs := [], rings := [] }
  let m' := (m.rings.foldl (fun m r => m.addBell r.1 r.2.1 r.2.2) m').judge m.sigs
  (m'.ctxs.filter (fun e => !e.2.waitq.isEmpty)).foldl (fun a e => a.serveAll (e.1 / 2) (e.1 % 2 = 1)) m'

/-- A signal of the device itself to a semaphore of a task: a grant or an acknowledged return (R261, R262). The count
is checked as a remote signal's from the task's own party. -/
def Mach.ownSignal (m : Mach) (tile : Nat) (ctx : Bool) (sem : Nat) : Mach :=
  m.count [m.remoteSig tile ctx sem 1 (m.ctx tile ctx).party none]

/-- Whether the acting stream has no unacknowledged write-class request (R280). -/
def Mach.quiet (m : Mach) : Bool :=
  !(m.hub.requests.any (fun r => r.agent == some m.cur && r.write && r.tracked.isNone))

/-- Whether a request's target lies inside a scope around the acting tile (R147): of the tile, only its own scratchpad;
of a cluster, its pool as well; of a die, the die pool and the memory at home there; of a package, all of it. -/
def Request.inside (r : Request) (chip tile : Nat) (sc : Scope) : Bool :=
  let here := r.chip = chip
  let own := here && r.tile = some tile
  let pool := here && r.tile.isNone && iaNode r.addr.toNat = .port chip (clusterOf tile)
  match sc with
  | .tile => own
  | .cl => own || pool
  | .die => own || pool || (here && r.tile.isNone && (areaOf (iaLocal r.addr.toNat)).home = some (dieOf tile))
  | .pkg => here
  | .sys => true

/-- What the ME of the acting stream has issued and not finished. -/
def Mach.meIssued (m : Mach) : List Active :=
  let t := (m.tile m.cur.tile).mat
  if m.cur.eng = .me then t.strm.toList ++ t.load.toList ++ t.queue else []

/-- Whether a block of the ME has a write still to perform, or a remote signal (R148, R185). -/
def Active.writes (b : Active) : Bool := (!b.skip && b.instr.meStores) || b.instr.isSigr

/-- Whether the matrix engine of the acting stream has a write or a remote signal still to perform. -/
def Mach.meWrites (m : Mach) : Bool := m.meIssued.any Active.writes

/-- Whether the matrix engine of the acting stream has any block issued and not finished. -/
def Mach.meBusy (m : Mach) : Bool := !m.meIssued.isEmpty

/-- Whether fence.SC completes for the acting stream (R147): remote signals are no accesses, and the accesses of ME blocks
are to the tile's own memories, inside every scope. -/
def Mach.fenceDone (m : Mach) (sc : Scope) : Bool :=
  !m.meIssued.any (fun b => !b.skip && b.instr.meAccess) && !(m.hub.requests.any (fun r =>
    r.agent == some m.cur && r.write && r.op ≠ 0x40 && r.tracked.isNone && r.inside m.hub.chip m.cur.tile sc))

/-- Whether pfence completes for the acting stream (R148): a remote signal that still waits for its own pfence is a signal to
be acknowledged. -/
def Mach.pfenceDone (m : Mach) : Bool := m.quiet && !m.meWrites && m.str.posts.isEmpty

/-! ## Moving on -/

/-- The meaning of an instruction that acts on the machine proper alone. -/
def act (f : Mach → Mach) (s : State) : Host.Outcome State Fault Refusal := .next { s with m := f s.m }


/-- Length in bytes of a common instruction on the acting engine (R86, R137). -/
def commonLen (e : Engine) (ext : Bool) : Nat := if e = .ve && ext then 8 else e.wordBytes

/-- Whether the firmware of the policy core runs: its PLL is locked (R356). -/
def Mach.kernelRuns (m : Mach) : Bool := m.locked.contains 0

/-- The stream's position once the instruction at `pc` has issued: on the ME only a block that enters the queue moves it
(R141 read with R185; DEDUCED, log 22). -/
def Mach.position (m : Mach) : Option Nat := if m.cur.eng = .me then m.str.last else some m.str.pc

/-- The acting stream continues at an offset; the instruction before was issued (R141). -/
def Mach.goto (m : Mach) (off : Nat) : Mach :=
  let s := m.str
  m.setStr { s with
    last := m.position, pc := off, granted := false, applied := [], late := false, rcache := [], rwant := none
    resume := none }

/-- A failure taken at an instruction of `n` bytes (R378). One that is refused has not issued; on the ME its patches stay in
the pending-patch store (R382). -/
def Mach.trapAt (m : Mach) (n : Nat) (t : Trap) : Mach :=
  let s := m.str
  let s := if t.off.isSome then s
    else { s with
      last := s.prev, applied := if m.cur.eng = .me then [] else s.applied
      resume := s.resume.map (fun r => { r with inblk := false, c := [], ports := [] }) }
  (m.setStr { s with trapLen := n }).take t

/-- The acting stream continues after its instruction of `n` bytes. -/
def Mach.advance (m : Mach) (n : Nat) : Mach := m.goto (m.str.pc + n)

/-! ## Returning from a failure: TRAPACT (R378, R382) -/

/-- The agent that a STREAM record names. -/
def Event.agent (e : Event) : Agent :=
  ⟨e.src - 0x20000, e.flags / 8 % 2 = 1, Engine.ofCode e.eng⟩

/-- The oldest record leaves the trap queue. -/
def Mach.popTrap (m : Mach) (cl : Nat) : Mach :=
  let c := m.cluster cl
  m.setTraps cl (c.trapq.drop 1) c.trapHeld

/-- INBLK of a record, and its OFF (R368). -/
def Event.inBlock (e : Event) : Bool := e.flags / 4 % 2 = 1
def Event.off (e : Event) : Nat := e.a0.toNat / 2 ^ 32

/-- The records of a stream that stand in the trap queue, or wait for room in it. -/
def Mach.trapsOf (m : Mach) (a : Agent) : List Event :=
  let c := m.cluster (clusterOf a.tile)
  (c.trapq ++ c.trapHeld).filter (fun e => e.agent == a)

/-- The pipe of the ME whose block a record stopped inside itself (DEDUCED, log 77). -/
def Mach.pipeFault (m : Mach) (e : Event) : Option Bool :=
  let t := (m.tile e.agent.tile).mat
  if e.agent.eng != .me || !e.inBlock then none
  else if (t.load.map (·.off)) == some e.off then some true
  else if (t.strm.map (·.off)) == some e.off then some false
  else none

/-- What a stream does when a record of it has been acted on: it stands while another does; else it goes on waiting where it
waited, or runs. -/
def Mach.resumed (m : Mach) (a : Agent) : Mach :=
  if !(m.trapsOf a).isEmpty then m
  else match (m.ctx a.tile a.ctx).waitq.find? (fun w => w.eng == a.eng && w.who == .stream), (m.streamOf a).bar with
    | some w, _ => m.setMode a (.waiting w.sem w.n)
    | none, some (sc, id) => (m.setStreamOf a { m.streamOf a with bar := none }).setMode a (.barrier sc id)
    | none, none => m.setMode a .run

/-- RETRY: the stream runs again; a block stopped inside continues at ITER with its reservation, an instruction
refused at issue is issued again with the patches applied to it (R378, R382, R385). -/
def Mach.actRetry (m : Mach) (e : Event) : Mach :=
  let a := e.agent
  let m := m.resumed a
  match m.pipeFault e with
  | some _ => m
  | none =>
    let s := m.streamOf a
    m.setStreamOf a { s with park := none, pc := if s.late then s.pc else s.trapOff, late := false }

/-- A set after the last run of a load of it has entered (R179). -/
def WSet.finish (x : WSet) (wt : Win) (sc : Option Win) : WSet :=
  { x with fmt := wt.fmt, scaled := sc.isSome, sw := if sc.isSome then x.sw else [] }

/-- What the end of a block leaves in the matrix engine: the format of a load's set, a reduction retired (R179, R189). -/
def MatEng.ended (x : MatEng) (i : Instr) : MatEng :=
  match i with
  | .mwld _ wt sc setB _ => if setB then { x with b := x.b.finish wt sc } else { x with a := x.a.finish wt sc }
  | _ => if i.rets then { x with isOpen := false, count := 0 } else x

/-- SKIP: the stream continues after the instruction; a block stopped inside ends where it stands, as though its last row had
entered, with no header signal (R179, R189, R378, R385). A block of the LE, SE or VE leaves lc0 to lc4 as the block before it
did: it has not ended by R146 (DESIGN CHOICE, log 97). -/
def Mach.actSkip (m : Mach) (e : Event) : Mach :=
  let a := e.agent
  let s := m.streamOf a
  match m.pipeFault e with
  | some load =>
    let t := m.tile a.tile
    let b := (if load then t.mat.load else t.mat.strm).getD {}
    let m := m.release a.tile a.ctx b.instr.hdr.ssem b.instr.hdr.scnt
    let mat := t.mat.ended b.instr
    let m := m.setTile a.tile { t with mat := if load then { mat with load := none } else { mat with strm := none } }
    m.resumed a
  | none =>
    let m := match s.blk with
      | some b => m.release a.tile a.ctx b.instr.hdr.ssem b.instr.hdr.scnt
      | none => m
    let m := m.resumed a
    let s' := m.streamOf a
    m.setStreamOf a { s' with
      pc := if s.late then s.pc else s.trapOff + s.trapLen
      pend := if a.eng = .me && !s.late then s'.pend.filter (fun p => p.pos ≠ s.trapOff) else s'.pend
      blk := none, applied := [], park := none, late := false
      granted := false, resume := none }

/-- Blocks of the ME issued and not started. -/
def MatEng.unstarted (x : MatEng) : List Active :=
  let waits := fun (o : Option Active) => o.toList.filter (fun b => b.phase = .header)
  (waits x.load ++ waits x.strm ++ x.queue)

/-- A header wait served for a block that never starts gives its count back. -/
def Mach.returnWait (m : Mach) (tile : Nat) (ctx : Bool) (b : Active) : Mach :=
  let c := m.ctx tile ctx
  if b.granted then m.setCtx tile ctx { c with sems := put 0 c.sems b.instr.hdr.wsem (c.sem b.instr.hdr.wsem + b.instr.hdr.wcnt) }
  else m

/-- GOTO at a block inside which the ME stopped: every block that has not started is withdrawn, with its wait and its
reservation, and so is the wait or the barrier at which the stream stood; signals issued stay (R378) (DEDUCED, log 77). -/
def Mach.withdrawMe (m : Mach) (a : Agent) : Mach :=
  let x := (m.tile a.tile).mat
  let gone := x.unstarted.filter (fun b => !b.instr.isSignal)
  let c := m.ctx a.tile a.ctx
  let starts := fun (load : Bool) => (if load then x.load else x.strm).any (fun b => b.phase = .header)
  let stays := fun (w : Waiter) => !(w.eng == .me) || (match w.who with
    | .stream => false
    | .pipe load => !starts load)
  let m := m.setCtx a.tile a.ctx { c with waitq := c.waitq.filter stays }
  let m := gone.foldl (fun (m : Mach) b =>
    (m.release a.tile a.ctx b.instr.hdr.ssem b.instr.hdr.scnt).returnWait a.tile a.ctx b) m
  let t := m.tile a.tile
  let keep := fun (o : Option Active) => o.filter (fun b => !(b.phase = .header))
  let m := m.setTile a.tile { t with mat := { t.mat with
    queue := t.mat.queue.filter (fun b => b.instr.isSignal), load := keep t.mat.load, strm := keep t.mat.strm } }
  (m.setStreamOf a { m.streamOf a with granted := false, bar := none }).serveAll a.tile a.ctx

/-- GOTO: the stream continues at NEWOFF; at a block inside which the ME stopped, every block that has not started is
withdrawn (R378) (DEDUCED, log 58). -/
def Mach.actGoto (m : Mach) (e : Event) (off : Nat) : Mach :=
  let a := e.agent
  let m := (if (m.pipeFault e).isSome then m.withdrawMe a else m).actSkip e
  m.setStreamOf a { m.streamOf a with pc := off, resume := none }

/-- KILL: the task is killed with the record's cause (R378); the TASK record is numbered anew (R368). -/
def Mach.actKill (m : Mach) (e : Event) (cause : Cause) : Mach :=
  m.kill e.agent.tile e.agent.ctx
    { e with type := Cls.task.code, status := cause.code, flags := e.flags % 16, seq := 0, lost := 0 }

/-- The cause of a record. -/
def causeOf (n : Nat) : Cause :=
  [Cause.illop, .badfield, .shape, .align, .range, .unowned, .kindviol, .rsovf, .rsunf, .semsat, .gentag, .patchbad,
    .dispnone, .brbound, .rlimit, .bodyrule, .pageabs, .poisonuse, .toklost, .trapi, .proof, .watchdog, .plane,
    .notifylate, .layout, .alarm, .bootfail, .dataerr, .funcreset].getD (n - 1) .illop

end Sys2Proof.Machine
end

