-- ==== Sys2Proof/Machine/Operands.lean ====
section
/-!
DEFINITION. Windows and where their elements lie: translation (R232, R235, R240 to R242), permission by kind and token
(R152, R258), the cluster cache (R246), reading and writing one element (R153, R155), and the checks of steps 9 and 10
of R379.
-/

namespace Sys2Proof

/-! ## Windows as data -/

/-- The windows of a block in window order, each with whether the block writes it (R72, R98). -/
def Instr.wins : Instr → List (Win × Bool)
  | .ldw _ d s _ _ => [(d, true), (s, false)]
  | .ldg _ d s i => [(d, true), (s, false), (i, false)]
  | .ldc _ d s _ _ _ _ _ _ _ => [(d, true), (s, false)]
  | .ldx _ s _ _ | .probe _ s _ | .pref _ s | .waitm _ s _ _ _ _ => [(s, false)]
  | .stw _ d s | .stred _ d s => [(d, true), (s, false)]
  | .sts _ d s i => [(d, true), (s, false), (i, false)]
  | .stk _ v i s c _ => [(v, true), (i, true), (s, false)] ++ c.toList.map (fun w => (w, true))
  | .stx _ d _ _ => [(d, true)]
  | .atom _ d _ _ _ _ _ _ _ => [(d, true)]
  | .mwld _ w sc _ _ => (w, false) :: sc.toList.map (fun w => (w, false))
  | .mstrm _ a acc sc _ _ _ => (a, false) :: (acc, true) :: sc.toList.map (fun w => (w, false))
  | .mzero _ a _ => [(a, true)]
  | .vloop _ ports ws _ _ =>
    ws.zip (((List.range 7).filter (fun i => ports.getLsbD i)).map (fun i => i = 4 || i = 5))
  | _ => []

/-- Windows that are bound to a buffer, with their index and whether they are written (R72). -/
def Instr.bound (i : Instr) : List (Nat × Nat × Bool) :=
  ((List.range i.wins.length).zip i.wins).filterMap (fun x => x.2.1.bd.map (fun b => (x.1, b, x.2.2)))

/-- How many slots of one side of a descriptor a slot-level iteration of a block uses: one for each window bound there
(R73). -/
def Instr.slotUses (i : Instr) (d : Nat) (writes : Bool) : Nat :=
  (i.bound.filter (fun x => x.2.1 = d && x.2.2 == writes)).length

/-- Which of them window `k` uses: windows advance the count in window order (R73). -/
def Instr.slotNth (i : Instr) (k d : Nat) (writes : Bool) : Nat :=
  (i.bound.filter (fun x => x.1 < k && x.2.1 = d && x.2.2 == writes)).length

/-- idx(c) of R95. -/
def idxAt : List Int → List Nat → Int
  | [], _ => 0
  | s :: ss, cs => s * (cs.headD 0 : Nat) + idxAt ss (cs.drop 1)

/-- BASE as a byte offset, or an entry index of TA (R94). -/
def Win.base (w : Win) : Nat :=
  match w.space with
  | .vm => w.w1.toNat + w.w2.toNat % 65536 * 2 ^ 32
  | .peer => 0
  | .ts | .ta | .cpx => w.w1.toNat

/-- The bytes that hold element `idx`: the byte offset from BASE, their number, and the element's low bit in them
(R35, R95). -/
def elemSpan (f : Fmt) (idx : Int) : Int × Nat × Nat :=
  let b := idx * (f.width : Nat)
  let sh := (b % 8).toNat
  (b / 8, (sh + f.width + 7) / 8, sh)

/-- Levels' counts, one for a level at or above NL (R91). -/
def Hdr.count (h : Hdr) (l : Nat) : Nat := h.counts.getD l 1

/-- The number of iterations of the nest. -/
def Hdr.total (h : Hdr) : Nat := h.counts.foldl (· * ·) 1

/-- The next iteration in nest order, L0 fastest. -/
def nextIter : List Nat → List Nat → List Nat
  | c :: cs, n :: ns => if c + 1 < n then (c + 1) :: cs else 0 :: nextIter cs ns
  | cs, _ => cs

/-- Rounding mode of a window written (R153). -/
def Win.mode (w : Win) (h : Hdr) : RMode := w.wrm.getD h.rm

/-! ## Shapes (R35, R95, R154) -/

/-- Elements of one sub-byte group (R35). -/
def Fmt.g (f : Fmt) : Nat := if f.width = 4 then 2 else if f.width = 6 then 4 else 1

/-- Least and greatest idx over the nest. -/
def idxRange : List Int → List Nat → Int × Int
  | [], _ => (0, 0)
  | s :: ss, cs =>
    let (lo, hi) := idxRange ss (cs.drop 1)
    let d := s * ((cs.headD 1 : Nat) - 1 : Int)
    (lo + min 0 d, hi + max 0 d)

/-- DETAIL of SHAPE (R381). -/
def shapeDetail (win check : Nat) (v : Int) : Word64 :=
  BitVec.ofNat 64 (win * 2 ^ 60 + check * 2 ^ 56 + wrapNat 48 v)

/-- DETAIL of ALIGN (R381). -/
def alignDetail (win log : Nat) : Word64 := BitVec.ofNat 64 (win * 2 ^ 60 + log * 2 ^ 48)

/-- Grouping of a window that moves one element per iteration (R35) (DEDUCED, log 75). -/
def groupBad (w : Win) (counts : List Nat) : Option Int :=
  let g := w.fmt.g
  if g = 1 then none
  else if w.stride.headD 1 ≠ 1 then some (w.stride.headD 1)
  else if counts.headD 1 % g ≠ 0 then some (counts.headD 1 : Nat)
  else (w.stride.drop 1).find? (fun s => s % (g : Nat) ≠ 0)

/-- Extent of R95: the offending index when the least or greatest idx, the last one lengthened by a run, leaves 0 to
EXTENT - 1. -/
def extentBad (w : Win) (counts : List Nat) (run : Nat) : Option Int :=
  let (lo, hi) := idxRange w.stride counts
  let hi := hi + (run - 1 : Nat)
  if lo < 0 then some lo else if (w.extent : Int) ≤ hi then some hi else none

/-- Insertion by |stride|, ties in level order (R154). -/
def insLevel (x : Int × Nat) : List (Int × Nat) → List (Int × Nat)
  | [] => [x]
  | y :: ys => if x.1.natAbs < y.1.natAbs then x :: y :: ys else y :: insLevel x ys

/-- The levels in order of |STRIDE|: each at least one more than the reach of those before it. -/
def singleLoop (reach : Nat) : List (Int × Nat) → Option Int
  | [] => none
  | (s, n) :: t => if s.natAbs < 1 + reach then some s else singleLoop (reach + (n - 1) * s.natAbs) t

/-- Single writes (R154): the offending stride, as it stands (R381). -/
def singleBad (w : Win) (counts : List Nat) (skipL1 : Bool) : Option Int :=
  let lv := (List.range w.stride.length).filterMap (fun i =>
    if counts.getD i 1 ≤ 1 || (skipL1 && i = 1) then none
    else some (w.stride.getD i 0, counts.getD i 1))
  singleLoop 0 (lv.foldl (fun acc x => insLevel x acc) [])

/-- Alignment required of a base in its unit, or 255 for a three-byte group (R94, R381). -/
def baseAlign (w : Win) (matrix : Bool) : Nat :=
  match w.space with
  | .ta => if matrix then 3 else 0
  | .peer => 0
  | .ts | .vm | .cpx =>
    if matrix then 6 else match w.fmt.width with
      | 64 => 3 | 32 => 2 | 16 => 1 | 6 => 255 | _ => 0

/-- Whether a matrix window's base must begin a three-byte group as well as 64 bytes: formats of 6 bits (R35, R94). -/
def groupBase (w : Win) (matrix : Bool) : Bool := matrix && w.space ≠ .ta && w.fmt.width = 6

/-- Whether an address meets an alignment code. -/
def alignOk (code a : Nat) : Bool := if code = 255 then a % 3 = 0 else a % 2 ^ code = 0

/-! ## Runs of elements in one packet (R281) -/

/-- The byte after the last one that a packet's data reach at its target: a reduce-store's elements have the size of the
destination format. -/
def Packet.reach (p : Packet) : Nat :=
  if p.op = 4 ∨ p.op = 8 then
    p.addr.toNat + p.data.length / ((p.fmt0.width + 7) / 8) * (p.fmt1.width / 8)
  else p.addr.toNat + p.data.length

/-- ARG without LAST. -/
def Packet.argRun (p : Packet) : Word32 := if p.op = 6 then p.arg &&& ~~~ (1#32 <<< 23) else p.arg

/-- Whether the element of `q` goes on where the run of `p` ends, in one line and one packet. -/
def Packet.joins (p q : Packet) : Bool :=
  p.op = q.op && p.argRun = q.argRun && q.addr.toNat = p.reach && (q.reach - 1) / 256 = p.addr.toNat / 256
    && p.data.length + q.data.length ≤ 256

end Sys2Proof

namespace Sys2Proof.Machine

open Sys2Proof

/-! ## Ranges (R63, R232) -/

def Range.lo (r : Range) : Nat := bits64 r.w0 28 36 * 4096
def Range.pages (r : Range) : Nat := bits64 r.w0 0 28
def Range.ia (r : Range) : Nat := bits64 r.w1 12 52 * 4096
def Range.kind (r : Range) : RKind := RKind.ofCode (bits64 r.w1 2 2)
def Range.w (r : Range) : Bool := r.w1.getLsbD 1
def Range.rd (r : Range) : Bool := r.w1.getLsbD 0

/-- The first range that holds bytes va to va + n - 1, and the IA of va there (R232). -/
def translateIn (va n : Nat) : List Range → Option (Range × Nat)
  | [] => none
  | r :: rs =>
    if r.pages ≠ 0 ∧ r.lo ≤ va ∧ va + n ≤ r.lo + r.pages * 4096 ∧ va < 2 ^ 48 then
      some (r, (r.ia + (va - r.lo)) % 2 ^ 64)
    else translateIn va n rs

def Ctx.translate (c : Ctx) (va n : Nat) : Option (Range × Nat) := translateIn va n (c.maps.take 8)

/-! ## Page translation at the home (R240 to R242) -/

/-- Eight raw bytes of a die's HBM. -/
def Mach.hbm64 (m : Mach) (d p : Nat) : Word64 :=
  wordOfBytes 64 ((List.range 8).map (fun i => rdRaw m (hbmKey d (p + i))))

/-- A page as the directory gives it: state, physical base, size in bytes, PIN and the entry's physical address. -/
structure Page where
  state : Nat
  phys : Nat
  size : Nat
  pin : Bool
  entry : Nat

/-- The page that holds an offset of a die's window (R240, R241). -/
def Mach.page (m : Mach) (d off : Nat) : Page :=
  let base := bits64 (m.die d).pdbase 20 17 * 2 ^ 20
  let at1 := base + off / 2 ^ 21 * 8
  let e := m.hbm64 d at1
  if e.getLsbD 6 then
    let at2 := bits64 e 8 29 * 256 + off / 2 ^ 16 % 32 * 8
    let f := m.hbm64 d at2
    ⟨bits64 f 0 2, bits64 f 8 29 * 256, 2 ^ 16, f.getLsbD 7, at2⟩
  else ⟨bits64 e 0 2, bits64 e 8 29 * 256, 2 ^ 21, e.getLsbD 7, at1⟩

/-- HBM offset of a stack's training: before step 9 completes, accesses to the stack are held (R361). Bit 8 of the
physical address selects the stack (R239). -/
def Mach.stackOpen (m : Mach) (d p : Nat) : Bool :=
  let x := m.die d
  (if p / 256 % 2 = 1 then x.st1 else x.st0).done = 9

/-- Whether the stacks that hold the directory entry of an offset, and its page table, have finished training (R240, R361). -/
def Mach.dirOpen (m : Mach) (d off : Nat) : Bool :=
  let at1 := bits64 (m.die d).pdbase 20 17 * 2 ^ 20 + off / 2 ^ 21 * 8
  m.stackOpen d at1 && m.stackOpen d (m.page d off).entry

/-! ## Outcomes of an access -/

/-- What an access does: it is performed; it fails; the stream parks; or it cannot be performed yet, the state holding
whatever request was sent. -/
inductive Acc (α : Type) where
  | done (a : α) (m : Mach)
  | trap (t : Trap)
  | park (p : Park) (t : Trap)
  | wait (m : Mach)

/-- Where an element lies. -/
inductive Place where
  | ts (off : Nat)
  | ta (idx : Nat)
  | cpool (c off : Nat)
  | dpool (d off : Nat)
  /-- Device memory of this chip, not cached. -/
  | mem (die off : Nat)
  /-- Owned memory through the cluster cache of the acting tile, homed here or elsewhere. -/
  | owned (ia : Nat)
  | remote (ia : Nat)
  | host (fn addr : Nat)
  | peer (party buf slot tag off : Nat)
deriving DecidableEq, Repr, Inhabited

/-- Uses of an element that R152 tells apart. -/
inductive Use where
  | read | write | atom | stred | waitm
deriving DecidableEq, Repr, Inhabited

/-- Whether a kind allows a use (R152). -/
def kindAllows (k : RKind) (u : Use) : Bool :=
  match k, u with
  | .constant, .read => true
  | .owned, .read | .owned, .write | .owned, .atom | .owned, .stred => true
  | .sync, .atom | .sync, .stred | .sync, .waitm => true
  | .host, .read | .host, .write => true
  | .constant, .write | .constant, .atom | .constant, .stred | .constant, .waitm | .owned, .waitm
  | .sync, .read | .sync, .write | .host, .atom | .host, .stred | .host, .waitm => false

/-- Whether a range's permission bits allow a use (R152). -/
def permAllows (r : Range) (u : Use) : Bool :=
  match u with
  | .read | .waitm => r.rd
  | .write | .stred => r.w
  | .atom => r.rd && r.w

/-- DETAIL of RANGE and KINDVIOL (R397). -/
def accDetail (win why : Nat) (r : Option (Range × Nat)) : Word64 :=
  match r with
  | none => BitVec.ofNat 64 (win * 2 ^ 60 + why * 2 ^ 56)
  | some (x, ia) => BitVec.ofNat 64 (win * 2 ^ 60 + why * 2 ^ 56 + x.kind.code * 2 ^ 54 + ia % 2 ^ 48)

/-- Whether a holding covers bytes ia to ia + n - 1. -/
def Holding.covers (h : Holding) (ia n : Nat) : Bool :=
  h.base.toNat ≤ ia && ia + n ≤ h.base.toNat + 2 ^ h.log2

/-- Whether a party of a cluster holds the token an owned access needs (R152, R258, R323): its own holding, of the
running job. -/
def Mach.holds (m : Mach) (cl party job ia n : Nat) (ex : Bool) : Bool :=
  (m.cluster cl).hold.any (fun h => h.party = party && h.job = job && h.covers ia n && (h.ex || !ex))

/-- The largest aligned region of 2^12 to 2^21 bytes that holds ia and lies in the range's IA span (R400). -/
def suggest (r : Range) (ia : Nat) : Nat → Nat
  | 0 => 12
  | k + 1 =>
    let l := 12 + (k + 1)
    let b := ia / 2 ^ l * 2 ^ l
    if r.ia ≤ b ∧ b + 2 ^ l ≤ r.ia + r.pages * 4096 then l else suggest r ia k

/-- An access without its token (R399, R400): parks under DEMAND, kills under STRICT. -/
def Mach.unowned {α : Type} (m : Mach) (win va ia n : Nat) (r : Range) (ex : Bool) (c : List Nat) : Acc α :=
  let ctx := m.curCtx
  let strict := match m.job? ctx.job with
    | some j => j.strict
    | none => true
  let need := if ex then 2 else 1
  let hs := m.holds (clusterOf m.cur.tile) ctx.party ctx.job ia n false
  let hl := suggest r ia 9 - 12
  let base := ia / 2 ^ (hl + 12) * 2 ^ (hl + 12)
  let t : Trap :=
    { cause := .unowned, task := strict, addr := BitVec.ofNat 64 va, inblk := true, iter := c
      detail := BitVec.ofNat 64 (base / 4096 * 4096 + win * 256 + need * 64 + (if hs then 32 else 0) + hl) }
  if strict then .trap t
  else .park { ia := BitVec.ofNat 64 ia, va := BitVec.ofNat 64 va, win := win, need := need, bytes := n } t

/-- Explicit sizes (R237, R249). -/
def Cluster.explBytes (c : Cluster) : Nat := c.expl * 2 ^ 21
def Die.explBytes (d : Die) : Nat := d.expl * 2 ^ 23

/-- HWINi (R238). -/
def Mach.hwin (m : Mach) (i : Nat) : Word64 := look 0 m.regs (0x1000 + 8 * i)

/-- Where a VM access of `n` bytes at `va` goes, every check of R152, R232, R237, R238 and R399 passed. An owned access to
explicit SRAM works at the pool, as R250 has it, and its bytes are kept in no cluster cache (DESIGN CHOICE, log 97). -/
def Mach.locateVm (m : Mach) (win va n : Nat) (u : Use) (c : List Nat) : Acc Place :=
  let fail := fun (cause : Cause) (why : Nat) (r : Option (Range × Nat)) =>
    (.trap { cause := cause, addr := BitVec.ofNat 64 va, detail := accDetail win why r, inblk := true, iter := c } :
      Acc Place)
  match m.curCtx.translate va n with
  | none => fail .range 1 none
  | some (r, ia) =>
    if !kindAllows r.kind u then fail .kindviol 5 (some (r, ia))
    else if !permAllows r u then fail .range 2 (some (r, ia))
    else
      let chip := iaChip ia
      let ctx := m.curCtx
      let exNeeded := u != .read
      if r.kind = .owned && !m.holds (clusterOf m.cur.tile) ctx.party ctx.job ia n exNeeded then
        m.unowned win va ia n r exNeeded c
      else
        -- another device judges its own pools and windows; the answer cannot stop the stream (R436; log 30)
        let here := chip = m.hub.chip
        if m.crowded ctx.party then .wait m
        else match areaOf (iaLocal ia) with
        | .mem _ _ => .done (if r.kind = .owned then .owned ia else .remote ia) m
        | .cpool k o =>
          if here && (m.cluster k).explBytes < o + n then fail .range 3 (some (r, ia))
          else .done (if here && k = clusterOf m.cur.tile then .cpool k o else .remote ia) m
        | .dpool k o =>
          if here && (m.die k).explBytes < o + n then fail .range 3 (some (r, ia)) else .done (.remote ia) m
        | .host w _ => if here && !(m.hwin w).getLsbD 0 then fail .range 4 (some (r, ia)) else .done (.remote ia) m
        | .regs _ | .boot _ | .none => fail .range 1 (some (r, ia))

/-! ## Slots (R62, R72) -/

def Buf.valid (b : Buf) : Bool := b.raw.getLsbD 47
def Buf.inbound (b : Buf) : Bool := b.raw.getLsbD 46
def Buf.empty (b : Buf) : Nat := bits64 b.raw 40 6
def Buf.full (b : Buf) : Nat := bits64 b.raw 34 6
def Buf.slots (b : Buf) : Nat := bits64 b.raw 28 4 + 1
def Buf.size (b : Buf) : Nat := (bits64 b.raw 14 14 + 1) * 64
def Buf.base (b : Buf) : Nat := bits64 b.raw 0 14 * 64
def Buf.slotAt (b : Buf) (s : Nat) : Nat := b.base + s * b.size
def Ctx.buf (c : Ctx) (i : Nat) : Buf := at' Buf.blank c.bufs i

/-- Scratchpad offset at which the BASE of window `k` of a block counts: 0, or the slot in use of a bound window: PC's slot
for a window written, CC's for one read, further on by the windows bound there before it (R72, R73, R94). -/
def Mach.slotBase (m : Mach) (i : Instr) (k : Nat) (w : Win) (writes : Bool) : Nat :=
  match w.bd with
  | none => 0
  | some b =>
    let d := m.curCtx.buf b
    d.slotAt (((if writes then d.pc else d.cc) + i.slotNth k b writes) % d.slots)

/-- Where bytes `off` to `off + n - 1` from the BASE of window `win` of a block lie. A CPX element has no VA: the record of one
past the explicit part names its offset in the pool (DESIGN CHOICE, log 97). -/
def Mach.locate (m : Mach) (win : Nat) (w : Win) (writes : Bool) (off : Int) (n : Nat) (u : Use) (b : Active) :
    Acc Place :=
  let c := b.c
  match w.space with
  | .ts => .done (.ts ((m.slotBase b.instr win w writes + w.base : Nat) + off).toNat) m
  | .ta => .done (.ta ((w.base : Nat) + off).toNat) m
  | .cpx =>
    let o := ((w.base : Nat) + off).toNat
    let k := clusterOf m.cur.tile
    if o + n ≤ (m.cluster k).explBytes then .done (.cpool k o) m
    else .trap { cause := .range, addr := BitVec.ofNat 64 o, detail := accDetail win 3 none, inblk := true, iter := c }
  | .vm =>
    let r := at' Range.blank m.curCtx.maps w.map
    m.locateVm win ((r.lo + w.base : Nat) + off).toNat n u c
  | .peer =>
    if m.crowded m.curCtx.party then .wait m
    else .done (.peer w.w1.toNat (bits w.w2 0 5) (bits w.w2 8 4) (bits w.w2 24 8) off.toNat) m

/-! ## Bytes of places -/

/-- A failure of an absent page (R405). -/
def pageTrap (va ia : Nat) (size : Nat) (c : List Nat) : Trap :=
  { cause := .pageabs, task := true, addr := BitVec.ofNat 64 va, detail := BitVec.ofNat 64 (ia / size * size)
    inblk := true, iter := c }

/-- IA of an offset of a die's window on this chip. -/
def Mach.iaOf (m : Mach) (die off : Nat) : Nat := m.hub.chip * 2 ^ 43 + die * 2 ^ 38 + off

/-- Bytes of one page of device memory of this chip (R241, R242, R406): held while the page migrates, or while a stack that
holds the page or its entries trains (R361). -/
def Mach.pageRead (m : Mach) (va d off n : Nat) (c : List Nat) : Acc (List PByte) :=
  let p := m.page d off
  if !m.dirOpen d off then .wait m
  else match p.state with
  | 1 =>
    let a := p.phys + off % p.size
    if m.stackOpen d a then .done (rdRun m (hbmKey d a) n) m else .wait m
  | 2 => .wait m
  | 3 => .done (List.replicate n ⟨0, true⟩) m
  | _ => .trap (pageTrap va (m.iaOf d off) p.size c)

/-- Of `n` bytes at an offset of a die's window, those that lie in the first page. -/
def Mach.inPage (m : Mach) (d off n : Nat) : Nat := min n ((m.page d off).size - off % (m.page d off).size)

/-- Bytes of device memory: an access that crosses the end of a page is translated in each (R232, R241). -/
def Mach.memRead (m : Mach) (va d off n : Nat) (c : List Nat) : Acc (List PByte) :=
  let k := m.inPage d off n
  match m.pageRead va d off k c with
  | .done bs m =>
    if n ≤ k then .done bs m
    else match m.pageRead va d (off + k) (n - k) c with
      | .done cs m => .done (bs ++ cs) m
      | e => e
  | e => e

/-- The DATAERR record of a write to a poisoned page, one per page (R406). -/
def Mach.poisonedWrite (m : Mach) (d off size : Nat) : Mach :=
  let m := m.setDie d { m.die d with told := (m.die d).told ++ [BitVec.ofNat 64 (m.iaOf d (off / size * size))] }
  m.raise .defer .dataerr
    { src := srcDie d, flags := 2, eng := 255, a1 := BitVec.ofNat 64 (m.iaOf d (off / size * size))
      detail := BitVec.ofNat 64 (5 * 2 ^ 56 + 2 * 2 ^ 48) }

/-- Bytes written in one page of device memory (DESIGN CHOICE, log 5); a write to a poisoned page waits for room for its record
(R370, R406). -/
def Mach.pageWrite (m : Mach) (va d off : Nat) (bs : List PByte) (c : List Nat) : Acc Unit :=
  let p := m.page d off
  if !m.dirOpen d off then .wait m
  else match p.state with
  | 1 =>
    let a := p.phys + off % p.size
    if m.stackOpen d a then .done () (wrRun m (hbmKey d a) bs) else .wait m
  | 2 => .wait m
  | 3 =>
    let seen := (m.die d).told.contains (BitVec.ofNat 64 (m.iaOf d (off / p.size * p.size)))
    if seen then .done () m else if m.roomFor (srcDie d) then .done () (m.poisonedWrite d off p.size) else .wait m
  | _ => .trap (pageTrap va (m.iaOf d off) p.size c)

/-- Bytes written in device memory, page by page; nothing is written while a page of it holds the access (R232, R241). -/
def Mach.memWrite (m : Mach) (va d off : Nat) (bs : List PByte) (c : List Nat) : Acc Unit :=
  let k := m.inPage d off bs.length
  if bs.length ≤ k then m.pageWrite va d off bs c
  else match m.pageRead va d (off + k) (bs.length - k) c with
    | .done _ _ =>
      match m.pageWrite va d off (bs.take k) c with
      | .done _ m => m.pageWrite va d (off + k) (bs.drop k) c
      | e => e
    | .trap t => .trap t
    | .park p t => .park p t
    | .wait m => .wait m

/-- Key of a byte in a cluster's cache (DEDUCED, log 76). -/
def dirtyKey (cl ia : Nat) : Nat := cl * 2 ^ 64 + ia % 2 ^ 64

/-- A dirty byte of a cluster's cache. -/
def Mach.dirtyAt (m : Mach) (cl ia : Nat) : Option PByte := (m.dirty.find? (·.1 = dirtyKey cl ia)).map (·.2)

/-- A dirty byte put in its place: a table without a default, so that clean and zero bytes stay listed. -/
def putDirty (k : Nat) (v : PByte) : Sparse PByte → Sparse PByte
  | [] => [(k, v)]
  | (j, w) :: t => if k < j then (k, v) :: (j, w) :: t else if k = j then (k, v) :: t else (j, w) :: putDirty k v t

/-- Bytes put in a cluster's cache as they are. -/
def Mach.cachePut (m : Mach) (cl ia : Nat) : List PByte → Mach
  | [] => m
  | b :: bs => { m with dirty := putDirty (dirtyKey cl ia) b m.dirty }.cachePut cl (ia + 1) bs

/-- The part of an owned write that falls in one granule, over the bytes that stood there (R374). -/
def Mach.cachePart (m : Mach) (cl ia : Nat) (old bs : List PByte) : Mach :=
  if anyPois bs || (bs.length < 8 && anyPois old) then
    { m with free := m.free + 1 }.cachePut cl (ia / 8 * 8) (pbytes 8 (Config.freeBits m.free).toNat true)
  else m.cachePut cl ia bs

/-- Owned bytes written in the cluster cache, split at granule boundaries. -/
def Mach.cacheWrite (m : Mach) (cl ia : Nat) (old bs : List PByte) : Nat → Mach
  | 0 => m
  | fuel + 1 =>
    if bs.isEmpty then m
    else
      let n := 8 - ia % 8
      (m.cachePart cl ia (old.take n) (bs.take n)).cacheWrite cl (ia + n) (old.drop n) (bs.drop n) fuel

/-- Bytes read over the home's bytes. -/
def Mach.overlay (m : Mach) (cl ia : Nat) : List PByte → List PByte
  | [] => []
  | b :: bs => (m.dirtyAt cl ia).getD b :: m.overlay cl (ia + 1) bs

/-- A read request to another chip (R283). -/
def readPkt (ia n party : Nat) : Packet :=
  { op := 1, addr := BitVec.ofNat 64 ia, src := BitVec.ofNat 32 party, dchip := iaChip ia, bcnt := n }

/-- An answer of nonzero status: zero bytes, each poisoned (R436). -/
def unanswered (bs : List PByte) : Bool := bs.all (fun x => x = ⟨0, true⟩)

/-- The bytes that a block has already fetched from an IA: of a run whose answer had a nonzero status, none but its own. -/
def Active.fetched (b : Active) (ia n : Nat) : Option (List PByte) :=
  ((b.ahead.toList ++ b.cache).find? (fun e =>
    e.1 ≤ ia && ia + n ≤ e.1 + e.2.length && (e.2.length = n || !unanswered e.2))).map
      (fun e => (e.2.drop (ia - e.1)).take n)

/-- A read whose bytes arrive in an answer: `ask` sends for the `n` bytes from `key`, once in an iteration. -/
def Mach.readAway (m : Mach) (key n : Nat) (ask : Mach → Mach × Nat) (b : Active) : Acc (List PByte) × Active :=
  match b.fetched key n with
  | some bs => (.done bs m, b)
  | none =>
    match b.resp with
    | some bs => (.done (bs.take n) m, { b with resp := none, cache := (key, bs.take n) :: b.cache })
    | none =>
      if b.await.isSome then (.wait m, b)
      else
        let (m, tag) := ask m
        (.wait m, { b with await := some tag })

/-- The request of a block for bytes at an IA (R283). -/
def Mach.askBytes (m : Mach) (src ia n va : Nat) (pipe : Option Bool) (b : Active) : Mach × Nat :=
  m.requestAs (readPkt ia n src)
    { agent := some m.cur, pipe := pipe, write := false, va := BitVec.ofNat 64 va, off := b.off, iter := some b.c }

/-- `n` bytes at an IA out of a run of `k` from `start`, one line at most, which one packet asks for (R281); where that answer
had a nonzero status, the `n` bytes alone (DESIGN CHOICE, log 81). -/
def Mach.readRun (m : Mach) (src ia n start : Nat) (k : Unit → Nat) (va : Nat) (pipe : Option Bool) (b : Active) :
    Acc (List PByte) × Active :=
  match b.fetched ia n with
  | some bs => (.done bs m, b)
  | none =>
    let alone := (b.ahead.toList ++ b.cache).any (fun e => e.1 ≤ ia && ia + n ≤ e.1 + e.2.length)
    let from' := if alone then ia else start
    match b.resp with
    | some bs =>
      let bs := if alone then bs.take n else bs
      let b := { b with resp := none, cache := (from', bs) :: b.cache, ahead := some (from', bs) }
      match b.fetched ia n with
      | some bs => (.done bs m, b)
      | none => (.wait m, b)
    | none =>
      if b.await.isSome then (.wait m, b)
      else
        let (m, tag) := m.askBytes src from' (if alone then n else k ()) va pipe b
        (.wait m, { b with await := some tag })

/-- A host read sent on the link (R238). -/
def Mach.hostRead (m : Mach) (fn addr n : Nat) (why : ReadFor) : Mach × Nat :=
  let used := m.hub.preads.map (·.tag)
  let tag := freeTag used m.hub.nextTag used.length
  let r : PRead := { tag := tag, fn := fn, addr := BitVec.ofNat 64 addr, len := n, why := why }
  ({ m with hub := { m.hub with
      nextTag := (tag + 1) % 65536, preads := m.hub.preads ++ [r]
      pcie := m.hub.pcie ++ [.read tag fn (BitVec.ofNat 64 addr) n] } }, tag)

/-- Bytes of an owned line read through the cluster cache: at once where the cache holds them, else over the line that the
cluster port fetches from the home (R246, R274). The bytes lie in one line. -/
def Mach.lineRead (m : Mach) (ia n va : Nat) (pipe : Option Bool) (b : Active) : Acc (List PByte) × Active :=
  let cl := clusterOf m.cur.tile
  if (List.range n).all (fun i => (m.dirtyAt cl (ia + i)).isSome) then
    (.done (m.overlay cl ia (List.replicate n {})) m, b)
  else match m.readRun (m.supParty cl) ia n (ia / 256 * 256) (fun _ => 256) va pipe b with
    | (.done bs m, b) => (.done (m.overlay cl ia bs) m, b)
    | r => r

/-- Owned bytes read, line by line. -/
def Mach.ownedRead (m : Mach) (ia n va : Nat) (pipe : Option Bool) (b : Active) : Acc (List PByte) × Active :=
  let k := 256 - ia % 256
  if n ≤ k then m.lineRead ia n va pipe b
  else match m.lineRead ia k va pipe b with
    | (.done bs m, b) => match m.lineRead (ia + k) (n - k) (va + k) pipe b with
      | (.done cs m, b) => (.done (bs ++ cs) m, b)
      | r => r
    | r => r

/-- Bytes read at a place, the first `n` of a contiguous run of `k` that the block will read. -/
def Mach.readPlace (m : Mach) (p : Place) (va n : Nat) (k : Unit → Nat) (pipe : Option Bool) (b : Active) :
    Acc (List PByte) × Active :=
  match p with
  | .ts o => (.done (tsRead m m.cur.tile o n) m, b)
  | .ta _ | .peer _ _ _ _ _ | .host _ _ => (.done [] m, b)
  | .cpool c o => (.done (rdRun m (clKey c o) n) m, b)
  | .dpool d o => (.done (rdRun m (diePoolKey d o) n) m, b)
  | .mem d o => (m.memRead va d o n b.c, b)
  | .owned ia => m.ownedRead ia n va pipe b
  | .remote ia =>
    -- bytes of two lines are two packets, each on its own line's plane (R280)
    let k0 := 256 - ia % 256
    if n ≤ k0 then m.readRun m.curCtx.party ia n ia (fun _ => max n (min (k ()) k0)) va pipe b
    else match m.readRun m.curCtx.party ia k0 ia (fun _ => k0) va pipe b with
      | (.done bs m, b) => match m.readRun m.curCtx.party (ia + k0) (n - k0) (ia + k0) (fun _ => n - k0) va pipe b with
        | (.done cs m, b) => (.done (bs ++ cs) m, b)
        | r => r
      | r => r

/-- A poisoned element that would leave the device (R375). -/
def leaveTrap (c : List Nat) : Trap := { cause := .poisonuse, task := true, inblk := true, iter := c }

/-- Whether what is written at a place leaves the device: to a host window, or to another chip (R375). -/
def Mach.leaves (m : Mach) (p : Place) : Bool :=
  match p with
  | .peer party _ _ _ _ => partyChip party ≠ m.hub.chip
  | .owned ia => iaChip ia ≠ m.hub.chip
  | .remote ia => iaChip ia ≠ m.hub.chip || (match areaOf (iaLocal ia) with
    | .host _ _ => true
    | _ => false)
  | .host _ _ => true
  | _ => false

/-! ## Runs of elements written (R281) -/

/-- A packet of a block sent: VA and counters of its first element are kept with the request. -/
def Mach.sendRun (m : Mach) (b : Active) (p : Packet) (va : Word64) (c : List Nat) : Mach :=
  (m.requestAs p { agent := some m.cur, write := true, va := va, off := b.off, iter := some c }).1

/-- Whether `n` bytes from an offset lie on both sides of a multiple of 64. -/
def straddles (off n : Nat) : Bool := off / 64 ≠ (off + n - 1) / 64

/-- Bytes of a run for a slot that its first packet carries: three bytes of single elements on both sides of a multiple of 64 go
in two packets, so that three such bytes in one are one group of 6-bit elements (R157; DESIGN CHOICE, log 50). -/
def firstPart (p : Packet) : Nat :=
  let off := p.addr.toNat % 2 ^ 20
  if p.op = 6 && p.data.length = 3 && straddles off 3 then 64 - off % 64 else p.data.length

/-- The packet that a block has collected is sent. -/
def Mach.sendOut (m : Mach) (b : Active) : Mach × Active :=
  match b.out with
  | none => (m, b)
  | some (p, va, c) =>
    let k := firstPart p
    let part := fun (at' : Nat) (bs : List PByte) =>
      { p with addr := p.addr + BitVec.ofNat 64 at', data := bs, bcnt := bs.length }
    let m := if k = p.data.length then m.sendRun b p va c
      else
        let first := { part 0 (p.data.take k) with arg := p.argRun }
        (m.sendRun b first va c).sendRun b (part k (p.data.drop k)) va c
    (m, { b with out := none })

/-- An element written by a packet: with the run before it, or as the first of a new one (R281). -/
def Mach.putOut (m : Mach) (q : Packet) (va : Nat) (b : Active) : Mach × Active :=
  match b.out with
  | some (p, v, c) =>
    if p.joins q then
      let data := p.data ++ q.data
      (m, { b with out := some ({ q with addr := p.addr, data := data, bcnt := data.length, draws := p.draws ++ q.draws }, v, c) })
    else
      let (m, b) := m.sendOut b
      (m, { b with out := some (q, BitVec.ofNat 64 va, b.c) })
  | none => (m, { b with out := some (q, BitVec.ofNat 64 va, b.c) })

/-- ADDR of a message to a slot: bits 19 to 0 hold the offset; of an element past the slot's 1 MiB they are all ones, and it has
two bytes at least, so that it passes the end of every slot (R157, R282; DESIGN CHOICE, log 50). -/
def slotAddr (party off : Nat) : Word64 := partyAddr party (min off (2 ^ 20 - 1))
def slotBytes (off : Nat) (bs : List PByte) : List PByte := if 2 ^ 20 ≤ off && bs.length = 1 then bs ++ [⟨0, false⟩] else bs

/-- Bytes written by a packet of their own to a slot: a group of 6-bit elements on both sides of a multiple of 64, which the
target writes whole or not at all, and an element past 1 MiB (R157; DESIGN CHOICE, log 50). -/
def slotAlone (off : Nat) (bs : List PByte) : Bool := 2 ^ 20 ≤ off || (bs.length = 3 && straddles off 3)

/-- Bytes written at a place. `last` marks the last write of a PEER window's execution (R157). -/
def Mach.writePlace (m : Mach) (p : Place) (va : Nat) (bs : List PByte) (last : Bool) (b : Active) :
    Acc Unit × Active :=
  let c := b.c
  let tile := m.cur.tile
  if anyPois bs && m.leaves p then (.trap (leaveTrap c), b)
  else match p with
  | .ts o => (.done () (tsWrite m tile o bs), b)
  | .ta _ => (.done () m, b)
  | .cpool k o => (.done () (wrRun m (clKey k o) bs), b)
  | .dpool d o => (.done () (wrRun m (diePoolKey d o) bs), b)
  | .mem d o => (m.memWrite va d o bs c, b)
  | .owned ia =>
    -- the line is filled from its home, so an absent page faults here (R242, R246)
    match m.ownedRead ia bs.length va none b with
    | (.done old m, b) => (.done () (m.cacheWrite (clusterOf tile) ia old bs (bs.length / 8 + 2)), b)
    | (.trap t, b) => (.trap t, b)
    | (.park q t, b) => (.park q t, b)
    | (.wait m, b) => (.wait m, b)
  | .remote ia =>
    let pkt := fun (ia : Nat) (bs : List PByte) => ({ op := 2, addr := BitVec.ofNat 64 ia
                                                      src := BitVec.ofNat 32 m.curCtx.party, dchip := iaChip ia
                                                      bcnt := bs.length, data := bs } : Packet)
    -- bytes of two lines are two packets, each on its own line's plane (R280)
    let k0 := 256 - ia % 256
    let (m, b) := m.putOut (pkt ia (bs.take k0)) va b
    let (m, b) := if bs.length ≤ k0 then (m, b) else m.putOut (pkt (ia + k0) (bs.drop k0)) va b
    (.done () m, b)
  | .host fn addr =>
    (.done () { m with hub := { m.hub with pcie := m.hub.pcie ++ [.write fn (BitVec.ofNat 64 addr) bs] } }, b)
  | .peer party buf slot tag off =>
    let data := slotBytes off bs
    let pkt : Packet :=
      { op := 6, addr := slotAddr party off, src := BitVec.ofNat 32 m.curCtx.party, dchip := partyChip party
        bcnt := data.length, data := data
        arg := syl [(24, tag), (23, last.toNat), (12, buf), (8, slot)] }
    if slotAlone off bs then
      let (m, b) := m.sendOut b
      (.done () (m.sendRun b pkt (BitVec.ofNat 64 va) c), b)
    else
      let (m, b) := m.putOut pkt va b
      (.done () m, b)

/-! ## Elements -/

/-- An element read: its pattern, the format that says what it stands for, and its poison. -/
structure Elem where
  bits : Nat := 0
  fmt : Fmt := .f64
  p : Bool := false
deriving DecidableEq, Repr, Inhabited

/-- The VA of a VM window's byte offset; 0 elsewhere. -/
def Mach.vaOf (m : Mach) (w : Win) (off : Int) : Nat :=
  if w.space = .vm then ((at' Range.blank m.curCtx.maps w.map).lo + w.base + off).toNat else 0

/-- Element `idx` of a window that the block reads, and `more` elements that follow it there contiguously and will be read
next (R95, R153, R183, R281). -/
def Mach.readElem (m : Mach) (win : Nat) (w : Win) (idx : Int) (more : Unit → Nat) (pipe : Option Bool) (b : Active) :
    Acc Elem × Active :=
  if w.space = .ta then
    let e := m.accE m.cur.tile ((w.base : Nat) + idx).toNat
    (.done ⟨e.v.toNat, if e.int then .i64 else .f64, e.p⟩ m, b)
  else
    let (off, n, sh) := elemSpan w.fmt idx
    let run := fun (_ : Unit) =>
      let (off', n', _) := elemSpan w.fmt (idx + (more () : Nat))
      (off' - off + n').toNat
    match m.locate win w false off n .read b with
    | .done p m =>
      match m.readPlace p (m.vaOf w off) n run pipe b with
      | (.done bs m, b) => (.done ⟨valOf bs / 2 ^ sh % 2 ^ w.fmt.width, w.fmt, anyPois bs⟩ m, b)
      | (.trap t, b) => (.trap t, b)
      | (.park q t, b) => (.park q t, b)
      | (.wait m, b) => (.wait m, b)
    | .trap t => (.trap t, b)
    | .park q t => (.park q t, b)
    | .wait m => (.wait m, b)

/-- Whether a place is reached by messages only (R274). -/
def Place.away : Place → Bool
  | .remote _ | .host _ _ | .peer _ _ _ _ _ => true
  | .ts _ | .ta _ | .cpool _ _ | .dpool _ _ | .mem _ _ | .owned _ => false

/-- The bytes of a sub-byte group from its elements' patterns (R35). -/
def groupVal (width : Nat) : List PByte → Nat
  | [] => 0
  | x :: xs => x.b.toNat % 2 ^ width + 2 ^ width * groupVal width xs

/-- A pattern written to element `idx` of a window (R153). A sub-byte element leaves the other bits of its bytes; one
that leaves the package goes with its whole group (R35), whose first elements the block keeps for the window. -/
def Mach.writeElem (m : Mach) (win : Nat) (w : Win) (idx : Int) (pat : Nat) (p : Bool) (b : Active)
    (last : Bool) : Acc Unit × Active :=
  if w.space = .ta then
    (.done () (m.setAcc m.cur.tile ((w.base : Nat) + idx).toNat ⟨BitVec.ofNat 64 pat, w.fmt.isInt, p⟩), b)
  else
    let (off, n, sh) := elemSpan w.fmt idx
    match m.locate win w true off n .write b with
    | .done pl m =>
      if w.fmt.width < 8 then
        if pl.away then
          let g := w.fmt.g
          let i := (idx % (g : Nat)).toNat
          let keep := fun (b : Active) (l : List PByte) => if win = 1 then { b with gotInd := l } else { b with got := l }
          let got := (if win = 1 then b.gotInd else b.got).take i ++ [⟨BitVec.ofNat 8 pat, p⟩]
          if i + 1 < g then (.done () m, keep b got)
          else
            let n := g * w.fmt.width / 8
            let off := (idx - i) * (w.fmt.width : Nat) / 8
            match m.locate win w true off n .write b with
            | .done pl m =>
              match m.writePlace pl (m.vaOf w off) (pbytes n (groupVal w.fmt.width got) (anyPois got)) last b with
              | (.done u m, b) => (.done u m, keep b [])
              | r => r
            | .trap t => (.trap t, b)
            | .park q t => (.park q t, b)
            | .wait m => (.wait m, b)
        else
          match m.readPlace pl (m.vaOf w off) n (fun _ => n) none b with
          | (.done old m, b) =>
            let v := valOf old
            let v := v - v / 2 ^ sh % 2 ^ w.fmt.width * 2 ^ sh + pat % 2 ^ w.fmt.width * 2 ^ sh
            m.writePlace pl (m.vaOf w off) (pbytes n v p) last b
          | (.trap t, b) => (.trap t, b)
          | (.park q t, b) => (.park q t, b)
          | (.wait m, b) => (.wait m, b)
      else m.writePlace pl (m.vaOf w off) (pbytes n pat p) last b
    | .trap t => (.trap t, b)
    | .park q t => (.park q t, b)
    | .wait m => (.wait m, b)

/-! ## Steps 9 and 10 of R379 for one window -/

/-- Address of a base or run start for the record: VA of a VM window, otherwise the offset in its space. -/
def Mach.baseAddr (m : Mach) (i : Instr) (k : Nat) (w : Win) (writes : Bool) (off : Nat) : Nat :=
  match w.space with
  | .vm => (at' Range.blank m.curCtx.maps w.map).lo + w.base + off
  | .ts => m.slotBase i k w writes + w.base + off
  | .ta | .cpx | .peer => w.base + off

/-- The base of window `k` (R94). -/
def Mach.alignBase (m : Mach) (i : Instr) (k : Nat) (w : Win) (writes matrix : Bool) : Option Trap :=
  let code := baseAlign w matrix
  if !alignOk code w.base then
    some { cause := .align, addr := BitVec.ofNat 64 (m.baseAddr i k w writes 0), detail := alignDetail k code }
  else if groupBase w matrix && !alignOk 255 w.base then
    some { cause := .align, addr := BitVec.ofNat 64 (m.baseAddr i k w writes 0), detail := alignDetail k 255 }
  else none

/-- The first failing window of a list of checks. -/
def firstTrap : List (Option Trap) → Option Trap
  | [] => none
  | some t :: _ => some t
  | none :: ts => firstTrap ts

/-- SHAPE of window `k` from an offending value. -/
def shapeTrap (k check : Nat) (v : Option Int) : Option Trap :=
  v.map (fun x => { cause := .shape, detail := shapeDetail k check x })

/-- The base of window `k` of a block with `nl` levels, if bound, lies below its slot size (R94) (DEDUCED, log 27). -/
def Mach.boundBase (m : Mach) (k : Nat) (w : Win) (nl : Nat) : Option Trap :=
  match w.bd with
  | none => none
  | some b =>
    if w.base < (m.curCtx.buf b).size then none
    else some { cause := .badfield
                detail := BitVec.ofNat 64 ((winAt nl k + 1) * 2 ^ 48 + w.w1.toNat) }

/-- BADFIELD of the bound windows of a block, in window order (step 3 of R379). -/
def Mach.boundTraps (m : Mach) (i : Instr) : Option Trap :=
  firstTrap (((List.range i.wins.length).zip i.wins).map (fun x => m.boundBase x.1 x.2.1 i.hdr.counts.length))

end Sys2Proof.Machine
end

