-- ==== Sys2Proof/Machine/Fetch.lean ====
section
/-!
DEFINITION. Reading code, mould tables and side tables through the task's constant ranges (R59, R139, R232, R379 steps
1 and 2), and the instruction at a stream's offset with its patches applied (R142).
-/

namespace Sys2Proof.Machine

open Sys2Proof

/-- What a read of code or of a table gives. -/
inductive Got where
  | ok (bs : List PByte) (m : Mach)
  | trap (t : Trap)
  | wait (m : Mach)

/-- A read of code or of a table that answers later: the stream remembers the request (R274, R283). -/
def Mach.askTable (m : Mach) (va ia n : Nat) : Got :=
  match m.str.rcache.find? (fun e => e.1 = ia && n ≤ e.2.length) with
  | some (_, bs) => .ok (bs.take n) m
  | none =>
    if m.str.rwant.isSome then .wait m
    else
      let (m, tag) := m.requestAs (readPkt ia n m.curCtx.party)
        { agent := some m.cur, write := false, va := BitVec.ofNat 64 va, off := m.str.pc }
      .wait (m.setStr { m.str with rwant := some (tag, ia) })

/-- `n` bytes at a virtual address through a constant range with read permission; anything else is RANGE (R59, R139,
R150) (DEDUCED, log 15). -/
def Mach.readTable (m : Mach) (va n : Nat) : Got :=
  match m.curCtx.translate va n with
  | none => .trap { cause := .range, addr := BitVec.ofNat 64 va, detail := accDetail 0 1 none }
  | some (r, ia) =>
    if r.kind ≠ .constant || !r.rd then
      .trap { cause := .range, addr := BitVec.ofNat 64 va, detail := accDetail 0 2 (some (r, ia)) }
    else
      let here := iaChip ia = m.hub.chip
      let beyond : Got := .trap { cause := .range, addr := BitVec.ofNat 64 va, detail := accDetail 0 3 (some (r, ia)) }
      match areaOf (iaLocal ia) with
      | .mem _ _ => m.askTable va ia n
      | .cpool k o =>
        if here && (m.cluster k).explBytes < o + n then beyond
        else if here && k = clusterOf m.cur.tile then .ok (rdRun m (clKey k o) n) m
        else m.askTable va ia n
      | .dpool k o => if here && (m.die k).explBytes < o + n then beyond else m.askTable va ia n
      | .host _ _ | .regs _ | .boot _ | .none =>
        .trap { cause := .range, addr := BitVec.ofNat 64 va, detail := accDetail 0 1 none }

/-- The syllables of data bytes. -/
def sylsOf (bs : List PByte) : List Word32 := syllables (bs.map (·.b))

/-- `k` words of `w` bytes read one after another from offset `off` of a stream's section, each a read of its own. -/
def Mach.readWords (m : Mach) (code off w : Nat) : Nat → Got
  | 0 => .ok [] m
  | k + 1 =>
    match m.readTable (code + off) w with
    | .ok bs m =>
      match m.readWords code (off + w) w k with
      | .ok cs m => .ok (bs ++ cs) m
      | .trap t => .trap t
      | .wait m => .wait m
    | .trap t => .trap t
    | .wait m => .wait m

/-! ## The side tables of a stream (R64, R120, R121) -/

/-- What is known of a side table, or the state in which its bytes have been asked for. -/
inductive Side (α : Type) where
  | known (a : α)
  | wait (m : Mach)

def Side.bind {α β : Type} (x : Side α) (f : α → Side β) : Side β :=
  match x with
  | .known a => f a
  | .wait m => .wait m

/-- Bytes of a side table of a stream's task; none where no constant range with RD gives them, which R59 asks of software alone.
The hub reads them at their home on this chip as it does the save area; those of another device it asks for (DESIGN CHOICE,
log 35). -/
def Mach.side (m : Mach) (a : Agent) (va n : Nat) : Side (Option (List PByte)) :=
  let m := { m with cur := a }
  let here := fun (d o : Nat) => match m.memRead va d o n [] with
    | .done bs _ => Side.known (some bs)
    | .wait m => .wait m
    | .trap _ | .park _ _ => .known none
  let ask := match m.readTable va n with
    | .ok bs _ => Side.known (some bs)
    | .trap _ => .known none
    | .wait m => .wait m
  match m.curCtx.translate va n with
  | none => .known none
  | some (r, ia) =>
    if r.kind ≠ .constant || !r.rd then .known none
    else if iaChip ia ≠ m.hub.chip then ask
    else if !m.hubOpen ia n then .wait m
    else match areaOf (iaLocal ia) with
      | .mem d o => here d o
      | .cpool k o => .known (if o + n ≤ (m.cluster k).explBytes then some (rdRun m (clKey k o) n) else none)
      | .dpool k o => .known (if o + n ≤ (m.die k).explBytes then some (rdRun m (diePoolKey k o) n) else none)
      | .host _ _ | .regs _ | .boot _ | .none => .known none

/-- The entry of an offset among `k` entries from VA `t`, in ascending order of OFF: SLOT and LIDX (R120). -/
def Mach.findMark (m : Mach) (a : Agent) (off t : Nat) : Nat → Side (Option (Bool × Nat))
  | 0 => .known none
  | k + 1 => (m.side a t 8).bind fun r => match r with
    | none => .known none
    | some e =>
      let w := valOf e
      if w % 2 ^ 32 = off then .known (some (w / 2 ^ 48 % 2 = 1, w / 2 ^ 32 % 2 ^ 16))
      else m.findMark a off (t + 8) k

/-- The safe-point entry of an offset: SLOT and LIDX; none where the table names it not, or the stream has no table. -/
def Mach.safeMark (m : Mach) (a : Agent) (off : Nat) : Side (Option (Bool × Nat)) :=
  let s := m.streamOf a
  let t := s.safe.toNat
  if t = 0 then .known none
  else (m.side a t 8).bind fun r => match r with
    | none => .known none
    | some w => m.findMark a off (t + 8) (min (valOf w) s.clen)

/-- Whether a block stands at an offset. -/
def Mach.blockAt (m : Mach) (a : Agent) (off : Nat) : Bool :=
  match m.side a ((m.streamOf a).code.toNat + off) 4 with
  | .known (some w) => isMajor a.eng (BitVec.ofNat 32 (valOf w))
  | .known none | .wait _ => false

/-- A boundary that is a safe point (R120, R315). -/
def Mach.safeBoundary (m : Mach) (a : Agent) (off : Nat) : Bool :=
  if (m.streamOf a).safe = 0 then m.blockAt a off
  else match m.safeMark a off with
    | .known r => r.isSome
    | .wait _ => false

/-- Whether the slot-level boundaries inside the block at an offset are safe points (R120, R204). -/
def Mach.slotMarked (m : Mach) (a : Agent) (off : Nat) : Bool :=
  match m.safeMark a off with
  | .known (some (slot, _)) => slot
  | .known none => false
  | .wait _ => false

/-- Whether the acting stream's block pauses at a slot-level boundary: a stop is asked for, and the boundary is marked, or that
is not known yet (R204, R314, R315). -/
def Mach.slotSafe (m : Mach) : Bool :=
  m.curCtx.stopping && (match m.safeMark m.cur m.str.pc with
    | .known (some (slot, _)) => slot
    | .known none => false
    | .wait _ => true)

/-- What fetching at a stream's offset gives: an instruction and its length, or what stops it. -/
inductive Fetched where
  | ok (i : Instr) (len : Nat) (m : Mach)
  | trap (len : Nat) (t : Trap) (m : Mach)
  | wait (m : Mach)

/-- The record of a decoding that is refused (R381). -/
def DecErr.toTrap : DecErr → Trap
  | .illop s => { cause := .illop, detail := s.setWidth 64 }
  | .badField i mask => { cause := .badfield, detail := BitVec.ofNat 64 (i * 2 ^ 48) ||| mask.setWidth 64 }
  | .bodyRule r i => { cause := .bodyrule, detail := BitVec.ofNat 64 (r * 2 ^ 56 + i) }

/-- Entries of the pending-patch store for offset `pc`, in ascending PFI (R142). -/
def dueAt (pc : Nat) (ps : List Pending) : List (Nat × Nat) :=
  (List.range 16).filterMap (fun f => (ps.find? (fun p => p.pos = pc && p.pfi = f)).map (fun p => (f, p.v)))

/-- Patches with later ones of the same field in their place (R142, R384), in ascending PFI. -/
def laterPatches (old new : List (Nat × Nat)) : List (Nat × Nat) :=
  (List.range 16).filterMap (fun f => (new ++ old).find? (·.1 = f))

/-- Blocks of the ME issued and not finished (R185). -/
def MatEng.blocks (x : MatEng) : Nat :=
  (x.queue.filter (fun b => !b.instr.isSignal)).length + x.load.toList.length + x.strm.toList.length

/-- The acting stream takes up the patches for the block at its offset: on the ME they stay in the store until the block has
entered the queue (R142, R382). -/
def Mach.takePatches (m : Mach) : Mach :=
  let s := m.str
  m.setStr { s with
    applied := laterPatches s.applied (dueAt s.pc s.pend)
    pend := if m.cur.eng = .me then s.pend else s.pend.filter (fun p => p.pos ≠ s.pc) }

/-- Whether a patch made the block one that is skipped (R71, R101). -/
def Mach.skips (m : Mach) : Bool := m.str.applied.any (fun p => pfiSkips p.1 p.2)

/-- What a refused decoding stops with: a bound window's base comes before the body words (steps 3 and 4 of R379). -/
def Mach.decodeTrap (m : Mach) (ss : List Word32) (d : DecErr) : Trap :=
  match d with
  | .bodyRule _ _ => (if m.skips then none else m.boundTraps (blockInstr .vloop ss)).getD (DecErr.toTrap d)
  | .illop _ | .badField _ _ => DecErr.toTrap d

/-- Steps 1 to 4 of R379 as far as the bits decide them: the instruction at the acting stream's offset, its patches
applied before step 2 (R142). A block of the ME is not looked at while the queue is full (R185); a common instruction, which
does not enter it, issues all the same (DESIGN CHOICE, log 97). -/
def Mach.fetch (m : Mach) : Fetched :=
  let m := m.setStr { m.str with prev := m.str.last }
  let s := m.str
  let e := m.cur.eng
  let w := e.wordBytes
  if s.clen ≤ s.pc then .trap 0 { cause := .brbound, detail := BitVec.ofNat 64 s.clen } m
  else match m.readTable (s.code.toNat + s.pc) w with
    | .trap t => .trap w t m
    | .wait m => .wait m
    | .ok bs m =>
      let s0 := (sylsOf bs).getD 0 0
      if e = .me && isMajor e s0 && 16 ≤ (m.tile m.cur.tile).mat.blocks then .wait m
      else
      let m := m.takePatches
      if !assigned e s0 then .trap w (DecErr.toTrap (.illop s0)) m
      else
        let k := instrWords e s0
        if s.clen < s.pc + k * w then
          .trap (k * w) { cause := .badfield, detail := BitVec.ofNat 64 (0xFFFF * 2 ^ 48) } m
        else match m.readWords s.code.toNat (s.pc + w) w (k - 1) with
          | .trap t => .trap (k * w) t m
          | .wait m => .wait m
          | .ok cs m =>
            let m := m.setStr { m.str with trapLen := k * w }
            let ss := sylsOf (bs ++ cs)
            let ss := match isMajor e s0, Major.of e (bits s0 26 6) with
              | true, some mj => patchAll mj ss m.str.applied
              | _, _ => ss
            match decode e ss with
            | .ok i => .ok i (k * w) (m.setStr { m.str with last := m.position })
            | .error d => .trap (k * w) (m.decodeTrap ss d) m

end Sys2Proof.Machine
end

