-- ==== Sys2Proof/Machine/Blocks.lean ====
section
/-!
DEFINITION. How a control block runs (R71 to R73, R127, R379, R385): issue with its checks, the header wait, slot waits
and signals, the iterations in nest order, the header signal.
-/

namespace Sys2Proof.Machine

open Sys2Proof

/-! ## Where a block stands -/

/-- The block of the acting stream, or of a pipe of the acting tile's matrix engine. -/
def Mach.getB (m : Mach) : Who → Option Active
  | .stream => m.str.blk
  | .pipe load => if load then (m.tile m.cur.tile).mat.load else (m.tile m.cur.tile).mat.strm
def Mach.setB (m : Mach) (w : Who) (b : Option Active) : Mach :=
  match w with
  | .stream => m.setStr { m.str with blk := b }
  | .pipe load =>
    let t := m.tile m.cur.tile
    m.setTile m.cur.tile { t with mat := if load then { t.mat with load := b } else { t.mat with strm := b } }

/-- Length in bytes of a block: the words that its records take (R89). -/
def blockLen (e : Engine) (i : Instr) : Nat := (encode e i).length * 4

/-- What one iteration does. -/
inductive Iter where
  | next (m : Mach) (b : Active)
  | trap (m : Mach) (t : Trap)
  | park (m : Mach) (p : Park) (t : Trap)
  | wait (m : Mach) (b : Active)

/-- An access carried on by `k`; anything but a performed access ends the iteration. -/
def Acc.iter {α : Type} (r : Acc α × Active) (m : Mach) (k : α → Mach → Active → Iter) : Iter :=
  match r with
  | (.done a m, b) => k a m b
  | (.trap t, _) => .trap m t
  | (.park p t, _) => .park m p t
  | (.wait m, b) => .wait m b

/-! ## Waits -/

/-- Whether a block may go on, or must stop where it stands. -/
inductive Ready where
  | go (m : Mach) (b : Active)
  | stop (m : Mach)
  | trap (m : Mach) (t : Trap)

/-- One wait of a block: entered once, in the order of its semaphore (R69, R71, R72). -/
def blockWait (who : Who) (sem n : Nat) (m : Mach) (b : Active) : Ready :=
  if b.granted then .go m { b with granted := false, queued := false }
  else if b.queued then .stop (m.setB who (some b))
  else
    let m := (m.setB who (some { b with queued := true })).enterWait sem n who
    let b := (m.getB who).getD b
    if b.granted then .go m { b with granted := false, queued := false } else .stop m

/-- Tag check of a consumer (R72, R413) (DEDUCED, log 23). -/
def tagTrap (k d ahead : Nat) (x : Buf) (b : Active) : Option Trap :=
  let cc := x.cc + ahead
  let s := cc % x.slots
  let want := (cc / x.slots + 1) % 256
  let found := at' 0 x.tags s
  if found = want then none
  else some
    { cause := .gentag, addr := BitVec.ofNat 64 (x.slotAt s), inblk := true, iter := b.c, off := some b.off
      detail := BitVec.ofNat 64 (k * 2 ^ 60 + d * 2 ^ 55 + s * 2 ^ 51 + want * 2 ^ 40 + found * 2 ^ 32 + cc % 2 ^ 32) }

/-- The slot waits of a slot-level iteration, in window order (R72, R73). `ahead` counts the slot-level iterations that
have issued and whose signals are still to come. -/
def slotWaits (who : Who) (ahead : Nat) : List (Nat × Nat × Bool) → Mach → Active → Ready
  | [], m, b => .go m { b with inSlot := true }
  | (k, d, wr) :: ws, m, b =>
    if b.served.contains k then slotWaits who ahead ws m b
    else
      let x := m.curCtx.buf d
      match blockWait who (if wr then x.empty else x.full) 1 m b with
      | .stop m => .stop m
      | .trap m t => .trap m t
      | .go m b =>
        let place := ahead * b.instr.slotUses d wr + b.instr.slotNth k d wr
        match (if wr then none else tagTrap k d place x b) with
        | some t => .trap (m.setB who (some { b with granted := true })) t
        | none => slotWaits who ahead ws m { b with served := k :: b.served }

/-- The counts and tags at the end of a slot-level iteration, in window order, and the semaphores to signal (R72, R73). -/
def slotCounts : List (Nat × Nat × Bool) → Mach → Mach × List Nat
  | [], m => (m, [])
  | (_, d, wr) :: ws, m =>
    let c := m.curCtx
    let x := c.buf d
    let x' : Buf := if wr then
        { x with tags := put 0 x.tags (x.pc % x.slots) ((x.pc / x.slots + 1) % 256), pc := x.pc + 1 }
      else { x with cc := x.cc + 1 }
    let (m, sems) := slotCounts ws (m.setCurCtx { c with bufs := put Buf.blank c.bufs d x' })
    (m, (if wr then x.full else x.empty) :: sems)

/-- The end of a slot-level iteration: its counts and tags, then its signals, which reach their semaphores in one cycle
(R70, R72, R73; DEDUCED, log 79). -/
def slotSignals (bound : List (Nat × Nat × Bool)) (m : Mach) (b : Active) : Mach :=
  if bound.isEmpty then m
  else
    let (m', sems) := slotCounts bound m
    m'.count (sems.map (fun s => m'.slotSig s b))

/-- Levels of the nest that one slot-level iteration spans: all of them for SLV 7 (R92). -/
def slotSpan (h : Hdr) (levels : Nat) : Nat := if h.slv = 7 then levels else h.slv

/-- Whether a slot-level iteration ends with these counters. -/
def endsSlot (span : Nat) (c counts : List Nat) : Bool :=
  (List.range span).all (fun k => c.getD k 0 + 1 = counts.getD k 1)

/-! ## Running -/

/-- How a block runs: what an iteration does, the counts of its nest, and the levels of one slot-level iteration. -/
structure Plan where
  hdr : Hdr
  bound : List (Nat × Nat × Bool)
  counts : List Nat
  span : Nat
  step : Mach → Active → Iter
  /-- Slot-level iterations issued whose signals are still to come, and what is done when one ends. -/
  ahead : Mach → Nat := fun _ => 0
  ends : Mach → Active → Mach := slotSignals bound
  /-- What issuing does beyond the checks, and what comes before a record at a slot. -/
  issue : Mach → Mach := fun m => m
  halt : Mach → Active → Mach := fun m _ => m
  /-- What is done when every iteration has run, before the header signal. -/
  last : Mach → Active → Iter := fun m b => .next m b
  /-- Whether the block pauses before the next slot-level iteration, so that its stream may stop there. -/
  pauses : Mach → Active → Bool := fun m _ => m.slotSafe

/-- The counters that the block leaves for xop.mov (R146). -/
def lcOf (h : Hdr) (skip : Bool) : List Nat := if skip then [] else h.counts.map (· - 1)

/-- What a block has collected for a packet is sent before it goes on to anything but its next element (R281). -/
def flushOut (m : Mach) (b : Active) (k : Mach → Active → Mach) : Mach :=
  let (m, b) := m.sendOut b
  k m b

/-- A block ends: its header signal is performed and its stream or pipe is free (R71, R385). -/
def blockDone (who : Who) (h : Hdr) (m : Mach) (b : Active) : Mach :=
  let m := m.aged m.cur (m.setB who none)
  let m := match who with
    | .stream => (m.setStr { m.str with lc := lcOf h b.skip }).advance b.len
    | .pipe _ => m
  if h.scnt = 0 then m else m.addReserved m.cur.tile m.cur.ctx h.ssem h.scnt

/-- A failure at an element: every element before it has been performed, and the block stays where it stands (R378,
R397). -/
def blockTrap (who : Who) (m : Mach) (b : Active) (t : Trap) : Mach :=
  flushOut m b fun m b =>
    let m := m.setB who (some { b with cache := [], ahead := none, resp := none, await := none })
    let t := { t with off := some b.off }
    match who with
    | .stream => m.trapAt b.len t
    | .pipe _ => m.takePipe t

/-- An access without its token parks the stream at the element (R399, R400). -/
def blockPark (who : Who) (m : Mach) (b : Active) (p : Park) (t : Trap) : Mach :=
  let m := blockTrap who m b t
  m.setStr { m.str with mode := .parked, park := some p }

/-- A block that can go no further for now. -/
def blockWaits (who : Who) (m : Mach) (b : Active) : Mach := flushOut m b fun m b => m.setB who (some b)

/-- The iterations of a block, as far as they can run; `fuel` bounds their number. -/
def runIters (who : Who) (p : Plan) : Nat → Mach → Active → Mach
  | 0, m, b =>
    match p.last m b with
    | .next m b => flushOut m b (blockDone who p.hdr)
    | .trap m t => blockTrap who m b t
    | .park m q t => blockPark who m b q t
    | .wait m b => blockWaits who m b
  | fuel + 1, m, b =>
    match (if b.inSlot then Ready.go m b else slotWaits who (p.ahead m) p.bound m b) with
    | .stop m => m
    | .trap m t => blockTrap who (p.halt m b) ((m.getB who).getD b) t
    | .go m b =>
      match p.step m b with
      | .wait m b => blockWaits who m b
      | .trap m t => blockTrap who m b t
      | .park m q t => blockPark who m b q t
      | .next m b' =>
        let b' := { b' with left := b.left - 1, done := b.done + 1, c := nextIter b.c p.counts, cache := [] }
        if m.curCtx.dying.isSome then blockWaits who m b'
        else if endsSlot p.span b.c p.counts then
          flushOut m b' fun m b' =>
            let m := p.ends m b
            let b' := { b' with inSlot := false, served := [], ahead := none }
            if m.curCtx.dying.isSome then m.setB who (some b')
            -- a marked slot-level boundary is a safe point: the block goes on in a later step (R120, R204, R315)
            else if fuel ≠ 0 && b'.whole && p.pauses m b' then m.setB who (some b')
            else runIters who p fuel m b'
        else runIters who p fuel m b'

/-- A block that has issued goes on: its header wait first, then, behind the pfence of an earlier sigr, its iterations (R71,
R148). -/
def runBlock (who : Who) (p : Plan) (m : Mach) (b : Active) : Mach :=
  match b.phase with
  | .header =>
    match (if p.hdr.wcnt = 0 then Ready.go m b else blockWait who p.hdr.wsem p.hdr.wcnt m b) with
    | .stop m => m
    | .trap m t => blockTrap who m b t
    | .go m b =>
      -- no access and no header signal before the pfence of an earlier sigr (R148)
      if who = .stream && !m.str.posts.isEmpty then m.setB who (some { b with granted := p.hdr.wcnt ≠ 0 })
      else if b.skip then blockDone who p.hdr m b else runIters who p b.left m { b with phase := .body }
  | .body | .finish => runIters who p b.left m b

/-- The plan of a block whose iterations are those of its nest. -/
def planOf (i : Instr) (step : Mach → Active → Iter) : Plan :=
  { hdr := i.hdr, bound := i.bound, counts := i.hdr.counts, span := slotSpan i.hdr i.hdr.counts.length, step := step }

/-! ## Issue -/

/-- Windows of a block before its shapes: BADFIELD of a bound window, then window by window ALIGN of the base and of the
row or run starts that `rows` checks (R94; steps 3 and 9 of R379) (DEDUCED, log 74). -/
def Mach.baseTraps (m : Mach) (i : Instr) (matrix : Bool) (rows : Nat → Win → Option Trap) : Option Trap :=
  let ws := (List.range i.wins.length).zip i.wins
  match m.boundTraps i with
  | some t => some t
  | none => firstTrap (ws.flatMap (fun x => [m.alignBase i x.1 x.2.1 x.2.2 matrix, rows x.1 x.2.1]))

/-- A block whose windows have no row or run starts of their own. -/
def noRows (_ : Nat) (_ : Win) : Option Trap := none

/-- Grouping, extent and single writes of one window (step 10 of R379). -/
def winShape (k : Nat) (w : Win) (counts : List Nat) (group ext single skipL1 : Bool) : Option Trap :=
  firstTrap
    [if group then shapeTrap k 7 (groupBad w counts) else none,
     if ext then shapeTrap k 1 (extentBad w counts 1) else none,
     if single then shapeTrap k 2 (singleBad w counts skipL1) else none]

/-- Place of an iteration in nest order, from its counters. -/
def nestPlace : List Nat → List Nat → Nat
  | c :: cs, n :: ns => c + n * nestPlace cs ns
  | _, _ => 0

/-- A block that a restored stream issues again takes up its RESUME entry (R316, R322). -/
def Active.resumeAt (b : Active) (r : Option Resume) (counts : List Nat) : Active :=
  match r with
  | none => b
  | some r =>
    if r.inblk then
      let k := nestPlace r.c counts
      { b with phase := .body, c := counts.mapIdx (fun i _ => at' 0 r.c i), done := k, left := b.left - k, served := r.swd }
    else { b with served := r.swd }

/-- A block of the LE, SE or VE that issues (R379): `check` is its steps 3 to 10 beyond the bits; `prep` what is read
at issue. A block that a patched 0 skips (R101) makes neither (DESIGN CHOICE, log 91). -/
def Mach.issueBlock (m : Mach) (i : Instr) (p : Plan) (check : Mach → Option Trap)
    (prep : Mach → Active → Except Trap Active) : Mach :=
  let len := blockLen m.cur.eng i
  let h := i.hdr
  let skip := m.skips
  match (if skip then none else check m) with
  | some t => m.trapAt len t
  | none =>
    let b : Active :=
      { instr := i, off := m.str.pc, len := len, skip := skip, c := p.counts.map (fun _ => 0)
        left := p.counts.foldl (· * ·) 1 }
    match (if skip then .ok b else prep m b) with
    | .error t => m.trapAt len t
    | .ok b =>
      match (if h.scnt = 0 then some m else m.reserve h.ssem h.scnt) with
      | none => m.trapAt len (semsatTrap h.ssem h.scnt 1)
      | some m =>
        let m := if skip then m else p.issue m
        let b := b.resumeAt m.str.resume p.counts
        let m := m.setStr { m.str with resume := none }
        runBlock .stream p (m.aged m.cur (m.setB .stream (some b))) b

/-- A block of the LE, SE or VE: it issues, or goes on where it stands. -/
def Mach.block (m : Mach) (i : Instr) (p : Plan) (check : Mach → Option Trap)
    (prep : Mach → Active → Except Trap Active) : Mach :=
  match m.str.blk with
  | some b => runBlock .stream p m b
  | none => m.issueBlock i p check prep

end Sys2Proof.Machine
end

