-- ==== Sys2Proof/Machine/Pages.lean ====
section
/-!
DEFINITION. Pages as firmware keeps them at a home: frames in use, pins, page-ins asked for (R160, R166, R240, R244,
R403, R404).
-/

namespace Sys2Proof.Machine

open Sys2Proof

/-- Offset in its die's window of the page that holds an offset, and the page's IA. -/
def Page.base (p : Page) (off : Nat) : Nat := off / p.size * p.size
def Mach.pageIa (m : Mach) (d off : Nat) : Word64 := BitVec.ofNat 64 (m.iaOf d ((m.page d off).base off))

/-- 64 KiB frame units of a page (R403). -/
def Page.units (p : Page) : Nat := if p.size = 2 ^ 21 then 32 else 1

/-- A list without repeats, in its order of first appearance. -/
def distinct {α : Type} [BEq α] : List α → List α
  | [] => []
  | x :: xs => x :: (distinct xs).filter (fun y => !(x == y))

/-- Directory entries of a die that hold anything but zero: an entry of zero bytes names an absent page. -/
def Mach.dirEntries (m : Mach) (d : Nat) : List Nat :=
  let lo := hbmKey d (bits64 (m.die d).pdbase 20 17 * 2 ^ 20)
  distinct ((m.mem.filter (fun c => lo ≤ c.1 && c.1 < lo + 2 ^ 20)).map (fun c => (c.1 - lo) / 8))

/-- The pages that a die's directory and page tables list, as window offsets. -/
def Mach.listedPages (m : Mach) (d : Nat) : List Nat :=
  (m.dirEntries d).flatMap (fun n =>
    let o := n * 2 ^ 21
    if (m.page d o).size = 2 ^ 16 then (List.range 32).map (fun k => o + k * 2 ^ 16) else [o])

/-- Pages that hold a frame: an entry in the resident or migrating state names it. -/
def Mach.framed (m : Mach) (d : Nat) : List Nat :=
  (m.listedPages d).filter (fun o => (m.page d o).state = 1 || (m.page d o).state = 2)

/-- Free 64 KiB units of a home (R244, R403). -/
def Mach.freeUnits (m : Mach) (d : Nat) : Nat :=
  (m.die d).frcap - ((m.framed d).map (fun o => (m.page d o).units)).sum

/-- Whether every resident page of the home is pinned or among `ps`, so that no frame can be made free for a probe whose pages
are `ps` (R166, R404). -/
def Mach.noFrame (m : Mach) (d : Nat) (ps : List Word64) : Bool :=
  (m.framed d).all (fun o => (m.page d o).pin || ps.contains (m.pageIa d o))

/-- The PIN bit of an entry set or cleared (R240). -/
def Mach.setPinBit (m : Mach) (d off : Nat) (on : Bool) : Mach :=
  let k := hbmKey d (m.page d off).entry
  let b := rdRaw m k
  { m with mem := store unwritten m.mem k ((b &&& 0x7F#8) ||| (if on then 0x80#8 else 0#8)) }

/-- A pin held for a job or for a scouting block (R160, R166). -/
def Mach.pin (m : Mach) (d off key : Nat) : Mach :=
  let ia := m.pageIa d off
  let x := m.die d
  if x.pins.contains (ia, key) then m else (m.setDie d { x with pins := x.pins ++ [(ia, key)] }).setPinBit d off true

/-- Every pin of a key released: PIN clears on the pages that no other pin holds (R244). -/
def Mach.unpin (m : Mach) (d key : Nat) : Mach :=
  let x := m.die d
  let mine := x.pins.filter (·.2 = key)
  let rest := x.pins.filter (·.2 ≠ key)
  let m := m.setDie d { x with pins := rest }
  mine.foldl (fun m p =>
    if rest.any (·.1 = p.1) then m else m.setPinBit d (iaLocal p.1.toNat % 2 ^ 38) false) m

/-- The pin of a key on one page released (R160, R244). -/
def Mach.unpinPage (m : Mach) (d off key : Nat) : Mach :=
  let ia := m.pageIa d off
  let x := m.die d
  if !x.pins.contains (ia, key) then m
  else
    let rest := x.pins.erase (ia, key)
    let m := m.setDie d { x with pins := rest }
    if rest.any (·.1 = ia) then m else m.setPinBit d off false

/-- A page-in asked of the home's firmware by the stream of a pin key (R166, R404). -/
def Mach.askPage (m : Mach) (d off key : Nat) (ps : List Word64) : Mach :=
  let ia := m.pageIa d off
  let x := m.die d
  m.setDie d { x with
    pageins := x.pageins ++ [{ page := ia, key := key, ps := ps }], noframe := x.noframe.filter (· ≠ (ia, key)) }

/-- Whether a stream's page-in of a page still waits for its turn. -/
def Die.asked (x : Die) (ia : Word64) (key : Nat) : Bool := x.pageins.any (fun r => r.page = ia && r.key = key)

/-- A scouting block's pin key: one for each stream. -/
def scoutKey (a : Agent) : Nat := 2 ^ 32 + (a.tile * 2 + a.ctx.toNat) * 4 + a.eng.code

/-- A stream's requests, refusals and pins at every home end with its block (R160, R315). -/
def Mach.dropScout (m : Mach) (key : Nat) : Mach :=
  (List.range 4).foldl (fun (m : Mach) d =>
    let x := m.die d
    (m.setDie d { x with
      pageins := x.pageins.filter (·.key ≠ key), noframe := x.noframe.filter (·.2 ≠ key) }).unpin d key) m

/-- Die and window offset of a page's IA. -/
def pageDie (ia : Word64) : Nat := iaLocal ia.toNat / 2 ^ 38
def pageOff (ia : Word64) : Nat := iaLocal ia.toNat % 2 ^ 38

end Sys2Proof.Machine
end

