-- ==== Sys2Proof/Machine/LoadStore.lean ====
section
/-!
DEFINITION. The blocks of the load and store engines (R151 to R175).
-/

namespace Sys2Proof.Machine

open Sys2Proof

/-- The draw of stochastic rounding in a window (R42, R153). -/
def winDraw (h : Hdr) (b : Active) : Nat := srDraw h.seed (b.c.getD 0 0 % 65536) 0 b.c

/-- How many iterations after the present one, within its slot-level iteration, read the elements that follow in memory
(R281): `at'` gives the element of an iteration. -/
def contiguous (at' : Active → Int) (counts : List Nat) (span : Nat) : Nat → Active → Nat
  | 0, _ => 0
  | fuel + 1, b =>
    if b.left ≤ 1 || endsSlot span b.c counts then 0
    else
      let b' := { b with c := nextIter b.c counts, done := b.done + 1, left := b.left - 1 }
      if at' b' = at' b + 1 then 1 + contiguous at' counts span fuel b' else 0

/-- The run of elements that a block's read window goes on to read, as far as one line of 256 bytes can hold them. -/
def runOf (h : Hdr) (si : Active → Int) (b : Active) (_ : Unit) : Nat :=
  contiguous si h.counts (slotSpan h h.counts.length) 512 b

/-- One element copied and converted (R153, R158): window `kd` is written at `di`, window `ks` read at `si`. -/
def copyStep (h : Hdr) (kd ks : Nat) (dst src : Win) (di si : Active → Int) (m : Mach) (b : Active) : Iter :=
  Acc.iter (m.readElem ks src (si b) (runOf h si b) none b) m fun e m b =>
    Acc.iter (m.writeElem kd dst (di b) (convert e.fmt dst.fmt (dst.mode h) e.bits (winDraw h b)) e.p b (b.left = 1)) m
      fun _ m b => .next m b

/-- idx of a window in the present iteration (R95). -/
def at_ (w : Win) (b : Active) : Int := idxAt w.stride b.c

/-- Checks of windows in window order: grouping, extent and single writes as asked for (steps 9 and 10 of R379). -/
def lsCheck (i : Instr) (whole : Option Trap) (shapes : List (Option Trap)) (m : Mach) : Option Trap :=
  match m.baseTraps i false noRows with
  | some t => some t
  | none => match whole with
    | some t => some t
    | none => firstTrap shapes

/-- A rule over the whole block is broken (R381). -/
def wholeTrap (check : Nat) (ok : Bool) (v : Nat) : Option Trap :=
  if ok then none else shapeTrap 15 check (some (v : Int))

def noPrep (_ : Mach) (b : Active) : Except Trap Active := .ok b

/-! ## Copies (R158, R160) -/

/-- The pages of a VM source element, when it lies in device memory of this chip: two of a 6-bit element whose bytes lie in
both (DEDUCED, log 18). -/
def Mach.srcPages (m : Mach) (w : Win) (idx : Int) : List Word64 :=
  let (off, n, _) := elemSpan w.fmt idx
  match m.curCtx.translate (m.vaOf w off) n with
  | none => []
  | some (_, ia) =>
    if iaChip ia ≠ m.hub.chip then []
    else match areaOf (iaLocal ia) with
      | .mem d o => distinct [m.pageIa d o, m.pageIa d (o + (n - 1))]
      | _ => []

/-- The distinct pages that the nest reaches from counters `c` on, up to `want` of them; `fuel` bounds the iterations
looked at. -/
def Mach.pagesAhead (m : Mach) (w : Win) (counts : List Nat) : Nat → Nat → List Nat → List Word64 → List Word64
  | 0, _, _, acc => acc
  | fuel + 1, want, c, acc =>
    if want ≤ acc.length then acc
    else
      let acc := acc ++ (m.srcPages w (idxAt w.stride c)).filter (fun p => !acc.contains p)
      m.pagesAhead w counts fuel want (nextIter c counts) acc

/-- Page-ins asked for absent pages of a list, in order (R160, R404). -/
def Mach.askPages (m : Mach) (key : Nat) (ps : List Word64) : Mach :=
  ps.foldl (fun (m : Mach) p =>
    let d := pageDie p
    let o := pageOff p
    if (m.page d o).state = 0 && !(m.die d).asked p key then m.askPage d o key [] else m) m

/-- Whether the nest reaches a page again from the present iteration on. -/
def Mach.reaches (m : Mach) (w : Win) (counts : List Nat) (q : Word64) : Nat → List Nat → Bool
  | 0, _ => false
  | fuel + 1, c => (m.srcPages w (idxAt w.stride c)).contains q || m.reaches w counts q fuel (nextIter c counts)

/-- The pin of the page of the access before, once that was the last one to it (R160, R244). -/
def Mach.scoutLeave (m : Mach) (h : Hdr) (src : Win) (q : Word64) (b : Active) : Mach :=
  match b.pages.getLast? with
  | none => m
  | some p =>
    if p = q || m.reaches src h.counts p b.left b.c then m else m.unpinPage (pageDie p) (pageOff p) (scoutKey m.cur)

/-- The scout before an access to page `q` (R160): page-ins of it and of the next SPG pages. `b.pages` holds the pages
reached, the present one last. -/
def Mach.scoutPage (m : Mach) (h : Hdr) (src : Win) (spg : Nat) (b : Active) (q : Word64) : Mach × Active :=
  let m := if b.pages.getLast? = some q then m else m.scoutLeave h src q b
  let m := if b.pages.contains q then m
    else m.askPages (scoutKey m.cur) (m.pagesAhead src h.counts b.left (spg + 1) b.c [])
  (m, if b.pages.getLast? = some q then b else { b with pages := b.pages.filter (· ≠ q) ++ [q] })

/-- The scout before an access (R160): the page-ins, and the wait for each page of the element. A page that cannot be made
resident is accessed as it is. -/
def scoutStep (h : Hdr) (src : Win) (spg : Nat) (next : Mach → Active → Iter) (m : Mach) (b : Active) : Iter :=
  let qs := m.srcPages src (at_ src b)
  let (m, b) := qs.foldl (fun r q => r.1.scoutPage h src spg r.2 q) (m, b)
  let awaited := fun (q : Word64) =>
    (m.page (pageDie q) (pageOff q)).state = 0 && (m.die (pageDie q)).asked q (scoutKey m.cur)
  if qs.any awaited then .wait m b else next m b

/-- The scout's pins end with the block (R160). -/
def scoutEnd (m : Mach) (b : Active) : Iter := .next (m.dropScout (scoutKey m.cur)) b

/-- ldw (R158, R160). -/
def execLdw (h : Hdr) (dst src : Win) (scout : Bool) (spg : Nat) (s : State) : Host.Outcome State Fault Refusal :=
  let i : Instr := .ldw h dst src scout spg
  let copy := copyStep h 0 1 dst src (at_ dst) (at_ src)
  let p := if scout then { planOf i (scoutStep h src spg copy) with last := scoutEnd } else planOf i copy
  act (fun m => m.block i p
    (lsCheck i none [winShape 0 dst h.counts true true true false, winShape 1 src h.counts true true false false])
    noPrep) s

/-- stw (R158). -/
def execStw (h : Hdr) (dst src : Win) (s : State) : Host.Outcome State Fault Refusal :=
  let i : Instr := .stw h dst src
  act (fun m => m.block i (planOf i (copyStep h 0 1 dst src (at_ dst) (at_ src)))
    (lsCheck i none [winShape 0 dst h.counts true true true false, winShape 1 src h.counts true true false false])
    noPrep) s

/-! ## Gathers and scatters (R161) -/

/-- Sign- or zero-extended value of an integer element. -/
def intVal (f : Fmt) (bits : Nat) : Int :=
  match f with
  | .ui8 | .ui4 => (bits % 2 ^ f.width : Nat)
  | _ => sextNat f.width bits

/-- k(c) of R161. -/
def rowIdx (w : Win) (c : List Nat) (g : Int) : Int :=
  idxAt (w.stride.set 1 0) c + g * w.stride.getD 1 0

/-- The index list read at issue in nest order, each row checked against EXTENT (R161, R375): window `kr` is the row
window, `w2` the index window (DEDUCED, log 17). -/
def Mach.gather (m : Mach) (i : Instr) (kr : Nat) (row w2 : Win) (h : Hdr) : Nat → List Nat → Nat → List Int → Except Trap (List Int)
  | 0, _, _, acc => .ok acc.reverse
  | fuel + 1, c, t, acc =>
    -- a bound list lies in the slot that the iteration's slot-level iteration uses
    let span := ((List.range h.slv).map (fun k => h.counts.getD k 1)).foldl (· * ·) 1
    let from_ := if m.str.resume.any (·.inblk) then nestPlace (m.str.resume.getD {}).c h.counts / span else 0
    let ahead := if h.slv = 7 then 0 else t / span
    let base := match w2.bd with
      | none => 0
      | some d =>
        let x := m.curCtx.buf d
        let u := i.slotUses d false
        x.slotAt ((x.cc + i.slotNth 2 d false + ahead * u - from_ * u) % x.slots)
    let (off, n, _) := elemSpan w2.fmt (idxAt w2.stride c)
    let bs := tsRead m m.cur.tile (((base + w2.base : Nat) : Int) + off).toNat n
    if anyPois bs then .error { cause := .poisonuse, task := true }
    else
      let k := rowIdx row c (intVal w2.fmt (valOf bs))
      if k < 0 ∨ (row.extent : Int) ≤ k then
        .error { cause := .shape, detail := shapeDetail kr 3 k }
      else m.gather i kr row w2 h fuel (nextIter c h.counts) (t + 1) (k :: acc)

/-- The list is kept with the block (R161). -/
def gatherPrep (i : Instr) (kr : Nat) (row w2 : Win) (h : Hdr) (m : Mach) (b : Active) : Except Trap Active :=
  match m.gather i kr row w2 h b.left b.c 0 [] with
  | .ok l => .ok { b with idx := l }
  | .error t => .error t

/-- ldg (R161). -/
def execLdg (h : Hdr) (dst src idx : Win) (s : State) : Host.Outcome State Fault Refusal :=
  let i : Instr := .ldg h dst src idx
  act (fun m => m.block i
    (planOf i (copyStep h 0 1 dst src (at_ dst) (fun b => b.idx.getD b.done 0)))
    (lsCheck i none [winShape 0 dst h.counts true true true false, winShape 1 src h.counts true false false false])
    (fun m b => match gatherPrep i 1 src idx h m b with
      | .error t => .error t
      | .ok b => match winShape 2 idx h.counts true true false false with
        | some t => .error t
        | none => .ok b)) s

/-- sts (R161). -/
def execSts (h : Hdr) (dst src idx : Win) (s : State) : Host.Outcome State Fault Refusal :=
  let i : Instr := .sts h dst src idx
  act (fun m => m.block i
    (planOf i (copyStep h 0 1 dst src (fun b => b.idx.getD b.done 0) (at_ src)))
    (lsCheck i none [winShape 0 dst h.counts true false true true])
    (fun m b => match gatherPrep i 0 dst idx h m b with
      | .error t => .error t
      | .ok b => match firstTrap [winShape 1 src h.counts true true false false,
            winShape 2 idx h.counts true true false false] with
        | some t => .error t
        | none => .ok b)) s

/-! ## Convolution (R162, R163) -/

/-- Image row or column of an iteration: output position times the step, plus the kernel's offset, less the
padding. -/
def convPos (o step k d pad : Nat) : Int := ((o * step + k * d : Nat) : Int) - (pad : Int)

/-- Image coordinates (iy, ix) of an iteration (R162). -/
def convAt (src : Win) (pad : Pad) (sh sw : Nat) (c : List Nat) : Int × Int :=
  let d := src.dil + 1
  (convPos (c.getD 4 0) sh (c.getD 2 0) d pad.t, convPos (c.getD 3 0) sw (c.getD 1 0) d pad.l)

/-- Element index in the image. -/
def convIdx (src : Win) (c : List Nat) (iy ix : Int) : Int :=
  (c.getD 0 0 : Nat) * src.stride.getD 0 0 + ix * src.stride.getD 1 0 + iy * src.stride.getD 2 0

/-- Output size of R163 (DEDUCED, log 29). -/
def convOut (i p0 p1 k d step : Nat) : Int :=
  let n : Int := (i + p0 + p1 : Nat) - (d * (k - 1) + 1 : Nat)
  Int.tdiv n (step : Nat) + 1

/-- Least and greatest of a list. -/
def bounds : List Int → Option (Int × Int)
  | [] => none
  | x :: xs => match bounds xs with
    | none => some (x, x)
    | some (lo, hi) => some (min x lo, max x hi)

/-- Positions inside the image that two levels reach. -/
def convReach (no nk step d pad size : Nat) : List Int :=
  (List.range no).flatMap (fun o => ((List.range nk).map (fun k => convPos o step k d pad)).filter
    (fun x => 0 ≤ x && x < (size : Int)))

/-- The R95 check of an image: only the positions inside it that the nest reaches (R163). -/
def imageBad (src : Win) (pad : Pad) (sh sw ih iw : Nat) (h : Hdr) : Option Int :=
  let d := src.dil + 1
  match bounds (convReach (h.count 4) (h.count 2) sh d pad.t ih), bounds (convReach (h.count 3) (h.count 1) sw d pad.l iw) with
  | some (y0, y1), some (x0, x1) =>
    let term := fun (s a z : Int) => (min (s * a) (s * z), max (s * a) (s * z))
    let (c0, c1) := term (src.stride.getD 0 0) 0 ((h.count 0 : Nat) - 1 : Int)
    let (p0, p1) := term (src.stride.getD 1 0) x0 x1
    let (q0, q1) := term (src.stride.getD 2 0) y0 y1
    let lo := c0 + p0 + q0
    let hi := c1 + p1 + q1
    if lo < 0 then some lo else if (src.extent : Int) ≤ hi then some hi else none
  | _, _ => none

/-- The first rule of R163 that the counts break, with the offending count. -/
def convBad (src : Win) (pad : Pad) (kh kw sh sw ih iw : Nat) (h : Hdr) : Option Int :=
  let d := src.dil + 1
  let oh := convOut ih pad.t pad.b kh d sh
  let ow := convOut iw pad.l pad.r kw d sw
  if h.count 1 ≠ kw then some (h.count 1 : Nat)
  else if h.count 2 ≠ kh then some (h.count 2 : Nat)
  else if ow < (h.count 3 : Nat) then some (h.count 3 : Nat)
  else if oh < (h.count 4 : Nat) then some (h.count 4 : Nat)
  else none

/-- One element of an im2col row (R162). -/
def convStep (h : Hdr) (dst src : Win) (pad : Pad) (sh sw ih iw : Nat) (m : Mach) (b : Active) : Iter :=
  let (iy, ix) := convAt src pad sh sw b.c
  if 0 ≤ iy ∧ iy < (ih : Int) ∧ 0 ≤ ix ∧ ix < (iw : Int) then
    copyStep h 0 1 dst src (at_ dst) (fun b => convIdx src b.c iy ix) m b
  else
    Acc.iter (m.writeElem 0 dst (at_ dst b) (convert src.fmt dst.fmt (dst.mode h) (pad.v.toNat % 2 ^ src.fmt.width) (winDraw h b))
      false b (b.left = 1)) m fun _ m b => .next m b

/-- ldc (R162, R163). -/
def execLdc (h : Hdr) (dst src : Win) (pad : Pad) (kh kw sh sw ih iw : Nat) (s : State) :
    Host.Outcome State Fault Refusal :=
  let i : Instr := .ldc h dst src pad kh kw sh sw ih iw
  act (fun m => m.block i (planOf i (convStep h dst src pad sh sw ih iw))
    (lsCheck i (shapeTrap 15 4 (convBad src pad kh kw sh sw ih iw h))
      [winShape 0 dst h.counts true true true false, winShape 1 src h.counts true false false false,
       shapeTrap 1 1 (imageBad src pad sh sw ih iw h)]) noPrep) s

/-! ## Scalars (R164, R165) -/

/-- A register's value from an element: sign-extended for I formats, else zero-extended; 64 bits of a TA entry. -/
def extend64 (f : Fmt) (bits : Nat) : Word64 :=
  match f with
  | .i64 | .i32 | .i16 | .i8 | .i4 => BitVec.ofInt 64 (sextNat f.width bits)
  | _ => BitVec.ofNat 64 (bits % 2 ^ f.width)

/-- ldx (R164). -/
def execLdx (h : Hdr) (src : Win) (xd xn : Nat) (s : State) : Host.Outcome State Fault Refusal :=
  let i : Instr := .ldx h src xd xn
  act (fun m => m.block i
    (planOf i (fun m b => Acc.iter (m.readElem 0 src (at_ src b) (runOf h (at_ src) b) none b) m fun e m b =>
      .next (m.setX (xd + b.done) ⟨extend64 e.fmt e.bits, e.p⟩) b))
    (lsCheck i (wholeTrap 5 (h.total = xn + 1) h.total) [winShape 0 src h.counts true true false false]) noPrep) s

/-- A register as an element: the signed value clamped for an integer format, else its low bits (R165). -/
def narrow64 (f : Fmt) (x : Word64) : Nat :=
  if f.isInt then wrapNat f.width (clamp f.intMin f.intMax x.toInt) else x.toNat % 2 ^ f.width

/-- stx (R165). -/
def execStx (h : Hdr) (dst : Win) (xs xn : Nat) (s : State) : Host.Outcome State Fault Refusal :=
  let i : Instr := .stx h dst xs xn
  act (fun m => m.block i
    (planOf i (fun m b =>
      let r := b.xs.getD b.done {}
      Acc.iter (m.writeElem 0 dst (at_ dst b) (narrow64 dst.fmt r.v) r.p b (b.left = 1)) m fun _ m b => .next m b))
    (lsCheck i (wholeTrap 5 (h.total = xn + 1) h.total) [winShape 0 dst h.counts true true true false])
    (fun m b => .ok { b with xs := (List.range (xn + 1)).map (fun k => m.xr (xs + k)) })) s

/-! ## Pages and lines (R166 to R169) -/

/-- The pages of a probe in nest order, or the access that fails its check (R152, R166). -/
def Mach.probePages (m : Mach) (w : Win) (counts : List Nat) : Nat → List Nat → List Word64 → Except Trap (List Word64)
  | 0, _, acc => .ok acc
  | fuel + 1, c, acc =>
    let (off, n, _) := elemSpan w.fmt (idxAt w.stride c)
    let va := m.vaOf w off
    let bad := fun (cause : Cause) (why : Nat) (r : Option (Range × Nat)) =>
      (.error { cause := cause, addr := BitVec.ofNat 64 va, detail := accDetail 0 why r, inblk := true, iter := c } :
        Except Trap (List Word64))
    match m.curCtx.translate va n with
    | none => bad .range 1 none
    | some (r, ia) =>
      if r.kind = .host then bad .kindviol 5 (some (r, ia))
      else if !r.rd && !r.w then bad .range 2 (some (r, ia))
      else
        let pages := if iaChip ia ≠ m.hub.chip then [] else match areaOf (iaLocal ia) with
          | .mem d o => distinct [m.pageIa d o, m.pageIa d (o + (n - 1))]
          | _ => []
        m.probePages w counts fuel (nextIter c counts) (acc ++ pages.filter (fun p => !acc.contains p))

/-- Pages in ascending IA order. -/
def insPage (x : Word64) : List Word64 → List Word64
  | [] => [x]
  | y :: ys => if x.toNat < y.toNat then x :: y :: ys else y :: insPage x ys

/-- Whether some home needs more frame units than FRCAP gives (R403). -/
def Mach.tooBig (m : Mach) (ps : List Word64) : Bool :=
  (List.range 4).any (fun d =>
    (m.die d).frcap < ((ps.filter (fun p => pageDie p = d)).map (fun p => (m.page d (pageOff p)).units)).sum)

/-- probe ends (R166, R167): the resident pages of P stay pinned for the job, and the result is written. -/
def probeEnd (m : Mach) (b : Active) (xs status nres : Nat) : Iter :=
  let job := m.curCtx.job
  let m := b.pages.foldl (fun m p =>
    if (m.page (pageDie p) (pageOff p)).state = 1 then m.pin (pageDie p) (pageOff p) job else m) m
  .next ((m.dropScout (scoutKey m.cur)).setX xs ⟨BitVec.ofNat 64 (nres * 2 ^ 32 + status), false⟩) b

/-- The pages of P taken in turn (R166, R167, R404). `b.idx` holds the pages brought in, the position in P, and whether the page
there was asked for by this probe; the home tells with its pin whether the page-in was the probe's own. A page found resident or
brought in keeps its frame until the probe ends. -/
def probeLoop (xs : Nat) (m : Mach) (b : Active) : Nat → Iter
  | 0 => probeEnd m b xs 0 (b.idx.getD 0 0).toNat
  | fuel + 1 =>
    let nres := (b.idx.getD 0 0).toNat
    let k := (b.idx.getD 1 0).toNat
    let asked := b.idx.getD 2 0 = 1
    let key := scoutKey m.cur
    match b.pages[k]? with
    | none => probeEnd m b xs 0 nres
    | some p =>
      let d := pageDie p
      let o := pageOff p
      let x := m.die d
      match (m.page d o).state with
      | 1 =>
        let own := asked && x.pins.contains (p, key)
        probeLoop xs (m.pin d o key) { b with idx := [((if own then nres + 1 else nres : Nat) : Int), (k + 1 : Nat), 0] } fuel
      | 2 => .wait m b
      | st =>
        if x.asked p key then .wait m b
        else if x.noframe.contains (p, key) then probeEnd m b xs 1 nres
        else if st = 3 && asked then probeEnd m b xs 3 nres
        else .wait (m.askPage d o key b.pages) { b with idx := [(nres : Nat), (k : Nat), 1] }

/-- P as the directory stands when probe issues, and whether it is TOOBIG (R166, R403); an access that fails its check is
met as the block runs. -/
def probePrep (h : Hdr) (src : Win) (m : Mach) (b : Active) : Except Trap Active :=
  match m.probePages src h.counts h.total (h.counts.map (fun _ => 0)) [] with
  | .error _ => .ok b
  | .ok ps =>
    let ps := ps.foldl (fun acc p => insPage p acc) []
    .ok { b with pages := ps, idx := [0, 0, 0, if m.tooBig ps then 1 else 0] }

/-- What probe does once its header wait is served. -/
def probeStep (h : Hdr) (src : Win) (xs : Nat) (m : Mach) (b : Active) : Iter :=
  if b.idx.isEmpty then
    match m.probePages src h.counts h.total (h.counts.map (fun _ => 0)) [] with
    | .error t => .trap m t
    | .ok _ => probeEnd m b xs 0 0
  else if b.idx.getD 3 0 = 1 then probeEnd m b xs 2 0
  else probeLoop xs m b (b.pages.length + 1)

/-- probe (R166, R167). -/
def execProbe (h : Hdr) (src : Win) (xs : Nat) (s : State) : Host.Outcome State Fault Refusal :=
  let i : Instr := .probe h src xs
  let p : Plan := { planOf i (probeStep h src xs) with counts := [], span := 0 }
  act (fun m => m.block i p (lsCheck i none [winShape 0 src h.counts true true false false]) (probePrep h src)) s

/-- pref (R169): it changes no value that any party reads, and never faults on an access. -/
def execPref (h : Hdr) (src : Win) (s : State) : Host.Outcome State Fault Refusal :=
  let i : Instr := .pref h src
  act (fun m => m.block i { planOf i (fun m b => .next m b) with counts := [], span := 0 }
    (lsCheck i none [winShape 0 src h.counts true true false false]) noPrep) s

/-! ## Waits on memory and atomics (R159, R170 to R173) -/

/-- A condition on 64-bit values (R88). -/
def condHolds (c : Cond) (a b : Word64) : Bool :=
  match c with
  | .eq => a = b
  | .ne => a ≠ b
  | .lt => a.slt b
  | .ge => !a.slt b
  | .ltu => a.ult b
  | .geu => !a.ult b

/-- The value waitm has read: it goes on when the condition holds; a poisoned value is a use (R173, R375). -/
def waitmTest (c : Cond) (xv xr : Nat) (f : Fmt) (bs : List PByte) (m : Mach) (b : Active) : Iter :=
  if anyPois bs || (m.xr xv).p then .trap m { cause := .poisonuse, task := true, inblk := true, iter := b.c }
  else
    let v := extend64 f (valOf bs)
    if condHolds c v (m.xr xv).v then .next (m.setX xr ⟨v, false⟩) b else .wait m { b with cache := [], ahead := none }

/-- waitm (R173). -/
def execWaitm (h : Hdr) (src : Win) (c : Cond) (sc : Scope) (xv xr : Nat) (s : State) :
    Host.Outcome State Fault Refusal :=
  let i : Instr := .waitm h src c sc xv xr
  act (fun m => m.block i (planOf i (fun m b =>
      let (off, n, _) := elemSpan src.fmt (at_ src b)
      match m.locate 0 src false off n .waitm b with
      | .trap t => .trap m t
      | .park p t => .park m p t
      | .wait m => .wait m b
      | .done (.remote ia) m =>
        if (m.xr xv).p then .trap m { cause := .poisonuse, task := true, inblk := true, iter := b.c }
        else
          let pkt : Packet :=
            { op := 5, addr := BitVec.ofNat 64 ia, src := BitVec.ofNat 32 m.curCtx.party, dchip := iaChip ia
              bcnt := 8, data := pbytes 8 (m.xr xv).v.toNat false, arg := syl [(29, c.code), (24, src.fmt.code)] }
          Acc.iter (m.readAway ia n (fun m => m.requestAs pkt
              { agent := some m.cur, write := false, va := BitVec.ofNat 64 (m.vaOf src off), off := b.off, iter := some b.c }) b) m
            fun bs m b => waitmTest c xv xr src.fmt bs m b
      | .done p m => Acc.iter (m.readPlace p (m.vaOf src off) n (fun _ => n) none b) m
          fun bs m b => waitmTest c xv xr src.fmt bs m b))
    (lsCheck i none [winShape 0 src h.counts true true false false]) noPrep) s

/-- The element after an atomic (R170). -/
def atomVal (op : AOp) (f : Fmt) (mode : RMode) (old a b r : Nat) : Nat :=
  let w := f.width
  let a := a % 2 ^ w
  match op with
  | .add => (old + a) % 2 ^ w
  | .fadd => radd f mode old (f.value a) r
  | .min => if sextNat w a < sextNat w old then a else old
  | .max => if sextNat w old < sextNat w a then a else old
  | .and => Nat.land old a
  | .or => Nat.lor old a
  | .xor => Nat.xor old a
  | .swap => a
  | .cas => if old = a then b % 2 ^ w else old

/-- A read-modify-write at a place of this chip: the old bytes (R250, R251). -/
def Mach.rmw (m : Mach) (p : Place) (va n : Nat) (f : List PByte → List PByte) (b : Active) :
    Acc (List PByte) × Active :=
  match m.readPlace p va n (fun _ => n) none b with
  | (.done old m, b) =>
    match m.writePlace p va (f old) false b with
    | (.done _ m, b) => (.done old m, b)
    | (.trap t, b) => (.trap t, b)
    | (.park q t, b) => (.park q t, b)
    | (.wait m, b) => (.wait m, b)
  | (.trap t, b) => (.trap t, b)
  | (.park q t, b) => (.park q t, b)
  | (.wait m, b) => (.wait m, b)

/-- ADDR and ARG of a message to a window's element: an IA, or a slot of another party (R282, R283). -/
def msgTo (m : Mach) (op : Nat) (p : Place) (arg : List (Nat × Nat)) (data : List PByte) : Packet :=
  match p with
  | .peer party buf slot _ off =>
    { op := op + 4, addr := slotAddr party off, src := BitVec.ofNat 32 m.curCtx.party, dchip := partyChip party
      bcnt := data.length, data := data, arg := syl (arg ++ [(12, buf), (8, slot)]) }
  | .remote ia =>
    { op := op, addr := BitVec.ofNat 64 ia, src := BitVec.ofNat 32 m.curCtx.party, dchip := iaChip ia
      bcnt := data.length, data := data, arg := syl arg }
  | _ => {}

/-- Whether an atom block must hold until its release fence completes (R171). -/
def atomHeld (m : Mach) (ord : AOrd) (sc : Scope) (b : Active) : Bool :=
  b.done = 0 && (ord = .rel || ord = .ar) && !m.fenceDone sc

/-- The old value of an atomic as it is returned (R171): poisoned by either operand (R374). -/
def oldReg (f : Fmt) (bs : List PByte) (pois : Bool) : XReg := ⟨extend64 f (valOf bs), pois || anyPois bs⟩

/-- One atomic of an atom block (R171) (DEDUCED, log 31). -/
def atomStep (h : Hdr) (dst : Win) (op : AOp) (ord : AOrd) (sc : Scope) (f : Bool) (m : Mach) (b : Active) : Iter :=
  if atomHeld m ord sc b then .wait m b
  else
    let a := b.xs.getD 0 {}
    let b2 := b.xs.getD 1 {}
    let pois := a.p || (op = .cas && b2.p)
    let (off, n, _) := elemSpan dst.fmt (at_ dst b)
    match m.locate 0 dst true off n .atom b with
    | .trap t => .trap m t
    | .park p t => .park m p t
    | .wait m => .wait m b
    | .done p m =>
      if p.away then
        if pois && m.leaves p then .trap m (leaveTrap b.c)
        else
          let data := pbytes 8 a.v.toNat a.p ++ (if op = .cas then pbytes 8 b2.v.toNat b2.p else [])
          let pkt := { msgTo m 3 p [(28, op.code), (24, dst.fmt.code), (23, f.toNat), (20, (dst.mode h).code)] data with
            draws := [winDraw h b] }
          let ask := fun (m : Mach) => m.requestAs pkt
            { agent := some m.cur, write := true, va := BitVec.ofNat 64 (m.vaOf dst off), off := b.off, iter := some b.c }
          if f || ord = .acq || ord = .ar then
            Acc.iter (m.readAway (2 ^ 90) n ask b) m fun bs m b => .next m { b with last := oldReg dst.fmt bs pois }
          else .next (ask m).1 b
      else
        Acc.iter (m.rmw p (m.vaOf dst off) n (fun old =>
          pbytes n (atomVal op dst.fmt (dst.mode h) (valOf old) a.v.toNat b2.v.toNat (winDraw h b))
            (pois || anyPois old)) b) m fun old m b => .next m { b with last := oldReg dst.fmt old pois }

/-- atom (R170 to R172). -/
def execAtom (h : Hdr) (dst : Win) (op : AOp) (ord : AOrd) (sc : Scope) (f : Bool) (xd xa xb : Nat) (s : State) :
    Host.Outcome State Fault Refusal :=
  let i : Instr := .atom h dst op ord sc f xd xa xb
  act (fun m => m.block i
    { planOf i (atomStep h dst op ord sc f) with
      last := fun m b => .next (if f then m.setX xd b.last else m) b }
    (lsCheck i none [winShape 0 dst h.counts true true false false])
    (fun m b => .ok { b with xs := [m.xr xa, m.xr xb] })) s

/-- One element added at its memory (R158, R159). -/
def stredStep (h : Hdr) (dst src : Win) (m : Mach) (b : Active) : Iter :=
  Acc.iter (m.readElem 1 src (at_ src b) (fun _ => 0) none b) m fun e m b =>
    let (off, n, _) := elemSpan dst.fmt (at_ dst b)
    match m.locate 0 dst true off n .stred b with
    | .trap t => .trap m t
    | .park p t => .park m p t
    | .wait m => .wait m b
    | .done p m =>
      if p.away then
        if e.p && m.leaves p then .trap m (leaveTrap b.c)
        else
          let pkt := msgTo m 4 p [(28, e.fmt.code), (24, dst.fmt.code), (20, (dst.mode h).code)]
            (pbytes ((e.fmt.width + 7) / 8) e.bits e.p)
          let (m, b) := m.putOut { pkt with draws := [winDraw h b] } (m.vaOf dst off) b
          .next m b
      else
        Acc.iter (m.rmw p (m.vaOf dst off) n (fun old =>
          pbytes n (radd dst.fmt (dst.mode h) (valOf old) (e.fmt.value e.bits) (winDraw h b)) (e.p || anyPois old))
          b) m fun _ m b => .next m b

/-- stred (R158, R159). -/
def execStred (h : Hdr) (dst src : Win) (s : State) : Host.Outcome State Fault Refusal :=
  let i : Instr := .stred h dst src
  act (fun m => m.block i (planOf i (stredStep h dst src))
    (lsCheck i none [winShape 0 dst h.counts true true false false, winShape 1 src h.counts true true false false])
    noPrep) s

/-! ## Selection in transit (R174) -/

/-- Whether a value ranks before another: greater numbers first, NaN last (R174, R220). -/
def ranksBefore (x y : Num) : Bool :=
  match x.isNan, y.isNan with
  | true, _ => false
  | false, true => true
  | false, false => y.lt x

/-- Insertion in rank order, equal ranks by ascending index. -/
def insRank (x : Num × Elem × Nat) : List (Num × Elem × Nat) → List (Num × Elem × Nat)
  | [] => [x]
  | y :: ys => if ranksBefore x.1 y.1 then x :: y :: ys else y :: insRank x ys

/-- The source row of the ranks to come: `c` with L0 running over the row (DESIGN CHOICE, log 16). -/
def readRow (src : Win) (m : Mach) (b : Active) (c : List Nat) : Nat → Nat → List (Num × Elem × Nat) →
    Option (List (Num × Elem × Nat))
  | 0, _, acc => some acc
  | fuel + 1, i, acc =>
    match (m.readElem 2 src (idxAt src.stride (i :: c.drop 1)) (fun _ => 0) none b).1 with
    | .done e _ => readRow src m b c fuel (i + 1) (insRank (e.fmt.value e.bits, e, i) acc)
    | _ => none

/-- The row of a new c' read and put in order, once: the block keeps the elements and the places in rank order (R174). -/
def takeRow (h : Hdr) (src : Win) (m : Mach) (b : Active) : Option Active :=
  if b.row.isSome then some b
  else (readRow src m b b.c (h.count 0) 0 []).map (fun row => { b with
    row := some (row.map (fun x => (x.2.1.fmt, x.2.1.bits, x.2.1.p))), idx := row.map (fun x => (x.2.2 : Int)) })

/-- A rank is done: its row is kept until the last rank of `k`. -/
def Active.ranked (b : Active) (k : Nat) : Active :=
  { b with wrote := 0, row := if b.c.headD 0 + 1 < k then b.row else none }

/-- A value written by stk: converted from its own format, an accumulator entry's tag, a NaN as the canonical one (R50, R153,
R174). -/
def rankedVal (src val : Fmt) (mode : RMode) (pat r : Nat) : Nat :=
  if (src.value pat).isNan then (convNum val mode .nan r).1 else convert src val mode pat r

/-- One rank of one row (R174): the value, its index, and the count. A row with a poisoned element has no order that
the manual gives: what it writes is poisoned, and its count index is a use (R374, R375). -/
def stkStep (h : Hdr) (val ind src : Win) (cnt : Option Win) (k : Nat) (m : Mach) (b : Active) : Iter :=
  match takeRow h src m b with
  | none => .wait m b
  | some b =>
    let row := b.row.getD []
    let pois := row.any (·.2.2)
    let (f, pat, _) := row.getD (b.c.headD 0) default
    let i := (b.idx.getD (b.c.headD 0) 0).toNat
    Acc.iter (if 1 ≤ b.wrote then (.done () m, b)
        else m.writeElem 0 val (at_ val b) (rankedVal f val.fmt (val.mode h) pat (winDraw h b)) pois b false) m
      fun _ m b =>
    let b := { b with wrote := max 1 b.wrote }
    Acc.iter (if 2 ≤ b.wrote then (.done () m, b)
        else m.writeElem 1 ind (at_ ind b) (convNum ind.fmt (ind.mode h) (Num.ofInt (i : Nat)) (winDraw h b)).1 pois b false) m
      fun _ m b =>
    let b := { b with wrote := 2 }
    match cnt with
    | none => .next m (b.ranked k)
    | some w =>
      if pois then .trap m { cause := .poisonuse, task := true, inblk := true, iter := b.c }
      else
        let (off, n, _) := elemSpan w.fmt (idxAt w.stride (i :: b.c.drop 1))
        match m.locate 3 w true off n .write b with
        | .done p m => Acc.iter (m.rmw p 0 n (fun old => pbytes n ((valOf old + 1) % 2 ^ w.fmt.width) (anyPois old)) b) m
            fun _ m b => .next m (b.ranked k)
        | .trap t => .trap m t
        | .park p t => .park m p t
        | .wait m => .wait m b

/-- stk (R174). The nest runs over the K ranks in place of L0; a slot level counts rows. -/
def execStk (h : Hdr) (val ind src : Win) (cnt : Option Win) (k : Nat) (s : State) : Host.Outcome State Fault Refusal :=
  let i : Instr := .stk h val ind src cnt k
  let counts := k :: h.counts.drop 1
  let p : Plan :=
    { planOf i (stkStep h val ind src cnt k) with
      counts := counts, span := if h.slv = 7 then counts.length else max 1 h.slv }
  act (fun m => m.block i p
    (lsCheck i (wholeTrap 6 (k ≤ h.count 0) k)
      ([winShape 0 val counts true true true false, winShape 1 ind counts true true true false,
        winShape 2 src h.counts true true false false]
        ++ cnt.toList.map (fun w => winShape 3 w h.counts true true false false))) noPrep) s

end Sys2Proof.Machine
end

