-- ==== Sys2Proof/Machine/Common.lean ====
section
/-!
DEFINITION. The common instructions but for the token instructions (R127 to R150).
-/

namespace Sys2Proof.Machine

open Sys2Proof

/-- A common instruction without extension: how long it is on the acting engine, and one with an extension. -/
def Mach.len0 (m : Mach) : Nat := commonLen m.cur.eng false
def Mach.len1 (m : Mach) : Nat := commonLen m.cur.eng true

/-- A poisoned operand in a use of R375 (step 5 of R379). -/
def poisonUse : Trap := { cause := .poisonuse, task := true }

/-- BADFIELD of a register value: SYL 0xFFFE and the register's number (R381). -/
def regBad (r : Nat) : Trap := { cause := .badfield, detail := BitVec.ofNat 64 (0xFFFE * 2 ^ 48 + r) }

/-! ## nop, tail, wait, signal, sigr -/

/-- nop (R130). -/
def execNop (s : State) : Host.Outcome State Fault Refusal := act (fun m => m.advance m.len0) s

/-- Whether a stream stands at an instance, be it that a block of its own has stopped behind it (R378). -/
def Stream.atBar (s : Stream) (sc : Scope) (id : Nat) : Bool :=
  s.mode = .barrier sc id || (s.mode = .trapped && s.bar = some (sc, id))

/-- Whether a stream counts as arrived at a tile-scope instance (R75). -/
def arrivedTile (id : Nat) (s : Stream) : Bool := s.atBar .tile id || s.mode = .tail || !s.enabled

/-- A stream whose barrier has completed runs on, one in the trap queue when its record has been acted on. -/
def Stream.passBar (sc : Scope) (id now : Nat) (s : Stream) : Stream :=
  if s.mode = .barrier sc id then { s with mode := .run, granted := true, since := now }
  else if s.atBar sc id then { s with granted := true, bar := none } else s

/-- Every stream of a context that stands at an instance resumes. -/
def Ctx.passBar (c : Ctx) (sc : Scope) (id now : Nat) : Ctx :=
  { c with
    le := c.le.passBar sc id now, me := c.me.passBar sc id now, ve := c.ve.passBar sc id now
    se := c.se.passBar sc id now }

/-- A tile-scope instance completes when its four streams have arrived (R75, R76). -/
def Mach.barTile (m : Mach) (tile : Nat) (ctx : Bool) (id : Nat) : Mach :=
  let c := m.ctx tile ctx
  if [c.le, c.me, c.ve, c.se].all (arrivedTile id) then m.setCtx tile ctx (c.passBar .tile id m.gtc) else m

/-- The group of a context at a scope wider than the tile (R58). -/
def Ctx.group (c : Ctx) (sc : Scope) : Option Nat := (c.groups[sc.code - 1]?).join

/-- Whether some stream of a context stands at an instance. -/
def Ctx.atBar (c : Ctx) (sc : Scope) (id : Nat) : Bool :=
  [c.le, c.me, c.ve, c.se].any (fun s => s.atBar sc id)

/-- The contexts of a job, by key. -/
def Mach.jobCtxs (m : Mach) (job : Nat) : List (Nat × Bool) :=
  (m.ctxs.filter (fun e => e.2.loaded && e.2.job = job)).map (fun e => (e.1 / 2, e.1 % 2 = 1))

/-- A job is ended whole: what runs is killed without a record, the rest never runs. -/
def Mach.endJob (m : Mach) (id : Nat) : Mach :=
  let m := (m.jobCtxs id).foldl (fun m k => m.kill k.1 k.2 { src := srcTile k.1 }) m
  match m.job? id with
  | none => m
  | some j =>
    let rs := m.hub.requests.map (fun (r : Request) => if r.job = some id then { r with job := none } else r)
    let fs := j.formes.map (fun (f : FormeEnt) =>
      if f.st = .unplaced || f.st = .reserved || f.st = .stopped then { f with st := .ended } else f)
    let m := j.formes.foldl (fun (m : Mach) f =>
      if f.st ≠ .stopped || m.markStays f.tile id then m else m.dropMark (m.tileParty f.tile)) m
    { m with hub := { m.hub with requests := rs } }.setJob { j with st := .running, grants := [], formes := fs }

/-- A job ended with a JOB record of a cause; where the hub's store is full, its end waits for room there (R370). -/
def Mach.failJob (m : Mach) (id : Nat) (cause : Cause) (detail : Nat) : Mach :=
  if m.roomFor srcHub then
    (m.raise .job cause { src := srcHub, eng := 255, a0 := jobOff id 0, detail := BitVec.ofNat 64 detail }).endJob id
  else match m.job? id with
    | some j => m.setJob { j with doom := some (j.doom.getD (cause, detail)) }
    | none => m

/-- The jobs whose end waits for room end as far as there is room (R370). -/
def Mach.doomTurn (m : Mach) : Mach :=
  m.hub.jobs.foldl (fun (m : Mach) j => match j.doom with
    | some (cause, detail) =>
      if m.roomFor srcHub then (m.setJob { (m.job? j.id).getD j with doom := none }).failJob j.id cause detail else m
    | none => m) m

/-- A failure of class DEVICE (R366): the device stops serving, and every job ends; no CMDDONE follows (DEDUCED, log 71). -/
def Mach.stopServing (m : Mach) : Mach :=
  let m := (m.hub.jobs.map (·.id)).foldl Mach.endJob m
  let js := m.hub.jobs.map (fun (j : Job) => { j with queue := none })
  { m with hub := { m.hub with jobs := js, serving := false } }

/-- Members of a group of a job (R75). -/
def Job.membersOf (j : Job) (sc : Scope) (g : Nat) : Nat :=
  ((j.members.find? (fun x => x.1 = sc.code && x.2.1 = g)).map (fun x => x.2.2)).getD 0

/-- Every stream of a job's tasks of a group that stands at an instance resumes. -/
def Mach.passGroup (m : Mach) (job : Nat) (sc : Scope) (g id : Nat) : Mach :=
  (m.jobCtxs job).foldl (fun m k =>
    let c := m.ctx k.1 k.2
    if c.group sc = some g then m.setCtx k.1 k.2 (c.passBar sc id m.gtc) else m) m

/-- Tasks of a group on this device that stand at an instance. -/
def Mach.arrivals (m : Mach) (job : Nat) (sc : Scope) (g id : Nat) : Nat :=
  ((m.jobCtxs job).filter (fun k => (m.ctx k.1 k.2).group sc = some g && (m.ctx k.1 k.2).atBar sc id)).length

/-- A cluster, die or package instance completes when its last member has arrived (R75 to R77). -/
def Mach.barGroup (m : Mach) (job : Nat) (sc : Scope) (g id : Nat) : Mach :=
  let want := match m.job? job with
    | some j => j.membersOf sc g
    | none => 1
  if want ≤ m.arrivals job sc g id then m.passGroup job sc g id else m

/-- Whether a request is a token operation (R283). -/
def Request.isToken (r : Request) : Bool := 0x41 ≤ r.op && r.op ≤ 0x47

/-- Outstanding requests of the acting stream enter the retirement tracker: write-class requests entry 2e, token
operations entry 2e + 1, releases whose message is still to be sent among them (R79, R262). -/
def Mach.track (m : Mach) : Mach :=
  let e := 2 * m.cur.eng.code
  let mine := fun (r : Request) => r.agent == some m.cur && r.tracked.isNone
  let n := (m.hub.requests.filter (fun r => mine r && r.write)).length
  let t := (m.hub.requests.filter (fun r => mine r && r.isToken)).length
    + (m.curCtx.leaving.filter (·.eng = m.cur.eng.code)).length
  let m := { m with hub := { m.hub with
    requests := m.hub.requests.map (fun r =>
      if mine r && r.write then { r with tracked := some e }
      else if mine r && r.isToken then { r with tracked := some (e + 1) } else r) } }
  let c := m.curCtx
  m.setCurCtx { c with tracker := put 0 (put 0 c.tracker e n) (e + 1) t }

/-- The engine is released (R79). -/
def Mach.releaseEngine (m : Mach) (a : Agent) : Mach :=
  let t := m.tile a.tile
  if at' none t.runs a.eng.code = some a.ctx then
    m.setTile a.tile { t with runs := put none t.runs a.eng.code none } else m

/-- tail (R79, R130): on the ME it waits until every earlier block has performed its last access; a signal behind a sigr's
pfence is waited for (R133). -/
def execTail (s : State) : Host.Outcome State Fault Refusal :=
  act (fun m =>
    if m.meBusy || !m.str.posts.isEmpty then m
    else
      let a := m.cur
      let m := m.track
      let m := m.setStr { m.str with
        mode := .tail, since := m.gtc, rs := [], pend := [], x := [], applied := [], rcache := [], rwant := none
        last := some m.str.pc }
      -- ME_SAT and FPF pass from the engine to the task (R44, R192)
      let m := if a.eng = .me then m.setCurCtx { m.curCtx with sat := (m.tile a.tile).mat.sat }
        else if a.eng = .ve then m.setCurCtx { m.curCtx with fpf := (m.tile a.tile).vec.fpf } else m
      (List.range 16).foldl (fun m id => m.barTile a.tile a.ctx id) (m.releaseEngine a)) s

/-- Whether the acting stream stands in a semaphore's order. -/
def Mach.inOrder (m : Mach) : Bool := m.curCtx.waitq.any (fun w => w.eng == m.cur.eng && w.who == .stream)

/-- wait (R131). -/
def execWait (sem n : Nat) (s : State) : Host.Outcome State Fault Refusal :=
  act (fun m =>
    if m.str.granted then m.advance m.len0
    else if m.inOrder then m
    else
      let m := m.enterWait sem n .stream
      if m.str.granted then m.advance m.len0 else m) s

/-- A signal takes its place among the blocks of the ME (R132, R133). -/
def Mach.signalQueue (m : Mach) (i : Instr) (xs : List XReg) : Mach :=
  let t := m.tile m.cur.tile
  let b : Active := { instr := i, off := m.str.pc, ser := t.mat.issued, xs := xs }
  m.setTile m.cur.tile { t with mat := { t.mat with queue := t.mat.queue ++ [b], issued := t.mat.issued + 1 } }

/-- A signal of the stream takes its place behind a sigr's pfence (R148). -/
def Mach.postSignal (m : Mach) (p : Post) : Mach := m.setStr { m.str with posts := m.str.posts ++ [p] }

/-- A signal of the stream is performed: at once, or after the ME's blocks before it (R132), or behind a sigr's pfence (R148). -/
def Mach.signalOut (m : Mach) (sem n : Nat) : Mach :=
  if m.meBusy then m.signalQueue (.signal sem n) []
  else if !m.str.posts.isEmpty then m.postSignal { sem := sem, n := n }
  else m.addReserved m.cur.tile m.cur.ctx sem n

/-- signal (R132, R385) (DEDUCED, log 32). -/
def execSignal (sem n : Nat) (s : State) : Host.Outcome State Fault Refusal :=
  act (fun m =>
    match m.reserve sem n with
    | none => m.trapAt m.len0 (semsatTrap sem n 0)
    | some m => (m.signalOut sem n).advance m.len0) s

/-- The message of a remote signal (R133, R283). -/
def sigPacket (m : Mach) (target sem n : Nat) : Packet :=
  { op := 0x40, addr := partyAddr target sem, src := BitVec.ofNat 32 m.curCtx.party, dchip := partyChip target
    arg := BitVec.ofNat 32 n }

/-- A remote signal sent, outstanding until it is acknowledged (R133). -/
def Mach.sendSigr (m : Mach) (target sem n : Nat) : Mach := (m.request (sigPacket m target sem n) (some m.cur) none true).1

/-- The remote signal of a sigr is performed: at once where its pfence completes at once, else when it does, behind the ME's
earlier writes or the earlier writes of the stream (R133, R148). -/
def Mach.sigrOut (m : Mach) (xp target sem n : Nat) : Mach :=
  if m.pfenceDone then m.sendSigr target sem n
  else if m.cur.eng = .me then m.signalQueue (.sigr xp sem n) [⟨BitVec.ofNat 64 target, false⟩]
  else m.postSignal { dest := some target, sem := sem, n := n }

/-- The first signal behind a sigr's pfence is performed when it can be: a remote one once every earlier write has been
acknowledged (R133, R148). -/
def Mach.postTurn (m : Mach) : Mach :=
  match m.str.posts with
  | [] => m
  | p :: ps =>
    let m' := m.setStr { m.str with posts := ps }
    match p.dest with
    | some target => if m.quiet then m'.sendSigr target p.sem p.n else m
    | none => m'.addReserved m.cur.tile m.cur.ctx p.sem p.n

/-- sigr: the stream goes on at once, and its later accesses and signals wait for the pfence (R133, R148, R150). -/
def execSigr (xp sem n : Nat) (s : State) : Host.Outcome State Fault Refusal :=
  act (fun m =>
    let r := m.xr xp
    if r.p then m.trapAt m.len0 poisonUse
    else if 2 ^ 32 ≤ r.v.toNat ∨ (partyKind r.v.toNat = 2 ∧ 48 ≤ sem) then m.trapAt m.len0 (regBad xp)
    else (m.sigrOut xp r.v.toNat sem n).advance m.len0) s

/-! ## bar -/

/-- BADFIELD of bar without MEMBER: the SCOPE bits (R136, R150, R379) (DEDUCED, log 12). -/
def barBad : Trap := { cause := .badfield, detail := 0x700000 }

/-- The arrival of this task at a system instance, to the hub of this device (R77, R277, R283). -/
def barPacket (m : Mach) (g id : Nat) : Packet :=
  { op := 0x48, addr := partyAddr m.hubParty 0, src := BitVec.ofNat 32 m.curCtx.party, dchip := m.hub.chip
    arg := syl [(12, g), (8, id), (0, 1)] }

/-- bar (R75 to R77, R136). -/
def execBar (sc : Scope) (id : Nat) (s : State) : Host.Outcome State Fault Refusal :=
  act (fun m =>
    if m.str.granted then m.advance m.len0
    else if m.str.mode = .barrier sc id then m
    else
      let done := fun (m : Mach) => if m.str.granted then m.advance m.len0 else m
      let c := m.curCtx
      match sc with
      | .tile => done ((m.setMode m.cur (.barrier .tile id)).barTile m.cur.tile m.cur.ctx id)
      | .cl | .die | .pkg =>
        match c.group sc with
        | none => m.trapAt m.len0 barBad
        | some g => done ((m.setMode m.cur (.barrier sc id)).barGroup c.job sc g id)
      | .sys =>
        match c.group sc with
        | none => m.trapAt m.len0 barBad
        | some g => (m.setMode m.cur (.barrier .sys id)).send (barPacket m g id)) s

/-! ## Control transfers (R137, R138) -/

/-- BRBOUND with the target as a signed 64-bit value (R381). -/
def boundTrap (t : Int) : Trap := { cause := .brbound, detail := BitVec.ofInt 64 t }

/-- The target of a transfer by OFF words. -/
def Mach.target (m : Mach) (off : Int) : Int := (m.str.pc : Int) + off * (m.cur.eng.wordBytes : Nat)

/-- Whether a target lies in the section. -/
def Mach.inSection (m : Mach) (t : Int) : Bool := 0 ≤ t && t < (m.str.clen : Nat)

/-- br (R137). -/
def execBr (off : Int) (s : State) : Host.Outcome State Fault Refusal :=
  act (fun m =>
    let t := m.target off
    if m.inSection t then m.goto t.toNat else m.trapAt m.len1 (boundTrap t)) s

/-- brx (R137, R375). -/
def execBrx (cmp : Cond) (xa xb : Nat) (off : Int) (s : State) : Host.Outcome State Fault Refusal :=
  act (fun m =>
    let a := m.xr xa
    let b := m.xr xb
    if a.p || b.p then m.trapAt m.len1 poisonUse
    else if !condHolds cmp a.v b.v then m.advance m.len1
    else
      let t := m.target off
      if m.inSection t then m.goto t.toNat else m.trapAt m.len1 (boundTrap t)) s

/-- call (R137, R138). -/
def execCall (off : Int) (s : State) : Host.Outcome State Fault Refusal :=
  act (fun m =>
    let t := m.target off
    if !m.inSection t then m.trapAt m.len1 (boundTrap t)
    else if 8 ≤ m.str.rs.length then
      m.trapAt m.len1 { cause := .rsovf, detail := BitVec.ofNat 64 (t.toNat % 2 ^ 32 * 2 ^ 32 + 8) }
    else (m.setStr { m.str with rs := (m.str.pc + m.len1) :: m.str.rs }).goto t.toNat) s

/-- ret (R137, R138). -/
def execRet (s : State) : Host.Outcome State Fault Refusal :=
  act (fun m =>
    match m.str.rs with
    | [] => m.trapAt m.len0 { cause := .rsunf }
    | r :: rs => (m.setStr { m.str with rs := rs }).goto r) s

/-! ## disp (R139, R140) -/

/-- Eight bytes of a table. -/
def word64At (bs : List PByte) : Word64 := BitVec.ofNat 64 (valOf bs)

/-- The moulds in table order; what remains is OVER (R140). TARGET and OVER are taken as given, even off the word length
(DEDUCED, log 58). -/
def dispLoop (a dflt xc : Nat) (count : Word64) (m : Mach) : Nat → Nat → Mach
  | 0, _ =>
    if dflt = 0xFFFFFFFF then m.trapAt m.len0 { cause := .dispnone, addr := BitVec.ofNat 64 a, detail := count }
    else if m.str.clen ≤ dflt then m.trapAt m.len0 (boundTrap dflt)
    else m.goto dflt
  | fuel + 1, i =>
    match m.readTable (a + 8 + 8 * i) 8 with
    | .trap t => m.trapAt m.len0 t
    | .wait m => m
    | .ok bs m =>
      let w := word64At bs
      if count.toNat ≤ bits64 w 0 32 then
        if m.str.clen ≤ bits64 w 32 32 then m.trapAt m.len0 (boundTrap (bits64 w 32 32))
        else (m.setX xc ⟨BitVec.ofNat 64 (bits64 w 0 32), false⟩).goto (bits64 w 32 32)
      else dispLoop a dflt xc count m fuel (i + 1)

/-- disp (R139, R140, R150) (DEDUCED, log 13). -/
def execDisp (xc tab : Nat) (s : State) : Host.Outcome State Fault Refusal :=
  act (fun m =>
    let x := m.xr xc
    if x.p then m.trapAt m.len0 poisonUse
    else if m.curCtx.mdn ≤ tab then m.trapAt m.len0 { cause := .dispnone, detail := x.v }
    else match m.readTable (m.curCtx.mdir.toNat + 8 * tab) 8 with
      | .trap t => m.trapAt m.len0 t
      | .wait m => m
      | .ok bs m =>
        let a := valOf bs
        match m.readTable a 8 with
        | .trap t => m.trapAt m.len0 t
        | .wait m => m
        | .ok hs m =>
          let w := word64At hs
          if bits64 w 8 2 ≠ m.cur.eng.code ∨ bits64 w 0 8 = 0 ∨ bits64 w 10 22 ≠ 0 then
            m.trapAt m.len0 { cause := .badfield, detail := 0x3C000 }
          else dispLoop a (bits64 w 32 32) xc x.v m (bits64 w 0 8) 0) s

/-! ## patch (R141 to R143, R387) -/

/-- PATCHBAD's DETAIL (R381). -/
def patchDetail (pos : Nat) (e : Engine) (late : Bool) (why pfi : Nat) : Word64 :=
  BitVec.ofNat 64 (pos % 2 ^ 32 * 2 ^ 32 + e.code * 2 ^ 30 + late.toNat * 2 ^ 29 + why * 2 ^ 24 + pfi * 2 ^ 16)

/-- Position that POS must lie ahead of: this patch's offset, or that of the target's last issued instruction, or
ENTRY - 1 (R141). -/
def Mach.here (m : Mach) (e : Engine) : Int :=
  if e = m.cur.eng then (m.str.pc : Nat)
  else
    let s := m.curCtx.stream e
    match s.last with
    | some p => (p : Nat)
    | none => (s.entry : Int) - 1

/-- The store with an entry for (POS, PFI), or none where it has no room (R141, R142). -/
def storePatch (s : Stream) (pos pfi v : Nat) : Option (List Pending) :=
  if s.pend.any (fun p => p.pos = pos && p.pfi = pfi) then
    some (s.pend.map (fun p => if p.pos = pos && p.pfi = pfi then { p with v := v } else p))
  else if 8 ≤ s.pend.length then none
  else some (s.pend ++ [{ pos := pos, pfi := pfi, v := v }])

/-- The checks of the patch's own issue that read the target word: an assigned major, PMASK, the value (R141). -/
def patchWord (e : Engine) (ss : List Word32) (pfi v : Nat) : Option Nat :=
  if !isMajor e (ss.getD 0 0) then some 4
  else if !(ss.getD 2 0).getLsbD pfi then some 5
  else if !pfiValueOk pfi v then some 6
  else none

/-- The patch is performed on the target stream as it stands (R143, R387) (DEDUCED, log 22). -/
def Mach.performPatch (m : Mach) (e : Engine) (pos pfi v : Nat) : Mach :=
  let own := e == m.cur.eng
  let t := m.curCtx.stream e
  let bad := fun (why : Nat) =>
    if own then m.trapAt m.len1 { cause := .patchbad, detail := patchDetail pos e false why pfi }
    else
      let off := m.str.pc
      let m := m.advance m.len1
      let m := m.trapAt m.len1
        { cause := .patchbad, addr := BitVec.ofNat 64 m.str.pc, detail := patchDetail pos e true why pfi, off := some off }
      m.setStr { m.str with late := true }
  if t.mode = .tail then bad 1
  else if (pos : Int) ≤ m.here e then bad 2
  else match storePatch t pos pfi v with
    | none => bad 7
    | some ps => (m.setCurCtx (m.curCtx.setStream e { t with pend := ps })).advance m.len1

/-- patch (R141, R143, R387). A target word that cannot be read is RANGE (DEDUCED, log 15). -/
def execPatch (xv pfi : Nat) (e : Engine) (pos : Nat) (s : State) : Host.Outcome State Fault Refusal :=
  act (fun m =>
    let x := m.xr xv
    let v := x.v.toNat % 2 ^ 32
    let own := e == m.cur.eng
    let t := m.curCtx.stream e
    let bad := fun (why : Nat) => m.trapAt m.len1 { cause := .patchbad, detail := patchDetail pos e false why pfi }
    if x.p then m.trapAt m.len1 poisonUse
    else if !t.enabled || (own && t.mode = .tail) then bad 1
    else if pos % e.wordBytes ≠ 0 then bad 8
    else if own && (pos : Int) ≤ m.here e then bad 2
    else if t.clen ≤ pos then bad 3
    else match m.readTable (t.code.toNat + pos) 4 with
      | .trap t => m.trapAt m.len1 t
      | .wait m => m
      | .ok b0 m =>
        if !isMajor e ((sylsOf b0).getD 0 0) then bad 4
        else match m.readTable (t.code.toNat + pos) 16 with
          | .trap t => m.trapAt m.len1 t
          | .wait m => m
          | .ok bs m =>
            match patchWord e (sylsOf bs) pfi v with
            | some why => m.trapAt m.len1 { cause := .patchbad, detail := patchDetail pos e false why pfi }
            | none => m.performPatch e pos pfi v) s

/-! ## xli and xop (R144 to R146) -/

/-- xli (R144). -/
def execXli (xd : Nat) (mode : XliMode) (imm : Word32) (s : State) : Host.Outcome State Fault Refusal :=
  act (fun m =>
    let r : XReg := match mode with
      | .zx => ⟨imm.setWidth 64, false⟩
      | .sx => ⟨imm.signExtend 64, false⟩
      | .hi => ⟨imm ++ (m.xr xd).v.setWidth 32, (m.xr xd).p⟩
    (m.setX xd r).advance m.len1) s

/-- The result of an xop (R145). -/
def xopVal (op : XMinor) (a b : Word64) : Word64 :=
  let n := b.toNat % 64
  match op with
  | .add => a + b
  | .sub => a - b
  | .mul => a * b
  | .and => a &&& b
  | .or => a ||| b
  | .xor => a ^^^ b
  | .shl => a <<< n
  | .shr => a >>> n
  | .sra => a.sshiftRight n
  | .min => if a.slt b then a else b
  | .max => if a.slt b then b else a
  | .minu => if a.ult b then a else b
  | .maxu => if a.ult b then b else a
  | .mov => b

/-- xop on operands: a is not read by mov; poison of an operand read goes to the result (R145, R374). -/
def Mach.xop (m : Mach) (xd xa : Nat) (op : XMinor) (b : XReg) : Mach :=
  let a := m.xr xa
  m.setX xd ⟨xopVal op a.v b.v, (op ≠ .mov && a.p) || b.p⟩

/-- What xop.mov samples (R146). -/
def Mach.sample (m : Mach) (src : XSrc) (xb : Nat) : XReg :=
  match src with
  | .operand => m.xr xb
  | .cycles => ⟨BitVec.ofNat 64 (m.tile m.cur.tile).cycles, false⟩
  | .gtc => ⟨BitVec.ofNat 64 m.gtc, false⟩
  | .tile => ⟨BitVec.ofNat 64 m.cur.tile, false⟩
  | .party => ⟨BitVec.ofNat 64 m.curCtx.party, false⟩
  | .counter l => ⟨BitVec.ofNat 64 (at' 0 m.str.lc l), false⟩

/-- xop with a register or a source (R145, R146). -/
def execXop (xd xa : Nat) (op : XMinor) (src : XSrc) (xb : Nat) (s : State) : Host.Outcome State Fault Refusal :=
  act (fun m => (m.xop xd xa op (m.sample src xb)).advance m.len0) s

/-- xop with an immediate (R145). -/
def execXopImm (xd xa : Nat) (op : XMinor) (imm : Word32) (s : State) : Host.Outcome State Fault Refusal :=
  act (fun m => (m.xop xd xa op ⟨imm.signExtend 64, false⟩).advance m.len1) s

/-! ## fence, pfence, trap (R147 to R149) -/

/-- fence.SC (R147). -/
def execFence (sc : Scope) (s : State) : Host.Outcome State Fault Refusal :=
  act (fun m => if m.fenceDone sc then m.advance m.len0 else m) s

/-- pfence (R148). -/
def execPfence (s : State) : Host.Outcome State Fault Refusal :=
  act (fun m => if m.pfenceDone then m.advance m.len0 else m) s

/-- trap (R149, R381). -/
def execTrap (code : Nat) (s : State) : Host.Outcome State Fault Refusal :=
  act (fun m => m.trapAt m.len0
    { cause := .trapi, detail := BitVec.ofNat 64 ((m.str.pc + m.len0) % 2 ^ 32 * 2 ^ 32 + code) }) s

end Sys2Proof.Machine
end

