-- ==== Sys2Proof/Machine/Tokens.lean ====
section
/-!
DEFINITION. Ownership tokens (R253 to R267): the homes' tables, the token messages, the flush of a release, the five
token instructions and the supervisors' operations on tokens.
-/

namespace Sys2Proof

/-- LOG2, SEM, MODE and N of a token message (R283). -/
def Packet.log2 (p : Packet) : Nat := bits p.arg 26 6
def Packet.sem (p : Packet) : Nat := bits p.arg 20 6
def Packet.shared (p : Packet) : Bool := p.arg.getLsbD 19
def Packet.num (p : Packet) : Nat := bits p.arg 0 4

end Sys2Proof

namespace Sys2Proof.Machine

open Sys2Proof

/-! ## Regions (R253) -/

/-- The home die of an IA in device memory or explicit SRAM. -/
def homeDie (ia : Nat) : Option Nat := (areaOf (iaLocal ia)).home

/-- Whether an aligned span is a region: one area, one home, one chip (R253). -/
def validRegion (ia log2 : Nat) : Bool :=
  let z := ia + 2 ^ log2 - 1
  12 ≤ log2 && log2 ≤ 40 && iaChip ia = iaChip z && (homeDie ia).isSome && homeDie ia = homeDie z
    && (match areaOf (iaLocal ia), areaOf (iaLocal z) with
      | .mem _ _, .mem _ _ => true
      | .cpool _ _, .cpool _ _ => true
      | .dpool _ _, .dpool _ _ => true
      | _, _ => false)

/-- BASE of a table entry, and the IA it stands for on this chip. -/
def tokBase (ia : Nat) : Nat := iaLocal ia / 4096
def Mach.tokIa (m : Mach) (e : TokEntry) : Nat := m.hub.chip * 2 ^ 43 + e.base * 4096

/-- Whether two regions overlap: one contains the other (R253, R256). -/
def overlaps (a la b lb : Nat) : Bool := a < b + 2 ^ lb && b < a + 2 ^ la

/-! ## Holdings (R258) -/

/-- The cluster whose table holds a party's tokens; none for the hub and the host functions. -/
def holderCluster (party : Nat) : Option Nat :=
  if partyKind party = 0 ∨ partyKind party = 1 then some (partyCluster party) else none
def Mach.holdings (m : Mach) (party : Nat) : List Holding :=
  match holderCluster party with
  | some c => (m.cluster c).hold
  | none => m.hub.hold
def Mach.setHoldings (m : Mach) (party : Nat) (l : List Holding) : Mach :=
  match holderCluster party with
  | some c => m.setCluster c { m.cluster c with hold := l }
  | none => { m with hub := { m.hub with hold := l } }

/-- A holding of exactly a region by a party (for one job, or any where `job` is none). -/
def Holding.isFor (h : Holding) (party : Nat) (job : Option Nat) (ia log2 : Nat) : Bool :=
  h.party = party && (job.isNone || job = some h.job) && h.base.toNat = ia && h.log2 = log2

def Mach.exact (m : Mach) (party : Nat) (job : Option Nat) (ia log2 : Nat) : Option Holding :=
  (m.holdings party).find? (fun h => h.isFor party job ia log2)

/-- A holding added, or its mode raised. -/
def Mach.addHolding (m : Mach) (party job ia log2 : Nat) (ex : Bool) : Mach :=
  let l := (m.holdings party).filter (fun h => !h.isFor party (some job) ia log2)
  m.setHoldings party (l ++ [{ base := BitVec.ofNat 64 ia, log2 := log2, ex := ex, party := party, job := job }])

def Mach.dropHolding (m : Mach) (party : Nat) (job : Option Nat) (ia log2 : Nat) : Mach :=
  m.setHoldings party ((m.holdings party).filter (fun h => !h.isFor party job ia log2))

/-- The exclusive holdings of a party. -/
def Mach.exHoldings (m : Mach) (party : Nat) (job : Option Nat) : List Holding :=
  (m.holdings party).filter (fun h => h.party = party && (job.isNone || job = some h.job) && h.ex)

/-- Whether a party holds every byte of a region exclusively, through the region itself or descendants of it: holdings are
disjoint or nested, so their outermost ones inside the region add up (R257, R263). -/
def Mach.coversIn (m : Mach) (party : Nat) (job : Option Nat) (ia log2 : Nat) : Bool :=
  let inside := (m.exHoldings party job).filter (fun h => ia ≤ h.base.toNat && h.base.toNat + 2 ^ h.log2 ≤ ia + 2 ^ log2)
  let outer := inside.filter (fun h => !inside.any (fun k => h.log2 < k.log2 && k.covers h.base.toNat (2 ^ h.log2)))
  (outer.map (fun h => 2 ^ h.log2)).sum = 2 ^ log2

/-- Whether exclusive holdings cover every byte of a region: of the region, of a containing one, or of descendants
(R261). -/
def Mach.coversEx (m : Mach) (party : Nat) (job : Option Nat) (ia log2 : Nat) : Bool :=
  (m.exHoldings party job).any (fun h => h.covers ia (2 ^ log2)) || m.coversIn party job ia log2

/-- Entries of `party`'s table that gets and splits already sent will take (R258). -/
def Mach.getsOut (m : Mach) (party : Nat) : Nat :=
  ((m.hub.requests.filter (fun r => r.op ≠ 1 && holderCluster r.party = holderCluster party)).map (·.need)).sum

/-- Whether the table of a party's cluster or of the hub has room for `n` more holdings beside those that gets already sent
will take (R258). -/
def Mach.holdRoom (m : Mach) (party n : Nat) : Bool := (m.holdings party).length + m.getsOut party + n ≤ 4096

/-! ## The flush of a release (R262) and eviction (R246) -/

/-- Dirty bytes of a cluster's cache in a span of IAs. -/
def Mach.dirtyIn (m : Mach) (cl ia n : Nat) : List (Nat × PByte) :=
  m.dirty.filter (fun e => dirtyKey cl ia ≤ e.1 && e.1 < dirtyKey cl ia + n)

/-- Dirty bytes dropped. -/
def Mach.dropDirty (m : Mach) (cl ia n : Nat) : Mach :=
  { m with dirty := clearKeys (dirtyKey cl ia) (dirtyKey cl ia + n) m.dirty }

/-- Consecutive keys gathered into runs that stay within one 256-byte line (R245, R281). -/
def lineRuns : List (Nat × PByte) → List (Nat × List PByte)
  | [] => []
  | (k, b) :: t =>
    match lineRuns t with
    | (j, bs) :: r => if j = k + 1 && j % 256 ≠ 0 then (k, b :: bs) :: r else (k, [b]) :: (j, bs) :: r
    | [] => [(k, [b])]

/-- The write of one run that a cluster's cache sends to the run's home (R246, R274). The cluster port sends it, as it
sends the fills, so a line's later fill arrives after it (R279). -/
def Mach.writeBackPkt (m : Mach) (cl ia : Nat) (bs : List PByte) : Packet :=
  { op := 2, addr := BitVec.ofNat 64 ia, src := BitVec.ofNat 32 (m.supParty cl), dchip := iaChip ia, bcnt := bs.length
    data := bs }

/-- The job whose bytes lie dirty at an IA: that of the exclusive holding there (R246, R258). -/
def Mach.dirtyJob (m : Mach) (cl ia : Nat) : Option Nat :=
  ((m.cluster cl).hold.find? (fun h => h.ex && h.covers ia 1)).map (·.job)

/-- One run written back: it leaves the cache, and its write is on its way, for the job whose bytes it carries. -/
def Mach.writeBack (m : Mach) (cl : Nat) (job : Option Nat) (r : Nat × List PByte) : Mach :=
  let ia := r.1 % 2 ^ 64
  let whose := (m.dirtyJob cl ia).orElse (fun _ => job)
  ((m.dropDirty cl ia r.2.length).requestAs (m.writeBackPkt cl ia r.2) { write := true, whose := whose }).1

/-- Runs written back in order. -/
def Mach.writeBacks (m : Mach) (cl : Nat) (job : Option Nat) (rs : List (Nat × List PByte)) : Mach :=
  rs.foldl (fun m r => m.writeBack cl job r) m

/-- The dirty lines of a span written back, as many as the party of the cluster cache still sends (R282). -/
def Mach.cleanSpan (m : Mach) (cl : Nat) (job : Option Nat) (ia n : Nat) : Mach :=
  m.writeBacks cl job ((lineRuns (m.dirtyIn cl ia n)).take (maxOutstanding - (m.hub.beside (m.supParty cl) none).length))

/-- The flush of a region that a job gives up: its dirty lines written back (R262) (DEDUCED, log 19). -/
def Mach.flush (m : Mach) (party : Nat) (job : Option Nat) (ia log2 : Nat) : Mach :=
  match holderCluster party with
  | some cl => m.cleanSpan cl job ia (2 ^ log2)
  | none => m

/-- Whether a region has no dirty line left in the cluster of a party, and every write-back of its lines has been acknowledged,
those of earlier evictions among them (R262, R277). -/
def Mach.flushed (m : Mach) (party ia log2 : Nat) : Bool :=
  match holderCluster party with
  | some cl => (m.dirtyIn cl ia (2 ^ log2)).isEmpty && !m.hub.requests.any (fun r => r.op = 2 && r.party = m.supParty cl
      && ia ≤ r.addr.toNat && r.addr.toNat < ia + 2 ^ log2)
  | none => true

/-- Whether the cluster has fetched a line, or is fetching it, for an access under way (R156, R246): the bytes that stand dirty
over it are still needed. -/
def Mach.lineInUse (m : Mach) (cl line : Nat) : Bool :=
  let holds := fun (b : Active) =>
    b.resp.isSome || (b.ahead.toList ++ b.cache).any (fun e => e.1 / 256 ≤ line && line ≤ (e.1 + e.2.length - 1) / 256)
  m.hub.requests.any (fun r => r.op = 1 && r.party = m.supParty cl && r.addr.toNat / 256 = line)
    || m.ctxs.any (fun e => clusterOf (e.1 / 2) = cl && [e.2.le, e.2.se].any (fun s => s.blk.any holds))

/-- A line leaves a cluster cache, which chooses the time (R246): not while an access under way has fetched it. -/
def Mach.evictLine (m : Mach) (cl line : Nat) : Mach :=
  if m.lineInUse cl line || m.crowded (m.supParty cl) then m
  else m.writeBacks cl none (lineRuns (m.dirtyIn cl (line * 256) 256))

/-! ## The home's table (R254 to R257) -/

/-- Entries that list a region, as (index, entry). -/
def Die.entryOf (d : Die) (base log2 : Nat) : Option (Nat × TokEntry) :=
  d.tok.find? (fun e => e.2.base = base && e.2.log2 = log2)

/-- An entry at HOME: held by nobody. -/
def TokEntry.atHome (e : TokEntry) : Bool := !e.excl && e.share = 0

/-- The entries other than the region's own that overlap it. -/
def Die.others (d : Die) (base log2 : Nat) : List TokEntry :=
  (d.tok.filter (fun e => !(e.2.base = base && e.2.log2 = log2) &&
    overlaps (base * 4096) log2 (e.2.base * 4096) e.2.log2)).map (·.2)

/-- ARG of a token message. -/
def tokArg (log2 sem : Nat) (shared : Bool) (n : Nat) : Word32 :=
  syl [(26, log2), (20, sem), (19, shared.toNat), (0, n)]

/-- The conditions of R256 for a request: an upgrade is an exclusive request of the party that holds the one share left. -/
def Die.grantable (d : Die) (p : Packet) : Bool :=
  let base := tokBase p.addr.toNat
  let own := (d.entryOf base p.log2).map (·.2)
  let os := d.others base p.log2
  if p.shared then
    !os.any (·.excl) && (match own with
      | none => true
      | some e => !e.excl && e.share < 65535)
  else
    os.all TokEntry.atHome && (match own with
      | none => true
      | some e => e.atHome || (!e.excl && e.share = 1 && e.sharers = [p.src.toNat]))

/-- Free entries of a table. -/
def Die.freeTok (d : Die) : Nat := 65536 - d.tok.length

/-- The free entry that is taken: any (R254). -/
def Die.pickTok (d : Die) (choice : Nat) : Nat :=
  let used := d.tok.map (·.1)
  let free := (List.range (d.tok.length + 1)).filter (fun i => !used.contains i)
  let c := choice % 65536
  if used.contains c then free.headD 0 else c

/-- An entry that is HOME, not split, not poisoned and not waited for is freed (R254). -/
def Die.tidy (d : Die) : Die :=
  let waited := fun (e : TokEntry) => d.waits.any (fun w => tokBase w.pkt.addr.toNat = e.base && w.pkt.log2 = e.log2)
  { d with tok := d.tok.filter (fun e => !(e.2.atHome && !e.2.split && !e.2.pois && !waited e.2
      && !d.tok.any (fun q => q.2.split && q.2.child ≤ e.1 && e.1 < q.2.child + 2 ^ q.2.nspl))) }

/-- Parents whose children are all at home and undivided become ordinary entries (R257); `fuel` bounds the depth. -/
def Die.merge (d : Die) : Nat → Die
  | 0 => d
  | fuel + 1 =>
    let ready := d.tok.find? (fun q => q.2.split && (List.range (2 ^ q.2.nspl)).all (fun k =>
      let e := look ({} : TokEntry) d.tok (q.2.child + k)
      e.atHome && !e.split && !e.pois))
    match ready with
    | none => d
    | some (i, q) =>
      let t := clearKeys q.child (q.child + 2 ^ q.nspl) d.tok
      { d with tok := store TokEntry.blank t i { q with split := false, nspl := 0, child := 0 } }.merge fuel

/-- The table tidied after a change. -/
def Die.settle (d : Die) : Die := (d.merge d.tok.length).tidy

/-- A token message to a party (R261, R262). -/
def tokMsg (op : Nat) (p : Packet) (party : Nat) (n : Nat) (data : List PByte) : Packet :=
  { op := op, addr := p.addr, src := BitVec.ofNat 32 party, dchip := partyChip party, tag := p.tag
    arg := tokArg p.log2 p.sem p.shared n, data := data, bcnt := data.length }

/-- A request granted: R's entry after the grant, and the grant sent (R256, R261). The entry of a divided region keeps SPLIT,
with STATE SHARED after a shared grant of it (DESIGN CHOICE, log 97). -/
def Mach.grantTok (m : Mach) (d : Nat) (p : Packet) : Mach :=
  let x := m.die d
  let base := tokBase p.addr.toNat
  let (i, e) := (x.entryOf base p.log2).getD
    (x.pickTok (Config.choice m.free), { log2 := p.log2, base := base })
  -- a repeated request never adds a second share (R261)
  let e := if p.shared && e.sharers.contains p.src.toNat then e
    else if p.shared then { e with share := e.share + 1, sharers := e.sharers ++ [p.src.toNat] }
    else { e with excl := true, share := 0, party := p.src.toNat, sharers := [] }
  let m := { m with free := m.free + 1 }
  (m.setDie d { x with tok := store TokEntry.blank x.tok i e }).send (tokMsg 0x42 p p.src.toNat p.num [])

/-- Children of a split take 2^N consecutive free entries (R254, R257). -/
def Die.runOfFree (d : Die) (n : Nat) : Option Nat :=
  let ok := fun (i : Nat) => i + n ≤ 65536 && !d.tok.any (fun e => i ≤ e.1 && e.1 < i + n)
  if ok 0 then some 0 else ((d.tok.map (fun e => e.1 + 1)).filter ok).head?

def addKids (t : Sparse TokEntry) (e : TokEntry) (child log2 : Nat) : Nat → Sparse TokEntry
  | 0 => t
  | k + 1 => addKids (store TokEntry.blank t (child + k)
      { excl := true, log2 := log2, base := e.base + k * 2 ^ (log2 - 12), party := e.party }) e child log2 k

/-- TKSPLIT at the home (R257): none while child entries are lacking. -/
def Mach.splitTok (m : Mach) (d : Nat) (p : Packet) : Option Mach :=
  let x := m.die d
  match x.entryOf (tokBase p.addr.toNat) p.log2, x.runOfFree (2 ^ p.num) with
  | some (i, e), some c =>
    let t := addKids x.tok e c (p.log2 - p.num) (2 ^ p.num)
    let t := store TokEntry.blank t i { e with excl := false, party := 0, split := true, nspl := p.num, child := c }
    some ((m.setDie d { x with tok := t }).send (tokMsg 0x45 p p.src.toNat p.num []))
  | none, _ => some (m.send (tokMsg 0x45 p p.src.toNat p.num []))
  | _, none => none

/-- TKJOIN at the home (R257): descendant entries freed, the region's own entry EXCL. -/
def Mach.joinTok (m : Mach) (d : Nat) (p : Packet) : Mach :=
  let x := m.die d
  let base := tokBase p.addr.toNat
  let inside := fun (e : TokEntry) => e.log2 < p.log2 && overlaps (base * 4096) p.log2 (e.base * 4096) e.log2
  let t := x.tok.filter (fun e => !inside e.2)
  let (i, e) := (({ x with tok := t } : Die).entryOf base p.log2).getD
    (({ x with tok := t } : Die).pickTok (Config.choice m.free), { log2 := p.log2, base := base })
  let m := { m with free := m.free + 1 }
  let e := { e with excl := true, share := 0, split := false, nspl := 0, child := 0, party := p.src.toNat, sharers := [] }
  (m.setDie d { x with tok := store TokEntry.blank t i e }).send
    (tokMsg 0x45 p p.src.toNat p.num [])

/-- Waiting messages of a home served in arrival order: a get that overlaps an earlier one that still waits is passed
over, and so is one that needs entries once an earlier one has been held for want of them (`lack`); a split, whose region its
sender holds, waits for entries alone (R254, R256, R263). -/
def Mach.serveTok (m : Mach) (d : Nat) (lack : Bool) : List TokWait → List TokWait → Mach
  | held, [] => m.setDie d { m.die d with waits := held }
  | held, w :: ws =>
    let p := w.pkt
    let blocked := held.any (fun h => overlaps h.pkt.addr.toNat h.pkt.log2 p.addr.toNat p.log2)
    let x := m.die d
    let own := x.entryOf (tokBase p.addr.toNat) p.log2
    if p.op = 0x41 then
      if blocked || !x.grantable p then m.serveTok d lack (held ++ [w]) ws
      else if own.isNone && (lack || x.freeTok = 0) then m.serveTok d true (held ++ [w]) ws
      else (m.grantTok d p).serveTok d lack held ws
    else match (if lack && own.isSome then none else m.splitTok d p) with
      | some m => m.serveTok d lack held ws
      | none => m.serveTok d true (held ++ [w]) ws

/-- The home's table settled and its waiting messages served. -/
def Mach.homeServe (m : Mach) (d : Nat) : Mach :=
  let m := m.setDie d (m.die d).settle
  m.serveTok d false [] (m.die d).waits

/-- The waiting messages of every home served, after some have been discarded. -/
def Mach.serveHomes (m : Mach) : Mach :=
  (m.dies.map (·.1)).foldl (fun (m : Mach) d => if (m.die d).waits.isEmpty then m else m.homeServe d) m

/-- A message joins the waiting ones at its home. -/
def Mach.homeWait (m : Mach) (p : Packet) : Mach :=
  match homeDie p.addr.toNat with
  | none => m
  | some d =>
    let x := m.die d
    (m.setDie d { x with waits := x.waits ++ [{ pkt := p }] }).homeServe d

/-- TOKEN_REQUEST at the home (R256, R261). -/
def execTokenRequest (p : Packet) (s : State) : Host.Outcome State Fault Refusal := act (fun m => m.homeWait p) s

/-- TOKEN_SPLIT at the home (R257, R263). -/
def execTokenSplit (p : Packet) (s : State) : Host.Outcome State Fault Refusal := act (fun m => m.homeWait p) s

/-- TOKEN_JOIN at the home (R257, R263). -/
def execTokenJoin (p : Packet) (s : State) : Host.Outcome State Fault Refusal :=
  act (fun m => match homeDie p.addr.toNat with
    | none => m
    | some d => (m.joinTok d p).homeServe d) s

/-- The entry of a region after a holder has given one share or its exclusive token back (R262, R407). -/
def Mach.returned (m : Mach) (d ia log2 party : Nat) : Mach :=
  let x := m.die d
  match x.entryOf (tokBase ia) log2 with
  | none => m
  | some (i, e) =>
    let e := if e.excl then { e with excl := false, party := 0 }
      else { e with share := e.share - 1, sharers := e.sharers.erase party }
    (m.setDie d { x with tok := store TokEntry.blank x.tok i e }).homeServe d

/-- The exclusive token of a dead holder: the entry stays EXCL with POIS until the home has swept the region (R407). -/
def Mach.bereave (m : Mach) (d ia log2 party : Nat) : Mach :=
  let x := m.die d
  match x.entryOf (tokBase ia) log2 with
  | none => m
  | some (i, e) =>
    if e.excl && e.party = party then m.setDie d { x with tok := store TokEntry.blank x.tok i { e with pois := true } }
    else m.returned d ia log2 party

/-- TOKEN_RETURN at the home: recorded, then acknowledged to the party (R262). A return that a cluster makes for a
party without a task carries N = 15, one for a dead holder's exclusive token N = 14; neither is acknowledged (R402, R407,
R408; DESIGN CHOICE, log 10). -/
def execTokenReturn (p : Packet) (s : State) : Host.Outcome State Fault Refusal :=
  act (fun m => match homeDie p.addr.toNat with
    | none => m
    | some d =>
      let m := if p.num = 14 then m.bereave d p.addr.toNat p.log2 p.src.toNat
        else m.returned d p.addr.toNat p.log2 p.src.toNat
      if 14 ≤ p.num then m else m.send (tokMsg 0x45 p p.src.toNat 0 [])) s

/-- TOKEN_PASS at the home (R262): PARTY becomes the receiver, whose grant is sent; the lender learns that the lend has
been recorded. -/
def execTokenPass (p : Packet) (s : State) : Host.Outcome State Fault Refusal :=
  act (fun m => match homeDie p.addr.toNat with
    | none => m
    | some d =>
      let dest := valOf p.data
      let x := m.die d
      let m := match x.entryOf (tokBase p.addr.toNat) p.log2 with
        | none => m
        | some (i, e) => m.setDie d { x with tok := store TokEntry.blank x.tok i { e with party := dest } }
      let m := m.send (tokMsg 0x42 p dest 0 (pbytes 4 dest false))
      m.send (tokMsg 0x45 p p.src.toNat 0 [])) s

/-! ## Completion of requests (R79, R280, R436) -/

/-- A request answered: it is outstanding no longer, and its tracker entry falls. -/
def Mach.complete (m : Mach) (p : Packet) : Option (Request × Mach) :=
  match m.hub.requests.find? (·.answeredBy p) with
  | none => none
  | some r =>
    let m := { m with hub := { m.hub with requests := m.hub.requests.erase r } }
    match r.tracked, r.agent with
    | some e, some a =>
      let c := m.ctx a.tile a.ctx
      some (r, m.setCtx a.tile a.ctx { c with tracker := put 0 c.tracker e (at' 0 c.tracker e - 1) })
    | _, _ => some (r, m)

/-! ## Grants and acknowledgements at the party (R258, R261, R262, R402, R408) -/

/-- The job of the newest task of a party that has not been killed: of those loaded and not being killed, stopped, or retired, in
the order in which they were loaded (R402, R408). -/
def Mach.liveTask (m : Mach) (party : Nat) : Option Nat :=
  let n := partyTile party
  let past := m.hub.jobs.flatMap (fun j =>
    (j.formes.filter (fun f => f.tile = n && (f.st = .retired || f.st = .stopped))).map (fun f => (f.age, j.id)))
  let ctxs := ([false, true].map (fun c => m.ctx n c)).filter (fun c => c.loaded && c.dying.isNone && c.party = party)
  ((past ++ ctxs.map (fun c => (c.age, c.job))).foldl (fun (best : Option (Nat × Nat)) x =>
    if best.all (fun y => y.1 ≤ x.1) then some x else best) none).map (·.2)

/-- The host's record of a signal (R134, R302). -/
def Mach.hostSignal (m : Mach) (f sender sem n : Nat) : Mach :=
  m.post { src := srcSignal f sem, type := 2, id := sender, a0 := BitVec.ofNat 64 (sem * 65536 + n) } [f]

/-- The acknowledgement of a packet, where there is one. -/
def Mach.tell (m : Mach) (p : Option Packet) (status : Nat) : Mach :=
  match p with
  | some p => m.ack p status
  | none => m

/-- A signal of `n` to a party of this chip, by its kind (R134), and the word to the sender of its packet: for a tile task
once the cycle's sum has been judged (R386). -/
def Mach.signalParty (m : Mach) (party sem n sender : Nat) (p : Option Packet) : Mach :=
  match partyKind party with
  | 0 =>
    let tile := partyTile party
    match m.newest tile with
    | none => m.tell p 3
    | some c => if (m.ctx tile c).dying.isSome then m.tell p 1 else m.count [m.remoteSig tile c sem n sender p]
  | 1 => (m.ring (partyCluster party) sem n).tell p 0
  | 2 => (m.hubSignal sem n).tell p 0
  | _ => (m.hostSignal (partyFunc party) sender sem n).tell p 0

/-- A token that reached a party without a task goes back to its home, with the effect of tkput (R402, R408). -/
def Mach.sendBack (m : Mach) (p : Packet) (party : Nat) : Mach :=
  m.send { op := 0x43, addr := p.addr, src := BitVec.ofNat 32 party, dchip := iaChip p.addr.toNat
           arg := tokArg p.log2 p.sem p.shared 15 }

/-- An initial grant has come: the holding is the job's, and its next grant is due; a grant for a job that has ended goes
home (R52, R55). -/
def Mach.jobGranted (m : Mach) (p : Packet) (party job : Nat) : Mach :=
  match m.job? job with
  | none => m.sendBack p party
  | some j =>
    (m.addHolding party job p.addr.toNat p.log2 (!p.shared)).setJob { j with grants := j.grants.drop 1 }

/-- A task of a job that is loaded with a party id and not being killed. -/
def Mach.loadedFor (m : Mach) (party job : Nat) : Bool :=
  [false, true].any (fun c =>
    let x := m.ctx (partyTile party) c
    x.loaded && x.dying.isNone && x.party = party && x.job = job)

/-- The tokens of a dead holder go to reclamation by their homes; lines held exclusively are dropped from the cluster cache, dirty
or not (R407). -/
def Mach.reclaim (m : Mach) (party : Nat) (hs : List Holding) : Mach :=
  hs.foldl (fun m h =>
    let m := match h.ex, holderCluster party with
      | true, some cl => m.dropDirty cl h.base.toNat (2 ^ h.log2)
      | _, _ => m
    m.send { op := 0x43, addr := h.base, src := BitVec.ofNat 32 party, dchip := iaChip h.base.toNat
             arg := tokArg h.log2 0 (!h.ex) (if h.ex then 14 else 15) }) m

/-- The tokens that a party held for a job leave its table for reclamation, with more that it had given up (R407). -/
def Mach.bereft (m : Mach) (party job : Nat) (more : List Holding) : Mach :=
  let mine := (m.holdings party).filter (fun h => h.party = party && h.job = job) ++ more
  (m.setHoldings party ((m.holdings party).filter (fun h => !(h.party = party && h.job = job)))).reclaim party mine

/-- The requests of a supervisor or of a host function that has been reset: what they bring goes back (R407, R428). -/
def Mach.orphan (m : Mach) (party : Nat) : Mach :=
  { m with hub := { m.hub with requests := m.hub.requests.map (fun r =>
      if r.party = party && r.agent.isNone && r.op ≠ 2 then { r with gone := some 0, cmd := none } else r) } }

/-- The job for which a party takes a token that has reached it: of a lend, that of its newest task (R408); of a get, that
of the task that asked, or for which its supervisor asked (R401), or of a later task of the same job where that one was killed
(R402); 0 for a party other than a tile task, unless it has been reset since (R407, R428); none where the token goes back. -/
def Mach.takerOf (m : Mach) (party : Nat) (r : Option Request) : Option Nat :=
  if partyKind party ≠ 0 then (if (r.bind (·.gone)).isSome then none else some 0)
  else match r with
    | none => m.liveTask party
    | some r => match r.gone with
      | some job => if m.loadedFor party job then some job else none
      | none => match r.agent, r.whose with
        | some a, _ => some (m.ctx a.tile a.ctx).job
        | none, some job => some job
        | none, none => m.liveTask party

/-- Whether a holdings table has an entry for one more token: a holding of exactly the region is only changed (R258). -/
def Mach.entryFor (m : Mach) (party job ia log2 : Nat) : Bool :=
  (m.exact party (some job) ia log2).isSome || m.holdRoom party 1

/-- TOKEN_GRANT at the party's cluster or the hub: the holding is added, then the semaphore signalled (R258, R261,
R262). A lend carries its receiver as data; it waits while the table is full (DEDUCED, log 80). -/
def execTokenGrant (p : Packet) (s : State) : Host.Outcome State Fault Refusal :=
  act (fun m0 =>
    let lend := !p.data.isEmpty
    let party := if lend then valOf p.data else p.src.toNat
    let ia := p.addr.toNat
    let (r, m) := if lend then (none, m0) else match m0.complete p with
      | some (r, m) => (some r, m)
      | none => (none, m0)
    match r.bind (·.job) with
    | some job => m.jobGranted p party job
    | none => match m.takerOf party r with
    | none => m.sendBack p party
    | some job =>
      if !m.entryFor party job ia p.log2 then { m0 with net := p :: m0.net }
      else
        let m := m.addHolding party job ia p.log2 (!p.shared)
        match r.bind (·.agent), r.bind (·.cmd), r.bind (·.bell) with
        | some a, _, _ => m.ownSignal a.tile a.ctx p.sem
        | none, some (q, i), _ => m.cmdDone q i 0 none 0 0
        | none, none, some c => m.ring c p.sem 1
        | none, none, none => m.signalParty party p.sem 1 party none) s

/-- A stream's split or join is done: the holdings are rewritten and the stream runs on (R263). -/
def Mach.rewrite (m : Mach) (p : Packet) (op party job : Nat) : Mach :=
  let ia := p.addr.toNat
  if op = 0x46 then
    let l := (m.holdings party).filter (fun h => !h.isFor party (some job) ia p.log2)
    let k := p.log2 - p.num
    m.setHoldings party (l ++ (List.range (2 ^ p.num)).map (fun i =>
      { base := BitVec.ofNat 64 (ia + i * 2 ^ k), log2 := k, ex := true, party := party, job := job }))
  else
    let l := (m.holdings party).filter (fun h => !(h.party = party && h.job = job && ia ≤ h.base.toNat
      && h.base.toNat + 2 ^ h.log2 ≤ ia + 2 ^ p.log2))
    m.setHoldings party (l ++ [{ base := BitVec.ofNat 64 ia, log2 := p.log2, ex := true, party := party, job := job }])

/-- What a split or a join has made for a supervisor that has been reset goes to reclamation (R407). -/
def Mach.loseKids (m : Mach) (p : Packet) (op party : Nat) : Mach :=
  let ia := p.addr.toNat
  let m := m.rewrite p op party 0
  let kids := fun (h : Holding) => h.party = party && h.job = 0 && ia ≤ h.base.toNat && h.base.toNat + 2 ^ h.log2 ≤ ia + 2 ^ p.log2
  let lost := (m.holdings party).filter kids
  (m.setHoldings party ((m.holdings party).filter (fun h => !kids h))).reclaim party lost

/-- TOKEN_ACKNOWLEDGE at the party (R262, R263, R266): of a return, the semaphore or doorbell is signalled; of a pass,
nothing; of a split or join, the holdings are rewritten and the stream runs on. -/
def execTokenAcknowledge (p : Packet) (s : State) : Host.Outcome State Fault Refusal :=
  act (fun m => match m.complete p with
    | none => m
    | some (r, m) =>
      let party := p.src.toNat
      match r.cmd with
      | some (q, i) => m.cmdDone q i 0 none 0 0
      | none =>
      if r.gone.isSome then
        -- its supervisor has been reset: what a split or a join has made is reclaimed (R407)
        (if r.op = 0x46 ∨ r.op = 0x47 then m.loseKids p r.op party else m)
      else if r.op = 0x43 then
        match r.agent with
        | some a => m.ownSignal a.tile a.ctx p.sem
        | none => m.signalParty party p.sem 1 party none
      else if r.op = 0x44 then
        if partyKind party = 1 then m.setCluster (partyCluster party) { m.cluster (partyCluster party) with busy := false }
        else m
      else
        match r.agent with
        | some a =>
          let m := m.rewrite p r.op party (m.ctx a.tile a.ctx).job
          let m := m.setMode a .run
          m.setStreamOf a { m.streamOf a with granted := true }
        | none => (m.rewrite p r.op party 0).signalParty party p.sem 1 party none) s

/-! ## The token instructions (R259 to R263) -/

/-- The region of a token instruction (R259; steps 5 and 8 of R379) (DEDUCED, log 14). -/
def Mach.region (m : Mach) (xr log2 : Nat) : Except Trap Nat :=
  let r := m.xr xr
  let va := r.v.toNat
  if r.p then .error poisonUse
  else match m.curCtx.translate va (2 ^ log2) with
    | none => .error { cause := .range, addr := r.v, detail := accDetail 15 1 none }
    | some (x, ia) =>
      if x.kind ≠ .owned then .error { cause := .kindviol, addr := r.v, detail := accDetail 15 5 (some (x, ia)) }
      else if ia % 2 ^ log2 ≠ 0 then .error { cause := .align, addr := r.v, detail := alignDetail 15 log2 }
      -- a span that crosses home dies is no region (R253); the manual names no cause (DESIGN CHOICE, log 80)
      else if !validRegion ia log2 then .error { cause := .range, addr := r.v, detail := accDetail 15 1 (some (x, ia)) }
      else .ok ia

/-- UNOWNED of a token instruction (R265). -/
def Mach.unheld (m : Mach) (xr : Nat) : Trap := { cause := .unowned, addr := (m.xr xr).v }

/-- A token message of the acting stream to a region's home. -/
def tokReq (m : Mach) (op ia log2 sem : Nat) (shared : Bool) (n : Nat) (data : List PByte) : Packet :=
  { op := op, addr := BitVec.ofNat 64 ia, src := BitVec.ofNat 32 m.curCtx.party, dchip := iaChip ia
    arg := tokArg log2 sem shared n, data := data, bcnt := data.length }

/-- Whether a request is granted at once, without a message (R261). -/
def Mach.atOnce (m : Mach) (party : Nat) (job : Option Nat) (ia log2 : Nat) (shared : Bool) : Bool :=
  m.coversEx party job ia log2 || (shared && (m.exact party job ia log2).any (fun h => !h.ex))

/-- Holdings entries that a get needs: none for the upgrade of a share of exactly the region (R256, R258, R261). -/
def Mach.getNeeds (m : Mach) (party : Nat) (job : Option Nat) (ia log2 : Nat) : Nat :=
  if (m.exact party job ia log2).isSome then 0 else 1

/-- A token instruction held at issue for want of holdings entries: its stream is blocked as if in a wait (R258). -/
def Mach.holdToken (m : Mach) : Mach := m.setMode m.cur .held

/-- tkget (R260, R261). -/
def execTkget (xr log2 sem : Nat) (shared : Bool) (s : State) : Host.Outcome State Fault Refusal :=
  act (fun m => match m.region xr log2 with
    | .error t => m.trapAt m.len0 t
    | .ok ia =>
      let c := m.curCtx
      let m' := m.setMode m.cur .run
      if m.atOnce c.party (some c.job) ia log2 shared then (m'.advance m.len0).ownSignal m.cur.tile m.cur.ctx sem
      else
        let n := m.getNeeds c.party (some c.job) ia log2
        if !m.holdRoom c.party n then m.holdToken
        else (m'.requestAs (tokReq m 0x41 ia log2 sem shared 0 [])
          { agent := some m.cur, write := false, need := n }).1.advance m.len0) s

/-- A release accepted: the holding leaves the table, but for a lend to the lender itself, and the release stands among those
of its task until its message is sent (R262, R376). -/
def Mach.beginRelease (m : Mach) (r : Release) : Mach :=
  let m := if r.op = 0 then m else m.dropHolding r.h.party (some r.h.job) r.h.base.toNat r.h.log2
  let c := m.curCtx
  (m.setCurCtx { c with leaving := c.leaving ++ [r] }).setStr { m.str with granted := true }

/-- The message of a release of the acting stream, whose lines have reached the home (R262): a return, a pass, or of a lend to
the lender itself its signal. A stream that has executed tail counts it in its tracker already (R79). -/
def Mach.sendRelease (m : Mach) (r : Release) : Mach :=
  let c := m.curCtx
  let m := m.setCurCtx { c with leaving := c.leaving.erase r }
  let ended := m.str.mode = .tail
  let e := 2 * m.cur.eng.code + 1
  if r.op = 0 then
    let c := m.curCtx
    (m.setCurCtx (if ended then { c with tracker := put 0 c.tracker e (at' 0 c.tracker e - 1) } else c)).ownSignal
      m.cur.tile m.cur.ctx r.sem
  else
    (m.requestAs (tokReq m r.op r.h.base.toNat r.h.log2 r.sem false 0 (if r.op = 0x44 then pbytes 4 r.dest false else []))
      { agent := some m.cur, write := false, tracked := if ended then some e else none }).1

/-- Whether a read of the acting stream from a region has still to be performed (R262). -/
def Mach.readsIn (m : Mach) (ia log2 : Nat) : Bool :=
  m.hub.requests.any (fun r => r.op = 1 && r.agent == some m.cur && ia ≤ r.addr.toNat && r.addr.toNat < ia + 2 ^ log2)

/-- The first release of the acting stream whose pfence has completed goes on (R262): once the stream's reads of the region have
been performed, the dirty lines are written back, and the message follows their acknowledgements and those of earlier
evictions. -/
def Mach.releaseTurn (m : Mach) : Mach :=
  match m.curCtx.leaving.find? (fun r => r.eng = m.cur.eng.code && r.out) with
  | none => m
  | some r =>
    let ia := r.h.base.toNat
    let party := m.curCtx.party
    if m.readsIn ia r.h.log2 || (holderCluster party).any (fun cl => m.crowded (m.supParty cl)) then m
    else
      let m := m.flush party (some m.curCtx.job) ia r.h.log2
      if m.flushed party ia r.h.log2 then m.sendRelease r else m

/-- The pfence of a release: when it completes, the stream resumes, and the rest follows (R262). -/
def Mach.releaseFence (m : Mach) : Mach :=
  if !m.pfenceDone then m
  else
    let c := m.curCtx
    let go := fun (r : Release) => if r.eng = m.cur.eng.code then { r with out := true } else r
    ((m.setCurCtx { c with leaving := c.leaving.map go }).advance m.len0).releaseTurn

/-- tkput (R260, R262). -/
def execTkput (xr log2 sem : Nat) (s : State) : Host.Outcome State Fault Refusal :=
  act (fun m =>
    if m.str.granted then m.releaseFence
    else match m.region xr log2 with
    | .error t => m.trapAt m.len0 t
    | .ok ia =>
      let c := m.curCtx
      match m.exact c.party (some c.job) ia log2 with
      | none => m.trapAt m.len0 (m.unheld xr)
      | some h => (m.beginRelease { eng := m.cur.eng.code, h := h, op := 0x43, sem := sem }).releaseFence) s

/-- tklend (R260, R262). -/
def execTklend (xr log2 sem xp : Nat) (s : State) : Host.Outcome State Fault Refusal :=
  act (fun m =>
    let t := m.xr xp
    let c := m.curCtx
    let dest := t.v.toNat
    if m.str.granted then m.releaseFence
    else if (m.xr xr).p || t.p then m.trapAt m.len0 poisonUse
    else if 2 ^ 32 ≤ dest then m.trapAt m.len0 (regBad xp)
    else match m.region xr log2 with
      | .error t => m.trapAt m.len0 t
      | .ok ia =>
        match (m.exact c.party (some c.job) ia log2).filter (·.ex) with
        | none => m.trapAt m.len0 (m.unheld xr)
        | some h => (m.beginRelease
            { eng := m.cur.eng.code, h := h, op := if dest = c.party then 0 else 0x44, sem := sem, dest := dest }).releaseFence) s

/-- tksplit (R257, R260, R263). -/
def execTksplit (xr log2 n : Nat) (s : State) : Host.Outcome State Fault Refusal :=
  act (fun m =>
    if m.str.granted then m.advance m.len0
    else if m.str.mode = .token then m
    else match m.region xr log2 with
    | .error t => m.trapAt m.len0 t
    | .ok ia =>
      let c := m.curCtx
      if !(m.exact c.party (some c.job) ia log2).any (·.ex) then m.trapAt m.len0 (m.unheld xr)
      else if !m.holdRoom c.party (2 ^ n - 1) then m.holdToken
      else
        let m := (m.requestAs (tokReq m 0x46 ia log2 0 false n [])
          { agent := some m.cur, write := false, need := 2 ^ n - 1 }).1
        m.setMode m.cur .token) s

/-- tkjoin (R257, R260, R263). -/
def execTkjoin (xr log2 n : Nat) (s : State) : Host.Outcome State Fault Refusal :=
  act (fun m =>
    if m.str.granted then m.advance m.len0
    else if m.str.mode = .token then m
    else match m.region xr log2 with
    | .error t => m.trapAt m.len0 t
    | .ok ia =>
      let c := m.curCtx
      if !m.coversIn c.party (some c.job) ia log2 then m.trapAt m.len0 (m.unheld xr)
      else
        let m := (m.request (tokReq m 0x47 ia log2 0 false n []) (some m.cur) none false).1
        m.setMode m.cur .token) s

end Sys2Proof.Machine
end

