-- ==== Sys2Proof/Machine/Fabric.lean ====
section
/-!
DEFINITION. The fabric (R274 to R288, R419 to R425, R436): packets and flits, what a request does at its target,
responses, remote signals, system barriers, links, the rehash and a lost chip.
-/

namespace Sys2Proof

/-! ## Packets as flits (R281 to R284) -/

/-- OPs of R283, and those that carry data. -/
def opKnown (op : Nat) : Bool := (1 ≤ op && op ≤ 8) || op = 0x20 || op = 0x21 || (0x40 ≤ op && op ≤ 0x49)
def opData (op : Nat) : Bool := (2 ≤ op && op ≤ 8) || op = 0x20

/-- Data flits of a packet that carries `n` data bytes. -/
def dataFlits (n : Nat) : Nat := if n ≤ 32 then 0 else (n - 32 + 55) / 56

/-- The 24-byte header (R282). A message without data or length carries 0 in BCNT - 1. -/
def Packet.header (p : Packet) : List Byte :=
  let n := if p.op = 1 then p.bcnt else p.data.length
  bytesOf 8 p.addr.toNat ++ bytesOf 4 p.src.toNat ++ bytesOf 4 (p.dchip * 2048 + p.op) ++ bytesOf 2 p.tag
    ++ bytesOf 2 (dataFlits p.data.length * 8192 + (n - 1) % 256 * 32) ++ bytesOf 4 p.arg.toNat

/-- Bytes cut into pieces of 56, the last filled with zeros; `fuel` bounds their number. -/
def pieces : Nat → List Byte → List (List Byte)
  | 0, _ => []
  | fuel + 1, bs =>
    if bs.isEmpty then [] else (bs.take 56 ++ List.replicate (56 - bs.length) 0) :: pieces fuel (bs.drop 56)

/-- The payloads of a packet's flits, the header flit first (R281) (DEDUCED, log 46). -/
def Packet.payloads (p : Packet) : List (List Byte) := pieces 6 (p.header ++ p.data.map (·.b))

/-- A number from bytes, least significant first. -/
def leVal : List Byte → Nat
  | [] => 0
  | b :: bs => b.toNat + 256 * leVal bs

/-- Bytes `o` to `o + n - 1` as a number. -/
def fieldAt (bs : List Byte) (o n : Nat) : Nat := leVal ((bs.drop o).take n)

/-- Data flits that a header flit announces. -/
def ndataOf (head : List Byte) : Nat := fieldAt head 18 2 / 8192

/-- The packet that payloads of one channel carry. -/
def packetOf (vc plane : Nat) (head : List Byte) (rest : List (List Byte)) : Packet :=
  let dop := fieldAt head 12 4
  let cnt := fieldAt head 18 2
  let op := dop % 256
  let n := cnt / 32 % 256 + 1
  let body := (head.drop 24) ++ rest.flatten
  let data := if opData op then body.take n
    else if (op = 0x42 ∨ op = 0x44) ∧ 4 ≤ n then body.take 4 else []
  { op := op, addr := BitVec.ofNat 64 (fieldAt head 0 8), src := BitVec.ofNat 32 (fieldAt head 8 4), dchip := dop / 2048
    tag := fieldAt head 16 2, bcnt := if op = 1 ∨ opData op then n else data.length
    arg := BitVec.ofNat 32 (fieldAt head 20 4), data := data.map (fun b => ⟨b, false⟩), vc := vc, plane := plane
    rsv := !opKnown op || dop / 256 % 8 ≠ 0 || cnt % 32 ≠ 0 || vc = 3 }

/-- CRC-32 as in IEEE 802.3, over bytes (R284). -/
def crcBit (c : Word32) : Word32 := if c.getLsbD 0 then (c >>> 1) ^^^ 0xEDB88320#32 else c >>> 1
def crcByte (c : Word32) (b : Byte) : Word32 :=
  crcBit (crcBit (crcBit (crcBit (crcBit (crcBit (crcBit (crcBit (c ^^^ b.setWidth 32))))))))
def crc32 (bs : List Byte) : Word32 := ~~~ (bs.foldl crcByte 0xFFFFFFFF#32)

/-- A flit: 56 payload bytes and the trailer (R284). -/
def flitBytes (seq vc kind ack : Nat) (payload : List Byte) : List Byte :=
  let top := bytesOf 4 (seq % 4096 * 2 ^ 20 + vc % 4 * 2 ^ 18 + kind % 4 * 2 ^ 16 + ack % 4096 * 16)
  payload ++ bytesOf 4 (crc32 (payload ++ top)).toNat ++ top

/-- Whether a flit is intact: its length and its CRC. -/
def flitIntact (bs : List Byte) : Bool :=
  bs.length = 64 && fieldAt bs 56 4 = (crc32 (bs.take 56 ++ bs.drop 60)).toNat

/-- Sequence number, channel, kind and ACK of a flit. -/
def flitSeq (bs : List Byte) : Nat := fieldAt bs 60 4 / 2 ^ 20
def flitVc (bs : List Byte) : Nat := fieldAt bs 60 4 / 2 ^ 18 % 4
def flitKind (bs : List Byte) : Nat := fieldAt bs 60 4 / 2 ^ 16 % 4
def flitAck (bs : List Byte) : Nat := fieldAt bs 60 4 / 16 % 4096

/-- Bytes of memory that a request addressed by IA touches (R283). -/
def Packet.span (p : Packet) : Nat :=
  if p.op = 1 then p.bcnt else if p.op = 3 ∨ p.op = 5 then p.fmt1.width / 8 else p.reach - p.addr.toNat

/-- Whether a request is addressed by IA (R283). -/
def Packet.byIa (p : Packet) : Bool := 1 ≤ p.op && p.op ≤ 5

/-- STATUS of a response. -/
def Packet.status (p : Packet) : Nat := bits p.arg 0 8

end Sys2Proof

namespace Sys2Proof.Machine

open Sys2Proof

/-! ## Requests at the memory they name -/

/-- Where `n` bytes at an IA of this chip lie, for an access of another device (R235, R237, R238). -/
def Mach.homePlace (m : Mach) (ia n : Nat) : Option Place :=
  match areaOf (iaLocal ia) with
  | .mem d o => some (.mem d o)
  | .cpool k o => if o + n ≤ (m.cluster k).explBytes then some (.cpool k o) else none
  | .dpool k o => if o + n ≤ (m.die k).explBytes then some (.dpool k o) else none
  | .host w o =>
    let h := m.hwin w
    if h.getLsbD 0 then some (.host (bits64 h 4 4) ((bits64 h 16 48 * 65536 + o) % 2 ^ 64)) else none
  | .regs _ | .boot _ | .none => none

/-- A request that cannot be performed yet is held at its home (R242, R361). -/
def Mach.keep (m : Mach) (p : Packet) : Mach := { m with homeq := m.homeq ++ [p] }

/-- The pages that a request's bytes touch, by their IA (R240). -/
def Mach.homePages (m : Mach) (p : Packet) : List Nat :=
  [p.addr.toNat, p.addr.toNat + (p.span - 1)].map (fun ia => match areaOf (iaLocal ia) with
    | .mem d o => (m.pageIa d o).toNat
    | _ => ia)

/-- Whether a request follows one that is held before it: for the same page, of accesses by IA (R242); to the same party; of two
barrier messages. -/
def Mach.behind (m : Mach) (p : Packet) (held : List Packet) : Bool :=
  held.any (fun q =>
    if p.byIa then q.byIa && (m.homePages q).any (m.homePages p).contains
    else if p.toParty then q.toParty && p.party = q.party
    else p.ofBarrier && q.ofBarrier)

/-- The held requests that no earlier one holds back (R242). -/
def Mach.firstHeld (m : Mach) (seen : List Packet) : List Packet → List Packet
  | [] => []
  | p :: ps => (if m.behind p seen then [] else [p]) ++ m.firstHeld (p :: seen) ps

/-- Whether an access to an offset of a die's window is held no more: its stacks have trained and its page does not migrate (R242,
R361). -/
def Mach.offReady (m : Mach) (d o : Nat) : Bool :=
  let q := m.page d o
  m.dirOpen d o && q.state ≠ 2 && (q.state ≠ 1 || m.stackOpen d (q.phys + o % q.size))

/-- A read answered with a nonzero status: zero bytes, each poisoned (R436). -/
def Mach.noData (m : Mach) (p : Packet) (n status : Nat) : Mach :=
  m.respond p 0x20 status (List.replicate n ⟨0, true⟩)

/-- An access that its target cannot perform, by an absent page or outside every store, is discarded, and answered so
(DESIGN CHOICE, log 30). -/
def Mach.cannot (m : Mach) (p : Packet) (n : Nat) (data : Bool) : Mach :=
  if data then m.noData p n 1 else m.ack p 1

/-- The request of an agent of this chip that a packet carries. -/
def Mach.asker (m : Mach) (p : Packet) : Option (Agent × Request) :=
  if partyChip p.src.toNat ≠ m.hub.chip then none
  else (m.hub.requests.find? (fun r => r.tag = p.tag && r.party = p.src.toNat && r.op = p.op && r.addr = p.addr)).bind
    (fun r => r.agent.map (fun a => (a, r)))

/-- Where the record of an absent page that an access of a supervisor or of the hub party met comes from (R369). -/
def Mach.coreSource (m : Mach) (p : Packet) : Option Nat :=
  if p.src.toNat = m.hubParty then some srcHub
  else if partyChip p.src.toNat = m.hub.chip && partyKind p.src.toNat = 1 then some (srcCluster (partyCluster p.src.toNat))
  else none

/-- An access that failed at its home on an absent page (R405): the task of this chip that made it is killed; one of a
supervisor or of the hub party has the record alone, with the IA, and waits where the record has no room (R370; DEDUCED,
log 95). The access is discarded. -/
def Mach.failAt (m : Mach) (p : Packet) (n : Nat) (data : Bool) (t : Trap) : Mach :=
  match t.cause, m.asker p, m.coreSource p with
  | .pageabs, some (a, r), _ =>
    let was := m.cur
    let m := { m with cur := a }.take { t with
      addr := r.va, off := some r.off, inblk := r.iter.isSome, iter := r.iter.getD [] }
    { m with cur := was }.cannot p n data
  | .pageabs, none, some src =>
    if m.roomFor src then
      (m.raise .task .pageabs { src := src, eng := 255, id := p.src.toNat, a1 := p.addr, detail := t.detail }).cannot p n data
    else m.keep p
  | _, _, _ => m.cannot p n data

/-- The answer to a read: bytes for another chip carry no poison bit, so poisoned ones go as an answer of status 0x04
(R374, R436; DESIGN CHOICE, log 81). -/
def Mach.answerRead (m : Mach) (p : Packet) (bs : List PByte) : Mach :=
  if anyPois bs && partyChip p.src.toNat ≠ m.hub.chip then m.noData p bs.length 4 else m.respond p 0x20 0 bs

/-- READ (R283, R241, R242). -/
def execReadReq (p : Packet) (s : State) : Host.Outcome State Fault Refusal :=
  act (fun m =>
    let ia := p.addr.toNat
    match m.homePlace ia p.bcnt with
    | none => m.cannot p p.bcnt true
    | some (.host fn a) => (m.hostRead fn a p.bcnt (.remote p)).1
    | some pl => match (m.readPlace pl ia p.bcnt (fun _ => p.bcnt) none {}).1 with
      | .done bs m => m.answerRead p bs
      | .wait m => m.keep p
      | .trap t | .park _ t => m.failAt p p.bcnt true t) s

/-- Whether a place lies in a poisoned page, whose writes are discarded with status 0x04 (R406). -/
def Mach.poisonedPage (m : Mach) : Place → Bool
  | .mem d o => (m.page d o).state = 3
  | _ => false

/-- WRITE (R283, R406). -/
def execWriteReq (p : Packet) (s : State) : Host.Outcome State Fault Refusal :=
  act (fun m =>
    let ia := p.addr.toNat
    match m.homePlace ia p.data.length with
    | none => m.cannot p 0 false
    | some pl =>
      let st := if m.poisonedPage pl then 4 else 0
      match (m.writePlace pl ia p.data false {}).1 with
      | .done _ m => m.ack p st
      | .wait m => m.keep p
      | .trap t | .park _ t => m.failAt p 0 false t) s

end Sys2Proof.Machine

namespace Sys2Proof

open Sys2Proof.Machine

/-- The element's bytes after an ATOMIC (R170); `r` is the draw of a stochastic rounding (R42). -/
def Packet.atomBytes (p : Packet) (r : Nat) (old : List PByte) : List PByte :=
  let a := p.data.take 8
  let b := p.data.drop 8
  let op := (AOp.ofCode (bits p.arg 28 4)).getD .add
  pbytes (p.fmt1.width / 8) (atomVal op p.fmt1 p.rmode (valOf old) (valOf a) (valOf b) r)
    (anyPois a || (op = .cas && anyPois b) || anyPois old)

/-- Source elements of a REDUCE_STORE, each in whole bytes, with their index. -/
def Packet.sources (p : Packet) : List (Nat × List PByte) :=
  let n := (p.fmt0.width + 7) / 8
  (List.range (p.data.length / n)).map (fun i => (i, (p.data.drop (i * n)).take n))

/-- The element's bytes after a reduce-store of one source element (R159). -/
def Packet.addBytes (p : Packet) (r : Nat) (src old : List PByte) : List PByte :=
  let v := valOf src % 2 ^ p.fmt0.width
  pbytes (p.fmt1.width / 8) (radd p.fmt1 p.rmode (valOf old) (p.fmt0.value v) r) (anyPois src || anyPois old)

end Sys2Proof

namespace Sys2Proof.Machine

open Sys2Proof

/-- The open draw of a stochastic rounding (DESIGN CHOICE, log 2) (DESIGN CHOICE, log 48). -/
def openDraw (m : Mach) : Nat × Mach :=
  let (w, m) := fresh m
  (w.toNat % 2 ^ 32, m)

/-- The draw for element `i` of a packet: the sender's (R42), or an open one where the packet came by the links, whose header
has no room for it (DESIGN CHOICE, log 48). -/
def drawOf (m : Mach) (p : Packet) (i : Nat) : Nat × Mach :=
  match p.draws[i]? with
  | some r => (r, m)
  | none => openDraw m

/-- The answer to an atomic performed: the old value, or an acknowledgement (R283). -/
def Mach.answerAtom (m : Mach) (p : Packet) (old : List PByte) : Mach :=
  if p.wantsOld then m.answerRead p old else m.ack p 0

/-- ATOMIC (R250, R283). -/
def execAtomicReq (p : Packet) (s : State) : Host.Outcome State Fault Refusal :=
  act (fun m =>
    let ia := p.addr.toNat
    let n := p.fmt1.width / 8
    match m.homePlace ia n with
    | none | some (.host _ _) => m.cannot p n p.wantsOld
    | some pl =>
      let (r, m) := drawOf m p 0
      let dead := m.poisonedPage pl
      match (m.rmw pl ia n (p.atomBytes r) {}).1 with
      | .done old m =>
        if dead then (if p.wantsOld then m.noData p n 4 else m.ack p 4) else m.answerAtom p old
      | .wait m => m.keep p
      | .trap t | .park _ t => m.failAt p n p.wantsOld t) s

/-- The additions of a reduce-store, element after element. -/
def Mach.addAll (m : Mach) (p : Packet) : List (Nat × List PByte) → Acc Unit
  | [] => .done () m
  | (i, src) :: t =>
    let n := p.fmt1.width / 8
    let ia := p.addr.toNat + i * n
    let (r, m) := drawOf m p i
    match m.homePlace ia n with
    | none | some (.host _ _) => .trap { cause := .range }
    | some pl => match (m.rmw pl ia n (p.addBytes r src) {}).1 with
      | .done _ m => m.addAll p t
      | .wait m => .wait m
      | .trap t => .trap t
      | .park _ t => .trap t

/-- REDUCE_STORE (R159, R250, R283). -/
def execReduceStore (p : Packet) (s : State) : Host.Outcome State Fault Refusal :=
  act (fun m =>
    let dead := (m.homePlace p.addr.toNat 1).any m.poisonedPage
    match m.addAll p p.sources with
    | .done _ m => m.ack p (if dead then 4 else 0)
    | .wait m => m.keep p
    | .trap t | .park _ t => m.failAt p 0 false t) s

/-! ## Watches (R173, R283) -/

/-- What looking at a watch comes to. -/
inductive Watched where
  /-- Its condition is not met. -/
  | unmet (m : Mach)
  /-- Its page holds it (R242). -/
  | held (m : Mach)
  /-- It has been answered, or has failed. -/
  | done (m : Mach)

/-- A watch looked at: answered where its condition is met (DEDUCED, log 49). -/
def Mach.tryWatch (m : Mach) (p : Packet) : Watched :=
  let n := p.fmt1.width / 8
  match m.homePlace p.addr.toNat n with
  | none | some (.host _ _) => .done (m.cannot p n true)
  | some pl => match (m.readPlace pl p.addr.toNat n (fun _ => n) none {}).1 with
    | .done bs m =>
      -- a poisoned element ends the watch, for the value that waitm tests is a use at the sender (R375)
      if anyPois bs || condHolds ((Cond.ofCode (bits p.arg 29 3)).getD .eq) (extend64 p.fmt1 (valOf bs))
          (BitVec.ofNat 64 (valOf p.data)) then .done (m.answerRead p bs)
      else .unmet m
    | .wait m => .held m
    | .trap t | .park _ t => .done (m.failAt p n true t)

/-- WAITM_WATCH (R173, R242, R283): answered at once, kept, or held in its page's order of arrival. -/
def execWaitmWatch (p : Packet) (s : State) : Host.Outcome State Fault Refusal :=
  act (fun m => match m.tryWatch p with
    | .done m => m
    | .held m => m.keep p
    | .unmet m => { m with hub := { m.hub with watches := m.hub.watches ++ [p] } }) s

/-- A watch kept is looked at again. -/
def Mach.watchTurn (m : Mach) (k : Nat) : Mach :=
  match m.hub.watches[k % m.hub.watches.length]? with
  | none => m
  | some p => match m.tryWatch p with
    | .done m => { m with hub := { m.hub with watches := m.hub.watches.erase p } }
    | .held m | .unmet m => m

/-! ## PEER accesses at the target tile (R74, R157) -/

/-- BUF, SLOT and byte offset of a party-addressed access (R157, R282). -/
def peerBuf (p : Packet) : Nat := bits p.arg 12 5
def peerSlot (p : Packet) : Nat := bits p.arg 8 4
def peerOff (p : Packet) : Nat := p.addr.toNat % 2 ^ 20

/-- The RANGE record of a discarded PEER access (R157) (DEDUCED, log 50). -/
def Mach.peerRecord (m : Mach) (p : Packet) (status : Nat) : Mach :=
  m.raise .corr .range
    { src := srcTile (partyTile p.party), eng := 255, id := p.party, a1 := p.addr
      detail := BitVec.ofNat 64 (p.src.toNat * 2 ^ 32 + status) }

/-- Bytes written by the hub party at an IA of this chip, held with their planes (R274, R318). -/
def Mach.hubWrite (m : Mach) (ia : Nat) (bs : List PByte) : Acc Unit :=
  match (if iaChip ia = m.hub.chip then m.homePlace ia bs.length else none) with
  | none | some (.host _ _) => .trap { cause := .range, addr := BitVec.ofNat 64 ia }
  | some pl => if m.hubOpen ia bs.length then (m.writePlace pl ia bs false {}).1 else .wait m

/-- A size rounded up to 4 KiB. -/
def round4k (n : Nat) : Nat := (n + 4095) / 4096 * 4096

/-- Room of a stopped task's save area: up to the next one, or the end of the region. -/
def areaRoom (j : Job) (x : Queue) (f : FormeEnt) : Nat :=
  let ends := (j.formes.filter (fun g => g.st = .stopped && f.area.toNat < g.area.toNat)).map (fun g => g.area.toNat)
  (ends.foldl min (x.save.toNat + x.savesz.toNat)) - f.area.toNat

/-- Whether a forme's task holds packets: it has been stopped, or its slice has not started yet (R327, R429). -/
def Job.holds (j : Job) (f : FormeEnt) : Bool := f.st = .stopped || (j.st = .placed && f.st = .loaded)

/-- The gang job and its forme for whose task a party's packets are held. -/
def Mach.holderOf (m : Mach) (party : Nat) : Option (Job × FormeEnt) :=
  m.hub.jobs.findSome? (fun j =>
    if j.gang = 0 then none
    else (j.formes.find? (fun f => j.holds f && m.tileParty f.tile = party)).map (fun f => (j, f)))

/-- Flits held for a party. -/
def Mach.heldFlits (m : Mach) (party : Nat) : Nat :=
  ((m.hub.held.filter (fun q => q.party = party)).map (fun q => q.flits.length)).sum

/-- What a forme takes of its queue's save region: its area, or the flits held for a task that is late in its first slice. -/
def Mach.regionOf (m : Mach) (j : Job) (f : FormeEnt) : Nat :=
  if f.st = .stopped then round4k f.size else if j.holds f then round4k (64 * m.heldFlits (m.tileParty f.tile)) else 0

/-- The flits of a packet held for a task that has been saved are appended to its save area, as far as that reaches; when
the areas and the held flits outgrow the queue's save region, the job ends (R327, R429) (DEDUCED, log 42). -/
def Mach.appendHeld (m : Mach) (p : Packet) : Mach :=
  match m.holderOf p.party with
  | none => m
  | some (j, f) =>
    let x := m.queue (j.queue.getD 0)
    let n := p.flits.length
    let seq := m.heldFlits p.party
    let m := if f.st = .stopped && f.size + 64 * n ≤ areaRoom j x f then
        match m.hubWrite (f.area.toNat + f.size) (clean p.flits.flatten) with
        | .done _ m =>
          match m.hubWrite (f.area.toNat + 0x30) (pbytes 4 seq false) with
          | .done _ m => match m.hubWrite (f.area.toNat + 0x14) (pbytes 4 (f.size + 64 * n) false) with
            | .done _ m => m
            | _ => m
          | _ => m
        | _ => m
      else m
    let fs := j.formes.map (fun g =>
      if g.st = .stopped && m.tileParty g.tile = p.party then { g with size := g.size + 64 * n } else g)
    let m := m.setJob { j with formes := fs }
    if (fs.map (m.regionOf j)).sum ≤ x.savesz.toNat then m else m.failJob j.id .plane 0

/-- Whether the hub can write to the save area of a party's task, and to its header: no page of them migrates and no plane of
them is held (R242, R274). -/
def Mach.areaReady (m : Mach) (p : Packet) : Bool :=
  match m.holderOf p.party with
  | none => true
  | some (_, f) => f.st ≠ .stopped || [(f.area.toNat, 0x40), (f.area.toNat + f.size, 64 * p.flits.length)].all (fun x =>
      m.hubOpen x.1 x.2 && (match areaOf (iaLocal x.1) with
        | .mem d o => m.offReady d o && m.offReady d (o + (x.2 - 1))
        | _ => true))

/-- Whether a packet is one for a party whose task is stopped or not yet started in its slice, from another chip (R327, R429). -/
def Mach.isHeld (m : Mach) (p : Packet) : Bool := m.hub.marked.contains p.party && partyChip p.src.toNat ≠ m.hub.chip

/-- Such a packet is held and answered OK, once the save area that it is appended to can be written (R327, R429). -/
def Mach.heldFor (m : Mach) (p : Packet) : Option Mach :=
  if !m.isHeld p then none
  else if !m.areaReady p then some (m.keep p)
  else some (({ m with hub := { m.hub with held := m.hub.held ++ [p] } }.appendHeld p).ack p 0)

/-- Whether a packet is party-addressed, a barrier message included, and comes from a chip declared lost (R425). -/
def Mach.fromLost (m : Mach) (p : Packet) : Bool :=
  (p.toParty || p.ofBarrier) && m.hub.lostChips.contains (partyChip p.src.toNat)

/-- A PEER access with elements of `n` bytes: the checks of R157, then `go` at the scratchpad offset, the context, the
descriptor and the bytes left in the slot from there. -/
def Mach.peer (m : Mach) (p : Packet) (n : Nat) (data : Bool) (go : Mach → Nat → Bool → Buf → Nat → Mach) : Mach :=
  let tile := partyTile p.party
  let say := fun (m : Mach) (status : Nat) => if data then m.noData p n status else m.ack p status
  if m.fromLost p then m
  else match m.heldFor p with
  | some m => m
  | none =>
    if partyKind p.party ≠ 0 then say (m.peerRecord p 6) 6
    else match m.newest tile with
    | none => say m 3
    | some c =>
      let x := m.ctx tile c
      let d := x.buf (peerBuf p)
      if x.dying.isSome then say m 1
      else if !d.valid || !d.inbound then say (m.peerRecord p 6) 6
      else if d.slots ≤ peerSlot p || d.size < peerOff p + n then say (m.peerRecord p 7) 7
      else go m (d.slotAt (peerSlot p) + peerOff p) c d (d.size - peerOff p)

/-- Bytes of a PEER write that are stored where `room` bytes of the slot are left: three bytes that pass its end are one group of
6-bit elements, of which nothing is (R157; DESIGN CHOICE, log 50). -/
def peerTake (p : Packet) (room : Nat) : List PByte :=
  if p.data.length = 3 && room < 3 then [] else p.data.take room

/-- PEER_WRITE (R74, R157, R386): what passes the end of the slot is discarded, and with it the slot-last mark of a run that
ends there (log 50). -/
def execPeerWrite (p : Packet) (s : State) : Host.Outcome State Fault Refusal :=
  act (fun m => m.peer p 1 false (fun m o c d room =>
    let tile := partyTile p.party
    let m := wrRun m (tsKey tile o) (peerTake p room)
    if room < p.data.length then (m.peerRecord p 7).ack p 7
    else if !p.arg.getLsbD 23 then m.ack p 0
    else
      let x := m.ctx tile c
      let d := { d with tags := put 0 d.tags (peerSlot p) (bits p.arg 24 8) }
      let m := m.setCtx tile c { x with bufs := put Buf.blank x.bufs (peerBuf p) d }
      m.count [m.remoteSig tile c d.full 1 p.src.toNat (some p)])) s

/-- PEER_ATOMIC (R157). -/
def execPeerAtomic (p : Packet) (s : State) : Host.Outcome State Fault Refusal :=
  act (fun m =>
    let n := p.fmt1.width / 8
    m.peer p n p.wantsOld (fun m o _ _ _ =>
      let k := tsKey (partyTile p.party) o
      let (r, m) := drawOf m p 0
      let old := rdRun m k n
      (wrRun m k (p.atomBytes r old)).answerAtom p old)) s

/-- PEER_REDUCE_STORE (R157, R159). -/
def execPeerReduceStore (p : Packet) (s : State) : Host.Outcome State Fault Refusal :=
  act (fun m =>
    let n := p.fmt1.width / 8
    m.peer p n false (fun m o _ _ room =>
      let fits := p.sources.filter (fun x => (x.1 + 1) * n ≤ room)
      let m := fits.foldl (fun m x =>
        let k := tsKey (partyTile p.party) (o + x.1 * n)
        let (r, m) := drawOf m p x.1
        wrRun m k (p.addBytes r x.2 (rdRun m k n))) m
      if fits.length < p.sources.length then (m.peerRecord p 7).ack p 7 else m.ack p 0)) s

/-! ## Responses (R280, R436) -/

/-- The bytes of a response go to what waits for them: a read of code or of a table, or the block's access. -/
def Stream.answered (s : Stream) (tag : Nat) (bs : List PByte) : Stream :=
  match s.rwant.filter (fun w => w.1 = tag) with
  | some (_, ia) => { s with rwant := none, rcache := (ia, bs) :: s.rcache }
  | none => match s.blk with
    | some b => if b.await = some tag then { s with blk := some { b with await := none, resp := some bs } } else s
    | none => s

/-- A load's bytes come to a supervisor or to the policy core: of a poisoned granule it takes its access-fault exception
instead (R394). -/
def Mach.svLoads (m : Mach) (c : Nat) (bs : List PByte) : Mach :=
  if anyPois bs then m.setCluster c { m.cluster c with exc := true }
  else m.setCluster c { m.cluster c with ld := bs, exc := false }
def Mach.hubLoads (m : Mach) (bs : List PByte) : Mach :=
  if anyPois bs then { m with hub := { m.hub with exc := true } }
  else { m with hub := { m.hub with ld := bs, exc := false } }

/-- A core's load has its bytes: a supervisor's over its own cluster cache's (R337). -/
def Mach.coreLoaded (m : Mach) (r : Request) (bs : List PByte) : Mach :=
  if partyKind r.party = 1 then m.svLoads (partyCluster r.party) (m.overlay (partyCluster r.party) r.addr.toNat bs)
  else m.hubLoads bs

/-- A part of a BAR4 read has been answered. -/
def HRead.answer (h : HRead) (tag status : Nat) (bs : List PByte) : HRead :=
  if h.parts.any (fun x => x.1 = tag && x.2.isNone) then
    { h with parts := h.parts.map (fun x => if x.1 = tag && x.2.isNone then (tag, some bs) else x), bad := h.bad || status ≠ 0 }
  else h

/-- Whether every part of a BAR4 read has been answered. -/
def HRead.whole (h : HRead) : Bool := h.parts.all (·.2.isSome)

/-- BAR4 reads of a function that are whole are completed (R398; DEDUCED, log 44): one of whose bytes the home gave none ends in
Completer Abort. -/
def Mach.hostAnswer (m : Mach) (f tag status : Nat) (bs : List PByte) : Mach :=
  let hs := m.hub.hreads.map (fun h => if h.fn = f then h.answer tag status bs else h)
  let out := (hs.filter HRead.whole).map (fun h =>
    if h.bad then PcieOut.completion h.fn 4 [] else .completion h.fn 0 (h.parts.flatMap (fun x => x.2.getD [])))
  { m with hub := { m.hub with hreads := hs.filter (fun h => !h.whole), pcie := m.hub.pcie ++ out } }

/-- A response to a request of no stream: a core's load, or a BAR4 read. -/
def Mach.unstreamed (m : Mach) (r : Request) (p : Packet) (bs : List PByte) : Mach :=
  if r.op ≠ 1 || r.gone.isSome then m
  else if partyKind r.party = 3 then m.hostAnswer (partyFunc r.party) p.tag p.status bs
  else m.coreLoaded r (bs.take (max 1 r.need))

/-- A response completes its request, whatever its status (R436). -/
def Mach.answered (m : Mach) (p : Packet) (bs : List PByte) : Mach :=
  match m.complete p with
  | none => m
  | some (r, m) => match r.agent with
    | none => m.unstreamed r p bs
    | some a => m.setStreamOf a ((m.streamOf a).answered p.tag bs)

/-- The bytes that an answer gives: with a nonzero status, zero bytes, each poisoned (R436). -/
def answerOf (p : Packet) : List PByte := if p.status = 0 then p.data else List.replicate 256 ⟨0, true⟩

/-- DATA (R283, R436). -/
def execDataResp (p : Packet) (s : State) : Host.Outcome State Fault Refusal := act (fun m => m.answered p (answerOf p)) s

/-- ACKNOWLEDGE (R280, R436). -/
def execAcknowledge (p : Packet) (s : State) : Host.Outcome State Fault Refusal := act (fun m => m.answered p (answerOf p)) s

/-! ## Remote signals (R134, R384, R386) -/

/-- REMOTE_SIGNAL. -/
def execRemoteSignal (p : Packet) (s : State) : Host.Outcome State Fault Refusal :=
  act (fun m =>
    if m.fromLost p then m
    else match m.heldFor p with
    | some m => m
    | none =>
      m.signalParty p.party (p.addr.toNat % 64) (bits p.arg 0 14) p.src.toNat (some p)) s

/-! ## System barriers (R75 to R77, R325) -/

def barGroup (p : Packet) : Nat := bits p.arg 12 12
def barId (p : Packet) : Nat := bits p.arg 8 4

/-- A gang table entry (R326): members, position, member list and sync block. -/
structure GangEnt where
  gid : Nat := 0
  nmem : Nat := 0
  pos : Nat := 0
  mlist : Nat := 0
  sync : Nat := 0
deriving DecidableEq, Repr, Inhabited

/-- Gang table entry `g`. -/
def Mach.gang (m : Mach) (g : Nat) : GangEnt :=
  let w := fun (i : Nat) => look 0 m.regs (0x6000 + 0x20 * g + 8 * i)
  { gid := bits64 (w 0) 32 32, nmem := bits64 (w 0) 16 16, pos := bits64 (w 0) 0 16
    mlist := (w 1).toNat, sync := (w 2).toNat }

/-- The entry of a gang id. -/
def Mach.gangOf (m : Mach) (gid : Nat) : Option GangEnt :=
  if gid = 0 then none else ((List.range 16).map m.gang).find? (fun e => e.gid = gid)

/-- Chip id of a gang member, read from the member list in device memory. -/
def Mach.memberChip (m : Mach) (e : GangEnt) (i : Nat) : Nat :=
  match areaOf (e.mlist % 2 ^ 43 + 4 * i) with
  | .mem d o => match m.memRead 0 d o 4 [] with
    | .done bs _ => valOf bs
    | _ => m.hub.chip
  | _ => m.hub.chip

/-- The members of a gang. -/
def Mach.members (m : Mach) (e : GangEnt) : List Nat := (List.range e.nmem).map (m.memberChip e)

/-- Whether the hub can read the member list of a gang: no page of it migrates, and no plane of it is held (R242, R274). -/
def Mach.listOpen (m : Mach) (e : GangEnt) : Bool :=
  let l := e.mlist % 2 ^ 43
  m.hubOpen (m.hub.chip * 2 ^ 43 + l) (4 * e.nmem) && (List.range e.nmem).all (fun i => match areaOf (l + 4 * i) with
    | .mem d o => m.offReady d o
    | _ => true)

/-- Whether the member lists of every gang of the table can be read. -/
def Mach.listsReady (m : Mach) : Bool := ((List.range 16).map m.gang).all (fun e => e.gid = 0 || m.listOpen e)

/-- Whether what holds a request is over: no page of it migrates, its stacks have trained, and there is room for the record that
it raises (R242, R361, R370); a save area can be written; the member lists can be read. -/
def Mach.homeReady (m : Mach) (p : Packet) : Bool :=
  let writes := 2 ≤ p.op && p.op ≤ 4
  if p.toParty then !m.isHeld p || m.areaReady p
  else if p.ofBarrier then m.listsReady
  else match m.homePlace p.addr.toNat p.span with
    | some (.mem d o) => [o, o + (p.span - 1)].all (fun o =>
        let q := m.page d o
        m.offReady d o
          && (q.state ≠ 3 || !writes || (m.die d).told.contains (m.pageIa d o) || m.roomFor (srcDie d))
          && (q.state ≠ 0 || (m.coreSource p).all m.roomFor))
    | _ => true

/-- A barrier message between hubs, with the arrivals that it carries (R283). -/
def hubBar (m : Mach) (op chip g id n : Nat) : Packet :=
  { op := op, addr := partyAddr (chip * 2048 + 2) 0, src := BitVec.ofNat 32 m.hubParty, dchip := chip
    arg := syl [(12, g), (8, id), (0, n)] }

/-- Arrivals shared out over messages, each of which carries 255 at most (R283). -/
def carried (n : Nat) : List Nat := List.replicate (n / 255) 255 ++ (if n % 255 = 0 then [] else [n % 255])

/-- A system instance of a job at this hub, and the instance replaced. -/
def Mach.sysbar (m : Mach) (job g id : Nat) : SysBar :=
  (m.hub.sysbars.find? (fun b => b.job = job && b.group = g && b.id = id)).getD { job := job, group := g, id := id }
def Mach.setSysbar (m : Mach) (b : SysBar) : Mach :=
  let l := m.hub.sysbars.filter (fun x => !(x.job = b.job && x.group = b.group && x.id = b.id))
  { m with hub := { m.hub with sysbars := if b.seen.isEmpty && !b.sent && !b.done then l else l ++ [b] } }

/-- The streams of a job that stand at a system instance resume; where none stands there, because the job has been
stopped, the completion is kept for them. -/
def Mach.completeSys (m : Mach) (job g id : Nat) : Mach :=
  let here := m.arrivals job .sys g id ≠ 0
  (m.passGroup job .sys g id).setSysbar { m.sysbar job g id with seen := [], far := 0, sent := false, done := !here }

/-- At the coordinator: `n` members of another device, or every member of this one, have arrived. The instance completes when
all members of the gang's tasks have (R75, R76; log 36). -/
def Mach.gangArrive (m : Mach) (j : Job) (g id chip n : Nat) : Mach :=
  let b := m.sysbar j.id g id
  let seen := if b.seen.contains chip then b.seen else b.seen ++ [chip]
  let far := if chip = m.hub.chip then b.far else b.far + n
  if (j.membersOf .sys g = 0 || seen.contains m.hub.chip) && Config.gangMembers j.gangKey g ≤ far then
    let m := (seen.filter (· ≠ m.hub.chip)).foldl (fun m c => m.send (hubBar m 0x49 c g id 0)) m
    m.completeSys j.id g id
  else m.setSysbar { b with seen := seen, far := far }

/-- A task of this device arrives at a system instance: when every member task here stands there, the instance
completes (one device), or the device's arrival goes to the gang's coordinator (DEDUCED, log 36). -/
def Mach.sysArrive (m : Mach) (j : Job) (g id : Nat) : Mach :=
  let b := m.sysbar j.id g id
  if m.arrivals j.id .sys g id < j.membersOf .sys g then m
  else if b.done then m.completeSys j.id g id
  else match m.gangOf j.gang with
    | none => m.completeSys j.id g id
    | some e =>
      if e.pos = 0 then m.gangArrive j g id m.hub.chip 0
      else if b.sent then m
      else ((carried (j.membersOf .sys g)).foldl (fun m n => m.send (hubBar m 0x48 (m.memberChip e 0) g id n)) m).setSysbar
        { b with sent := true }

/-- The jobs of the gangs that a device belongs to. -/
def Mach.gangJobsOf (m : Mach) (chip : Nat) : List Job :=
  m.hub.jobs.filter (fun j => match m.gangOf j.gang with
    | some e => (m.members e).contains chip
    | none => false)

/-- The gang job on this device that another member's arrival concerns, which the message does not name: a running one with
members in the group, else one with members, else a running one (R75; DESIGN CHOICE, log 36). -/
def Mach.gangJob (m : Mach) (chip g : Nat) : Option Job :=
  let js := m.gangJobsOf chip
  let has := fun (j : Job) => j.membersOf .sys g ≠ 0
  let runs := fun (j : Job) => j.st = .running
  (((js.find? (fun j => runs j && has j)).or (js.find? has)).or (js.find? runs)).or js.head?

/-- The gang job that a completion concerns: one whose arrival at the instance this device has sent (R76). -/
def Mach.sentJob (m : Mach) (chip g id : Nat) : Option Job :=
  (m.gangJobsOf chip).find? (fun j => (m.sysbar j.id g id).sent)

/-- BARRIER_ARRIVAL (R76, R77): held while a member list cannot be read. -/
def execBarrierArrival (p : Packet) (s : State) : Host.Outcome State Fault Refusal :=
  act (fun m =>
    let from_ := p.src.toNat
    if m.fromLost p then m
    else if !m.listsReady then m.keep p
    else if partyKind from_ = 0 then
      match ((List.range 2).map (fun c => m.ctx (partyTile from_) (c = 1))).find? (fun c => c.loaded && c.atBar .sys (barId p)) with
      | some c => match m.job? c.job with
        | some j => m.sysArrive j (barGroup p) (barId p)
        | none => m.passGroup c.job .sys (barGroup p) (barId p)
      | none => m
    else match m.gangJob (partyChip from_) (barGroup p) with
      | some j => match m.gangOf j.gang with
        | some _ => m.gangArrive j (barGroup p) (barId p) (partyChip from_) (bits p.arg 0 8)
        | none => m
      | none => m) s

/-- BARRIER_COMPLETION (R76, R77): held while a member list cannot be read. -/
def execBarrierCompletion (p : Packet) (s : State) : Host.Outcome State Fault Refusal :=
  act (fun m =>
    if m.fromLost p then m
    else if !m.listsReady then m.keep p
    else match m.sentJob (partyChip p.src.toNat) (barGroup p) (barId p) with
    | some j => m.completeSys j.id (barGroup p) (barId p)
    | none => m) s

/-! ## Packets that are not delivered (R421) -/

/-- A PLANE record of class CORR from a plane. -/
def Mach.planeRecord (m : Mach) (plane : Nat) (addr : Word64) (detail : Nat) : Mach :=
  m.raise .corr .plane { src := srcPlane plane, eng := 255, a1 := addr, detail := BitVec.ofNat 64 detail }

/-- DOP of a packet as it arrived, reserved bits included (R282). -/
def dopOf (p : Packet) : Nat :=
  match p.flits with
  | f :: _ => fieldAt f 12 4
  | [] => p.dchip * 2048 + p.op

/-- Whether a packet that is not delivered is a request (R280): all that comes on channel 0, and on any other a remote signal, or
on the reserved one an OP of channel 0. -/
def Packet.asks (p : Packet) : Bool := p.vc = 0 || p.op = 0x40 || (p.vc = 3 && opVc p.op = 0)

/-- A reserved OP, header bit or channel: not performed; a request is acknowledged with status 0x05. -/
def Mach.badPacket (m : Mach) (p : Packet) : Mach :=
  let m := m.planeRecord p.plane p.addr (p.src.toNat * 2 ^ 32 + dopOf p)
  if Packet.asks p then m.ack p 5 else m

/-! ## Links (R284, R285, R362, R419, R420) -/

/-- The payload of a link-control flit: its kind (1 credits, 2 a request to resend, 3 that of LLINIT), and credits by channel
(PRESUMED, log 47). -/
def linkPayload (kind : Nat) (cr : List Nat) : List Byte :=
  (bytesOf 2 kind ++ (cr.map (bytesOf 2)).flatten ++ List.replicate 56 0).take 56

/-- The flit of LLINIT: SEQ 0, the credits of R285 in full, CHIPID and the plane's number (R362; PRESUMED, log 47). -/
def llinitFlit (chip plane : Nat) : List Byte :=
  flitBytes 0 0 2 0 ((linkPayload 3 [512, 512, 128]).take 8 ++ bytesOf 4 chip ++ bytesOf 1 plane ++ List.replicate 43 0)

/-- A numbered flit as it is sent: with the ACK of the moment (R284). -/
def Link.flitOf (l : Link) (f : Nat × Nat × Nat × List Byte) : List Byte := flitBytes f.1 f.2.2.1 f.2.1 l.rxAck f.2.2.2

/-- Numbered flits sent: kept until they are acknowledged. -/
def Link.emit (l : Link) (now kind vc : Nat) (payloads : List (List Byte)) : Link :=
  let fs := payloads.mapIdx (fun i b => ((l.txSeq + i) % 4096, (if i = 0 then kind else 1), vc, b))
  { l with
    unacked := l.unacked ++ fs
    wire := l.wire ++ fs.map l.flitOf
    txSeq := (l.txSeq + payloads.length) % 4096
    lastAck := if l.unacked.isEmpty then now else l.lastAck }

/-- Link-control flits leave as far as the bound of 2,048 unacknowledged flits allows (R285). -/
def Link.sendCtl (l : Link) (now : Nat) : Link :=
  let k := 2048 - l.unacked.length
  (l.ctl.take k).foldl (fun l b => l.emit now 2 0 [b]) { l with ctl := l.ctl.drop k }

/-- A link-control flit to send. -/
def Link.control (l : Link) (now : Nat) (payload : List Byte) : Link := { l with ctl := l.ctl ++ [payload] }.sendCtl now

/-- An idle flit: the last SEQ again, and ACK only (R285). -/
def Mach.idleTurn (m : Mach) (plane : Nat) : Mach :=
  let l := m.link plane
  if l.state ≠ 5 then m
  else m.setLink plane { l with
    wire := l.wire ++ [flitBytes ((l.txSeq + 4095) % 4096) 0 3 l.rxAck (List.replicate 56 0)] }

/-- The first packet of each channel: packets of one channel leave in order (R279). -/
def firstOfVc (seen : List Nat) : List Packet → List Packet
  | [] => []
  | p :: ps => if seen.contains (opVc p.op) then firstOfVc seen ps else p :: firstOfVc (opVc p.op :: seen) ps

/-- The plane's port sends the first packet of a channel that its credits and its store of 2,048 allow (R285). -/
def Mach.linkTurn (m : Mach) (plane : Nat) : Mach :=
  let l := m.link plane
  if l.state ≠ 5 then m
  else match (firstOfVc [] l.txq).find? (fun p => p.payloads.length ≤ at' 0 l.credits (opVc p.op)
      && l.unacked.length + p.payloads.length ≤ 2048) with
    | none => m
    | some p =>
      let vc := opVc p.op
      let l := { l with txq := l.txq.erase p, credits := put 0 l.credits vc (at' 0 l.credits vc - p.payloads.length) }
      (m.setLink plane (l.sendCtl m.gtc |>.emit m.gtc 0 vc p.payloads)).spendFlits p 8 1

/-- The link leaves UP (R362, R419, R420, R422): it trains again while EN stays set. Flits not acknowledged are lost with
it; DOWNS stays at 255 (PRESUMED, log 47). -/
def Mach.linkDown (m : Mach) (plane : Nat) : Mach :=
  let l := m.link plane
  let up := l.state = 5
  let m := m.setLink plane { l with
    state := if l.en then 1 else 0, txSeq := 0, rxSeq := 0, rxAck := 0, unacked := [], ctl := [], rx := [], retry := false
    resends := 0, credits := [512, 512, 128], downs := if up then min 255 (l.downs + 1) else l.downs }
  if up then m.planeRecord plane 0 plane else m

/-- Flits at or before an ACK leave the sender's store. -/
def Link.acked (l : Link) (ack now : Nat) : Link :=
  let k := l.unacked.findIdx (fun f => f.1 = ack)
  if k < l.unacked.length then { l with unacked := l.unacked.drop (k + 1), lastAck := now, resends := 0 }.sendCtl now
  else l

/-- A packet that arrived whole, in its flits, goes to its place on the package, and its buffers' credits go back. -/
def Mach.arrive (m : Mach) (plane vc : Nat) (head : List Byte) (rest : List (List Byte)) : Mach :=
  let p := { packetOf vc plane (head.take 56) (rest.map (·.take 56)) with flits := head :: rest }
  let l := m.link plane
  let cr := (List.range 3).map (fun v => if v = vc then 1 + rest.length else 0)
  let m := m.setLink plane (l.control m.gtc (linkPayload 1 cr))
  if p.dchip ≠ m.hub.chip then m else { m with net := m.net ++ [p] }

/-- A header or data flit in order: a packet is whole when its last data flit has come. -/
def Mach.flitIn (m : Mach) (plane vc kind : Nat) (flit : List Byte) : Mach :=
  let l := m.link plane
  let got := look [] l.rx vc
  let got := if kind = 0 then [flit] else got ++ [flit]
  match got with
  | [] => m
  | head :: rest =>
    if ndataOf head ≤ rest.length then
      (m.setLink plane { l with rx := l.rx.filter (·.1 ≠ vc) }).arrive plane vc head rest
    else m.setLink plane { l with rx := store [] l.rx vc got }

/-- What a link-control flit asks: credits come back, or every flit after its ACK is sent again. One SEQ that has failed
16 resends takes the link down. -/
def Mach.linkControl (m : Mach) (plane : Nat) (payload : List Byte) : Mach :=
  let l := m.link plane
  if fieldAt payload 0 2 = 1 then
    m.setLink plane { l with credits := (List.range 3).map (fun v => at' 0 l.credits v + fieldAt payload (2 + 2 * v) 2) }
  else if fieldAt payload 0 2 = 2 && !l.unacked.isEmpty then
    if 16 ≤ l.resends then m.linkDown plane
    else m.setLink plane { l with resends := l.resends + 1, wire := l.wire ++ l.unacked.map l.flitOf }
  else m

/-- FLIT (R285, R419). -/
def execFlit (plane : Nat) (bytes : List Byte) (s : State) : Host.Outcome State Fault Refusal :=
  act (fun m =>
    let l := m.link plane
    if l.state ≠ 5 then m
    else if !flitIntact bytes then
      let first := !l.retry
      let l := { l with
        crc := min (2 ^ 32 - 1) (l.crc + 1), retry := true, epis := if first then min 65535 (l.epis + 1) else l.epis }
      let m := m.setLink plane (l.control m.gtc (linkPayload 2 []))
      if first then m.planeRecord plane 0 0 else m
    else
      let l := l.acked (flitAck bytes) m.gtc
      let m := m.setLink plane l
      let kind := flitKind bytes
      if kind = 3 ∨ flitSeq bytes ≠ l.rxSeq then m
      else
        let m := m.setLink plane { l with rxSeq := (l.rxSeq + 1) % 4096, rxAck := l.rxSeq, retry := false }
        if kind = 2 then m.linkControl plane (bytes.take 56) else m.flitIn plane (flitVc bytes) kind bytes) s

/-- ACK_TIMEOUT (R419): 100 µs without progress. -/
def execAckTimeout (plane : Nat) (s : State) : Host.Outcome State Fault Refusal :=
  act (fun m =>
    let l := m.link plane
    if l.state = 5 && !l.unacked.isEmpty && l.lastAck + 100000 ≤ m.gtc then m.linkDown plane else m) s

/-- A training state passes to the next; LLINIT begins with the port's own flit (R362, R363). -/
def Mach.train (m : Mach) (plane from_ : Nat) : Mach :=
  let l := m.link plane
  if l.en && l.state = from_ then
    m.setLink plane { l with
      state := from_ + 1, wire := if from_ = 3 then l.wire ++ [llinitFlit m.hub.chip plane] else l.wire }
  else m

/-- LINK_AN (R362). -/
def execLinkAn (plane : Nat) (s : State) : Host.Outcome State Fault Refusal := act (fun m => m.train plane 1) s
/-- LINK_TRAIN (R362). -/
def execLinkTrain (plane : Nat) (s : State) : Host.Outcome State Fault Refusal := act (fun m => m.train plane 2) s
/-- LINK_FEC (R362). -/
def execLinkFec (plane : Nat) (s : State) : Host.Outcome State Fault Refusal := act (fun m => m.train plane 3) s

/-- LINK_LLINIT (R362): the partner's CHIPID is `peer`, and both grant the credits of R285 in full. The flits of LLINIT had
SEQ 0, so that the first numbered flit after them has SEQ 1 (R285; DEDUCED, log 47). -/
def execLinkLlinit (plane peer : Nat) (s : State) : Host.Outcome State Fault Refusal :=
  act (fun m =>
    let l := m.link plane
    if l.en && l.state = 4 then
      m.setLink plane { l with
        state := 5, peer := peer % 2 ^ 21, txSeq := 1, rxSeq := 1, rxAck := 0, unacked := [], ctl := [], rx := []
        retry := false, resends := 0, credits := [512, 512, 128], lastAck := m.gtc }
    else m) s

end Sys2Proof.Machine
end

