-- ==== Sys2Proof/Machine/Flags.lean ====
section
/-!
DEFINITION. Sticky status: FPF of the vector engine (R44), ME_SAT of the matrix engine (R49, R192), and the flags that
each kind of vector arithmetic sets.
-/

namespace Sys2Proof.Machine

open Sys2Proof

/-- FPF takes the flags of an operation that lands (R44, R200). -/
def VecEng.raiseFlags (v : VecEng) (fl : BitVec 5) : VecEng := { v with fpf := v.fpf ||| fl }

/-- ME_SAT is set when an integer pass clamped (R49). -/
def MatEng.raiseSat (x : MatEng) (clamped : Bool) : MatEng := { x with sat := x.sat || clamped }

/-- ME_SAT is cleared by writing 1 (R192). -/
def MatEng.clearSat (x : MatEng) (one : Bool) : MatEng := { x with sat := x.sat && !one }

/-- Flags of a sum (R44): NV when infinities of opposite sign meet. -/
def sumFlags (clash : Bool) : BitVec 5 := if clash then flNV else 0

/-- Flags of a product: NV for 0 times infinity (R44). -/
def mulFlags (x y : Num) : BitVec 5 :=
  if !x.isNan && !y.isNan && ((x.isInf && y.isZero) || (x.isZero && y.isInf)) then flNV else 0

end Sys2Proof.Machine
end

