-- ==== Sys2Proof/Machine/Matrix.lean ====
section
/-!
DEFINITION. The matrix engine (R176 to R194, R390, R391, R409 to R412): issue into the queue, the start of blocks, weight
loads, passes, the proof row, retirement and its bound.
-/

namespace Sys2Proof

/-- The sets that SEL uses. -/
def Sel.uses : Sel → List Bool
  | .a => [false] | .b => [true] | .split => [false, true]

/-- A block that opens the ME stream when it starts (R190). -/
def Instr.opens : Instr → Bool
  | .mwld _ _ _ _ _ | .mstrm _ _ _ _ _ _ _ | .mzero _ _ _ => true
  | _ => false

/-- The sets that a block uses or loads. -/
def Instr.sets : Instr → List Bool
  | .mwld _ _ _ setB _ => [setB]
  | .mstrm _ _ _ _ sel _ _ => sel.uses
  | _ => []

/-- A weight load. -/
def Instr.isMwld : Instr → Bool
  | .mwld _ _ _ _ _ => true
  | _ => false
end Sys2Proof

namespace Sys2Proof.Machine

open Sys2Proof

/-! ## Checks at issue (R178, R180, R184, R194) -/

/-- An ALIGN of window `k` at byte or entry `a`. -/
def runTrap (k code : Nat) (a : Int) : Trap :=
  { cause := .align, addr := BitVec.ofInt 64 a, detail := alignDetail k code }

/-- The first stride, by level, of a level with more than one iteration that fails a test. Index 0 of the nest is
aligned with the base, so the nest's first misaligned start is the first of that level. -/
def badStride (w : Win) (counts : List Nat) (ok : Int → Bool) : Option Int :=
  ((w.stride.zip counts).find? (fun x => 1 < x.2 && !ok x.1)).map (·.1)

/-- Row starts of an activation window: bytes in multiples of 64 (R180). -/
def Mach.rowAlign (m : Mach) (i : Instr) (k : Nat) (w : Win) (counts : List Nat) : Option Trap :=
  (badStride w counts (fun s => s * (w.fmt.width : Nat) % 512 = 0)).map (fun s =>
    runTrap k 6 ((m.baseAddr i k w false 0 : Nat) + s * (w.fmt.width : Nat) / 8))

/-- Row starts of an accumulator window: entries in multiples of 8 (R180, R184). -/
def accAlign (k : Nat) (w : Win) (counts : List Nat) : Option Trap :=
  (badStride w counts (fun s => s % 8 = 0)).map (fun s => runTrap k 3 ((w.base : Nat) + s))

/-- Run starts of a weight window: on a group boundary of its format (R35, R178). -/
def Mach.groupAlign (m : Mach) (i : Instr) (k : Nat) (w : Win) (counts : List Nat) : Option Trap :=
  (badStride w counts (fun s => s % (w.fmt.g : Nat) = 0)).map (fun s =>
    runTrap k (if w.fmt.width = 6 then 255 else 0) ((m.baseAddr i k w false 0 : Nat) + s * (w.fmt.width : Nat) / 8))

/-- Counters of every iteration of a nest, in nest order. -/
def nestList (counts : List Nat) : Nat → List Nat → List (List Nat)
  | 0, _ => []
  | n + 1, c => c :: nestList counts n (nextIter c counts)

/-- Every `step`-th member. -/
def everyNth (step : Nat) (l : List (List Nat)) : List (List Nat) :=
  ((List.range l.length).zip l).filterMap (fun x => if x.1 % step = 0 then some x.2 else none)

/-- Extent of runs at chosen iterations (R95, R178). -/
def extentAt (w : Win) (cs : List (List Nat)) (run : Nat) : Option Int :=
  match bounds (cs.map (idxAt w.stride)) with
  | none => none
  | some (lo, hi) =>
    let hi := hi + (run - 1 : Nat)
    if lo < 0 then some lo else if (w.extent : Int) ≤ hi then some hi else none

/-- Set A or B. -/
def MatEng.set (x : MatEng) (b : Bool) : WSet := if b then x.b else x.a
def MatEng.putSet (x : MatEng) (b : Bool) (s : WSet) : MatEng := if b then { x with b := s } else { x with a := s }

/-- The set that a block loads. -/
def Active.loads (b : Active) : Option (Bool × Fmt) :=
  if b.skip then none
  else match b.instr with
    | .mwld _ wt _ setB _ => some (setB, wt.fmt)
    | _ => none

/-- Format of a set as the last mwld issued into it leaves it (R194). -/
def MatEng.lastFmt (x : MatEng) (setB : Bool) : Fmt :=
  match (x.queue.reverse ++ x.load.toList).findSome? (fun b =>
      match b.loads with
      | some (s, f) => if s = setB then some f else none
      | none => none) with
  | some f => f
  | none => (x.set setB).fmt

/-- BADFIELD of the SEL bits (R391). -/
def selTrap : Trap := { cause := .badfield, detail := 3 }

/-! ## The issue queue (R185) -/

/-- A block that a restored ME stream issues again: its header wait may have been served, and runs of a weight load performed
(R190, R316; log 34). -/
def Active.resumeMe (b : Active) (r : Option Resume) (counts : List Nat) (runs : Nat) : Active :=
  match r with
  | none => b
  | some r =>
    let k := min runs b.left
    { b with
      granted := r.hwdone && b.instr.hdr.wcnt ≠ 0, done := k, left := b.left - k
      c := ((nestList counts (k + 1) b.c).getLast?).getD b.c }

/-- Runs that a weight load has performed, once its stream is restored: the slot-level iterations that the consumer counts of
its bound windows have passed since it started, as its SETLOAD entry has them (R191, R316). A load without bound windows begins
anew, on bytes that R191 has unchanged (DESIGN CHOICE, log 34). -/
def Mach.runsOf (m : Mach) (i : Instr) (hwdone : Bool) : Nat :=
  match i with
  | .mwld h _ _ setB _ => match i.bound, (MatEng.set (m.tile m.cur.tile).mat setB).load with
    | (_, d, wr) :: _, some l =>
      let per := ((h.counts.take (slotSpan h h.counts.length)).foldl (· * ·) 1)
      let used := ((m.curCtx.buf d).cc - (l.idx.getD 0 0).toNat) % 2 ^ 32
      if hwdone && l.off = m.str.pc then used / max 1 (i.slotUses d wr) * per else 0
    | _, _ => 0
  | _ => 0

/-- A block of the ME issues into the queue of 16 (R185, R379, R385); when that is full it waits. -/
def Mach.issueMe (m : Mach) (i : Instr) (check : Mach → Option Trap) : Mach :=
  let t := m.tile m.cur.tile
  let h := i.hdr
  let len := blockLen .me i
  let skip := m.skips
  if 16 ≤ t.mat.blocks then m
  else match (if skip then none else check m) with
    | some t => m.trapAt len t
    | none => match (if h.scnt = 0 then some m else m.reserve h.ssem h.scnt) with
      | none => m.trapAt len (semsatTrap h.ssem h.scnt 1)
      | some m =>
        let b : Active :=
          { instr := i, off := m.str.pc, len := len, skip := skip, c := h.counts.map (fun _ => 0), left := h.total
            applied := m.str.applied, ser := t.mat.issued }
        let b := b.resumeMe m.str.resume h.counts (m.runsOf i (m.str.resume.any (·.hwdone)))
        let m := m.setTile m.cur.tile { t with mat := { t.mat with queue := t.mat.queue ++ [b], issued := t.mat.issued + 1 } }
        (m.setStr { m.str with
          lc := lcOf h skip, pend := m.str.pend.filter (fun p => p.pos ≠ m.str.pc), last := some m.str.pc }).advance len

/-- Checks of mwld (R178). -/
def mwldCheck (i : Instr) (h : Hdr) (wt : Win) (sc : Option Win) (tr : Bool) (m : Mach) : Option Trap :=
  let want := if tr then 64 else wt.fmt.kp
  match m.baseTraps i true (fun k w => if k = 0 then m.groupAlign i k w h.counts else none) with
  | some t => some t
  | none =>
    firstTrap
      [wholeTrap 5 (h.total = want) h.total,
       shapeTrap 0 1 (extentBad wt h.counts (if tr then wt.fmt.kp else 64)),
       match sc with
       | none => none
       | some w =>
         let cs := nestList h.counts want (h.counts.map (fun _ => 0))
         shapeTrap 1 1 (if tr then extentAt w cs (wt.fmt.kp / 32) else extentAt w (everyNth 32 cs) 64)]

/-- mwld issues (R178, R185). -/
def execMwld (h : Hdr) (wt : Win) (sc : Option Win) (setB tr : Bool) (s : State) : Host.Outcome State Fault Refusal :=
  let i : Instr := .mwld h wt sc setB tr
  act (fun m => m.issueMe i (mwldCheck i h wt sc tr)) s

/-- Checks of mstrm (R180, R194, R391). -/
def mstrmCheck (i : Instr) (h : Hdr) (a acc : Win) (sc : Option Win) (sel : Sel) (m : Mach) : Option Trap :=
  if sel.uses.any (fun b => ((m.tile m.cur.tile).mat.lastFmt b).group ≠ a.fmt.group) then some selTrap
  else match m.baseTraps i true (fun k w =>
      if k = 0 then m.rowAlign i k w h.counts else if k = 1 then accAlign k w h.counts else none) with
    | some t => some t
    | none =>
      firstTrap
        [shapeTrap 0 1 (extentBad a h.counts a.fmt.kp),
         shapeTrap 1 1 (extentBad acc h.counts 64),
         match sc with
         | none => none
         | some w => shapeTrap 2 1 (extentBad w h.counts (a.fmt.kp / 32))]

/-- mstrm issues (R180, R185). -/
def execMstrm (h : Hdr) (a acc : Win) (sc : Option Win) (sel : Sel) (accSet ret : Bool) (s : State) :
    Host.Outcome State Fault Refusal :=
  let i : Instr := .mstrm h a acc sc sel accSet ret
  act (fun m => m.issueMe i (mstrmCheck i h a acc sc sel)) s

/-- mrb issues (R182). -/
def execMrb (h : Hdr) (rowb : Nat) (s : State) : Host.Outcome State Fault Refusal :=
  act (fun m => m.issueMe (.mrb h rowb) (fun _ => none)) s

/-- Checks of mzero (R184). -/
def mzeroCheck (i : Instr) (h : Hdr) (acc : Win) (m : Mach) : Option Trap :=
  match m.baseTraps i true (fun k w => accAlign k w h.counts) with
  | some t => some t
  | none => firstTrap [shapeTrap 0 1 (extentBad acc h.counts 64)]

/-- mzero issues (R184, R185). -/
def execMzero (h : Hdr) (acc : Win) (i64 : Bool) (s : State) : Host.Outcome State Fault Refusal :=
  let i : Instr := .mzero h acc i64
  act (fun m => m.issueMe i (mzeroCheck i h acc)) s

/-! ## Weight loads (R177, R179) -/

/-- `n` consecutive scratchpad elements of window `k` of a block read from index `idx`: patterns with poison. -/
def Mach.cellRun (m : Mach) (i : Instr) (k : Nat) (w : Win) (idx : Int) (n : Nat) : List (Nat × Bool) :=
  let base : Int := ((m.slotBase i k w false + w.base : Nat) : Int)
  (List.range n).map (fun k =>
    let (off, len, sh) := elemSpan w.fmt (idx + (k : Nat))
    let bs := tsRead m m.cur.tile (base + off).toNat len
    (valOf bs / 2 ^ sh % 2 ^ w.fmt.width, anyPois bs))

/-- Cells of a set written: cell j of the run at key `key j`. -/
def putCells (d : Nat × Bool) (key : Nat → Nat) : Nat → List (Nat × Bool) → Sparse (Nat × Bool) → Sparse (Nat × Bool)
  | _, [], t => t
  | j, x :: xs, t => putCells d key (j + 1) xs (store d t (key j) x)

/-- What an unlisted weight cell and an unlisted scale hold (R177). -/
def noWeight : Nat × Bool := (0, false)
def noScale : Nat × Bool := (127, false)

/-- One run of a weight load (R179). -/
def WSet.loadRun (x : WSet) (tr : Bool) (kp i : Nat) (es : List (Nat × Bool)) (ss : Option (List (Nat × Bool))) :
    WSet :=
  let key := fun (j : Nat) => if tr then j * 64 + i else i * 64 + j
  let skey := fun (j : Nat) => if tr then j * 64 + i else i / 32 * 64 + j
  let x := { x with w := putCells noWeight key 0 (es.take (if tr then kp else 64)) x.w }
  match ss with
  | some l => { x with sw := putCells noScale skey 0 l x.sw }
  | none => x

/-- One iteration of mwld. The runs of a load that stops part-way stay in the set (DESIGN CHOICE, log 92). -/
def mwldStep (wt : Win) (sc : Option Win) (setB tr : Bool) (m : Mach) (b : Active) : Iter :=
  let t := m.tile m.cur.tile
  let kp := wt.fmt.kp
  let es := m.cellRun b.instr 0 wt (idxAt wt.stride b.c) (if tr then kp else 64)
  let ss := match sc with
    | some w =>
      if tr then some (m.cellRun b.instr 1 w (idxAt w.stride b.c) (kp / 32))
      else if b.done % 32 = 0 then some (m.cellRun b.instr 1 w (idxAt w.stride b.c) 64) else none
    | none => none
  .next (m.setTile m.cur.tile { t with mat := t.mat.putSet setB ((t.mat.set setB).loadRun tr kp b.done es ss) }) b

/-- The set's format and scaled state when its last run has entered. -/
def mwldLast (wt : Win) (sc : Option Win) (setB : Bool) (m : Mach) (b : Active) : Iter :=
  let t := m.tile m.cur.tile
  let bits := wt.fmt.kp * 64 * wt.fmt.width + (if sc.isSome then wt.fmt.kp / 32 * 64 * 8 else 0)
  .next ((m.setTile m.cur.tile { t with mat := t.mat.putSet setB ((t.mat.set setB).finish wt sc) }).spend (clusterOf m.cur.tile) 2 ((bits + 1023) / 1024)) b

/-! ## Passes (R46, R49, R181) -/

/-- The operands of one pass: the activation row with its scales, and the set. -/
structure Pass where
  fmt : Fmt
  a : List (Nat × Bool)
  sa : List (Nat × Bool)
  set : WSet

/-- Weight k of column n, and its scale. -/
def WSet.cell (x : WSet) (k n : Nat) : Nat × Bool := look noWeight x.w (k * 64 + n)
def WSet.scale (x : WSet) (k n : Nat) : Nat × Bool := look noScale x.sw (k / 32 * 64 + n)

/-- The exact products of column n (R46). -/
def Pass.products (p : Pass) (n : Nat) : List Num :=
  ((List.range p.a.length).zip p.a).map (fun x =>
    let w := p.set.cell x.1 n
    let s := p.set.scale x.1 n
    let sa := (p.sa.getD (x.1 / 32) noScale).1
    Num.mul (Num.mul (scaleNum sa) (p.fmt.value x.2.1)) (Num.mul (scaleNum s.1) (p.set.fmt.value w.1)))

/-- The integer products of column n (R49). -/
def Num.toInt : Num → Int
  | .fin s m e => if s then -((m * 2 ^ e.toNat : Nat) : Int) else (m * 2 ^ e.toNat : Nat)
  | .nan => 0
  | .inf _ => 0
def Pass.intProducts (p : Pass) (n : Nat) : List Int :=
  ((List.range p.a.length).zip p.a).map (fun x =>
    Num.toInt (p.fmt.value x.2.1) * Num.toInt (p.set.fmt.value (p.set.cell x.1 n).1))

/-- Whether an activation element, a scale or a weight of column n is poisoned (R374). -/
def Pass.poisoned (p : Pass) (n : Nat) : Bool :=
  p.a.any (·.2) || p.sa.any (·.2)
    || (List.range p.a.length).any (fun k => (p.set.cell k n).2 || (p.set.scale k n).2)

/-- The new entry of column n, and whether an integer pass clamped. -/
def Pass.entry (p : Pass) (accSet : Bool) (old : AccEntry) (n : Nat) : AccEntry × Bool :=
  let v := if accSet then 0 else old.v.toNat
  let pois := p.poisoned n || (!accSet && old.p)
  if p.fmt.isInt then
    let (r, c) := passI v (p.intProducts n)
    (⟨BitVec.ofNat 64 r, true, pois⟩, c)
  else (⟨BitVec.ofNat 64 (passF v (p.products n)), false, pois⟩, false)

/-! ## The proof row (R193, R409 to R411) -/

/-- What the check of one column finds. -/
inductive Vote where
  | same
  | array (n : Nat)
  | proof (n : Nat)
  | none (n : Nat)
deriving DecidableEq, Repr, Inhabited

/-- The vote on column n of row r, given the tile's faulty cells (R409). -/
def Tile.vote (t : Tile) (r n : Nat) : Vote :=
  let a := t.bad.contains (false, r, n)
  let b := t.bad.contains (true, 0, n)
  let c := t.bad.contains (true, 0, (n + 1) % 64)
  if !a && !b then .same
  else if a && !b && !c then .array n
  else if !a && b && !c then .proof n
  else .none n

/-- Whether a column's products come from a faulty cell that nothing replaced. -/
def Tile.corrupt (t : Tile) (r n : Nat) : Bool :=
  (t.taken && t.bad.contains (true, 0, n)) || t.bad.any (fun x => !x.1 && x.2.2 = n
    && !(t.taken && x.2.1 = t.row)
    && !(!t.taken && !t.off && x.2.1 = r && t.vote r n = .array n))

/-- A PROOF record (R410). -/
def proofRec (m : Mach) (b : Active) (entry what row col : Nat) : Event :=
  let c := m.curCtx
  { src := srcTile m.cur.tile, status := Cause.proof.code
    type := if what = 5 then Cls.task.code else Cls.corr.code
    flags := 4 + (if m.cur.ctx then 8 else 0), eng := 1, id := c.party, gtc := m.gtc, a0 := jobOff c.job b.off
    a1 := BitVec.ofNat 64 entry, detail := BitVec.ofNat 64 (what * 2 ^ 56 + row * 2 ^ 40 + col * 2 ^ 32), iter := b.c }

/-- A cell blamed (R410, R411): named faulty when it was the last one blamed. Three cycles go by for the third run. -/
def Mach.blame (m : Mach) (b : Active) (entry : Nat) (proof : Bool) (r n : Nat) : Mach :=
  let t := m.tile m.cur.tile
  let cell := (proof, if proof then 0 else r, n)
  let again := t.blamed = some cell
  let what := (if proof then 2 else 1) + (if again then 2 else 0)
  let t := { t with blamed := some cell, mat := { t.mat with count := t.mat.count + 3 } }
  let t := if !again then t
    else if proof then { t with off := true, col := n }
    else { t with taken := true, row := r, col := n }
  (m.setTile m.cur.tile t).raise .corr .proof (proofRec m b entry what r n)

/-- The checks of one pass, column by column; the first column without a vote is kept. -/
def Mach.proofRow (m : Mach) (b : Active) (entry r : Nat) : Nat → Nat → Option Nat → Mach × Option Nat
  | 0, _, bad => (m, bad)
  | k + 1, n, bad =>
    match (m.tile m.cur.tile).vote r n with
    | .same => m.proofRow b entry r k (n + 1) bad
    | .array n => (m.blame b entry false r n).proofRow b entry r k (n + 1) bad
    | .proof n => (m.blame b entry true r n).proofRow b entry r k (n + 1) bad
    | .none n => m.proofRow b entry r k (n + 1) (some (bad.getD n))

/-- The 64 entries of a pass written; a corrupted column (`bad`) holds an open value, and every entry of a pass without a vote is
poisoned (R181, R409, R410). -/
def Mach.writePass (m : Mach) (p : Pass) (accSet lost : Bool) (bad : Nat → Bool) (j : Nat) : Nat → Nat → Mach
  | 0, _ => m
  | k + 1, n =>
    let t := m.tile m.cur.tile
    let (e, sat) := p.entry accSet (m.accE m.cur.tile (j + n)) n
    let e := if bad n then { e with v := Config.freeBits m.free } else e
    let m := { m with free := m.free + 1 }
    let m := m.setTile m.cur.tile { t with mat := t.mat.raiseSat sat }
    (m.setAcc m.cur.tile (j + n) { e with p := e.p || lost }).writePass p accSet lost bad j k (n + 1)

/-- One iteration of mstrm: a pass (R181). -/
def mstrmStep (a acc : Win) (sc : Option Win) (sel : Sel) (accSet : Bool) (m : Mach) (b : Active) : Iter :=
  let t := m.tile m.cur.tile
  let useB := match sel with
    | .a => false
    | .b => true
    | .split => !(decide (b.c.getD 0 0 < t.mat.mrb))
  let kp := a.fmt.kp
  let sa := match sc with
    | some w => m.cellRun b.instr 2 w (idxAt w.stride b.c) (kp / 32)
    | none => []
  let p : Pass := { fmt := a.fmt, a := m.cellRun b.instr 0 a (idxAt a.stride b.c) kp, sa := sa, set := t.mat.set useB }
  let j := ((acc.base : Nat) + idxAt acc.stride b.c).toNat
  let r := t.prow
  let (m, lost) := if t.taken || t.off then (m, none) else m.proofRow b j r 64 0 none
  let m := m.writePass p accSet lost.isSome (t.corrupt r) j 64 0
  let m := m.setTile m.cur.tile { m.tile m.cur.tile with prow := (r + 1) % 64 }
  let m := m.spend (clusterOf m.cur.tile) (if a.fmt = .i16 then 1 else 0) 1
  match lost with
  | none => .next m b
  | some n =>
    let m := m.setTile m.cur.tile { m.tile m.cur.tile with quar := true }
    .next (m.kill m.cur.tile m.cur.ctx (proofRec m b j 5 r n)) b

/-- The reduction ends (R189, R190). -/
def Mach.retire (m : Mach) : Mach :=
  let t := m.tile m.cur.tile
  m.setTile m.cur.tile { t with mat := { t.mat with isOpen := false, count := 0 } }

/-- One row of mzero (R184). -/
def zeroRow (i64 : Bool) (m : Mach) (j : Nat) : Nat → Mach
  | 0 => m
  | n + 1 => zeroRow i64 (m.setAcc m.cur.tile (j + n) ⟨0, i64, false⟩) j n

/-! ## The start of blocks (R186, R187, R190) -/

/-- The plan of an ME block. -/
def mePlan (i : Instr) : Plan :=
  match i with
  | .mwld _ wt sc setB tr => { planOf i (mwldStep wt sc setB tr) with last := mwldLast wt sc setB }
  | .mstrm _ a acc sc sel accSet ret =>
    { planOf i (mstrmStep a acc sc sel accSet) with last := fun m b => .next (if ret then m.retire else m) b }
  | .mrb _ rowb => planOf i (fun m b =>
      let t := m.tile m.cur.tile
      .next (m.setTile m.cur.tile { t with mat := { t.mat with mrb := rowb } }) b)
  | .mzero _ acc i64 => planOf i (fun m b =>
      .next (zeroRow i64 m (((acc.base : Nat) + idxAt acc.stride b.c).toNat) 64) b)
  | _ => planOf i (fun m b => .next m b)

/-- The stream opens with LIMIT latched and its first cycle counted (R190, R192). -/
def Mach.openMe (m : Mach) (b : Active) : Mach :=
  let t := m.tile m.cur.tile
  if b.instr.opens && !t.mat.isOpen then
    m.setTile m.cur.tile { t with mat := { t.mat with isOpen := true, openOff := b.off, count := 1, limit := t.rlim } }
  else m

/-- A weight load that starts is the one its set's SETLOAD names from then on, with the consumer counts of its bound windows
(R191, R316). -/
def Mach.nameLoad (m : Mach) (b : Active) : Mach :=
  match b.loads with
  | some (setB, _) =>
    let t := m.tile m.cur.tile
    let l := { b with inSlot := false, idx := b.instr.bound.map (fun w => ((m.curCtx.buf w.2.1).cc : Int)) }
    if b.done = 0 then m.setTile m.cur.tile { t with mat := t.mat.putSet setB { t.mat.set setB with load := some l } } else m
  | none => m

/-- A block in its pipe goes on: its header wait, then, from its start, its iterations (R71, R186). -/
def Mach.meRun (m : Mach) (who : Who) (b : Active) : Mach :=
  let h := b.instr.hdr
  let p := mePlan b.instr
  match b.phase with
  | .header =>
    match (if h.wcnt = 0 then Ready.go m b else blockWait who h.wsem h.wcnt m b) with
    | .stop m => m
    | .trap m _ => m
    | .go m b =>
      if b.skip then blockDone who h (if b.instr.rets then m.retire else m) b
      else runIters who p b.left ((m.openMe b).nameLoad b) { b with phase := .body }
  | .body | .finish => runIters who p b.left m b

/-- A block that waits in a pipe goes on. -/
def Mach.meGoOn (m : Mach) (load : Bool) : Mach :=
  match m.getB (.pipe load) with
  | none => m
  | some b => if b.queued && !b.granted then m else m.meRun (.pipe load) b

/-- Whether a block's pipe and sets are free (R186, R187). -/
def MatEng.freeFor (x : MatEng) (b : Active) : Bool :=
  let clash := fun (o : Option Active) => o.any (fun y => y.instr.sets.any (fun s => b.instr.sets.contains s))
  -- a block whose header wait is not served has not started, and holds back those behind it
  let waits := fun (o : Option Active) => o.any (fun y => y.phase = .header)
  !waits x.load && !waits x.strm
    && (if b.instr.isMwld then x.load.isNone && !clash x.strm else x.strm.isNone && !clash x.load)

/-- The first block of the queue starts when it can (R186). -/
def Mach.meStart (m : Mach) : Mach :=
  let t := m.tile m.cur.tile
  -- a remote signal that waits for its pfence holds the blocks behind it (R148)
  match (t.mat.queue.filter (fun b => !b.instr.isSignal || b.instr.isSigr)).head? with
  | none => m
  | some b =>
    if b.instr.isSigr || !t.mat.freeFor b then m
    else
      let load := b.instr.isMwld
      let mat := { t.mat with queue := t.mat.queue.erase b }
      let mat := if load then { mat with load := some b } else { mat with strm := some b }
      (m.setTile m.cur.tile { t with mat := mat }).meRun (.pipe load) b

/-- Signals whose earlier blocks have all performed their last access are performed (R132). -/
def Mach.meSignals (m : Mach) : Nat → Mach
  | 0 => m
  | fuel + 1 =>
    let t := m.tile m.cur.tile
    match t.mat.queue with
    | [] => m
    | b :: bs =>
      match b.instr with
      | .signal sem n =>
        if (t.mat.load.toList ++ t.mat.strm.toList).any (fun y => y.ser < b.ser) then m
        else
          let m := m.setTile m.cur.tile { t with mat := { t.mat with queue := bs } }
          (m.addReserved m.cur.tile m.cur.ctx sem n).meSignals fuel
      | _ => m

/-- The first remote signal of the queue is sent once its pfence completes: no earlier block has a write still to perform, and
every earlier write and signal has been acknowledged (R133, R148). -/
def Mach.meSigr (m : Mach) : Mach :=
  let t := m.tile m.cur.tile
  match t.mat.queue.find? (fun b => b.instr.isSigr) with
  | none => m
  | some b =>
    if !m.quiet || m.meIssued.any (fun y => y.ser < b.ser && y.writes) then m
    else
      let m := m.setTile m.cur.tile { t with mat := { t.mat with queue := t.mat.queue.erase b } }
      match b.instr with
      | .sigr _ sem n => m.sendSigr (b.xs.getD 0 {}).v.toNat sem n
      | _ => m

/-- The matrix engine of a tile does what it can next (R186): the blocks in its pipes go on, the next of the queue starts,
and the signals due are performed. A stream that stands at a fault inside a block lets only a block that
had started in the other pipe go on (R378). -/
def Mach.meTurn (m : Mach) (tile : Nat) : Mach :=
  match at' none (m.tile tile).runs Engine.me.code with
  | none => m
  | some ctx =>
    let m := { m with cur := ⟨tile, ctx, .me⟩ }
    let go := m.curCtx.loaded && m.curCtx.dying.isNone && m.clocked tile
    let faults := fun (m : Mach) => if m.str.mode = .trapped then (m.trapsOf m.cur).filter Event.inBlock else []
    let halted := fun (m : Mach) => !(faults m).isEmpty
    let stopped := fun (m : Mach) (load : Bool) =>
      halted m && (m.getB (.pipe load)).any (fun b => b.phase = .header || (faults m).any (fun e => e.off = b.off))
    if !go then m
    else
      let m := if stopped m true then m else m.meGoOn true
      let m := if m.curCtx.dying.isSome || stopped m false then m else m.meGoOn false
      -- a closed stream whose task is to stop starts no further block (R314)
      let stops := fun (m : Mach) => m.curCtx.stopping && !(m.tile tile).mat.isOpen
      let m := if m.curCtx.dying.isSome || halted m || stops m then m else m.meStart
      let m := if m.curCtx.dying.isSome then m else m.meSigr
      if m.curCtx.dying.isSome then m else m.meSignals (m.tile tile).mat.queue.length

/-- ME_BLOCK_START (R186). -/
def execMeBlockStart (tile : Nat) (s : State) : Host.Outcome State Fault Refusal := act (fun m => m.meTurn tile) s

/-! ## The bound of an open stream (R190, R390) -/

/-- The RLIMIT record: the block in a pipe, or the instruction the stream waits in (R381, R390). -/
def Mach.rlimitRec (m : Mach) (tile : Nat) (ctx : Bool) : Event :=
  let c := m.ctx tile ctx
  let x := (m.tile tile).mat
  let at_ := (x.strm.toList ++ x.load.toList).head?
  { src := srcTile tile, status := Cause.rlimit.code, type := Cls.task.code, flags := 4 + (if ctx then 8 else 0)
    eng := 1, id := c.party, gtc := m.gtc
    a0 := jobOff c.job ((at_.map (·.off)).getD c.me.pc)
    detail := BitVec.ofNat 64 (x.openOff % 2 ^ 32 * 2 ^ 32 + x.limit % 2 ^ 25)
    iter := (at_.map (·.c)).getD [] }

/-- The kill of an open stream whose count has reached LIMIT (R390). -/
def Mach.rlimit (m : Mach) (tile : Nat) : Mach :=
  let t := m.tile tile
  match at' none t.runs Engine.me.code with
  | none => m
  | some ctx =>
    let c := m.ctx tile ctx
    if t.mat.isOpen && t.mat.limit ≤ t.mat.count && c.loaded && c.me.mode ≠ .tail then
      m.kill tile ctx (m.rlimitRec tile ctx)
    else m

/-- RLIMIT (R190, R390). -/
def execRlimit (tile : Nat) (s : State) : Host.Outcome State Fault Refusal := act (fun m => m.rlimit tile) s

end Sys2Proof.Machine
end

