-- ==== Sys2Proof/Machine/Registers.lean ====
section
/-!
DEFINITION. The register space of BAR0 (R291, R337 to R341): blocks, who reaches them, reset values, what a register reads
as, and the writes that wait until their unit is idle (R247, R248, R276).
-/

namespace Sys2Proof.Machine

open Sys2Proof

/-! ## Blocks and reach -/

/-- A register block (R291, R341). -/
inductive Block where
  | hub | slot (q : Nat) | func (f : Nat) | fw | die (d : Nat) | cluster (c : Nat) | tile (n : Nat) | reserved
deriving DecidableEq, Repr, Inhabited

/-- Block of a BAR0 offset, and the offset inside it. -/
def blockOf (o : Nat) : Block × Nat :=
  if o < 0x100000 then (.hub, o)
  else if o < 0x180000 then (.slot ((o - 0x100000) / 0x1000), o % 0x1000)
  else if o < 0x190000 then (.func ((o - 0x180000) / 0x1000), o % 0x1000)
  else if 0x200000 ≤ o ∧ o < 0x400000 then (.fw, o - 0x200000)
  else if 0x1000000 ≤ o ∧ o < 0x2000000 then
    let d := (o - 0x1000000) / 0x400000
    let r := o % 0x400000
    if r < 0x200000 then (.die d, r) else (.cluster (d * 8 + (r - 0x200000) / 0x40000), r % 0x40000)
  else if 0x2000000 ≤ o ∧ o < 0x4000000 then (.tile ((o - 0x2000000) / 0x10000), o % 0x10000)
  else (.reserved, 0)

/-- BAR0 offsets of registers in blocks. -/
def slotReg (q r : Nat) : Nat := 0x100000 + q * 0x1000 + r
def funcReg (f r : Nat) : Nat := 0x180000 + f * 0x1000 + r
def fwReg (r : Nat) : Nat := 0x200000 + r
def dieReg (d r : Nat) : Nat := 0x1000000 + d * 0x400000 + r
def clusterReg (c r : Nat) : Nat := 0x1200000 + c / 8 * 0x400000 + c % 8 * 0x40000 + r
def tileReg (n r : Nat) : Nat := 0x2000000 + n * 0x10000 + r

/-- The firmware-complex registers that the PF always writes (R337, R339). -/
def pfWrites (r : Nat) : Bool := r = 0x18 || r = 0x28 || r = 0x30 || (0x4000 ≤ r && r < 0x4028)

/-- Who may write a register (R294, R337). -/
def mayWrite (fw : Firmware) (a : Actor) (o : Nat) : Bool :=
  let (b, r) := blockOf o
  match a with
  | .policy => true
  | .queueCore _ => match b with
    | .slot _ | .func _ => true
    | .fw => r = 0x1200
    | .hub | .die _ | .cluster _ | .tile _ | .reserved => false
  | .supervisor c => match b with
    | .cluster k => k = c && r ≠ 0x1208
    | .tile n => clusterOf n = c
    | .hub | .slot _ | .func _ | .fw | .die _ | .reserved => false
  | .pf => match b with
    | .hub => true
    | .fw => fw.minimal || pfWrites r || fw.hostdbg
    | .slot _ | .func _ => !fw.minimal
    | .die _ | .cluster _ | .tile _ => fw.hostdbg && !fw.minimal
    | .reserved => false
  | .vf f => match b with
    | .func k => k = f
    | .hub | .slot _ | .fw | .die _ | .cluster _ | .tile _ | .reserved => false

/-- Whether an actor has a clock (R356): the policy core runs from the reference until the ROM has locked PLL 0, then from PLL 0;
queue cores from PLL 1, supervisors from PLL 2. -/
def Mach.powered (fw : Firmware) (m : Mach) : Actor → Bool
  | .policy => m.locked.contains 0 || fw.stage = .rom || fw.stage = .pll0 || fw.stage = .minPll
  | .queueCore _ => m.locked.contains 1
  | .supervisor _ => m.locked.contains 2
  | .pf | .vf _ => true

/-- Whether an actor's write to a register is performed (R337, R356). -/
def Mach.writes (fw : Firmware) (m : Mach) (a : Actor) (o : Nat) : Bool := m.powered fw a && mayWrite fw a o

/-- The queue slots that a VF sees, in ascending order, at most eight (R292). -/
def Mach.slotsOf (m : Mach) (f : Nat) : List Nat :=
  ((List.range 128).filter (fun q => qctlFunc ((m.queue q).qctl q) = f)).take 8

/-- The BAR0 offset of the PF at which an actor's register stands (R292): a VF sees its slots, and its function block at
0x8000; of anything else in its 64 KiB it sees what is reserved. -/
def Mach.regAt (m : Mach) (a : Actor) (o : Nat) : Nat :=
  match a with
  | .vf f =>
    if o < 0x8000 then ((m.slotsOf f)[o / 0x1000]?).elim 0x190000 (fun q => slotReg q (o % 0x1000))
    else if o < 0x9000 then funcReg f (o - 0x8000)
    else 0x190000
  | .policy | .queueCore _ | .supervisor _ | .pf => o

/-- The queue slot of a notify page (R290, R292): pages 0 to 127 are the PF's; from 128 on, eight of each VF. -/
def Mach.notifySlot (m : Mach) (page : Nat) : Option Nat :=
  if page < 128 then some page
  else if page < 248 then (m.slotsOf (1 + (page - 128) / 8))[(page - 128) % 8]?
  else none

/-- Who may read a register (R292, R337). -/
def mayRead (fw : Firmware) (m : Mach) (a : Actor) (o : Nat) : Bool :=
  mayWrite fw a o || (match a, (blockOf o).1 with
    | .pf, .fw => true
    | .supervisor c, .cluster k => k = c
    | .vf f, .slot q => (m.slotsOf f).contains q
    | _, _ => false)

/-! ## Plain registers -/

/-- Reset values of the registers that one map holds (R287, R307, R359, R395). -/
def resetReg (o : Nat) : Word64 :=
  let (b, r) := blockOf o
  match b with
  | .hub =>
    if r = 0x10 then 10000
    else if r = 0x18 then BitVec.ofNat 64 (10 * 2 ^ 32 + 100 * 2 ^ 16 + 1000)
    else if r = 0x3010 then 1800
    else if 0x3100 ≤ r ∧ r < 0x3158 then
      BitVec.ofNat 64 ([600, 1100, 40, 50, 90, 8, 60, 3000, 4000, 26, 110].getD ((r - 0x3100) / 8) 0)
    else 0
  | .die _ => if r = 0x18 then 0x103E8 else 0
  | .cluster _ => if r = 0x200 then 0x103E8 else 0
  | .slot _ | .func _ | .fw | .tile _ | .reserved => 0

def Mach.reg (m : Mach) (o : Nat) : Word64 := look (resetReg o) m.regs o
/-- DEDUCED, log 54. -/
def Mach.setReg (m : Mach) (o : Nat) (v : Word64) : Mach := { m with regs := store (resetReg o) m.regs o v }

/-- FDBOUND, in ns (R287), and the weight of energy event `i` (R359). -/
def Mach.fdbound (m : Mach) : Nat := (m.reg 0x10).toNat
def Mach.weight (m : Mach) (i : Nat) : Nat := (m.reg (0x3100 + 8 * i)).toNat

/-! ## Writes that wait until their unit is idle -/

/-- Whether some context among the tiles of `p` holds a task. -/
def Mach.holdsTask (m : Mach) (p : Nat → Bool) : Bool := m.ctxs.any (fun e => e.2.loaded && p (e.1 / 2))

/-- Whether no packet of the device is outstanding (R276). -/
def Mach.noPackets (m : Mach) : Bool :=
  m.hub.requests.isEmpty && m.net.isEmpty && m.homeq.isEmpty && m.hub.waiting.isEmpty
    && m.links.all (fun e => e.2.txq.isEmpty && e.2.unacked.isEmpty)

/-- PMAP as written comes into force (R276). -/
def Mach.settlePmap (m : Mach) : Mach :=
  if m.hub.pmap ≠ m.hub.pmapW && !m.holdsTask (fun _ => true) && m.noPackets then
    { m with hub := { m.hub with pmap := m.hub.pmapW } }
  else m

/-- CPSPLIT as written comes into force (R247): dirty lines written back, and once that is done the new explicit part is
zero. -/
def Mach.settleCluster (m : Mach) (c : Nat) : Mach :=
  let x := m.cluster c
  if x.expl = x.explW || m.holdsTask (fun n => clusterOf n = c) then m
  else
    let m := m.cleanSpan c none 0 (2 ^ 64)
    if !m.flushed (m.supParty c) 0 64 then m
    else
      let x := m.cluster c
      (clearRun m (clKey c 0) (x.explW * 2 ^ 21)).setCluster c { x with expl := x.explW }

/-- DPSPLIT as written comes into force (R248). -/
def Mach.settleDie (m : Mach) (d : Nat) : Mach :=
  let x := m.die d
  if x.expl = x.explW || m.holdsTask (fun n => dieOf n = d) then m
  else (clearRun m (diePoolKey d 0) (x.explW * 2 ^ 23)).setDie d { x with expl := x.explW }

/-! ## Queue slots (R294 to R296, R427) -/

/-- LOG2N of a slot. -/
def qctlLog2 (w : Word64) : Nat := bits64 w 16 5

/-- Commands are read in ring order, as far as QTAIL allows; `fuel` bounds their number (R296). -/
def Mach.fetchCmds (m : Mach) (q : Nat) : Nat → Mach
  | 0 => m
  | fuel + 1 =>
    let x := m.queue q
    let w := x.qctl q
    let n := (x.tail + 2 ^ 32 - x.fetched) % 2 ^ 32
    if !w.getLsbD 0 || n = 0 || 2 ^ qctlLog2 w < n then m
    else
      let addr := x.base.toNat + x.fetched % 2 ^ qctlLog2 w * 64
      let m := (m.hostRead (qctlFunc w) addr 64 (.command q x.fetched)).1
      (m.setQueue q { x with fetched := (x.fetched + 1) % 2 ^ 32 }).fetchCmds q fuel

/-- QTAIL written. -/
def Mach.notify (m : Mach) (q v : Nat) : Mach :=
  let x := m.queue q
  (m.setQueue q { x with tail := v % 2 ^ 32 }).fetchCmds q (2 ^ qctlLog2 (x.qctl q))

/-- A QCTL value takes effect (R295, R427). -/
def Mach.applyQctl (m : Mach) (q : Nat) (v : Word64) : Mach :=
  let x := m.queue q
  let old := x.qctl q
  let gone := old.getLsbD 0 && (!v.getLsbD 0 || qctlFunc v ≠ qctlFunc old)
  let x := { x with ctl := some v, ctlW := none, unmapped := if gone then some (qctlFunc old, x.base) else none }
  let starts := v.getLsbD 0 && !old.getLsbD 0
  let stops := starts || !v.getLsbD 0
  let x := if starts then { x with head := 0, tail := 0, fetched := 0 } else x
  let x := if stops then { x with cmds := [] } else x
  let m := if stops then { m with hub := { m.hub with
      preads := m.hub.preads.filter (fun r => match r.why with
        | .command k _ => k ≠ q
        | _ => true) } }
    else m
  match (if v.getLsbD 0 then x.late else none) with
  | some (t, f, b) =>
    let m := m.setQueue q { x with late := none }
    if f = qctlFunc v ∧ b = x.base then m.notify q t else m
  | none => m.setQueue q x

/-- A written QCTL that waited takes effect when its queue has nothing started and not completed (R295). -/
def Mach.settleQueue (m : Mach) (q : Nat) : Mach :=
  let x := m.queue q
  match x.ctlW with
  | some v => if x.started.isEmpty then m.applyQctl q v else m
  | none => m

/-- The cycle in which a slot was unmapped is over (R427). -/
def Mach.pastUnmap (m : Mach) (q : Nat) : Mach := m.setQueue q { m.queue q with unmapped := none }

/-- Every write that waits for idleness and may now come into force does so. -/
def Mach.settle (m : Mach) : Mach :=
  let m := m.settlePmap
  let m := (m.hub.queues.map (·.1)).foldl Mach.settleQueue m
  let m := (m.clusters.map (·.1)).foldl Mach.settleCluster m
  (m.dies.map (·.1)).foldl Mach.settleDie m

/-! ## Time on the tiles (R190, R310, R311, R356, R359) -/

/-- Whether pulse `i` of a group is removed under S (R311). -/
def removed (s i : Nat) : Bool := (i + 1) * s / 64 > i * s / 64

/-- `n` pulses of a cluster's PLL: those delivered are counted; S as written comes into force at a group boundary. -/
def Cluster.pulses (c : Cluster) : Nat → Nat → Cluster × Nat
  | 0, k => (c, k)
  | n + 1, k =>
    let c := if c.pulse = 0 then { c with swallow := c.swallowW } else c
    let gone := removed c.swallow c.pulse
    Cluster.pulses { c with pulse := (c.pulse + 1) % 64 } n (if gone then k else k + 1)

/-- A tile receives `k` delivered cycles: its counter, and the count of an open ME stream (R9, R190). -/
def Mach.tileCycles (m : Mach) (k n : Nat) : Mach :=
  let t := m.tile n
  let tailed := match at' none t.runs Engine.me.code with
    | some c => (m.ctx n c).me.mode = .tail
    | none => true
  let mat := if t.mat.isOpen && !tailed then { t.mat with count := t.mat.count + k } else t.mat
  (m.setTile n { t with cycles := t.cycles + k, mat := mat }).rlimit n

/-- Energy that a cluster has drawn, in pJ: its counted events, each times its weight (R310, R359). -/
def Mach.energyOf (m : Mach) (c : Nat) : Nat :=
  (m.cluster c).pj + ((List.range 11).map (fun i => look 0 m.events (c * 16 + i) * m.weight i)).sum

/-- The events counted so far taken in at the weights in force, before one of them changes (R359). -/
def Mach.takeEnergy (m : Mach) : Mach :=
  let m' := (List.range 32).foldl (fun m c => m.setCluster c { m.cluster c with pj := m.energyOf c }) m
  { m' with events := [] }

/-- An open number of accesses, counted as events of a kind (R359; DESIGN CHOICE, log 6). -/
def Mach.spendOpen (m : Mach) (c i : Nat) : Mach := { m.spend c i (Config.choice m.free) with free := m.free + 1 }

/-- Pulses reach a cluster (R9, R310, R356). Events counted: the delivered cycles of tiles that hold a task, and, in a cluster in
which a task or the supervisor runs, an open number of accesses to banks, pool lines and HBM lines (DESIGN CHOICE, log 6). -/
def Mach.pulses (m : Mach) (c n : Nat) : Mach :=
  if !m.locked.contains (3 + c) then m
  else
    let (x, k) := (m.cluster c).pulses n 0
    let tiles := (List.range 16).map (fun i => c * 16 + i)
    let held := (tiles.filter (fun t => (m.ctx t false).loaded || (m.ctx t true).loaded)).length
    let m := (m.setCluster c x).spend c 10 (k * held)
    let m := if held ≠ 0 || x.svrun then [5, 6, 7].foldl (fun m i => m.spendOpen c i) m else m
    tiles.foldl (fun m t => m.tileCycles k t) m

/-! ## What registers read as (R338 to R343, R378, R415) -/

/-- The two words of WS (R415). -/
def Mach.ws (m : Mach) (a : Agent) (w : Nat) : Word64 :=
  let c := m.ctx a.tile a.ctx
  let s := c.stream a.eng
  let (k, sem, n) := m.wsKind a
  if w = 0 then
    BitVec.ofNat 64 (min (2 ^ 32 - 1) ((m.gtc - s.since) / 1000) * 2 ^ 32 + k * 2 ^ 28 + sem * 2 ^ 22 + n)
  else BitVec.ofNat 64 (s.pc % 2 ^ 32 * 2 ^ 32 + c.party)

/-- Eight bytes of a record or of a byte list, from offset `o`. -/
def word8 (bs : List Byte) (o : Nat) : Word64 := BitVec.ofNat 64 (fieldAt bs o 8)

/-- A token table entry as its two words (R255). -/
def TokEntry.word (e : TokEntry) (w : Nat) : Word64 :=
  let st := if e.excl then 2 else if e.share ≠ 0 then 3 else 1
  if w = 0 then
    BitVec.ofNat 64 (st * 2 ^ 62 + e.split.toNat * 2 ^ 61 + e.pois.toNat * 2 ^ 60 + e.log2 * 2 ^ 54 + e.nspl * 2 ^ 31 + e.base)
  else BitVec.ofNat 64 (e.party * 2 ^ 32 + e.share * 2 ^ 16 + e.child)

/-- QCTL as software reads it: the written value, also while it waits (R295). -/
def Queue.qctlRead (x : Queue) (q : Nat) : Word64 := x.ctlW.getD (x.qctl q)

/-- Queue slot registers (R294). -/
def Mach.readSlot (m : Mach) (q r : Nat) : Word64 :=
  let x := m.queue q
  if r = 0 then x.qctlRead q
  else if r = 8 then x.base
  else if r = 0x10 then BitVec.ofNat 64 x.head
  else if r = 0x18 then BitVec.ofNat 64 x.tail
  else if r = 0x20 then x.save
  else if r = 0x28 then x.savesz
  else 0

/-- Function block registers (R301). -/
def Mach.readFunc (m : Mach) (f r : Nat) : Word64 :=
  let x := m.func f
  if r = 0 then BitVec.ofNat 64 (x.en.toNat + x.log2n * 2 ^ 16)
  else if r = 8 then x.base
  else if r = 0x10 then BitVec.ofNat 64 x.head
  else if r = 0x18 then BitVec.ofNat 64 x.tail
  else if r = 0x20 then x.b4
  else 0

/-- Hub block registers (R236, R276, R309, R326, R338, R354 to R364, R420, R422). -/
def Mach.readHub (m : Mach) (r : Nat) : Word64 :=
  if r = 0 then BitVec.ofNat 64 m.hub.chip
  else if r = 8 then m.hub.pmapW.setWidth 64
  else if r = 0x20 then BitVec.ofNat 64 m.gtc
  else if r = 0x30 then BitVec.ofNat 64 (m.hub.dead.toNat * 256 + m.hub.rehash)
  else if 0x2000 ≤ r ∧ r < 0x2118 then
    let i := (r - 0x2000) / 8
    m.reg r ||| (if m.locked.contains i then BitVec.ofNat 64 (2 ^ 31) else 0)
  else if r = 0x3000 then m.hub.rails.setWidth 64
  else if r = 0x3008 then BitVec.ofNat 64 m.hub.meter
  else if 0x4000 ≤ r ∧ r < 0x4800 then
    let l := m.link ((r - 0x4000) / 0x100)
    if r % 0x100 = 0 then BitVec.ofNat 64 (l.en.toNat + l.media.toNat * 2)
    else if r % 0x100 = 8 then BitVec.ofNat 64 (l.peer * 2048 + l.state)
    else if r % 0x100 = 0x10 then BitVec.ofNat 64 (l.crc * 2 ^ 32 + l.epis * 2 ^ 16 + l.downs)
    else 0
  else if r = 0x5000 then
    let h := m.hub
    BitVec.ofNat 64 (h.pcieSpeed * 256 + h.pcieWidth * 8 + h.pcieFlit.toNat * 4 + h.pcieUp.toNat * 2 + h.pcieReady.toNat)
  else if r = 0x28 ∨ r = 0x40 then 0
  else m.reg r

/-- Die block registers (R240, R241, R248, R254, R361, R395, R403, R434). -/
def Mach.readDie (m : Mach) (d r : Nat) : Word64 :=
  let x := m.die d
  let hmst := fun (t : Stack) => BitVec.ofNat 64 (t.busy.toNat * 2 ^ 31 + t.fail.toNat * 2 ^ 30 + t.rep * 256 + t.done)
  if r = 0 then x.pdbase
  else if r = 8 then x.tcinv
  else if r = 0x10 then BitVec.ofNat 64 x.explW
  else if r = 0x20 then BitVec.ofNat 64 x.frcap
  else if r = 0x28 then BitVec.ofNat 64 (x.tmax * 2 ^ 40 + x.tcrit * 2 ^ 24 + x.thot * 2 ^ 16 + x.hot.toNat * 256)
  else if r = 0x1008 then hmst x.st0
  else if r = 0x2008 then hmst x.st1
  else if 0x100000 ≤ r ∧ r < 0x200000 then
    match x.tok.find? (·.1 = (r - 0x100000) / 16) with
    | some (_, e) => e.word (r / 8 % 2)
    | none => 0
  else m.reg (dieReg d r)

/-- Eight bytes of SVRAM (R341, R342). -/
def Mach.svram (m : Mach) (c r : Nat) : Nat := svKey c ((m.cluster c).svhalf.toNat * 2 ^ 17 + (r - 0x20000))

/-- Cluster block registers, doorbells apart (R247, R266, R310, R311, R341, R342, R378). -/
def Mach.readCluster (m : Mach) (c r : Nat) : Word64 :=
  let x := m.cluster c
  if r = 0 then BitVec.ofNat 64 x.explW
  else if r = 8 then BitVec.ofNat 64 (m.energyOf c / 1000)
  else if r = 0x10 then BitVec.ofNat 64 x.swallowW
  else if r = 0x100 then x.tkbase
  else if r = 0x108 then BitVec.ofNat 64 x.tkparty
  else if r = 0x110 then BitVec.ofNat 64 (x.busy || x.tkheld.isSome).toNat
  else if r = 0x1200 then x.dbmask
  else if r = 0x1208 then BitVec.ofNat 64 (x.svhalf.toNat * 2 + x.svrun.toNat)
  else if r = 0x1400 then BitVec.ofNat 64 x.trapq.length
  else if 0x1440 ≤ r ∧ r < 0x1480 then
    match x.trapq with
    | e :: _ => word8 e.bytes (r - 0x1440)
    | [] => 0
  else if 0x20000 ≤ r then BitVec.ofNat 64 (valOf (rdRun m (m.svram c r) 8))
  else m.reg (clusterReg c r)

/-- The context whose ME_SAT a tile shows (R192): the one whose ME stream runs, else the newest whose ME stream has executed
tail; none where no task has begun. `true` with it says that the engine still holds the bit. -/
def Mach.satOf (m : Mach) (n : Nat) : Option (Bool × Bool) :=
  let tailed := fun (c : Bool) => (m.ctx n c).loaded && (m.ctx n c).me.mode = .tail
  match at' none (m.tile n).runs Engine.me.code with
  | some c => some (c, true)
  | none =>
    if tailed true && (!tailed false || (m.ctx n false).age < (m.ctx n true).age) then some (true, false)
    else if tailed false then some (false, false) else none

/-- Whether a tile's ME_SAT is set (R192). -/
def Mach.meSat (m : Mach) (n : Nat) : Bool :=
  match m.satOf n with
  | some (_, true) => (m.tile n).mat.sat
  | some (c, false) => (m.ctx n c).sat
  | none => false

/-- ME_SAT cleared. -/
def Mach.clearSat (m : Mach) (n : Nat) : Mach :=
  match m.satOf n with
  | some (_, true) => m.setTile n { m.tile n with mat := (m.tile n).mat.clearSat true }
  | some (c, false) => m.setCtx n c { m.ctx n c with sat := false }
  | none => m

/-- Tile block registers (R192, R411, R415). -/
def Mach.readTile (m : Mach) (n r : Nat) : Word64 :=
  let t := m.tile n
  if r = 0 then BitVec.ofNat 64 t.rlim
  else if r = 8 then
    BitVec.ofNat 64 (t.prow * 256 + (t.taken || t.off).toNat * 4 + t.mat.isOpen.toNat * 2 + (m.meSat n).toNat)
  else if r = 0x10 then
    BitVec.ofNat 64 (t.quar.toNat * 2 ^ 16 + t.taken.toNat * 2 ^ 15 + t.off.toNat * 2 ^ 14 + t.row * 256 + t.col)
  else if 0x100 ≤ r ∧ r < 0x180 then
    m.ws ⟨n, (r - 0x100) / 0x40 = 1, Engine.ofCode ((r - 0x100) / 0x10 % 4)⟩ (r / 8 % 2)
  else 0

/-- Firmware-complex registers (R339, R340, R349, R350). -/
def readFw (fw : Firmware) (m : Mach) (r : Nat) : Word64 :=
  let fails := (rdRaw m (flashKey 0x1000)).toNat
  if r = 0 then BitVec.ofNat 64 (fails * 2 ^ 24 + fw.layer)
  else if r = 8 then BitVec.ofNat 64 fw.hostdbg.toNat
  else if r = 0x10 then BitVec.ofNat 64 (fw.rmin * 256 + fw.wver)
  else if r = 0x18 then
    BitVec.ofNat 64 (fw.can.period * 2 ^ 16 + fw.can.cl * 2 ^ 11 + fw.can.supervisor.toNat * 2 ^ 10)
  else if r = 0x20 then BitVec.ofNat 64 (fw.can.why * 256 + fw.can.state)
  else if 0x100 ≤ r ∧ r < 0x140 then BitVec.ofNat 64 (valOf (rdRun m (flashKey (0x1040 + (r - 0x100))) 8))
  else if 0x1000 ≤ r ∧ r < 0x1200 then BitVec.ofNat 64 (at' 0 m.hub.sems ((r - 0x1000) / 8))
  else if 0x2000 ≤ r ∧ r < 0x2600 then (if r % 0x100 = 0 then at' 0 fw.qcctl ((r - 0x2000) / 0x100) else 0)
  else if 0x4000 ≤ r ∧ r < 0x4020 then word8 fw.nonce (r - 0x4000)
  else if r = 0x4028 then BitVec.ofNat 64 (fw.capture.isSome.toNat + fw.quoteDone.toNat * 2)
  else if 0x4100 ≤ r ∧ r < 0x42C8 then word8 fw.quote (r - 0x4100)
  else if r = 0x10000 then BitVec.ofNat 64 fw.log.length
  else if 0x10008 ≤ r ∧ r < 0x10028 then word8 ((bytesOf 32 fw.logd.toNat).reverse) (r - 0x10008)
  else if 0x10100 ≤ r ∧ r < 0x14100 then
    word8 ((at' [] fw.log ((r - 0x10100) / 64))) ((r - 0x10100) % 64)
  else if 0x15000 ≤ r ∧ r < 0x18000 then
    match fw.certs.find? (fun c => c.layer = (r - 0x15000) / 0x1000) with
    | some c => word8 c.der (r % 0x1000)
    | none => 0
  else if 0x100000 ≤ r ∧ r < 0x110000 then word8 ((List.range 8).map (fun i => Config.bootRom (r - 0x100000 + i))) 0
  else if r = 0x28 ∨ r = 0x4800 then m.reg (fwReg r)
  else 0

/-- What a read of the aligned eight bytes at a BAR0 offset gives; a register out of reach reads 0 (R337). A doorbell
read has an effect besides and is DOORBELL_READ's. -/
def readReg (fw : Firmware) (m : Mach) (a : Actor) (o : Nat) : Word64 :=
  let o := m.regAt a o
  if !mayRead fw m a o then 0
  else
    let (b, r) := blockOf o
    match b with
    | .hub => m.readHub r
    | .slot q => m.readSlot q r
    | .func f => m.readFunc f r
    | .fw => readFw fw m r
    | .die d => m.readDie d r
    | .cluster c =>
      if 0x1000 ≤ r ∧ r < 0x1200 then BitVec.ofNat 64 (look 0 (m.cluster c).db ((r - 0x1000) / 8)) else m.readCluster c r
    | .tile n => m.readTile n r
    | .reserved => 0

end Sys2Proof.Machine
end

