-- ==== Sys2Proof/Machine/Launch.lean ====
section
/-!
DEFINITION. The checks of a LAUNCH (R52 to R64, R233, R305, R324, R326, R381) and the placement of a job on tiles (R304 to
R308).
-/

namespace Sys2Proof.Machine

open Sys2Proof

/-! ## Checks with their records -/

/-- A failing check: cause, IA of the record, forme index or 0xFFFF, offset of the field (R381). -/
structure Bad where
  cause : Cause := .badfield
  addr : Nat := 0
  idx : Nat := 0xFFFF
  off : Nat := 0
deriving DecidableEq, Repr, Inhabited

/-- What a check gives; `hold` while a record's page migrates. -/
inductive Chk (α : Type) where
  | ok (a : α)
  | bad (b : Bad)
  | hold

def Chk.bind {α β : Type} (c : Chk α) (f : α → Chk β) : Chk β :=
  match c with
  | .ok a => f a
  | .bad b => .bad b
  | .hold => .hold

/-- The first failing field of a record: each is given with whether it fails. -/
def fields (addr idx : Nat) (l : List (Bool × Nat)) : Chk Unit :=
  match l.find? (·.1) with
  | some x => .bad { addr := addr, idx := idx, off := x.2 }
  | none => .ok ()

/-- A record read by the hub party through its home (R56): it lies in the device memory or the explicit SRAM of this chip,
on a page that is neither absent nor poisoned; the read is held with its planes, and before the directory's stack has trained
(R274, R361). -/
def Mach.hubRead (m : Mach) (ia n idx : Nat) : Chk (List Byte) :=
  let no : Chk (List Byte) := .bad { cause := .range, addr := ia, idx := idx }
  if iaChip ia ≠ m.hub.chip then no
  else if !m.hubOpen ia n then .hold
  else match areaOf (iaLocal ia) with
    | .mem d o =>
      let p := m.page d o
      if !m.dirOpen d o then .hold
      else if p.state = 0 ∨ p.state = 3 then no
      else match m.memRead ia d o n [] with
        | .done bs _ => .ok (bs.map (·.b))
        | .wait _ => .hold
        | .trap _ | .park _ _ => no
    | .cpool k o => if o + n ≤ (m.cluster k).explBytes then .ok ((rdRun m (clKey k o) n).map (·.b)) else no
    | .dpool k o => if o + n ≤ (m.die k).explBytes then .ok ((rdRun m (diePoolKey k o) n).map (·.b)) else no
    | .host _ _ | .regs _ | .boot _ | .none => no

/-- Whether bytes `o` to `o + n - 1` hold anything but zero. -/
def anySet (bs : List Byte) (o n : Nat) : Bool := ((bs.drop o).take n).any (· ≠ 0)

/-! ## Formes (R57 to R64) -/

/-- Range register i, and buffer descriptor i, of a forme. -/
def formeRange (bs : List Byte) (i : Nat) : Range :=
  ⟨BitVec.ofNat 64 (fieldAt bs (0x280 + 16 * i) 8), BitVec.ofNat 64 (fieldAt bs (0x288 + 16 * i) 8)⟩
def formeBuf (bs : List Byte) (i : Nat) : Buf := { raw := BitVec.ofNat 64 (fieldAt bs (0x180 + 8 * i) 8) }

/-- Group of scope k (0 cluster, 1 die, 2 package, 3 system). -/
def formeGroup (bs : List Byte) (k : Nat) : Option Nat :=
  let v := fieldAt bs (0x10 + 2 * k) 2
  if v / 32768 = 1 then some (v % 4096) else none

/-- Whether two ranges share a virtual address. -/
def vaOverlap (a b : Range) : Bool :=
  a.pages ≠ 0 && b.pages ≠ 0 && a.lo < b.lo + b.pages * 4096 && b.lo < a.lo + a.pages * 4096

/-- A descriptor's reserved bits, and its last slot inside the scratchpad: of a descriptor that is not valid, the reserved bits
only (DESIGN CHOICE, log 84). -/
def bufBad (b : Buf) : Bool :=
  bits64 b.raw 48 16 ≠ 0 || bits64 b.raw 32 2 ≠ 0 || (b.valid && 2 ^ 20 < b.base + b.slots * b.size)

/-- The fields of a forme that fail R56 and R61, in offset order. CODE, CLEN and ENTRY are taken as they stand, whatever their
alignment (DESIGN CHOICE, log 84). -/
def formeFields (bs : List Byte) : List (Bool × Nat) :=
  [(decide (fieldAt bs 0 2 ≠ 1), 0), (decide (32 ≤ fieldAt bs 2 1), 2), (anySet bs 3 5, 3)]
    ++ (List.range 4).map (fun k => (decide (fieldAt bs (0x10 + 2 * k) 2 / 4096 % 8 ≠ 0), 0x10 + 2 * k))
    ++ [(decide (16 < fieldAt bs 0x20 1), 0x20), (anySet bs 0x21 31, 0x21)]
    ++ (List.range 32).map (fun i => (decide (bufBad (formeBuf bs i) = true), 0x180 + 8 * i))
    ++ (List.range 8).flatMap (fun i =>
      [((List.range i).any (fun j => vaOverlap (formeRange bs j) (formeRange bs i)), 0x280 + 16 * i),
       (decide (bits64 (formeRange bs i).w1 4 8 ≠ 0), 0x288 + 16 * i)])
    ++ [(anySet bs 0x340 192, 0x340)]

/-- Areas as R233 tells them apart; none where every kind is refused. -/
def areaClass (ia : Nat) : Option (Nat × Nat) :=
  match areaOf (iaLocal ia) with
  | .mem _ _ => some (iaChip ia, 0)
  | .cpool _ _ => some (iaChip ia, 1)
  | .dpool _ _ => some (iaChip ia, 2)
  | .host _ _ => some (iaChip ia, 3)
  | .regs _ | .boot _ | .none => none

/-- R233 for one range. -/
def rangeRefused (r : Range) : Bool :=
  r.pages ≠ 0 &&
    (match areaClass r.ia, areaClass (r.ia + r.pages * 4096 - 1) with
      | some a, some b => !(a = b && r.ia + r.pages * 4096 ≤ 2 ^ 64 && ((a.2 = 3) = (r.kind = .host)))
      | _, _ => true)

/-- A forme checked (R56, R233). -/
def formeCheck (bs : List Byte) (ia idx : Nat) : Chk Unit :=
  (fields ia idx (formeFields bs)).bind fun _ =>
    match (List.range 8).find? (fun i => rangeRefused (formeRange bs i)) with
    | some i => .bad { cause := .range, addr := ia, idx := idx, off := 0x288 + 16 * i }
    | none => .ok ()

/-! ## The imposition (R53 to R55) -/

/-- One forme entry with its forme. -/
def Mach.readForme (m : Mach) (ftab i : Nat) : Chk (FormeEnt × List Byte) :=
  let ea := ftab + 16 * i
  (m.hubRead ea 16 i).bind fun e =>
  let fa := fieldAt e 0 8
  let place := fieldAt e 8 4
  (fields ea i [(decide (fa % 1024 ≠ 0), 0), (place / 2 ^ 24 % 64 ≠ 0 || place / 2 ^ 9 % 128 ≠ 0, 8), (anySet e 12 4, 12)]).bind
    fun _ =>
  (m.hubRead fa 1024 i).bind fun bs =>
  (formeCheck bs fa i).bind fun _ =>
  .ok ({ forme := BitVec.ofNat 64 fa, place := BitVec.ofNat 32 place }, bs)

/-- `n` forme entries from entry i. -/
def Mach.readFormes (m : Mach) (ftab : Nat) : Nat → Nat → Chk (List (FormeEnt × List Byte))
  | 0, _ => .ok []
  | n + 1, i => (m.readForme ftab i).bind fun f => (m.readFormes ftab n (i + 1)).bind fun fs => .ok (f :: fs)

/-- Grant entries (R55). -/
def Mach.readGrants (m : Mach) (gtab nforme : Nat) : Nat → Nat → Chk (List (Word64 × Nat × Bool × Nat))
  | 0, _ => .ok []
  | n + 1, j =>
    let ea := gtab + 16 * j
    (m.hubRead ea 16 0xFFFF).bind fun g =>
    let base := fieldAt g 0 8
    let log2 := fieldAt g 8 1
    let mode := fieldAt g 9 1
    let fidx := fieldAt g 10 2
    -- a span that is no region is a BASE that cannot stand there (R253; DESIGN CHOICE, log 80)
    (fields ea 0xFFFF
      [(!(decide (12 ≤ log2) && decide (log2 ≤ 40)), 8), (base % 2 ^ log2 ≠ 0 || !validRegion base log2, 0), (decide (1 < mode), 9),
       (decide (nforme ≤ fidx), 10), (anySet g 12 4, 12)]).bind fun _ =>
    (m.readGrants gtab nforme n (j + 1)).bind fun gs => .ok ((BitVec.ofNat 64 base, log2, mode = 1, fidx) :: gs)

/-- Members of each group of a job, counted at launch (R75): (scope code, group, count). -/
def countGroups (fs : List (List Byte)) : List (Nat × Nat × Nat) :=
  let gs := fs.flatMap (fun bs => (List.range 4).filterMap (fun k => (formeGroup bs k).map (fun g => (k + 1, g))))
  (distinct gs).map (fun x => (x.1, x.2, gs.count x))

/-- The imposition and all that it names, checked in order (R53 to R56, R233, R324, R326). -/
def Mach.readJob (m : Mach) (fw : Firmware) (imp : Nat) : Chk Job :=
  (fields imp 0xFFFF [(decide (imp % 64 ≠ 0), 0)]).bind fun _ =>
  (m.hubRead imp 64 0xFFFF).bind fun h =>
  let nf := fieldAt h 2 2
  let ng := fieldAt h 4 2
  let ftab := fieldAt h 0x18 8
  let gtab := fieldAt h 0x20 8
  let gang := fieldAt h 8 4
  (fields imp 0xFFFF
    [(decide (fieldAt h 0 2 ≠ 1), 0), (nf = 0 || decide (512 < nf), 2), (decide (4096 < ng), 4), (decide (4 ≤ fieldAt h 6 1), 6),
     (anySet h 12 4, 12), (ftab % 16 ≠ 0, 0x18), (ng ≠ 0 && gtab % 16 ≠ 0, 0x20), (anySet h 0x28 24, 0x28)]).bind fun _ =>
  (m.readFormes ftab nf 0).bind fun fs =>
  (m.readGrants gtab nf ng 0).bind fun gs =>
  let sv := fieldAt h 7 1
  if sv < fw.rmin ∨ fw.wver < sv then .bad { cause := .layout, addr := imp, off := 7 }
  else if gang ≠ 0 ∧ (m.gangOf gang).isNone then .bad { addr := imp, off := 8 }
  else .ok
    { imp := BitVec.ofNat 64 imp, ftab := BitVec.ofNat 64 ftab, prio := fieldAt h 6 1 % 4, gang := gang
      energy := fieldAt h 0x10 8, savever := sv, formes := fs.map (·.1), grants := gs
      members := countGroups (fs.map (·.2)) }

/-! ## Placement (R54, R306) -/

def FormeEnt.pk (f : FormeEnt) : Nat := bits f.place 30 2
def FormeEnt.pgrp (f : FormeEnt) : Nat := bits f.place 16 8
def FormeEnt.wants (f : FormeEnt) : Nat := bits f.place 0 9

/-- Tiles still free, and the tile chosen for each forme index. -/
structure Placing where
  free : List Nat := []
  got : List (Nat × Nat) := []
deriving DecidableEq, Repr, Inhabited

def Placing.take (p : Placing) (i t : Nat) : Placing := { free := p.free.filter (· ≠ t), got := p.got ++ [(i, t)] }
def Placing.tileOf (p : Placing) (i : Nat) : Nat := ((p.got.find? (·.1 = i)).map (·.2)).getD 0

/-- What placing gives: the tiles, or the index of the first entry that has none. -/
inductive Placed where
  | ok (p : Placing)
  | fail (i : Nat)
deriving DecidableEq, Repr, Inhabited

/-- Each entry of a list placed in turn. -/
def placeEach (step : Placing → Nat × FormeEnt → Placed) : List (Nat × FormeEnt) → Placing → Placed
  | [], p => .ok p
  | x :: xs, p => match step p x with
    | .ok p => placeEach step xs p
    | .fail i => .fail i

/-- Step 1: an entry with its own tile, or one that joins that tile's sequence. -/
def placeTile (p : Placing) (x : Nat × FormeEnt) : Placed :=
  let t := x.2.wants
  if p.got.any (·.2 = t) then .ok { p with got := p.got ++ [(x.1, t)] }
  else if p.free.contains t then .ok (p.take x.1 t) else .fail x.1

/-- Tiles of a unit of `n` tiles that are free, and whether a cluster is wholly free. -/
def Placing.inUnit (p : Placing) (n u : Nat) : List Nat := p.free.filter (fun t => t / n = u)
def Placing.whole (p : Placing) (c : Nat) : Bool := (p.inUnit 16 c).length = 16

/-- Steps 2 and 3: one group. A cluster group prefers a wholly free cluster; a die group fills wholly free clusters
first. -/
def placeGroup (die : Bool) (p : Placing) (idx : List Nat) : Placed :=
  let n := if die then 128 else 16
  let fit := (List.range (512 / n)).filter (fun u => idx.length ≤ (p.inUnit n u).length)
  let pick := if die then fit.head? else match fit.find? p.whole with
    | some u => some u
    | none => fit.head?
  match pick with
  | none => .fail (idx.headD 0)
  | some u =>
    let ts := p.inUnit n u
    let ts := if die then ts.filter (fun t => p.whole (t / 16)) ++ ts.filter (fun t => !p.whole (t / 16)) else ts
    .ok ((idx.zip ts).foldl (fun p x => p.take x.1 x.2) p)

/-- Groups in order of size, the largest first, ties to the lower PGRP. -/
def insGroup (x : Nat × List Nat) : List (Nat × List Nat) → List (Nat × List Nat)
  | [] => [x]
  | y :: ys =>
    if y.2.length < x.2.length || (y.2.length = x.2.length && x.1 < y.1) then x :: y :: ys else y :: insGroup x ys

def groupsOf (pk : Nat) (fs : List (Nat × FormeEnt)) : List (Nat × List Nat) :=
  let mine := fs.filter (fun x => x.2.pk = pk)
  (distinct (mine.map (fun x => x.2.pgrp))).foldl (fun acc g =>
    insGroup (g, (mine.filter (fun x => x.2.pgrp = g)).map (·.1)) acc) []

def placeGroups (die : Bool) : List (Nat × List Nat) → Placing → Placed
  | [], p => .ok p
  | g :: gs, p => match placeGroup die p g.2 with
    | .ok p => placeGroups die gs p
    | .fail i => .fail i

/-- Step 4: an entry that takes any tile. -/
def placeAny (p : Placing) (x : Nat × FormeEnt) : Placed :=
  let used := p.got.map (fun g => g.2 / 16)
  match p.free.find? (fun t => used.contains (t / 16)) with
  | some t => .ok (p.take x.1 t)
  | none => match p.free.find? (fun t => p.whole (t / 16)) with
    | some t => .ok (p.take x.1 t)
    | none => match p.free with
      | t :: _ => .ok (p.take x.1 t)
      | [] => .fail x.1

/-- The four steps of R306 over the free tiles, in ascending order. -/
def placeJob (fs : List FormeEnt) (free : List Nat) : Placed :=
  let fs := (List.range fs.length).zip fs
  match placeEach placeTile (fs.filter (fun x => x.2.pk = 3)) { free := free } with
  | .fail i => .fail i
  | .ok p => match placeGroups false (groupsOf 1 fs) p with
    | .fail i => .fail i
    | .ok p => match placeGroups true (groupsOf 2 fs) p with
      | .fail i => .fail i
      | .ok p => placeEach placeAny (fs.filter (fun x => x.2.pk = 0)) p

/-! ## Judgement and admission (R305, R308, R412) -/

/-- PBUDGET in nJ (R308). -/
def Mach.budget (m : Mach) : Nat := (m.hub.plimit - 200) * 10 ^ 6

/-- Tiles that are not quarantined (R412). -/
def Mach.sound (m : Mach) : List Nat := (List.range 512).filter (fun n => !(m.tile n).quar)

/-- First entry of a group with more members than its unit has tiles. -/
def groupTooBig (fs : List FormeEnt) : Option Nat :=
  let xs := (List.range fs.length).zip fs
  (xs.find? (fun x =>
    let before := (xs.filter (fun y => y.1 ≤ x.1 && y.2.pk = x.2.pk && y.2.pgrp = x.2.pgrp)).length
    (x.2.pk = 1 && 16 < before) || (x.2.pk = 2 && 128 < before))).map (·.1)

/-- R305: whether the job could fit on an idle device. Its cases are tested in the order energy, groups too big for their unit,
placement, and the first that fails names its first entry (DESIGN CHOICE, log 97). -/
def Mach.couldFit (m : Mach) (j : Job) : Chk Unit :=
  let entry := fun (i : Nat) => (.bad { addr := j.ftab.toNat + 16 * i, idx := i, off := 8 } : Chk Unit)
  if m.budget < j.energy then .bad { addr := j.imp.toNat, off := 0x10 }
  else match groupTooBig j.formes with
    | some i => entry i
    | none => match placeJob j.formes m.sound with
      | .fail i => entry i
      | .ok _ => .ok ()

/-- A job that counts as running for admission (R52, R308). -/
def Job.counts (j : Job) : Bool := j.st = .placed || j.st = .running || j.st = .stopping

/-- R308, `but` jobs leaving. -/
def Mach.admits (m : Mach) (j : Job) (but : List Nat) : Bool :=
  j.energy + ((m.hub.jobs.filter (fun k => k.counts && !but.contains k.id && k.id ≠ j.id)).map (·.energy)).sum ≤ m.budget

/-- Tiles reserved for placed jobs whose first forme there is not loaded (R52). -/
def Job.reserves (j : Job) : List Nat := (j.formes.filter (fun f => f.st = .reserved)).map (·.tile)

/-- Whether a tile is free for a job when the jobs `but` have left (R306). -/
def Mach.tileFree (m : Mach) (j : Job) (but : List Nat) (n : Nat) : Bool :=
  let gone := fun (c : Ctx) => !c.loaded || but.contains c.job
  gone (m.ctx n false) && gone (m.ctx n true) && !(m.tile n).quar && m.hub.canaryCl ≠ some (clusterOf n)
    && m.hub.jobs.all (fun k => but.contains k.id || k.id = j.id || !(k.reserves.contains n))
    && !(j.gang ≠ 0 && m.hub.marked.contains (m.tileParty n))

def Mach.freeTiles (m : Mach) (j : Job) (but : List Nat) : List Nat := (List.range 512).filter (m.tileFree j but)

/-- Tiles of a stopped job: those of its stopped tasks, and of the formes that follow on them. -/
def Job.stoppedTiles (j : Job) : List Nat :=
  (j.formes.filter (fun f => f.st = .stopped || f.st = .unplaced)).map (·.tile)

/-- Whether a job fits when the jobs `but` have left (R304, R322). -/
def Mach.fits (m : Mach) (j : Job) (but : List Nat) : Bool :=
  m.admits j but && (if j.st = .stopped then
      -- a stopped gang task's own mark does not hold its tile back
      j.stoppedTiles.all (fun n => m.tileFree { j with gang := 0 } but n)
    else match placeJob j.formes (m.freeTiles j but) with
      | .ok _ => true
      | .fail _ => false)

/-! ## Ranking (R304, R307) -/

/-- Aging limit of a priority, in ns; none where disabled. -/
def Mach.ageLimit (m : Mach) (prio : Nat) : Option Nat :=
  let l := bits64 (m.reg 0x18) (16 * prio) 16
  if prio < 3 ∧ l ≠ 0 then some (l * 100000) else none

/-- Effective priority. -/
def Job.rank (j : Job) : Nat := min 3 (j.prio + j.aged.toNat)

/-- Jobs that wait for tiles: new ones, and stopped ones but those of gangs, which their slices resume (R325). -/
def Job.waits (j : Job) : Bool := j.st = .waiting || (j.st = .stopped && j.gang = 0)

/-- The better of two jobs in the ranking. -/
def better (a b : Job) : Job := if a.rank < b.rank || (a.rank = b.rank && b.arrival < a.arrival) then b else a

/-- The head of the ranking. -/
def Mach.head? (m : Mach) : Option Job :=
  match m.hub.jobs.filter Job.waits with
  | [] => none
  | j :: js => some (js.foldl better j)

end Sys2Proof.Machine
end

