-- ==== Sys2Proof/Machine/VecOps.lean ====
section
/-!
DEFINITION. What each body operation of the vector engine computes (R205 to R230).
-/

namespace Sys2Proof

/-! ## Types of elements (R206) -/

/-- Elements of a lane, and their width. -/
def VTy.m : VTy → Nat
  | .f32 | .i32 | .ui32 | .special => 1
  | .bf16 | .f16 | .i16 => 2
  | .i8 => 4
def VTy.w (t : VTy) : Nat := 32 / t.m

/-- The format of a type; ui32 and special have none of their own. -/
def VTy.fmt : VTy → Fmt
  | .f32 => .f32 | .bf16 => .bf16 | .f16 => .f16 | .i16 => .i16 | .i8 => .i8
  | .i32 | .ui32 | .special => .i32

/-- An integer element's value, and the range of its type (R206). -/
def VTy.int (t : VTy) (x : Nat) : Int := if t = .ui32 then (x % 2 ^ 32 : Nat) else sextNat t.w x
def VTy.lo (t : VTy) : Int := if t = .ui32 then 0 else -(2 ^ (t.w - 1) : Nat)
def VTy.hi (t : VTy) : Int := if t = .ui32 then 2 ^ 32 - 1 else (2 ^ (t.w - 1) : Nat) - 1

/-- An element's value. -/
def VTy.num (t : VTy) (x : Nat) : Num := if t.isFloat then t.fmt.value x else .ofInt (t.int x)

/-- The canonical NaN of a float type (R33). -/
def VTy.nan (t : VTy) : Nat := t.fmt.spec.nanPat

/-- Element s of a lane. -/
def VTy.elem (t : VTy) (x : Word32) (s : Nat) : Nat := x.toNat / 2 ^ (t.w * s) % 2 ^ t.w

/-- A lane from its elements of `w` bits, element 0 lowest. -/
def packElems (w : Nat) : List Nat → Nat
  | [] => 0
  | x :: xs => x % 2 ^ w + 2 ^ w * packElems w xs

/-- An integer result by the overflow code (R208). -/
def VTy.over (t : VTy) (sat : Bool) (x : Int) : Nat := wrapNat t.w (if sat then clamp t.lo t.hi x else x)

/-- Order of two elements of a type, -0 below +0 (R210). -/
def VTy.less (t : VTy) (a b : Nat) : Bool :=
  if t.isFloat then
    let x := t.fmt.value a
    let y := t.fmt.value b
    x.lt y || (x.isZero && y.isZero && x.sign && !y.sign)
  else t.int a < t.int b

/-- The lesser or greater of two elements (R210, R211). -/
def VTy.minMax (t : VTy) (max : Bool) (a b : Nat) : Nat :=
  if t.isFloat && ((t.fmt.value a).isNan || (t.fmt.value b).isNan) then t.nan
  else if max then (if t.less a b then b else a) else (if t.less b a then b else a)

/-- Whether element b ranks above element a (R220). -/
def VTy.above (t : VTy) (a b : Nat) : Bool :=
  let x := t.num a
  let y := t.num b
  !y.isNan && (x.isNan || x.lt y)

end Sys2Proof

namespace Sys2Proof.Machine

open Sys2Proof

/-! ## Registers -/

def VReg.lane (r : VReg) (l : Nat) : Word32 := at' 0 r.v l
def VReg.pois (r : VReg) (l : Nat) : Bool := r.p.getLsbD l

/-- A number from its bits. -/
def bitsNat (f : Nat → Bool) : Nat → Nat
  | 0 => 0
  | n + 1 => bitsNat f n + (if f n then 2 ^ n else 0)
def bits64Of (f : Nat → Bool) : BitVec 64 := BitVec.ofNat 64 (bitsNat f 64)

/-- A register whose lanes are all one value (k registers, broadcast scalars). -/
def VReg.splat (x : Word32) : VReg := { v := List.replicate 64 x }

/-- What an operation gives: its destination's value, its poison and its flags. -/
inductive VVal where
  | vec (r : VReg)
  | pred (r : PReg)
  | xreg (r : XReg)
  | none
deriving DecidableEq, Repr, Inhabited

/-- What an operation reads beside its operands: the block's mode and seed, its index in the body, the counters. -/
structure VEnv where
  rm : RMode := .rne
  seed : Word32 := 0
  op : Nat := 0
  c : List Nat := []

/-- Lanes computed one by one, with the flags of all of them. -/
def mapLanes (f : Nat → Word32 × BitVec 5) (pois : Nat → Bool) : VVal × BitVec 5 :=
  let rs := (List.range 64).map f
  (.vec { v := rs.map (·.1), p := bits64Of pois }, rs.foldl (fun fl x => fl ||| x.2) 0)

/-- The rounding mode of a modifier: 6 takes the header's (R208). -/
def VEnv.mode (e : VEnv) (m : Nat) : RMode := (RMode.ofCode m).getD e.rm

/-- The draw of element position j (R42). -/
def VEnv.draw (e : VEnv) (j : Nat) : Nat := srDraw e.seed j e.op e.c

/-! ## Arithmetic (R209 to R211) -/

/-- A sum of terms rounded once; `bad` says that a product was 0 times infinity (R210). -/
def fsum (f : Fmt) (mode : RMode) (r : Nat) (ops terms : List Num) (bad : Bool) : Nat × BitVec 5 :=
  if ops.any Num.isNan then (f.spec.nanPat, 0)
  else if bad then (f.spec.nanPat, flNV)
  else
    let (x, clash) := sumNum mode terms
    if clash then (f.spec.nanPat, sumFlags true) else roundF f.spec mode x r

/-- Float arithmetic. -/
def floatOp (o : VOp) (f : Fmt) (mode : RMode) (r a b d : Nat) : Nat × BitVec 5 :=
  let x := f.value a
  let y := f.value b
  let z := f.value d
  let bad := fun (u v : Num) => mulFlags u v ≠ 0
  match o with
  | .vadd => fsum f mode r [x, y] [x, y] false
  | .vsub => fsum f mode r [x, y] [x, y.neg] false
  | .vmul => fsum f mode r [x, y] [x.mul y] (bad x y)
  | .vfma => fsum f mode r [x, y, z] [x.mul y, z] (bad x y)
  | .vfms => fsum f mode r [x, y, z] [x.mul y, z.neg] (bad x y)
  | .vfnma => fsum f mode r [x, y, z] [z, (x.mul y).neg] (bad x y)
  | _ => fsum f mode r [x, y, z] [x.mul z, y] (bad x z)

/-- Integer arithmetic, exact. -/
def intOp (o : VOp) (x y z : Int) : Int :=
  match o with
  | .vadd => x + y
  | .vsub => x - y
  | .vmul => x * y
  | _ => x * z + y

/-- Operations on the sign alone (R210). -/
def signOp (o : VOp) (t : VTy) (a b : Nat) : Nat :=
  let s := 2 ^ (t.w - 1)
  if (t.fmt.value a).isNan then t.nan
  else match o with
    | .vabs => a % s
    | .vneg => if a / s % 2 = 1 then a - s else a + s
    | _ => a % s + b / s % 2 * s

/-- vclass (R213). -/
def classOf (f : Fmt) (a : Nat) : Nat :=
  match f.value a with
  | .nan => 1
  | .inf s => if s then 2 else 256
  | .fin s m e =>
    if m = 0 then (if s then 16 else 32)
    else if topExp m e < 1 - f.spec.bias then (if s then 8 else 64)
    else if s then 4 else 128

/-- Number of 1 bits and of leading 0 bits. -/
def popCount (w a : Nat) : Nat := ((List.range w).filter (fun i => a.testBit i)).length
def leadZeros (w a : Nat) : Nat := if a % 2 ^ w = 0 then w else w - 1 - flog2 (a % 2 ^ w)

/-- Logic and shifts (R214). -/
def bitOp (o : VOp) (w a b : Nat) : Nat :=
  let n := b % w
  match o with
  | .vand => a &&& b
  | .vor => a ||| b
  | .vxor => a ^^^ b
  | .vandn => a &&& (2 ^ w - 1 - b)
  | .vnot => 2 ^ w - 1 - a
  | .vshl => a * 2 ^ n % 2 ^ w
  | .vshr => a / 2 ^ n
  | .vsra => wrapNat w (sextNat w a / (2 ^ n : Nat))
  | .vrot => (a * 2 ^ n + a / 2 ^ (w - n)) % 2 ^ w
  | .vpopc => popCount w a
  | _ => leadZeros w a

/-! ## Conversions (R221 to R226) -/

/-- vcvt of one element from type S (R221). -/
def cvtOp (t s : VTy) (mode : RMode) (a r : Nat) : Nat × BitVec 5 :=
  if t.isFloat then roundF t.fmt.spec mode (s.num a) r
  else
    let (v, fl) := intOf t.lo t.hi mode (s.num a) r
    (wrapNat t.w v, if s.isFloat then fl else 0)

/-- A lane of vpack (R222). -/
def packLane (e : VEnv) (w : VWord) (l : Nat) (a b : Word32) : Word32 × BitVec 5 :=
  let out := fun (k : Nat) (xs : List Nat) => BitVec.ofNat 32 (packElems k xs)
  let sat := fun (lo hi : Int) (x : Int) => wrapNat 16 (clamp lo hi x)
  match w.ty with
  | .bf16 | .f16 =>
    let x := roundF w.ty.fmt.spec (e.mode w.m) (Fmt.f32.value a.toNat) (e.draw (l * 4))
    let y := roundF w.ty.fmt.spec (e.mode w.m) (Fmt.f32.value b.toNat) (e.draw (l * 4 + 1))
    (out 16 [x.1, y.1], x.2 ||| y.2)
  | .i16 =>
    let f := if w.m = 1 then sat 0 65535 else sat (-32768) 32767
    (out 16 [f a.toInt, f b.toInt], 0)
  | _ =>
    let f := if w.m = 1 then sat 0 255 else sat (-128) 127
    let el := fun (x : Word32) (s : Nat) => f (sextNat 16 (VTy.i16.elem x s))
    (out 8 [el a 0, el a 1, el b 0, el b 1], 0)

/-- A lane of vunpk (R223). -/
def unpkLane (w : VWord) (a : Word32) : Word32 :=
  let h := w.m % 2
  let k := w.m / 2 % 2
  let bit := fun (n i : Nat) => a.toNat / 2 ^ (n * i) % 2 ^ n
  let widen := fun (f : Fmt) (x : Nat) => (convNum w.ty.fmt .rne (f.value x) 0).1
  BitVec.ofNat 32 (match w.ty with
    | .f32 => widen (if k = 0 then .bf16 else .f16) (bit 16 h)
    | .bf16 | .f16 =>
      let f : Fmt := if k = 0 then .e4m3 else .e5m2
      packElems 16 [widen f (bit 8 (2 * h)), widen f (bit 8 (2 * h + 1))]
    | .i16 =>
      let g := fun (x : Nat) => if k = 0 then wrapNat 16 (sextNat 8 x) else x
      packElems 16 [g (bit 8 (2 * h)), g (bit 8 (2 * h + 1))]
    | .i8 =>
      let g := fun (x : Nat) => if k = 0 then wrapNat 8 (sextNat 4 x) else x
      packElems 8 [g (bit 4 (4 * h)), g (bit 4 (4 * h + 1)), g (bit 4 (4 * h + 2)), g (bit 4 (4 * h + 3))]
    | _ => if k = 0 then wrapNat 32 (sextNat 16 (bit 16 h)) else bit 16 h)

/-- Term k of the decomposition of R45, as a BF16 pattern. -/
def splitTerm (x : Num) (k : Nat) : Nat :=
  let f := Fmt.bf16.spec
  match x with
  | .nan => if k = 0 then f.nanPat else 0
  | .inf _ => if k = 0 then (roundF f .rtz x 0).1 else 0
  | .fin s m _ =>
    if m = 0 then (roundF f .rtz (.fin s 0 0) 0).1
    else
      let t0 := (roundF f .rtz x 0).1
      let d1 := (sumNum .rtz [x, (Fmt.bf16.value t0).neg]).1
      let t1 := (roundF f .rtz d1 0).1
      let d2 := (sumNum .rtz [x, (Fmt.bf16.value t0).neg, (Fmt.bf16.value t1).neg]).1
      if k = 0 then t0 else if k = 1 then t1 else (roundF f .rtz d2 0).1

/-- A lane of vsplit3 (R224): a BF16 pattern above sixteen zeros is the same value as f32. -/
def splitLane (w : VWord) (a b : Word32) : Word32 :=
  let t := fun (x : Word32) => splitTerm (Fmt.f32.value x.toNat) w.m
  BitVec.ofNat 32 (if w.ty = .f32 then t a * 65536 else packElems 16 [t a, t b])

/-- One element of vscale (R225). -/
def scaleOp (t : VTy) (mode : RMode) (a scale r : Nat) : Nat × BitVec 5 :=
  if scale = 255 then (t.nan, flNV)
  else if (t.num a).isNan then (t.nan, 0)
  else roundF t.fmt.spec mode (Num.mul (t.num a) (scaleNum scale)) r

/-- emax of vmxq's formats (R226). -/
def mxEmax : Fmt → Int
  | .e5m2 => 15 | .e4m3 => 8 | .e3m2 => 4 | _ => 2

/-- floor(log2) of the greatest magnitude of a block, none when all are zero. -/
def blockTop : List Num → Option Int
  | [] => none
  | .fin _ m e :: t =>
    if m = 0 then blockTop t
    else match blockTop t with
      | none => some (topExp m e)
      | some k => some (max k (topExp m e))
  | _ :: t => blockTop t

/-- One quantised value: the f32 pattern of q(v) and its flags (R226). -/
def mxElem (f : Fmt) (mode : RMode) (x : Int) (v : Num) (r : Nat) : Nat × BitVec 5 :=
  let (q, fl) := roundF f.spec mode (Num.mul v (.fin false 1 (-x))) r
  let mag := 2 ^ (f.spec.ew + f.spec.fw)
  let q := if f.spec.maxMag < q % mag then q / mag * mag + f.spec.maxMag else q
  ((convNum .f32 .rne (f.value q) 0).1, fl &&& ~~~flOF)

/-- vmxq (R226). -/
def mxLanes (e : VEnv) (w : VWord) (a : VReg) : Nat → Word32 × BitVec 5 :=
  let f := Fmt.ofCode w.m
  fun l =>
    let vs := (List.range 32).map (fun i => Fmt.f32.value (a.lane (l / 32 * 32 + i)).toNat)
    if vs.any (fun v => v.isNan || v.isInf) then
      (if w.ty = .f32 then (BitVec.ofNat 32 Fmt.f32.spec.nanPat, flNV) else (255, flNV))
    else
      let x := match blockTop vs with
        | none => -127
        | some t => max (-127) (t - mxEmax f)
      let q := mxElem f e.rm x (Fmt.f32.value (a.lane l).toNat) (e.draw (l * 4))
      if w.ty = .f32 then (BitVec.ofNat 32 q.1, q.2) else (BitVec.ofInt 32 (x + 127), q.2)

/-! ## Special functions (R227) -/

/-- A special function of an f32 pattern. -/
def specialOp (o : VOp) (a : Nat) : Nat × BitVec 5 :=
  let f := Fmt.f32.spec
  let out := fun (x : Num) => roundF f .rne x 0
  let nan := (f.nanPat, flNV)
  match Fmt.f32.value a with
  | .nan => (f.nanPat, 0)
  | .inf s =>
    match o with
    | .vexp2 => if s then (0, 0) else out (.inf false)
    | .vlog2 => if s then nan else out (.inf false)
    | .vrcp => out (.fin s 0 0)
    | .vrsqrt => if s then nan else (0, 0)
    | .vsqrt => if s then nan else out (.inf false)
    | .vtanh => out (.fin s 1 0)
    | _ => nan
  | .fin s m e =>
    if m = 0 then
      match o with
      | .vexp2 | .vcospi => out (.fin false 1 0)
      | .vlog2 => ((out (.inf true)).1, flDZ)
      | .vrcp | .vrsqrt => ((out (.inf s)).1, flDZ)
      | _ => (a, 0)
    else match o with
      | .vexp2 => out (exp2Num s m e)
      | .vlog2 => if s then nan else out (log2Num m e)
      | .vrcp => out (rcpNum s m e)
      | .vrsqrt => if s then nan else out (rsqrtNum m e)
      | .vsqrt => if s then nan else out (sqrtNum m e)
      | .vsinpi => out (sinPiNum s m e)
      | .vcospi => out (cosPiNum m e)
      | _ => out (tanhNum s m e)

/-! ## Element by element -/

/-- The result of one element: `j` is its position (R206). -/
def elemOp (e : VEnv) (w : VWord) (j a b d : Nat) : Nat × BitVec 5 :=
  let t := w.ty
  let k := t.w
  match w.op with
  | .vadd | .vsub | .vmul | .vfma | .vfms | .vfnma | .vmad =>
    if t.isFloat then floatOp w.op t.fmt (e.mode w.m) (e.draw j) a b d
    else (t.over (w.m = 1) (intOp w.op (t.int a) (t.int b) (t.int d)), 0)
  | .vmin => (t.minMax false a b, 0)
  | .vmax => (t.minMax true a b, 0)
  | .vabs =>
    if t.isFloat then (signOp .vabs t a b, 0)
    else (t.over (w.m = 1) (if t.int a < 0 then -(t.int a) else t.int a), 0)
  | .vneg => if t.isFloat then (signOp .vneg t a b, 0) else (t.over (w.m = 1) (-(t.int a)), 0)
  | .vcpsgn => (signOp .vcpsgn t a b, 0)
  | .vmulh => (wrapNat k (t.int a * t.int b / (2 ^ k : Nat)), 0)
  | .vclass => (classOf t.fmt a, 0)
  | .vand | .vor | .vxor | .vandn | .vnot | .vshl | .vshr | .vsra | .vrot | .vpopc | .vclz => (bitOp w.op k a b, 0)
  | .vcvt => cvtOp t (VTy.ofCode (w.b % 8)) (e.mode w.m) a (e.draw j)
  | .vexp2 | .vlog2 | .vrcp | .vrsqrt | .vsqrt | .vsinpi | .vcospi | .vtanh => specialOp w.op a
  | _ => (a, 0)

/-- Every element of a lane. -/
def laneOp (e : VEnv) (w : VWord) (l : Nat) (a b d : Word32) : Word32 × BitVec 5 :=
  let t := w.ty
  let rs := (List.range t.m).map (fun s => elemOp e w (l * 4 + s) (t.elem a s) (t.elem b s) (t.elem d s))
  (BitVec.ofNat 32 (packElems t.w (rs.map (·.1))), rs.foldl (fun fl x => fl ||| x.2) 0)

/-- A lane of vscale: a scale of eight bits for each element (R225). -/
def scaleLane (e : VEnv) (w : VWord) (l : Nat) (a b : Word32) : Word32 × BitVec 5 :=
  let t := w.ty
  let rs := (List.range t.m).map (fun s =>
    scaleOp t (e.mode w.m) (t.elem a s) (b.toNat / 2 ^ (8 * s) % 256) (e.draw (l * 4 + s)))
  (BitVec.ofNat 32 (packElems t.w (rs.map (·.1))), rs.foldl (fun fl x => fl ||| x.2) 0)

/-! ## Compare (R212) -/

/-- A condition on one pair of elements, and NV. -/
def cmpElem (t : VTy) (m a b : Nat) : Bool × BitVec 5 :=
  let x := t.num a
  let y := t.num b
  let un := x.isNan || y.isNan
  let lt := x.lt y
  let gt := y.lt x
  let nv := if un && 2 ≤ m && m < 6 then flNV else 0
  (match m with
    | 0 => !un && !lt && !gt
    | 1 => un || lt || gt
    | 2 => lt
    | 3 => !un && !gt
    | 4 => gt
    | 5 => !un && !lt
    | 6 => !un
    | _ => un, nv)

/-- Bit l of vcmp's predicate. -/
def cmpLane (w : VWord) (a b : Word32) : Bool × BitVec 5 :=
  let rs := (List.range w.ty.m).map (fun s => cmpElem w.ty (w.m % 8) (w.ty.elem a s) (w.ty.elem b s))
  (if w.m < 8 then rs.all (·.1) else rs.any (·.1), rs.foldl (fun fl x => fl ||| x.2) 0)

/-! ## Across lanes (R218 to R220) -/

/-- Elements of a vector in element order (R206). -/
def VReg.elems (r : VReg) (t : VTy) : List Nat :=
  (List.range 64).flatMap (fun l => (List.range t.m).map (fun s => t.elem (r.lane l) s))

/-- The sum of elements, rounded at position j (R219); a NaN among them goes before infinities of opposite sign (DESIGN CHOICE,
log 93). -/
def sumElems (e : VEnv) (w : VWord) (xs : List Nat) : Nat → Nat × BitVec 5 :=
  let t := w.ty
  if t.isFloat then
    let ns := xs.map t.num
    if ns.any Num.isNan then fun _ => (t.nan, 0)
    else
      let (x, clash) := sumNum (e.mode w.m) ns
      if clash then fun _ => (t.nan, sumFlags true) else fun j => roundF t.fmt.spec (e.mode w.m) x (e.draw j)
  else
    let v := t.over (w.m = 1) ((xs.map t.int).foldl (· + ·) 0)
    fun _ => (v, 0)

/-- A lane whose elements are given by position. -/
def lanesFrom (t : VTy) (f : Nat → Nat → Nat × BitVec 5) (l : Nat) : Word32 × BitVec 5 :=
  let rs := (List.range t.m).map (fun s => f l s)
  (BitVec.ofNat 32 (packElems t.w (rs.map (·.1))), rs.foldl (fun fl x => fl ||| x.2) 0)

/-- The maximum or minimum of a list of elements. -/
def foldMax (t : VTy) (max : Bool) : List Nat → Nat
  | [] => 0
  | x :: xs => xs.foldl (t.minMax max) x

/-- The position of the largest element (R220). -/
def argMax (t : VTy) : Nat → Nat → Nat → List Nat → Nat
  | best, _, _, [] => best
  | best, v, i, x :: xs => if t.above v x then argMax t i x (i + 1) xs else argMax t best v (i + 1) xs

/-! ## The operations -/

/-- Poison of a lane-wise operation: any source lane that it reads (R374). -/
def lanePois (w : VWord) (a b d : VReg) (l : Nat) : Bool :=
  let r := w.op.row
  (r.a == .vec && a.pois l) || (r.b == .vec && b.pois l) || (r.dsrc && d.pois l)

/-- What a body operation computes from operands read at issue: vectors A, B and D, predicates A and B (vsel's in A),
and x register A. -/
def vecOp (e : VEnv) (w : VWord) (a b d : VReg) (pa pb : PReg) (x : XReg) : VVal × BitVec 5 :=
  let any := fun (r : VReg) => r.p ≠ 0
  let all := fun (q : Bool) (_ : Nat) => q
  let lanes := fun (f : Nat → Word32 × BitVec 5) => mapLanes f (lanePois w a b d)
  match w.op with
  | .vnop => (.none, 0)
  | .vsel =>
    mapLanes (fun l => (if pa.v.getLsbD l then a.lane l else b.lane l, 0))
      (fun l => pa.p.getLsbD l || (if pa.v.getLsbD l then a.pois l else b.pois l))
  | .vmov => mapLanes (fun l => (a.lane l, 0)) a.pois
  | .vmovi =>
    let i := w.imm16
    let v : Word32 := match w.ty with
      | .f32 => i.setWidth 32 <<< 16
      | .bf16 | .f16 | .i16 => i ++ i
      | .i32 => i.signExtend 32
      | .ui32 => i.setWidth 32
      | .i8 | .special => (i.setWidth 8 ++ i.setWidth 8 : BitVec 16) ++ (i.setWidth 8 ++ i.setWidth 8 : BitVec 16)
    mapLanes (fun _ => (v, 0)) (all false)
  | .vlui => mapLanes (fun l => (w.imm16 ++ (d.lane l).setWidth 16, 0)) d.pois
  | .vidx =>
    mapLanes (fun l => (BitVec.ofNat 32 (if w.m = 0 then l else e.c.getD (w.m - 1) 0), 0)) (all false)
  | .vbcast =>
    let n := (b.lane 0).toNat % 64
    mapLanes (fun _ => (a.lane n, 0)) (all (b.pois 0 || a.pois n))
  | .vperm =>
    let n := fun (l : Nat) => (b.lane l).toNat % 64
    mapLanes (fun l => (a.lane (n l), 0)) (fun l => b.pois l || a.pois (n l))
  | .vrotl =>
    let n := (b.lane 0).toNat % 64
    mapLanes (fun l => (a.lane ((l + n) % 64), 0)) (fun l => b.pois 0 || a.pois ((l + n) % 64))
  | .vredsum =>
    let s := sumElems e w (a.elems w.ty)
    mapLanes (lanesFrom w.ty (fun l k => s (l * 4 + k))) (all (any a))
  | .vredmax | .vredmin =>
    let v := foldMax w.ty (w.op == .vredmax) (a.elems w.ty)
    mapLanes (lanesFrom w.ty (fun _ _ => (v, 0))) (all (any a))
  | .vscan =>
    let xs := a.elems w.ty
    mapLanes (lanesFrom w.ty (fun l k => sumElems e w (xs.take (l * w.ty.m + k + 1)) (l * 4 + k)))
      (fun l => (List.range (l + 1)).any a.pois)
  | .vargmax =>
    let xs := a.elems w.ty
    let i := argMax w.ty 0 (xs.headD 0) 1 (xs.drop 1)
    mapLanes (fun _ => (BitVec.ofNat 32 i, 0)) (all (any a))
  | .vcmp =>
    let rs := (List.range 64).map (fun l => cmpLane w (a.lane l) (b.lane l))
    (.pred { v := bits64Of (fun l => (rs.getD l (false, 0)).1), p := bits64Of (fun l => a.pois l || b.pois l) },
      rs.foldl (fun fl r => fl ||| r.2) 0)
  | .vpack => lanes (fun l => packLane e w l (a.lane l) (b.lane l))
  | .vunpk => lanes (fun l => (unpkLane w (a.lane l), 0))
  | .vsplit3 =>
    mapLanes (fun l => (splitLane w (a.lane l) (b.lane l), 0))
      (fun l => a.pois l || (w.ty != .f32 && b.pois l))
  | .vscale => lanes (fun l => scaleLane e w l (a.lane l) (b.lane l))
  | .vmxq => mapLanes (mxLanes e w a) (fun l => (List.range 32).any (fun i => a.pois (l / 32 * 32 + i)))
  | .vtox =>
    (.xreg ⟨if w.ty = .i32 then (a.lane 0).signExtend 64 else (a.lane 0).setWidth 64, a.pois 0⟩, 0)
  | .xtov =>
    let v : Word32 := if w.m = 1 then (x.v >>> 32).setWidth 32 else x.v.setWidth 32
    mapLanes (fun _ => (v, 0)) (all x.p)
  | .pand => (.pred ⟨pa.v &&& pb.v, pa.p ||| pb.p⟩, 0)
  | .por => (.pred ⟨pa.v ||| pb.v, pa.p ||| pb.p⟩, 0)
  | .pxor => (.pred ⟨pa.v ^^^ pb.v, pa.p ||| pb.p⟩, 0)
  | .pnot => (.pred ⟨~~~pa.v, pa.p⟩, 0)
  | .pmov => (.pred pa, 0)
  | .pset => (.pred { v := bits64Of (fun l => a.lane l ≠ 0), p := a.p }, 0)
  | .pcnt => mapLanes (fun _ => (BitVec.ofNat 32 (popCount 64 pa.v.toNat), 0)) (all (pa.p ≠ 0))
  | .vadd | .vsub | .vmul | .vfma | .vfms | .vfnma | .vmad | .vmin | .vmax | .vabs | .vneg | .vcpsgn | .vmulh | .vclass
  | .vand | .vor | .vxor | .vandn | .vnot | .vshl | .vshr | .vsra | .vrot | .vpopc | .vclz | .vcvt
  | .vexp2 | .vlog2 | .vrcp | .vrsqrt | .vsqrt | .vsinpi | .vcospi | .vtanh =>
    lanes (fun l => laneOp e w l (a.lane l) (b.lane l) (d.lane l))

/-- Poisoned lanes and bits hold open patterns (R373); `n` is the first free value taken. -/
def VVal.open (n : Nat) : VVal → VVal
  | .vec r =>
    if r.p = 0 then .vec r
    else .vec { r with v := (List.range 64).map (fun l =>
      if r.pois l then (Config.freeBits (n + l)).setWidth 32 else r.lane l) }
  | .pred r => .pred { r with v := (r.v &&& ~~~r.p) ||| (Config.freeBits n &&& r.p) }
  | .xreg r => .xreg (if r.p then ⟨Config.freeBits n, true⟩ else r)
  | .none => .none

end Sys2Proof.Machine
end

