-- ==== Sys2Proof/Machine/Vector.lean ====
section
/-!
DEFINITION. The vector engine: ports, bundles, landing, rotation, VLOOP and VRST (R195 to R204).
-/

namespace Sys2Proof

/-- Elements that one lane of a port holds (R197). -/
def Win.perLane (w : Win) : Nat := if w.space = .ta then 1 else 32 / w.fmt.width

/-- The window of an operand code that names a port; none for a port that is absent. -/
def portWin (ports : BitVec 7) (wins : List Win) (code : Nat) : Option Win :=
  match portBit code with
  | none => none
  | some i =>
    if ports.getLsbD i then wins[((List.range i).filter (fun k => ports.getLsbD k)).length]? else none

/-- The window index of an operand code that names a port. -/
def portIdx (ports : BitVec 7) (code : Nat) : Nat :=
  match portBit code with
  | none => 0
  | some i => ((List.range i).filter (fun k => ports.getLsbD k)).length

/-- Operand codes that an operation reads as vectors. -/
def VWord.reads (w : VWord) : List Nat :=
  let r := w.op.row
  (if r.a = .vec then [w.a] else []) ++ (if r.b = .vec then [w.b] else []) ++ (if r.dsrc then [w.d] else [])

/-- Whether an operation writes a vector operand code. -/
def VWord.writes (w : VWord) (code : Nat) : Bool := w.op.row.d = .vec && w.d = code

/-- P of R197: the bundles that name a port (DEDUCED for acc, log 33). -/
def portRuns (bs : List (Nat × List VWord)) (code : Nat) : Nat :=
  (bs.filter (fun b => b.2.any (fun w => w.reads.contains code || w.writes code))).length

/-- Operand codes of the ports in window order. -/
def portCodes (ports : BitVec 7) : List Nat :=
  ([48, 49, 50, 51, 53, 54, 52].zip (List.range 7)).filterMap (fun x => if ports.getLsbD x.2 then some x.1 else none)

end Sys2Proof

namespace Sys2Proof.Machine

open Sys2Proof

/-! ## Checks at issue (R197) -/

/-- A port's run starts on 4 bytes (R197). -/
def Mach.portAlign (m : Mach) (i : Instr) (k : Nat) (w : Win) (writes : Bool) (counts : List Nat) : Option Trap :=
  if w.space = .ta then none
  else
    let base := m.baseAddr i k w writes 0
    let bad := fun (a : Int) => (some { cause := .align, addr := BitVec.ofInt 64 a, detail := alignDetail k 2 } : Option Trap)
    if base % 4 ≠ 0 then bad (base : Nat)
    else match (w.stride.zip counts).find? (fun x =>
        1 < x.2 && x.1 * ((w.fmt.width : Nat) : Int) % 32 ≠ 0) with
      | some x => bad ((base : Int) + x.1 * ((w.fmt.width : Nat) : Int) / 8)
      | none => none

/-- A port's extent (R95, R197): every idx, and the last element of the last run where a bundle names the port. -/
def portExtent (k : Nat) (w : Win) (counts : List Nat) (runs : Nat) : Option Trap :=
  shapeTrap k 1 (extentBad w counts (max 1 (64 * w.perLane * runs)))

/-- Steps 3, 9 and 10 of R379 for vloop. -/
def vloopCheck (i : Instr) (h : Hdr) (ports : BitVec 7) (wins : List Win) (body : List VWord) (m : Mach) : Option Trap :=
  let bs := bundles 0 [] body
  let ws := (List.range wins.length).zip (wins.zip (portCodes ports))
  match m.boundTraps i with
  | some t => some t
  | none =>
    match firstTrap (ws.map (fun x => m.portAlign i x.1 x.2.1 (53 ≤ x.2.2) h.counts)) with
    | some t => some t
    | none => firstTrap (ws.map (fun x => portExtent x.1 x.2.1 h.counts (portRuns bs x.2.2)))

/-! ## Names (R196) -/

def VecEng.physV (v : VecEng) (i : Nat) : Nat := if i < 16 then i else 16 + (i - 16 + v.vrb) % 32
def VecEng.physP (v : VecEng) (j : Nat) : Nat := if j < 8 then j else 8 + (j - 8 + v.prb) % 8

/-! ## Landing (R198, R200) -/

/-- The acting tile's vector engine. -/
def Mach.vec (m : Mach) : VecEng := (m.tile m.cur.tile).vec
def Mach.setVec (m : Mach) (v : VecEng) : Mach := m.setTile m.cur.tile { m.tile m.cur.tile with vec := v }

/-- The bytes of a vector, lane 0 first. -/
def VReg.bytes (r : VReg) : List PByte :=
  (List.range 64).flatMap (fun l => pbytes 4 (r.lane l).toNat (r.pois l))

/-- Lanes written to accumulator entries from entry `e` (R197). -/
def Mach.pushAcc (m : Mach) (f : Fmt) (e : Nat) (r : VReg) : Nat → Mach
  | 0 => m
  | n + 1 =>
    let x := (r.lane n).toNat
    let v := if f.isInt then convert .i32 .i64 .rne x 0 else convert .f32 .f64 .rne x 0
    (m.setAcc m.cur.tile (e + n) ⟨BitVec.ofNat 64 v, f.isInt, r.pois n⟩).pushAcc f e r n

/-- A result lands (R200, R207). -/
def Mach.land (m : Mach) (i : Instr) (b : Active) (f : Flight) : Mach :=
  let m := m.setVec (m.vec.raiseFlags f.flags)
  match f.land with
  | .vec p r => m.setVec { m.vec with v := store VReg.blank m.vec.v p r }
  | .pred p r => m.setVec { m.vec with p := store PReg.blank m.vec.p p r }
  | .xreg x r => m.setX x r
  | .push port start r =>
    match i with
    | .vloop _ ports wins _ _ =>
      match portWin ports wins port with
      | some w => if w.space = .ta then m.pushAcc w.fmt start r 64 else tsWrite m m.cur.tile start r.bytes
      | none => m
    | _ => m
  | .slot c => slotSignals i.bound m { b with c := c }
  | .drop => m

/-- One issued cycle passes: the results due land, in issue order. -/
def Mach.tick (m : Mach) (i : Instr) (b : Active) : Mach :=
  let fs := m.vec.flight.map (fun f => { f with left := f.left - 1 })
  let m := m.setVec { m.vec with flight := fs.filter (fun f => f.left ≠ 0) }
  (fs.filter (fun f => f.left = 0)).foldl (fun m f => m.land i b f) m

/-- Every result in flight lands (R202, R204). -/
def Mach.drain (m : Mach) (i : Instr) (b : Active) : Nat → Mach
  | 0 => m
  | n + 1 => if m.vec.flight.isEmpty then m else (m.tick i b).drain i b n

/-- Slot-level iterations whose signals are still to come. -/
def Mach.slotsAhead (m : Mach) : Nat :=
  (m.vec.flight.filter (fun f => match f.land with
    | .slot _ => true
    | _ => false)).length

/-- A slot-level iteration ends: its signals are performed once its pushes have landed (R202) (DEDUCED, log 33). -/
def Mach.vecSlotEnd (bound : List (Nat × Nat × Bool)) (m : Mach) (b : Active) : Mach :=
  if bound.isEmpty then m
  else
    let due := (m.vec.flight.filter (fun f => match f.land with
      | .push _ _ _ | .slot _ => true
      | _ => false)).foldl (fun n f => max n f.left) 0
    if due = 0 then slotSignals bound m b
    else m.setVec { m.vec with flight := m.vec.flight ++ [{ left := due, land := .slot b.c }] }

/-! ## One bundle (R198, R200, R207) -/

/-- What a vloop's iterations need. -/
structure VBlock where
  i : Instr
  h : Hdr
  ports : BitVec 7
  wins : List Win
  ks : List Word32

/-- Scratchpad offset of the BASE of window `k`, a TS port, in the present slot-level iteration: each one before it whose
signals are still to come uses a slot for every window bound there (R72, R73, R94). -/
def Mach.portBase (m : Mach) (i : Instr) (k : Nat) (w : Win) (writes : Bool) : Nat :=
  match w.bd with
  | none => w.base
  | some b =>
    let d := m.curCtx.buf b
    w.base + d.slotAt (((if writes then d.pc else d.cc) + m.slotsAhead * i.slotUses b writes + i.slotNth k b writes) % d.slots)

/-- Where run `p` of a port begins: a scratchpad offset, or an accumulator entry. -/
def Mach.portStart (m : Mach) (i : Instr) (k : Nat) (w : Win) (writes : Bool) (c : List Nat) (p : Nat) : Nat :=
  let idx := idxAt w.stride c
  if w.space = .ta then ((w.base : Nat) + idx + (64 * p : Nat)).toNat
  else ((m.portBase i k w writes : Nat) + idx * (w.fmt.width : Nat) / 8 + (256 * p : Nat)).toNat

/-- The pop of window `k` by operation `op` of the body (R197): 64 lanes of bytes, or accumulator entries converted by tag, each
lane with the draw of its own position (R42; DEDUCED, log 83). -/
def Mach.pop (m : Mach) (x : VBlock) (k : Nat) (w : Win) (c : List Nat) (p op : Nat) : VReg :=
  let at_ := m.portStart x.i k w false c p
  if w.space = .ta then
    let es := (List.range 64).map (fun l => m.accE m.cur.tile (at_ + l))
    let narrow := fun (e : AccEntry) (r : Nat) =>
      if e.int then convert .i64 .i32 (w.mode x.h) e.v.toNat r else convert .f64 .f32 (w.mode x.h) e.v.toNat r
    { v := es.mapIdx (fun l e => BitVec.ofNat 32 (narrow e (srDraw x.h.seed (4 * l) op c)))
      p := bits64Of (fun l => (es.getD l {}).p) }
  else
    let bs := tsRead m m.cur.tile at_ 256
    { v := (List.range 64).map (fun l => BitVec.ofNat 32 (valOf ((bs.drop (4 * l)).take 4)))
      p := bits64Of (fun l => anyPois ((bs.drop (4 * l)).take 4)) }

/-- Counts of pops and pushes of this iteration, by operand code less 48. -/
structure PortCount where
  pops : List Nat := []
  pushes : List Nat := []

/-- The pops of one bundle whose first operation is the body's `op`-th: each port that some operation reads, once. -/
def Mach.pops (m : Mach) (x : VBlock) (c : List Nat) (n : PortCount) (op : Nat) (ws : List VWord) : List (Nat × VReg) :=
  [48, 49, 50, 51, 52].filterMap (fun code =>
    match ws.findIdx? (fun w => w.reads.contains code) with
    | some j => (portWin x.ports x.wins code).map (fun w =>
        (code, m.pop x (portIdx x.ports code) w c (at' 0 n.pops (code - 48)) (op + j)))
    | none => none)

/-- A vector operand (R207). -/
def Mach.srcVec (m : Mach) (x : VBlock) (pops : List (Nat × VReg)) (code : Nat) : VReg :=
  if code < 48 then look VReg.blank m.vec.v (m.vec.physV code)
  else if 56 ≤ code then .splat (x.ks.getD (code - 56) 0)
  else ((pops.find? (·.1 = code)).map (·.2)).getD {}

def Mach.srcPred (m : Mach) (j : Nat) : PReg := look PReg.blank m.vec.p (m.vec.physP (j % 16))

/-- Where an operation's result will land. -/
def Mach.landing (m : Mach) (x : VBlock) (c : List Nat) (n : PortCount) (w : VWord) (v : VVal) : Land :=
  match v with
  | .none => .drop
  | .pred r => .pred (m.vec.physP (w.d % 16)) r
  | .xreg r => .xreg (w.d % 16) r
  | .vec r =>
    if w.d < 48 then .vec (m.vec.physV w.d) r
    else if 52 ≤ w.d ∧ w.d < 55 then
      match portWin x.ports x.wins w.d with
      | some win => .push w.d (m.portStart x.i (portIdx x.ports w.d) win true c (at' 0 n.pushes (w.d - 48))) r
      | none => .drop
    else .drop

/-- One operation issues: its operands are read now and its result enters the pipeline. -/
def Mach.issueOp (m : Mach) (x : VBlock) (c : List Nat) (n : PortCount) (pops : List (Nat × VReg)) (k : Nat)
    (w : VWord) : Flight :=
  let e : VEnv := { rm := x.h.rm, seed := x.h.seed, op := k, c := c }
  let pa := if w.op = .vsel then m.srcPred w.m else m.srcPred w.a
  let (v, fl) := vecOp e w (m.srcVec x pops w.a) (m.srcVec x pops w.b) (m.srcVec x pops w.d) pa (m.srcPred w.b)
    (m.xr (w.a % 16))
  { left := w.op.latency w.ty, flags := fl, land := m.landing x c n w (v.open (m.free + 64 * k)) }

/-- One bundle issues in one cycle, after the results due in that cycle have landed (R198, R200). -/
def Mach.bundle (i : Instr) (x : VBlock) (b : Active) (r : Mach × PortCount) (bu : Nat × List VWord) : Mach × PortCount :=
  let m := r.1.tick i b
  let n := r.2
  let pops := m.pops x b.c n bu.1 bu.2
  let fs := ((List.range bu.2.length).zip bu.2).map (fun y => m.issueOp x b.c n pops (bu.1 + y.1) y.2)
  let m := m.setVec { m.vec with flight := m.vec.flight ++ fs }
  let lanes := (bu.2.filter (fun w => w.op.isLane)).length
  let m := (m.spend (clusterOf m.cur.tile) 3 (bu.2.length - lanes)).spend (clusterOf m.cur.tile) 4 lanes
  let up := fun (l : List Nat) (hit : Nat → Bool) =>
    (List.range 7).map (fun k => at' 0 l k + (if hit (k + 48) then 1 else 0))
  ({ m with free := m.free + 64 * 64 },
    { pops := up n.pops (fun c => bu.2.any (fun w => w.reads.contains c))
      pushes := up n.pushes (fun c => bu.2.any (fun w => w.writes c)) })

/-- One iteration of a body, and the rotation at its end (R196, R202). -/
def vloopStep (i : Instr) (x : VBlock) (body : List VWord) (m : Mach) (b : Active) : Iter :=
  let m := ((bundles 0 [] body).foldl (Mach.bundle i x b) (m, {})).1
  .next (m.setVec { m.vec with vrb := (m.vec.vrb + 31) % 32, prb := (m.vec.prb + 7) % 8 }) b

/-- The plan of a vloop. -/
def vloopPlan (i : Instr) (x : VBlock) (body : List VWord) : Plan :=
  { planOf i (vloopStep i x body) with
    ahead := Mach.slotsAhead
    ends := Mach.vecSlotEnd i.bound
    issue := fun m => m.setVec { m.vec with k := x.ks }
    halt := fun m b => m.drain i b 16
    last := fun m b => .next (m.drain i b 16) b }

/-- vloop (R202). -/
def execVloop (h : Hdr) (ports : BitVec 7) (wins : List Win) (ks : List Word32) (body : List VWord) (s : State) :
    Host.Outcome State Fault Refusal :=
  let i : Instr := .vloop h ports wins ks body
  act (fun m => m.block i (vloopPlan i ⟨i, h, ports, wins, ks⟩ body) (vloopCheck i h ports wins body) noPrep) s

/-- vrst (R203). -/
def execVrst (h : Hdr) (s : State) : Host.Outcome State Fault Refusal :=
  let i : Instr := .vrst h
  act (fun m => m.block i (planOf i (fun m b =>
    .next (m.setVec { m.vec with v := [], p := [], vrb := 0, prb := 0, fpf := 0 }) b)) (fun _ => none) noPrep) s

end Sys2Proof.Machine
end

