-- ==== Sys2Proof/Machine/Jobs.lean ====
section
/-!
DEFINITION. The life of a job and of its tasks: placement, initial grants, the loading of formes, the start of streams,
retirement, kills, completion, aging and the plan interval (R52, R65 to R68, R79 to R81, R304 to R313, R376, R407).
-/

namespace Sys2Proof.Machine

open Sys2Proof

/-! ## Loading a forme (R57 to R66) -/

/-- The stream of engine e of a forme as it is loaded: a disabled one is already at TAIL (R58). -/
def formeStream (bs : List Byte) (e now : Nat) : Stream :=
  let d := 0x40 + 48 * e
  let used := fieldAt bs 2 1 / 2 ^ e % 2 = 1
  { mode := if used then .off else .tail, enabled := used, since := now
    code := BitVec.ofNat 64 (fieldAt bs d 8), clen := fieldAt bs (d + 8) 4, entry := fieldAt bs (d + 12) 4
    x0 := (List.range 4).map (fun i => BitVec.ofNat 64 (fieldAt bs (d + 16 + 8 * i) 8))
    safe := BitVec.ofNat 64 (fieldAt bs (0x300 + 16 * e) 8), live := BitVec.ofNat 64 (fieldAt bs (0x308 + 16 * e) 8) }

/-- The context that a forme makes. -/
def formeCtx (bs : List Byte) (party job fidx ia age now : Nat) : Ctx :=
  { loaded := true, party := party, job := job, fidx := fidx, forme := BitVec.ofNat 64 ia
    roll := fieldAt bs 2 1 / 16 % 2 = 1, age := age, groups := (List.range 4).map (formeGroup bs)
    mdir := BitVec.ofNat 64 (fieldAt bs 0x18 8), mdn := fieldAt bs 0x20 1, energy := BitVec.ofNat 64 (fieldAt bs 8 8)
    le := formeStream bs 0 now, me := formeStream bs 1 now, ve := formeStream bs 2 now, se := formeStream bs 3 now
    sems := (List.range 64).map (fun i => fieldAt bs (0x100 + 2 * i) 2)
    bufs := (List.range 32).map (formeBuf bs), maps := (List.range 8).map (formeRange bs) }

/-- The scratchpad and the accumulator memory of a tile cleared to zero (R66). -/
def Mach.clearTile (m : Mach) (n : Nat) : Mach :=
  let m := clearRun m (tsKey n 0) (2 ^ 20)
  { m with acc := clearKeys (n * 32768) ((n + 1) * 32768) m.acc }

/-- A forme loaded into a context; the tile's memories are kept for the same job, and cleared for another (R66). -/
def Mach.loadCtx (m : Mach) (n : Nat) (c : Bool) (job fidx ia : Nat) (bs : List Byte) : Mach :=
  let m := if (m.tile n).owner = job then m else m.clearTile n
  let m := m.setTile n { m.tile n with owner := job }
  let m := { m with hub := { m.hub with loads := m.hub.loads + 1 } }
  m.setCtx n c { formeCtx bs (m.tileParty n) job fidx ia m.hub.loads m.gtc with killed := (m.ctx n c).killed }

/-- A forme entry of a job changed. -/
def Job.setForme (j : Job) (i : Nat) (f : FormeEnt → FormeEnt) : Job :=
  { j with formes := j.formes.mapIdx (fun k x => if k = i then f x else x) }

/-- Formes of tile `n` that follow entry `i` and are not loaded are ended with it (R376) (DEDUCED, log 39). -/
def Job.endLater (j : Job) (n i : Nat) : Job :=
  { j with formes := j.formes.mapIdx (fun k x => if i < k && x.tile = n && x.st = .unplaced then { x with st := .ended } else x) }

/-- Entry `i` of a job is loaded into a context of its tile. A forme that can no longer be read kills its task with PAGEABS
(R405). -/
def Mach.loadEntry (m : Mach) (j : Job) (i : Nat) (c : Bool) : Mach :=
  let f := j.formes.getD i {}
  match m.hubRead f.forme.toNat 1024 i with
  | .ok bs =>
    (m.loadCtx f.tile c j.id i f.forme.toNat bs).setJob
      (j.setForme i (fun f => { f with st := .loaded, ctx := c, age := m.hub.loads + 1 }))
  | .hold => m
  | .bad b =>
    if !m.roomFor (srcTile f.tile) then m
    else
      let m := m.setJob ((j.setForme i (fun f => { f with st := .killed })).endLater f.tile i)
      m.raise .task .pageabs { src := srcTile f.tile, eng := 255, id := m.tileParty f.tile, a0 := jobOff j.id 0
                               a1 := BitVec.ofNat 64 b.addr, detail := BitVec.ofNat 64 b.addr }

/-- Streams of a context. -/
def Ctx.streams (c : Ctx) : List Stream := [c.le, c.me, c.ve, c.se]

/-- Whether the task of a context lets its successor be loaded (R81). -/
def Ctx.handsOver (c : Ctx) : Bool :=
  let tailed := fun (s : Stream) => s.mode = .tail
  if c.roll then c.streams.any tailed else c.streams.all tailed

/-- The next forme of a tile's sequence that may be loaded, with the context for it (R66, R81). -/
def Mach.successor (m : Mach) (j : Job) (n : Nat) : Option (Nat × Bool) :=
  match j.formes.findIdx? (fun f => f.tile = n && f.st = .unplaced) with
  | none => none
  | some i =>
    let free := fun (c : Bool) => !(m.ctx n c).loaded
    let mine := [false, true].filter (fun c => (m.ctx n c).loaded)
    -- what follows a task being killed ends with it (R376)
    if mine.any (fun c => (m.ctx n c).dying.isSome) then none
    else match mine with
    | [] => if free false then some (i, false) else none
    | [c] => if free (!c) && (m.ctx n c).job = j.id && (m.ctx n c).handsOver then some (i, !c) else none
    | _ => none

/-- A job all of whose first formes are loaded runs; that of a gang waits for its slice (R52, R325). -/
def Mach.launched (m : Mach) (id : Nat) : Mach :=
  match m.job? id with
  | none => m
  | some j =>
    if j.st = .placed && j.gang = 0 && j.formes.all (fun f => f.st ≠ .reserved) then m.setJob { j with st := .running }
    else m

/-- LOAD_FORME (R52, R66, R81): the first forme of a job placed on the tile, its grants performed; or a successor
(DEDUCED, log 41). -/
def Mach.loadForme (m : Mach) (n : Nat) : Mach :=
  let waiting := fun (j : Job) => m.hub.requests.any (fun r => r.job = some j.id)
  match m.hub.jobs.find? (fun j => j.st = .placed && j.grants.isEmpty && !waiting j && j.reserves.contains n) with
  | some j =>
    if (m.ctx n false).loaded then m
    else match j.formes.findIdx? (fun f => f.tile = n && f.st = .reserved) with
      | none => m
      | some i => (m.loadEntry j i false).launched j.id
  | none =>
    match m.hub.jobs.findSome? (fun j => if j.st = .running then (m.successor j n).map (fun s => (j, s)) else none) with
    | none => m
    | some (j, i, c) => m.loadEntry j i c

/-- LOAD_FORME. -/
def execLoadForme (tile : Nat) (s : State) : Host.Outcome State Fault Refusal := act (fun m => m.loadForme tile) s

/-! ## The start of a stream (R67) -/

/-- The stream as it begins. -/
def Stream.start (s : Stream) (now : Nat) : Stream :=
  { s with mode := .run, since := now, pc := s.entry, x := s.x0.map (fun v => ⟨v, false⟩), rs := [], lc := [], last := none }

/-- An engine's own registers at their initial values. -/
def Tile.fresh (t : Tile) : Engine → Tile
  | .me => { t with mat := {} }
  | .ve => { t with vec := {} }
  | .le | .se => t

/-- Whether an older task of the tile has still to run on an engine. -/
def Mach.olderFirst (m : Mach) (a : Agent) : Bool :=
  let o := m.ctx a.tile (!a.ctx)
  o.loaded && o.age < (m.ctx a.tile a.ctx).age && (o.stream a.eng).mode ≠ .tail

/-- An engine takes a stream up. -/
def Mach.takeUp (m : Mach) (a : Agent) : Mach :=
  m.setTile a.tile { m.tile a.tile with runs := put none (m.tile a.tile).runs a.eng.code (some a.ctx) }

/-- STREAM_START (R65, R67): a loaded task's stream begins when its engine is not running the other context's. -/
def execStreamStart (a : Agent) (s : State) : Host.Outcome State Fault Refusal :=
  act (fun m =>
    let c := m.ctx a.tile a.ctx
    let live := match m.job? c.job with
      | some j => j.st = .running && !j.reviving
      | none => true
    if a.tile < 512 && m.clocked a.tile && c.loaded && c.dying.isNone && !c.stopping && live
        && (c.stream a.eng).mode = .off && at' none (m.tile a.tile).runs a.eng.code = none && !m.olderFirst a then
      let m := m.takeUp a
      let m := m.setTile a.tile ((m.tile a.tile).fresh a.eng)
      m.setStreamOf a ((c.stream a.eng).start m.gtc)
    else m) s

/-! ## Retirement (R79, R80, R414) -/

/-- An engine at rest, as a task leaves it: MRB stays as it is until a stream starts (R67, R334). -/
def Tile.rest (t : Tile) : Engine → Tile
  | .me => { t with mat := { mrb := t.mat.mrb } }
  | .ve => { t with vec := {} }
  | .le | .se => t

/-- The context without a task: its streams show KIND 0 from here (R415). -/
def idleCtx (killed : Option (Nat × Nat)) (now : Nat) : Ctx :=
  let s : Stream := { since := now }
  { killed := killed, le := s, me := s, ve := s, se := s }

/-- A context is freed: its engines are free, and what its scouts asked for and pinned is given up. -/
def Mach.freeCtx (m : Mach) (n : Nat) (c : Bool) (killed : Option (Nat × Nat)) : Mach :=
  let m := [Engine.le, .me, .ve, .se].foldl (fun (m : Mach) e =>
    let m := if at' none (m.tile n).runs e.code ≠ some (!c) then
        m.setTile n { (m.tile n).rest e with runs := put none (m.tile n).runs e.code none }
      else m
    m.dropScout (scoutKey ⟨n, c, e⟩)) m
  m.setCtx n c (idleCtx killed m.gtc)

/-- TASK_RETIRE (R80): four tails, and every tracker entry drained. -/
def execTaskRetire (tile : Nat) (ctx : Bool) (s : State) : Host.Outcome State Fault Refusal :=
  act (fun m =>
    let c := m.ctx tile ctx
    if c.loaded && c.dying.isNone && c.streams.all (fun s => s.mode = .tail) && c.tracker.all (· = 0) then
      let m := match m.job? c.job with
        | none => m
        | some j => m.setJob { j.setForme c.fidx (fun f => { f with st := .retired }) with sat := j.sat || c.sat }
      (m.freeCtx tile ctx c.killed).settle
    else m) s

/-! ## Kills (R376, R407) -/

/-- A request of a stream of a context. -/
def Request.ofCtx (r : Request) (n : Nat) (c : Bool) : Bool := r.agent.any (fun a => a.tile = n && a.ctx == c)

/-- Whether a packet is a request's own. -/
def Request.carriedBy (r : Request) (p : Packet) : Bool :=
  opVc p.op ≠ 1 && r.tag = p.tag && r.op = p.op && r.party = p.src.toNat

/-- Requests discarded, with their packets that no target has performed yet, gets that wait at a home among them (R376, R424,
R437). -/
def Mach.discard (m : Mach) (gone : Request → Bool) : Mach :=
  let rs := m.hub.requests.filter gone
  let keep := fun (l : List Packet) => l.filter (fun p => !rs.any (·.carriedBy p))
  { m with
    net := keep m.net
    homeq := keep m.homeq
    dies := m.dies.map (fun e => (e.1, { e.2 with waits := e.2.waits.filter (fun w => !rs.any (·.carriedBy w.pkt)) }))
    links := m.links.map (fun e => (e.1, { e.2 with txq := keep e.2.txq }))
    hub := { m.hub with
      requests := m.hub.requests.filter (fun r => !gone r), waiting := keep m.hub.waiting, watches := keep m.hub.watches } }

/-- Packets that have not left yet: at the tile egress of a rehash, or at a plane's external port. -/
def Mach.unsent (m : Mach) : List Packet := m.hub.waiting ++ m.links.flatMap (·.2.txq)

/-- Whether a request of a killed task is discarded whole (R376): what is not sent yet, an access that no target has performed
yet, a watch, a split that its home has not begun, and a request to a device that its plane does not reach (R437; log 82). -/
def Mach.dropsAtKill (m : Mach) (r : Request) : Bool :=
  m.unsent.any r.carriedBy || r.op = 5 || (r.op ≤ 8 && (m.net ++ m.homeq).any r.carriedBy)
    || (r.chip ≠ m.hub.chip && !Config.reached r.plane r.chip)
    || (r.op = 0x46 && m.dies.any (fun e => e.2.waits.any (fun w => r.carriedBy w.pkt)))

/-- What becomes of the requests of a killed task (R376, R402, R437): a return or a lend on its way takes effect; a get, also one
of its supervisor for it, stays for the cluster to return its token; the write-backs of a token that it never released are awaited
no more where no plane takes them to their device; every other access sent is awaited. -/
def Mach.killRequests (m : Mach) (n : Nat) (c : Bool) (lost : List Holding) : Mach :=
  let x := m.ctx n c
  let mine := fun (r : Request) => r.ofCtx n c
  let get := fun (r : Request) => r.op = 0x41 && (mine r || (r.bell.isSome && r.party = x.party && r.whose = some x.job))
  let astray := fun (r : Request) => r.agent.isNone && r.op = 2 && r.party = m.supParty (clusterOf n)
    && !Config.reached r.plane r.chip && r.chip ≠ m.hub.chip && lost.any (fun h => h.covers r.addr.toNat 1)
  let m' := m.discard (fun r => (mine r && m.dropsAtKill r) || astray r)
  let rs := m'.hub.requests.filter (fun r => !(mine r && (r.op = 0x43 || r.op = 0x44)))
  { m' with hub := { m'.hub with
    requests := rs.map (fun r => if get r then { r with agent := none, gone := some x.job } else r) } }

/-- Tokens of a killed task whose release has not been sent (R262, R376). -/
def Mach.unreleased (m : Mach) (n : Nat) (c : Bool) : List Holding :=
  let x := m.ctx n c
  let rs := m.hub.requests.filter (fun r => r.agent.any (fun a => a.tile = n && a.ctx == c) && (r.op = 0x43 || r.op = 0x44))
  ((x.leaving.filter (·.op ≠ 0)).map (·.h)) ++ (m.unsent.filter (fun p => rs.any (·.carriedBy p))).map (fun p =>
    { base := p.addr, log2 := p.log2, ex := true, party := x.party, job := x.job })

/-- A split that waits at a home of this device is withdrawn with its party's task. -/
def Mach.withdrawSplits (m : Mach) (party : Nat) : Mach :=
  ((List.range 4).foldl (fun (m : Mach) d =>
    let x := m.die d
    m.setDie d { x with waits := x.waits.filter (fun w => !(w.pkt.op = 0x46 && w.pkt.src.toNat = party)) }) m).serveHomes

/-- Whether a record may be written: one with no cause stands for a kill without a record (R428, R431). -/
def Mach.canRecord (m : Mach) (e : Event) : Bool := e.status = 0 || m.roomFor e.src

/-- TASK_KILL: the kill of a context's task goes on, and ends when every access sent has been answered (R371, R376, R407)
(DEDUCED, log 40). -/
def execTaskKill (tile : Nat) (ctx : Bool) (s : State) : Host.Outcome State Fault Refusal :=
  act (fun m =>
    let c := m.ctx tile ctx
    match c.dying with
    | none => m
    | some e =>
      if !m.canRecord e then m
      else
        let lost := m.unreleased tile ctx
        let m := (m.killRequests tile ctx lost).withdrawSplits c.party
        let m := m.setCtx tile ctx { m.ctx tile ctx with leaving := lost.map (fun h => { h := h, op := 0x43 }) }
        if m.hub.requests.any (fun r => r.ofCtx tile ctx) then m
        else
        let m := m.bereft c.party c.job lost
        let m := if e.status = 0 then m else m.raise .task (causeOf e.status) e
        let m := match m.job? c.job with
          | none => m
          | some j => m.setJob ((j.setForme c.fidx (fun f => { f with st := .killed })).endLater tile c.fidx)
        (m.freeCtx tile ctx (some (c.job, c.party))).settle) s

/-! ## The end of a job (R52, R305, R414) -/

/-- Every task of a job has retired, been killed, or been ended. -/
def Job.over (j : Job) : Bool := j.formes.all (fun f => f.st = .retired || f.st = .killed || f.st = .ended)

/-- The JOB record of a failing check (R305, R381, R426). -/
def Mach.badJob (m : Mach) (job : Nat) (b : Bad) : Mach :=
  m.raise .job b.cause { src := srcHub, eng := 255, a0 := jobOff job 0, a1 := BitVec.ofNat 64 b.addr
                         detail := BitVec.ofNat 64 (b.idx % 65536 * 2 ^ 48 + b.off) }

/-- A job's holdings. -/
def Mach.jobHoldings (m : Mach) (id : Nat) : List Holding := (m.clusters.flatMap (fun e => e.2.hold)).filter (fun h => h.job = id)

/-- The flush of every holding of a job (R52). -/
def Mach.flushAll (m : Mach) (hs : List Holding) : Mach :=
  hs.foldl (fun m h => m.flush h.party (some h.job) h.base.toNat h.log2) m

/-- A token returned to its home, no acknowledgement awaited (R52). -/
def Mach.giveBack (m : Mach) (h : Holding) : Mach :=
  (m.dropHolding h.party (some h.job) h.base.toNat h.log2).send
    { op := 0x43, addr := h.base, src := BitVec.ofNat 32 h.party, dchip := iaChip h.base.toNat
      arg := tokArg h.log2 0 (!h.ex) 15 }

/-- JOB_COMPLETE (R52, R166, R414): flush, returns, pins, and the completion event. -/
def execJobComplete (job : Nat) (s : State) : Host.Outcome State Fault Refusal :=
  act (fun m => match m.job? job with
    | none => m
    | some j =>
      if !j.over || j.doom.isSome || j.st = .waiting || j.st = .stopped then m
      else
        let hs := m.jobHoldings job
        let m := m.flushAll hs
        if !hs.all (fun h => m.flushed h.party h.base.toNat h.log2) then m
        else
            let m := hs.foldl Mach.giveBack m
            let m := (List.range 4).foldl (fun m d => m.unpin d job) m
            let tiles := j.formes.map (fun f => m.tileParty f.tile)
            let m := if j.gang = 0 then m
              else { m with hub := { m.hub with
                marked := m.hub.marked.filter (fun p => !tiles.contains p)
                held := m.hub.held.filter (fun p => !tiles.contains p.party) } }
            let m := match j.queue with
              | some q => m.cmdDone q j.index (j.fail.getD 0) none (if j.sat then 4 else 0) job
              | none => m
            let m := { m with hub := { m.hub with
              jobs := m.hub.jobs.filter (·.id ≠ job), sysbars := m.hub.sysbars.filter (·.job ≠ job) } }
            m.settle) s

/-! ## Ends that waited for room (R370) -/

/-- A stopped task is killed with its TASK record (R408), once there is room for it. -/
def Mach.loseStopped (m : Mach) (id i : Nat) (e : Event) : Mach :=
  match m.job? id with
  | none => m
  | some j =>
    if !m.roomFor e.src then m
    else
      let n := (j.formes.getD i {}).tile
      let m := m.setJob ((j.setForme i (fun f => { f with st := .killed, doom := none })).endLater n i)
      (m.bereft (m.tileParty n) id []).raise .task (causeOf e.status) e

/-- The stopped tasks whose kill waits for room. -/
def Mach.lostTasks (m : Mach) : List (Nat × Nat × Event) :=
  m.hub.jobs.flatMap (fun j => (j.formes.mapIdx (fun i f => (i, f))).filterMap (fun x =>
    if x.2.st = .stopped then x.2.doom.map (fun e => (j.id, x.1, e)) else none))

/-- What waits for room in a store of records ends as far as there is room: jobs, and stopped tasks. -/
def Mach.failDue (m : Mach) : Mach :=
  m.lostTasks.foldl (fun m x => m.loseStopped x.1 x.2.1 x.2.2) m.doomTurn

/-! ## Placement and pre-emption (R304 to R308, R313, R314) -/

/-- A job takes its tiles (R52). -/
def Mach.place (m : Mach) (j : Job) (p : Placing) : Mach :=
  let tile := fun (i : Nat) => p.tileOf i
  let fs := j.formes.mapIdx (fun i f =>
    { f with tile := tile i
             st := if (List.range i).any (fun k => tile k = tile i) then TaskSt.unplaced else .reserved })
  let m := { m with hub := { m.hub with placements := m.hub.placements + 1 } }
  m.setJob { j with st := .placed, placed := m.hub.placements, formes := fs }

/-- The next initial grant of a placed job is asked of its home, or is held already (R52, R55, R261, R267). -/
def Mach.askGrant (m : Mach) (j : Job) : Mach :=
  if j.st ≠ .placed ∨ m.hub.requests.any (fun r => r.job = some j.id) then m
  else match j.grants with
    | [] => m
    | (base, log2, shared, i) :: gs =>
      let party := m.tileParty (j.formes.getD i {}).tile
      let ia := base.toNat
      if m.atOnce party (some j.id) ia log2 shared then m.setJob { j with grants := gs }
      else
        let n := m.getNeeds party (some j.id) ia log2
        if !m.holdRoom party n then m
        else (m.requestAs { op := 0x41, addr := base, src := BitVec.ofNat 32 party, dchip := iaChip ia
                            arg := tokArg log2 0 shared 0 } { write := false, job := some j.id, need := n }).1

/-- Whether a job may be stopped (R313, R319) (DEDUCED, log 38). -/
def Mach.stoppable (m : Mach) (j : Job) : Bool :=
  j.st = .running && !j.noStop && (match j.queue with
    | none => false
    | some q => !(((m.queue q).qctl q).getLsbD 5) && (m.queue q).save ≠ 0 && (m.queue q).savesz ≠ 0)

/-- Lowest own priority first, then latest placed first. -/
def insVictim (x : Job) : List Job → List Job
  | [] => [x]
  | y :: ys => if x.prio < y.prio || (x.prio = y.prio && y.placed < x.placed) then x :: y :: ys else y :: insVictim x ys

/-- Jobs to stop so that the head job fits, those of `out` leaving already. -/
def Mach.chooseVictims (m : Mach) (j : Job) : List Job → List Nat → Option (List Nat)
  | [], out => if m.fits j out then some out else none
  | v :: vs, out => if m.fits j out then some out else m.chooseVictims j vs (out ++ [v.id])

/-- A stop request to every task of a job; a gang's party ids are marked (R314, R327). -/
def Mach.stopJob (m : Mach) (id : Nat) : Mach :=
  match m.job? id with
  | none => m
  | some j =>
    let ks := m.jobCtxs id
    let m := ks.foldl (fun m k =>
      let c := m.ctx k.1 k.2
      if c.dying.isSome then m else m.setCtx k.1 k.2 { c with stopping := true }) m
    let m := m.setJob { j with st := .stopping }
    if j.gang = 0 then m
    else { m with hub := { m.hub with marked := distinct (m.hub.marked ++ ks.map (fun k => m.tileParty k.1)) } }

/-- The victims that a head job takes (R313). -/
def Mach.victims (m : Mach) (j : Job) : List Nat :=
  let nopre := match j.queue with
    | some q => ((m.queue q).qctl q).getLsbD 4
    | none => false
  if nopre then []
  else
    let out := (m.hub.jobs.filter (fun v => v.st = .stopping)).map (·.id)
    let cs := (m.hub.jobs.filter (fun v => m.stoppable v && v.prio < j.prio)).foldl (fun l v => insVictim v l) []
    match m.chooseVictims j cs out with
    | some l => l.filter (fun v => !out.contains v)
    | none => []

/-- Whether a stopped job could never be resumed: its energy or a tile of its own rules it out (R305). -/
def Mach.stuck (m : Mach) (j : Job) : Chk Unit :=
  if m.budget < j.energy then .bad { addr := j.imp.toNat, off := 0x10 }
  else match j.formes.findIdx? (fun f => (f.st = .stopped || f.st = .unplaced) && (m.tile f.tile).quar) with
    | some i => .bad { addr := j.ftab.toNat + 16 * i, idx := i, off := 8 }
    | none => .ok ()

/-- The head job is judged, and placed where it fits; where it does not, jobs are stopped for it. -/
def Mach.placeHead (m : Mach) (j : Job) : Mach :=
  match (if j.st = .stopped then m.stuck j else m.couldFit j) with
  | .bad b => if m.roomFor srcHub then (m.badJob j.id b).endJob j.id else m
  | .hold => m
  | .ok _ =>
    if m.fits j [] then
      if j.st = .stopped then m
      else match placeJob j.formes (m.freeTiles j []) with
        | .ok p => m.place j p
        | .fail _ => m
    else (m.victims j).foldl Mach.stopJob m

/-- PLACE_JOB (R52, R55, R304 to R308, R313): the initial grants of placed jobs, and the head job. -/
def execPlaceJob (s : State) : Host.Outcome State Fault Refusal :=
  act (fun m =>
    let m := (m.hub.jobs.map (·.id)).foldl (fun (m : Mach) id => match m.job? id with
      | some j => m.askGrant j
      | none => m) m
    match m.head? with
    | none => m
    | some j => m.placeHead j) s

/-- AGING (R304, R307): a job that has waited longer than its class's limit. -/
def execAging (job : Nat) (s : State) : Host.Outcome State Fault Refusal :=
  act (fun m => match m.job? job with
    | none => m
    | some j => match m.ageLimit j.prio with
      | none => m
      | some l => if j.waits && j.start + l < m.gtc then m.setJob { j with aged := true } else m) s

/-! ## The plan interval (R308 to R312, R435) -/

/-- S that R312 sets from the S of the interval that ended. -/
def nextSwallow (s energy lim budget : Nat) : Nat :=
  if lim < energy then min 48 (s + (64 * (energy - lim) + energy - 1) / energy)
  else if energy < budget then s - 1 else s

/-- Whether a cluster is held at 48 (R435). -/
def Mach.heldHot (m : Mach) (c : Nat) : Bool := m.hub.vrhotLow || (m.die (c / 8)).hot.getLsbD (c % 8)

/-- PLAN_INTERVAL: `energy` is what PMETER counts since its last sample, in nJ, and E the difference of PMETER across the
interval (R312, R360; DESIGN CHOICE, log 51). It is the policy core's work (R356). -/
def execPlanInterval (energy : Nat) (s : State) : Host.Outcome State Fault Refusal :=
  act (fun m => if !m.kernelRuns then m else
    let lim := m.hub.plimit * 10 ^ 6
    let meter := (m.hub.meter + energy) % 2 ^ 64
    let energy := (meter + 2 ^ 64 - m.hub.meterAt) % 2 ^ 64
    let m := (List.range 32).foldl (fun (m : Mach) c =>
      let x := m.cluster c
      let s := if m.heldHot c then 48
        else if m.holdsTask (fun n => clusterOf n = c) then nextSwallow x.swallowW energy lim m.budget else 0
      m.setCluster c { x with swallowW := s }) m
    { m with hub := { m.hub with
        meter := meter, meterAt := meter, plimit := bits64 (m.reg 0x3010) 0 11 } }) s

end Sys2Proof.Machine
end

