-- ==== Sys2Proof/Machine/Stops.lean ====
section
/-!
DEFINITION. Safe points and live sets (R119 to R121, R204, R315), and how a stream stops at one (R190, R314 to R316).
-/

namespace Sys2Proof.Machine

open Sys2Proof

/-- A live set (R121). -/
structure Live where
  scrm : BitVec 64 := BitVec.allOnes 64
  accm : BitVec 64 := BitVec.allOnes 64
  vrm : BitVec 64 := BitVec.allOnes 64
  xrm : BitVec 16 := BitVec.allOnes 16
  prm : BitVec 16 := BitVec.allOnes 16
deriving DecidableEq, Repr, Inhabited

/-- Nothing live: what a stream that has executed tail contributes. -/
def Live.none : Live := ⟨0, 0, 0, 0, 0⟩

/-- The live set that an entry of the live-mask table holds. -/
def Live.ofBytes (bs : List PByte) : Live :=
  let f := fun (o n : Nat) => valOf ((bs.drop o).take n)
  { scrm := BitVec.ofNat 64 (f 0 8), accm := BitVec.ofNat 64 (f 8 8), vrm := BitVec.ofNat 64 (f 16 8)
    xrm := BitVec.ofNat 16 (f 24 2), prm := BitVec.ofNat 16 (f 26 2) }

/-- The live set of a stream at an offset (R315): of an entry whose LIDX is not below M, the 32 bytes that stand there
(R121; DESIGN CHOICE, log 35). -/
def Mach.liveSide (m : Mach) (a : Agent) (off : Nat) : Side Live :=
  let s := m.streamOf a
  if s.mode = .tail then .known .none
  else (m.safeMark a off).bind fun mark => match mark with
    | none => .known {}
    | some (_, l) =>
      if s.live = 0 then .known {}
      else (m.side a (s.live.toNat + 8 + 32 * l) 32).bind fun r => match r with
        | none => .known {}
        | some bs => .known (Live.ofBytes bs)

/-- The live set of a stream that has stopped: its tables have been read. -/
def Mach.liveAt (m : Mach) (a : Agent) (off : Nat) : Live :=
  match m.liveSide a off with
  | .known l => l
  | .wait _ => {}

/-- Whether the side tables of a stream have been read for an offset. -/
def Mach.sideRead (m : Mach) (a : Agent) (off : Nat) : Bool :=
  match m.liveSide a off with
  | .known _ => true
  | .wait _ => false

/-! ## Stopping the LE, SE and VE (R315, R316) -/

/-- Whether a block stands at a slot-level boundary, nothing of the next iteration begun and no part of a group of sub-byte
elements kept back (R158). -/
def Active.atSlot (b : Active) : Bool :=
  b.phase = .body && !b.inSlot && b.served.isEmpty && !b.granted && !b.queued && b.whole

/-- Whether a stream stands at a safe point, or has nothing to stop: at a marked boundary, at a slot-level boundary of a block
that its entry marks SLOT, or blocked, a token instruction held for want of entries included (R120, R204, R258, R315); its side
tables have been read, and no signal stands behind a pfence of its own (R133). -/
def Mach.canStop (m : Mach) (a : Agent) : Bool :=
  let s := m.streamOf a
  match s.mode with
  | .off | .stopped | .tail => true
  | .parked | .waiting _ _ | .barrier _ _ | .held =>
    s.posts.isEmpty && s.blk.all Active.whole && m.sideRead a s.pc
  | .token | .trapped => false
  | .run => s.posts.isEmpty && m.sideRead a s.pc && (match s.blk with
    | none => !s.granted && !s.late && m.safeBoundary a s.pc
    | some b => (b.atSlot && b.done ≠ 0 && m.slotMarked a s.pc) || (match b.instr with
      | .waitm _ _ _ _ _ _ | .probe _ _ _ => b.phase = .body && b.resp.isNone
      | _ => false))

/-- Waiters of a stream leave the order of their semaphores. -/
def Mach.withdraw (m : Mach) (a : Agent) : Mach :=
  let c := m.ctx a.tile a.ctx
  (m.setCtx a.tile a.ctx { c with waitq := c.waitq.filter (fun w => !(w.eng == a.eng)) }).serveAll a.tile a.ctx

/-- The run count of each PORTS bit of a vector block: the runs of its iterations so far (R197, R204, R316; log 35). -/
def Active.ports (b : Active) : List Nat :=
  match b.instr with
  | .vloop _ ports _ _ body => (portCodes ports).map (fun c => b.done * portRuns (bundles 0 [] body) c)
  | _ => []

/-- Where a block that stops stands: what a RESUME entry says of it (R316). -/
def Active.standing (b : Active) : Resume :=
  { c := b.c, swd := b.served, inblk := b.phase ≠ .header && (b.instr.hdr.wcnt ≠ 0 || b.c.any (· ≠ 0)), ports := b.ports }

/-- A stream at a safe point stops: it leaves the waiter order and its barrier, and its block is to be issued again, its
reservation and its watch given up and its results landed (R204, R315, R316). -/
def Mach.stopStream (m : Mach) (a : Agent) : Mach :=
  let s := m.streamOf a
  match s.mode with
  | .off | .stopped | .tail | .parked | .token | .trapped => m
  | .waiting _ _ | .barrier _ _ | .held | .run =>
    let wait := ((m.ctx a.tile a.ctx).waitq.find? (fun w => w.eng == a.eng)).map (fun w => (w.sem, w.n))
    let m := m.withdraw a
    let m := m.discard (fun r => r.agent = some a && r.op = 5)
    let m := match s.blk with
      | none => m
      | some b =>
        let m := if b.instr.hdr.scnt = 0 then m else m.release a.tile a.ctx b.instr.hdr.ssem b.instr.hdr.scnt
        let m := m.dropScout (scoutKey a)
        if a.eng = Engine.ve then { ({ m with cur := a } : Mach).drain b.instr b 16 with cur := m.cur } else m
    let s := m.streamOf a
    m.setStreamOf a { s with
      mode := .stopped, since := m.gtc, blk := none, rwant := none, blocked := wait
      resume := match s.blk with
        | some b => some b.standing
        | none => s.resume }

/-! ## Stopping the ME (R190, R314, R316) -/

/-- Blocks of the ME issued and not finished, but for those of the queue that are signals' own place. -/
def MatEng.pendingBlocks (x : MatEng) : List Active := x.load.toList ++ x.strm.toList ++ x.queue

/-- The first of the blocks not started. -/
def firstBlock : List Active → Option Active
  | [] => none
  | b :: bs =>
    if b.instr.isSignal then firstBlock bs
    else match firstBlock bs with
      | none => some b
      | some c => some (if c.ser < b.ser then c else b)

/-- Whether the ME of a task stands at a closed point, whatever it is doing (R190): a signal or a served wait of its stream is
one step from its end, and is awaited. -/
def Mach.meCanStop (m : Mach) (a : Agent) : Bool :=
  let s := m.streamOf a
  let x := (m.tile a.tile).mat
  match s.mode with
  | .off | .stopped | .tail => true
  | .token | .held => false
  | .parked | .waiting _ _ | .barrier _ _ | .run | .trapped =>
    at' none (m.tile a.tile).runs Engine.me.code ≠ some a.ctx ||
      (!x.isOpen && (!s.granted || s.mode = .trapped)
        && !(match firstBlock x.pendingBlocks, x.queue with
          | some b, q => q.any (fun g => g.instr.isSignal && g.ser < b.ser)
          | none, q => !q.isEmpty))

/-- Slot waits that a weight load has been served for an iteration whose data has not moved give their counts back. -/
def Mach.returnSlots (m : Mach) (a : Agent) (b : Active) : Mach :=
  let c := m.ctx a.tile a.ctx
  let held := b.instr.bound.filter (fun w => b.served.contains w.1)
  m.setCtx a.tile a.ctx { c with
    sems := held.foldl (fun l w =>
      let x := c.buf w.2.1
      let s := if w.2.2 then x.empty else x.full
      put 0 l s (at' 0 l s + 1)) c.sems }

/-- The ME stops: its blocks are to be issued again, from the first that has not finished on, their patches pending again
and their reservations given up; a weight load under way stands at the slot-level iteration that its windows' consumer counts
name (R190, R316, R382; log 34). -/
def Mach.stopMe (m : Mach) (a : Agent) : Mach :=
  let s := m.streamOf a
  match s.mode with
  | .off | .stopped | .tail | .token | .held => m
  | .parked | .waiting _ _ | .barrier _ _ | .run | .trapped =>
    let t := m.tile a.tile
    let us := t.mat.pendingBlocks
    let first := firstBlock us
    let wait := ((m.ctx a.tile a.ctx).waitq.find? (fun w => w.eng == a.eng)).map (fun w => (w.sem, w.n))
    let m := m.withdraw a
    let m := us.foldl (fun (m : Mach) b => match b.instr with
      | .signal sem n => m.release a.tile a.ctx sem n
      | i => if i.hdr.scnt = 0 then m else m.release a.tile a.ctx i.hdr.ssem i.hdr.scnt) m
    let m := t.mat.load.toList.foldl (fun (m : Mach) b => m.returnSlots a b) m
    let m := m.setTile a.tile { t with mat := { t.mat with queue := [], load := none, strm := none } }
    let keep := fun (e : Event) => !(e.ofCtx a.tile a.ctx && e.eng = Engine.me.code)
    let m := m.keepTraps (clusterOf a.tile) keep
    let back := (us.flatMap (fun b => b.applied.map (fun p => ({ pos := b.off, pfi := p.1, v := p.2 } : Pending))))
      ++ s.applied.map (fun p => { pos := s.pc, pfi := p.1, v := p.2 })
    let s := m.streamOf a
    m.setStreamOf a { s with
      mode := .stopped, since := m.gtc, pc := (first.map (·.off)).getD s.pc, pend := s.pend ++ back, applied := []
      blocked := wait, bar := none, rwant := none, late := false, granted := false
      resume := match first with
        | some b => some { hwdone := b.granted || b.phase ≠ .header }
        | none => s.resume }

/-! ## Stopping a task (R314) -/

/-- Whether a stream has stopped, or never needs to. -/
def Stream.halted (s : Stream) : Bool :=
  s.mode = .off || s.mode = .stopped || s.mode = .tail || s.mode = .parked

/-- The streams of a task that can stop do: the ME first, and then the others. -/
def Mach.stopTask (m : Mach) (n : Nat) (c : Bool) : Mach :=
  let me : Agent := ⟨n, c, .me⟩
  let m := if m.meCanStop me then m.stopMe me else m
  if !(m.streamOf me).halted then m
  else [Engine.le, .se, .ve].foldl (fun (m : Mach) e =>
    let a : Agent := ⟨n, c, e⟩
    if m.canStop a then m.stopStream a else m) m

/-- Whether a stop request keeps a stream from going on: its task's stop is due here (R314). An ME instruction whose wait has
been served completes. -/
def Mach.stopsHere (m : Mach) (a : Agent) : Bool :=
  let c := m.ctx a.tile a.ctx
  c.stopping && (if a.eng = .me then m.meCanStop a || (!c.me.granted && !(m.tile a.tile).mat.queue.isEmpty)
    else c.me.halted && m.canStop a)

/-- Whether the ME's issue is held at a marked safe point until the blocks before it have finished: the mark stands for the
retirement before it (R119, R190) (DEDUCED, log 34). -/
def Mach.meHeld (m : Mach) (a : Agent) : Bool :=
  a.eng = .me && ((m.tile a.tile).mat.load.isSome || (m.tile a.tile).mat.strm.isSome || !(m.tile a.tile).mat.queue.isEmpty)
    && (match m.safeMark a (m.streamOf a).pc with
      | .known r => r.isSome
      | .wait _ => true)

/-- What a stream has still to ask for before it can be told whether it stands at a safe point: its side tables, where
another device holds them or their page migrates (R64). -/
def Mach.sideAsk (m : Mach) (a : Agent) : Option Mach :=
  let s := m.streamOf a
  let c := m.ctx a.tile a.ctx
  let x := (m.tile a.tile).mat
  let asked := (c.stopping && s.mode ≠ .off && s.mode ≠ .tail && s.mode ≠ .stopped) ||
    (a.eng = .me && s.mode = .run && (x.load.isSome || x.strm.isSome || !x.queue.isEmpty))
  if !c.loaded || !asked then none
  else match (if s.safe = 0 then (m.side a (s.code.toNat + s.pc) 4).bind fun _ => m.liveSide a s.pc else m.liveSide a s.pc) with
    | .known _ => none
    | .wait m' => some { m' with cur := m.cur }

/-- Whether every access that a stopped task has issued has been performed and acknowledged, and every release it began has
sent its message (R262, R314 step 3) (DEDUCED, log 37). -/
def Mach.drained (m : Mach) (n : Nat) (c : Bool) : Bool :=
  (m.ctx n c).leaving.isEmpty && (m.ctx n c).tracker.all (· = 0) && !m.hub.requests.any (fun r => r.ofCtx n c)

end Sys2Proof.Machine
end

