-- ==== Sys2Proof/Machine/Saves.lean ====
section
/-!
DEFINITION. SAVE and RESUME: the replay queues, the save area of a task, the stop of a job and its way back (R191, R314 to
R324, R327, R402).
-/

namespace Sys2Proof.Machine

open Sys2Proof

/-! ## Records -/

/-- A record of `n` bytes from fields (offset, size, value); every other byte is 0. -/
def fillRec (n : Nat) (l : List (Nat × Nat × Nat)) : List Byte :=
  (List.range n).map (fun o => match l.find? (fun x => x.1 ≤ o && o < x.1 + x.2.1) with
    | some x => BitVec.ofNat 8 (x.2.2 / 256 ^ (o - x.1))
    | none => 0)

/-- Items of 12 bytes for pending patches, from an offset (R316). -/
def pendFields (o : Nat) (ps : List Pending) : List (Nat × Nat × Nat) :=
  (ps.mapIdx (fun i p => [(o + 12 * i, 4, p.pos), (o + 12 * i + 4, 4, p.v), (o + 12 * i + 8, 1, p.pfi)])).flatten

/-- Patched values in ascending PFI order. -/
def appliedFields (o : Nat) (ps : List (Nat × Nat)) : List (Nat × Nat × Nat) :=
  ps.mapIdx (fun i p => (o + 4 * i, 4, p.2))
def appliedMask (ps : List (Nat × Nat)) : Nat := (ps.map (fun p => 2 ^ p.1)).sum

/-- FLAGS of a RESUME entry. -/
def Resume.flags (r : Resume) (waiting : Bool) : Nat :=
  r.inblk.toNat + waiting.toNat * 2 + r.hwdone.toNat * 4 + (r.swd.map (fun i => 2 ^ (3 + i))).sum

/-- Where a stream resumes. -/
def Stream.offset (s : Stream) : Nat := if s.mode = .off then s.entry else s.pc

/-- What the RESUME entry says of a stopped or parked stream. -/
def Stream.standing (s : Stream) : Resume :=
  match s.mode, s.blk with
  | .parked, some b => { b.standing with inblk := true }
  | _, _ => s.resume.getD {}

/-- RESUME, or PARKED (R316, R400) (DEDUCED, log 35). -/
def resumeRec (e : Engine) (s : Stream) : List Byte :=
  let r := s.standing
  let parked := s.mode = .parked
  let all := s.applied.length = 16
  fillRec 64
    ([(0, 1, if parked then 5 else 1), (1, 1, if e = .me then min 8 s.pend.length else 0), (4, 4, s.offset),
      (8, 2, (s.blocked.map (·.1)).getD 0), (10, 2, (s.blocked.map (·.2)).getD 0), (12, 4, r.flags s.blocked.isSome)]
    ++ (if e = .me then pendFields 0x10 (s.pend.take 4) else r.c.mapIdx (fun i c => (0x10 + 2 * i, 2, c)))
    ++ (match (if parked then s.park else none) with
      | some p =>
        [(0x20, 8, p.ia.toNat), (0x28, 8, p.va.toNat), (0x30, 1, p.win), (0x31, 1, p.need), (0x32, 2, p.bytes)]
      | none => (if e = .ve then r.ports.mapIdx (fun i n => (0x20 + 4 * i, 4, n)) else [])
          ++ (if e ≠ .me ∧ all then [(0x3C, 4, ((s.applied.drop 15).map (·.2)).headD 0)] else [])))

/-- APPLIED and PENDING (R316). -/
def appliedRec (ps : List (Nat × Nat)) : List Byte :=
  if ps.isEmpty then fillRec 64 [] else fillRec 64 ((0, 1, 2) :: (2, 2, appliedMask ps) :: appliedFields 4 (ps.take 15))
def pendRec (ps : List Pending) : List Byte :=
  if ps.isEmpty then fillRec 64 [] else fillRec 64 ((0, 1, 3) :: (1, 1, ps.length) :: pendFields 8 ps)

/-- SETLOAD of a set (R191, R316). -/
def setloadRec (setB : Bool) (w : WSet) : List Byte :=
  match w.load with
  | none => fillRec 64 []
  | some b => fillRec 64 ([(0, 1, 4), (1, 1, setB.toNat), (2, 2, appliedMask b.applied), (4, 4, b.off),
      (8, 4, (b.idx.getD 0 0).toNat), (12, 4, (b.idx.getD 1 0).toNat)] ++ appliedFields 0x10 b.applied)

/-- The four entries of a stream's replay queue; that of the ME names the sets of the tile it runs on. -/
def replayQueue (e : Engine) (s : Stream) (mat : MatEng) : List Byte :=
  if s.mode = .tail then fillRec 256 []
  else match e with
    | .me => resumeRec e s ++ pendRec ((s.pend.drop 4).take 4) ++ setloadRec false mat.a ++ setloadRec true mat.b
    | .le | .ve | .se =>
      resumeRec e s ++ appliedRec s.applied ++ pendRec (s.pend.take 4) ++ pendRec ((s.pend.drop 4).take 4)

/-! ## The save area of a task (R317, R318) -/

/-- A stream's x registers: those that it will start with, where it has not started. -/
def Stream.regs (s : Stream) : List XReg := if s.mode = .off then s.x0.map (fun v => ⟨v, false⟩) else s.x

/-- The four streams of a task and what is live in each. -/
def Mach.lives (m : Mach) (n : Nat) (c : Bool) : List (Engine × Stream × Live) :=
  [Engine.le, .me, .ve, .se].map (fun e =>
    let a : Agent := ⟨n, c, e⟩
    let s := m.streamOf a
    (e, s, m.liveAt a s.offset))

def liveScr (l : List (Engine × Stream × Live)) : BitVec 64 := l.foldl (fun x y => x ||| y.2.2.scrm) 0
def liveAcc (l : List (Engine × Stream × Live)) : BitVec 64 := l.foldl (fun x y => x ||| y.2.2.accm) 0
def setBits (x : BitVec 64) : List Nat := (List.range 64).filter (fun i => x.getLsbD i)

/-- Size of a save area with `k` held flits. -/
def areaSize (l : List (Engine × Stream × Live)) (k : Nat) : Nat :=
  0x5000 + 16384 * (setBits (liveScr l)).length + 4096 * (setBits (liveAcc l)).length + 64 * k

/-- The accumulator entries of a row group, as bytes. -/
def Mach.accBytes (m : Mach) (n g : Nat) : List PByte :=
  (List.range 512).flatMap (fun i =>
    let e := m.accE n (512 * g + i)
    pbytes 8 e.v.toNat e.p)

/-- Flits held for a party. -/
def Mach.heldBytes (m : Mach) (party : Nat) : List (List Byte) :=
  (m.hub.held.filter (fun p => p.party = party)).flatMap (·.flits)

/-- A vector register's bytes and a predicate's. -/
def PReg.bytes (r : PReg) : List PByte := pbytes 8 r.v.toNat (r.p ≠ 0)

/-- The save area of a task, as pieces (offset, bytes). -/
def Mach.savePieces (m : Mach) (n : Nat) (c : Bool) (flits : List (List Byte)) : List (Nat × List PByte) :=
  let x := m.ctx n c
  let t := m.tile n
  let l := m.lives n c
  let runs := fun (e : Engine) => at' none t.runs e.code = some c
  let vec := if runs .ve then t.vec else {}
  let mat := if runs .me then t.mat else {}
  let sat := if x.me.mode = .tail then x.sat else mat.sat
  let fpf := if x.ve.mode = .tail then x.fpf else vec.fpf
  -- the layout that the job's SAVEVER names; the manual lays out one (R324; DESIGN CHOICE, log 85)
  let sver := ((m.job? x.job).map (·.savever)).getD 1
  let engs := (l.map (fun y => if y.2.1.mode = .tail then 0 else 2 ^ y.1.code)).sum
  let scr := setBits (liveScr l)
  let acc := setBits (liveAcc l)
  let vlive := ((l.find? (fun y => y.1 = .ve)).map (·.2.2)).getD .none
  let head := fillRec 64
    [(0, 1, sver), (1, 1, engs), (4, 4, x.job), (8, 8, x.forme.toNat), (0x10, 4, x.party), (0x14, 4, areaSize l flits.length),
     (0x18, 8, m.gtc), (0x20, 8, (liveScr l).toNat), (0x28, 8, (liveAcc l).toNat), (0x30, 4, flits.length)]
  let xs := l.flatMap (fun y => ((List.range 16).filter (fun i => y.2.2.xrm.getLsbD i)).map (fun i =>
    let r := at' XReg.blank y.2.1.regs i
    (0x40 + 128 * y.1.code + 8 * i, pbytes 8 r.v.toNat r.p)))
  let rs := l.map (fun y => (0x240 + 64 * y.1.code,
    clean (fillRec 64 ((0, 1, y.2.1.rs.length) :: y.2.1.rs.reverse.mapIdx (fun i r => (8 + 4 * i, 4, r))))))
  let fixed :=
    [(0, clean head), (0x340, clean ((List.range 64).flatMap (fun i => bytesOf 2 (x.sem i)))),
     (0x3C0, clean (fillRec 64
       [(0, 4, fpf.toNat), (4, 1, vec.vrb), (5, 1, vec.prb), (6, 1, mat.mrb), (7, 1, sat.toNat)])),
     (0x400, clean (l.flatMap (fun y => replayQueue y.1 y.2.1 mat))),
     (0x800, clean ((List.range 32).flatMap (fun i =>
       let b := x.buf i
       bytesOf 4 b.pc ++ bytesOf 4 b.cc ++ (List.range 16).flatMap (fun k => bytesOf 1 (at' 0 b.tags k)) ++ bytesOf 8 0))),
     (0xC00, clean ((List.range 8).flatMap (fun i =>
       let r := at' Range.blank x.maps i
       bytesOf 8 r.w0.toNat ++ bytesOf 8 r.w1.toNat ++ bytesOf 16 0))),
     (0x4000, clean ((List.range 4096).map (fun k =>
       BitVec.ofNat 8 (((List.range 8).map (fun i => (m.accE n (8 * k + i)).int.toNat * 2 ^ i)).sum))))]
  let ps := ((List.range 16).filter (fun j => vlive.prm.getLsbD j)).map (fun j =>
    (0xD00 + 8 * vec.physP j, (look PReg.blank vec.p (vec.physP j)).bytes))
  let vs := ((List.range 48).filter (fun i => vlive.vrm.getLsbD i)).map (fun i =>
    (0x1000 + 256 * vec.physV i, (look VReg.blank vec.v (vec.physV i)).bytes))
  let chunks := (scr.mapIdx (fun k i => (List.range 4).map (fun q =>
    (0x5000 + 16384 * k + 4096 * q, rdRun m (tsKey n (16384 * i + 4096 * q)) 4096)))).flatten
  let base := 0x5000 + 16384 * scr.length
  let groups := acc.mapIdx (fun k g => (base + 4096 * k, m.accBytes n g))
  let held := flits.mapIdx (fun k f => (base + 4096 * acc.length + 64 * k, clean f))
  fixed ++ xs ++ rs ++ ps ++ vs ++ chunks ++ groups ++ held

/-- Pieces written from a base; all of them, or none. -/
def Mach.writePieces (m : Mach) (base : Nat) : List (Nat × List PByte) → Acc Unit
  | [] => .done () m
  | p :: ps => match m.hubWrite (base + p.1) p.2 with
    | .done _ m => m.writePieces base ps
    | r => r

/-! ## SAVE (R314, R319, R323) -/

/-- Loaded tasks of a job in forme-index order: index, tile, context. -/
def Job.loadedTasks (j : Job) : List (Nat × Nat × Bool) :=
  ((j.formes.mapIdx (fun i f => (i, f))).filter (fun x => x.2.st = .loaded)).map (fun x => (x.1, x.2.tile, x.2.ctx))

/-- A stopped stream goes on where it stood (R319). -/
def Stream.goOn (s : Stream) (now : Nat) : Stream :=
  if s.mode = .stopped then { s with mode := .run, since := now, blocked := none } else s

/-- A held packet is performed; its sender has its acknowledgement already (R327). -/
def Mach.performHeld (m : Mach) (p : Packet) : Mach :=
  let p := { p with tag := 65536 }
  let s : State := { m := m }
  let out := match p.op with
    | 0x06 => execPeerWrite p s
    | 0x07 => execPeerAtomic p s
    | 0x08 => execPeerReduceStore p s
    | _ => execRemoteSignal p s
  match out with
  | .next s =>
    let drop := fun (l : List Packet) => l.filter (fun q => q.tag ≠ 65536)
    let mute := fun (x : Sig) => { x with pkt := x.pkt.filter (fun q => q.tag ≠ 65536) }
    { s.m with sigs := s.m.sigs.map mute, net := drop s.m.net, links := s.m.links.map (fun e => (e.1, { e.2 with txq := drop e.2.txq })) }
  | _ => m

/-- Party ids are marked no longer, and what was held for them is performed in arrival order (R322, R327, R429). -/
def Mach.unmark (m : Mach) (parties : List Nat) : Mach :=
  let mine := m.hub.held.filter (fun p => parties.contains p.party)
  let m := { m with hub := { m.hub with
    marked := m.hub.marked.filter (fun p => !parties.contains p)
    held := m.hub.held.filter (fun p => !parties.contains p.party) } }
  mine.foldl Mach.performHeld m

/-- A stop is abandoned (R319). -/
def Mach.abandonStop (m : Mach) (j : Job) : Mach :=
  let ts := j.loadedTasks
  let m := ts.foldl (fun (m : Mach) t =>
    let c := m.ctx t.2.1 t.2.2
    m.setCtx t.2.1 t.2.2 { c with
      stopping := false, le := c.le.goOn m.gtc, me := c.me.goOn m.gtc, ve := c.ve.goOn m.gtc, se := c.se.goOn m.gtc }) m
  let m := m.setJob { j with st := .running, noStop := true }
  m.unmark (ts.map (fun t => m.tileParty t.2.1))

/-- Where each task's area lies: index, tile, context, address, size. -/
def Mach.layAreas (m : Mach) : List (Nat × Nat × Bool) → Nat → List (Nat × Nat × Bool × Nat × Nat)
  | [], _ => []
  | (i, n, c) :: ts, at_ =>
    let size := areaSize (m.lives n c) (m.heldBytes (m.tileParty n)).length
    (i, n, c, at_, size) :: m.layAreas ts (at_ + round4k size)

/-- Every area of a job written. -/
def Mach.writeAreas (m : Mach) : List (Nat × Nat × Bool × Nat × Nat) → Acc Unit
  | [] => .done () m
  | (_, n, c, ia, _) :: as => match m.writePieces ia (m.savePieces n c (m.heldBytes (m.tileParty n))) with
    | .done _ m => m.writeAreas as
    | r => r

/-- A saved task leaves its context, and its records the trap queue (R314 step 5, R402). -/
def Mach.leaveCtx (m : Mach) (n : Nat) (c : Bool) : Mach :=
  let m := m.keepTraps (clusterOf n) (fun e => !e.ofCtx n c)
  let m := m.setTile n { m.tile n with owner := 0 }
  m.freeCtx n c (m.ctx n c).killed

/-- An event of a job's own queue slot (R302, R303). -/
def Mach.jobEvent (m : Mach) (j : Job) (type arg1 : Nat) : Mach :=
  match j.queue with
  | none => m
  | some q => m.post { src := srcQueue q, type := type, a0 := BitVec.ofNat 64 j.id, a1 := BitVec.ofNat 64 arg1 }
      [qctlFunc ((m.queue q).qctl q)]

/-- Every task of a stopping job has stopped and drained: the areas are written, or the stop is abandoned. -/
def Mach.saveJob (m : Mach) (j : Job) : Mach :=
  let x := m.queue (j.queue.getD 0)
  let as := m.layAreas j.loadedTasks x.save.toNat
  let total := (as.map (fun a => round4k a.2.2.2.2)).sum
  if x.savesz.toNat < total then m.abandonStop j
  else match m.writeAreas as with
    | .wait _ => m
    | .trap _ | .park _ _ => m.abandonStop j
    | .done _ m =>
      let m := as.foldl (fun (m : Mach) a => m.leaveCtx a.2.1 a.2.2.1) m
      let fs := j.formes.mapIdx (fun i f => match as.find? (fun a => a.1 = i) with
        | some a => { f with st := .stopped, area := BitVec.ofNat 64 a.2.2.2.1, size := a.2.2.2.2 }
        | none => f)
      let m := m.setJob { j with st := .stopped, formes := fs }
      (m.jobEvent j 3 ((as.map (fun a => a.2.2.2.2)).sum)).settle

/-- SAVE: the stop of a job goes on: its streams stop where they can, and when all have stopped it is saved. -/
def execSave (job : Nat) (s : State) : Host.Outcome State Fault Refusal :=
  act (fun m => match m.job? job with
    | none => m
    | some j =>
      if j.st ≠ .stopping || j.over || j.reviving then m
      else
        let ts := j.loadedTasks
        if ts.any (fun t => (m.ctx t.2.1 t.2.2).dying.isSome) then m
        else
          let m := ts.foldl (fun (m : Mach) t => m.stopTask t.2.1 t.2.2) m
          let still := fun (t : Nat × Nat × Bool) =>
            let c := m.ctx t.2.1 t.2.2
            c.streams.all Stream.halted && !c.streams.all (fun s => s.mode = .tail) && m.drained t.2.1 t.2.2
          if ts.all still then m.saveJob j else m) s

/-! ## RESUME (R191, R322) -/

/-- Bytes of an area, in pieces of at most 4 KiB. -/
def Mach.areaBytes (m : Mach) (ia : Nat) : Nat → Nat → Acc (List PByte)
  | 0, _ => .done [] m
  | fuel + 1, n =>
    if n = 0 then .done [] m
    else
      let k := min 4096 n
      match (if iaChip ia = m.hub.chip then m.homePlace ia k else none) with
      | none | some (.host _ _) => .trap { cause := .range }
      | some pl => if !m.hubOpen ia k then .wait m else match (m.readPlace pl ia k (fun _ => k) none {}).1 with
        | .done bs m => match m.areaBytes (ia + k) fuel (n - k) with
          | .done cs m => .done (bs ++ cs) m
          | r => r
        | r => r

/-- Patches of a replay entry. -/
def readApplied (bs : List Byte) (o : Nat) (last : Nat) : List (Nat × Nat) :=
  let fs := (List.range 16).filter (fun i => (fieldAt bs 2 2).testBit i)
  fs.mapIdx (fun k i => (i, if k = 15 then last else fieldAt bs (o + 4 * k) 4))

def readPend (bs : List Byte) (o n : Nat) : List Pending :=
  (List.range n).map (fun i =>
    { pos := fieldAt bs (o + 12 * i) 4, v := fieldAt bs (o + 12 * i + 4) 4, pfi := fieldAt bs (o + 12 * i + 8) 1 })

/-- An x register read from an area. -/
def readX (bs : List PByte) (o : Nat) : XReg :=
  let w := (bs.drop o).take 8
  ⟨BitVec.ofNat 64 (valOf w), anyPois w⟩

/-- A stream from its area; on an engine that an older task of the tile still needs, it is left to start anew (R67). The
area does not hold which instruction issued last, so it has issued none (R141; DESIGN CHOICE, log 35). -/
def Mach.restoreStream (m : Mach) (a : Agent) (bs : List PByte) : Mach :=
  let raw := bs.map (·.b)
  let e := a.eng.code
  let s := m.streamOf a
  if !(fieldAt raw 1 1).testBit e then m.setStreamOf a { s with mode := .tail, since := m.gtc }
  else if m.olderFirst a then m
  else
    let q := raw.drop (0x400 + 256 * e)
    let me := a.eng = .me
    let off := fieldAt q 4 4
    let fl := fieldAt q 12 4
    let live := m.liveAt a off
    let n := fieldAt q 1 1
    let p1 := q.drop (if me then 64 else 128)
    let pend := if me then readPend q 0x10 (min 4 n) ++ readPend p1 8 (min 4 (fieldAt p1 1 1))
      else readPend p1 8 (min 4 (fieldAt p1 1 1)) ++ readPend (q.drop 192) 8 (min 4 (fieldAt (q.drop 192) 1 1))
    let r : Resume :=
      { c := if me then [] else (List.range 5).map (fun i => fieldAt q (0x10 + 2 * i) 2)
        swd := (List.range 7).filter (fun i => fl.testBit (3 + i)), inblk := fl.testBit 0, hwdone := fl.testBit 2
        ports := if a.eng = .ve then (List.range 7).map (fun i => fieldAt q (0x20 + 4 * i) 4) else [] }
    let rs := raw.drop (0x240 + 64 * e)
    (m.takeUp a).setStreamOf a { s with
      mode := .run, since := m.gtc, pc := off, pend := pend, resume := some r
      applied := if me then [] else readApplied (q.drop 64) 4 (fieldAt q 0x3C 4)
      x := (List.range 16).map (fun i => if live.xrm.getLsbD i then readX bs (0x40 + 128 * e + 8 * i) else {})
      rs := ((List.range (min 8 (fieldAt rs 0 1))).map (fun i => fieldAt rs (8 + 4 * i) 4)).reverse }

/-- The vector engine's registers from an area (R204, R315). -/
def Mach.restoreVec (m : Mach) (a : Agent) (bs : List PByte) : Mach :=
  let raw := bs.map (·.b)
  let s := m.streamOf a
  let fpf := BitVec.ofNat 5 (fieldAt raw 0x3C0 4)
  if s.mode = .tail then m.setCtx a.tile a.ctx { m.ctx a.tile a.ctx with fpf := fpf }
  else if s.mode ≠ .run then m
  else
    let live := m.liveAt a s.pc
    let v : VecEng := { fpf := fpf, vrb := fieldAt raw 0x3C4 1, prb := fieldAt raw 0x3C5 1 }
    let lane := fun (o l : Nat) => (bs.drop (o + 4 * l)).take 4
    let v := ((List.range 48).filter (fun i => live.vrm.getLsbD i)).foldl (fun (v : VecEng) i =>
      let o := 0x1000 + 256 * v.physV i
      let r : VReg := { v := (List.range 64).map (fun l => BitVec.ofNat 32 (valOf (lane o l)))
                        p := bits64Of (fun l => anyPois (lane o l)) }
      { v with v := store VReg.blank v.v (v.physV i) r }) v
    let v := ((List.range 16).filter (fun j => live.prm.getLsbD j)).foldl (fun (v : VecEng) j =>
      let w := (bs.drop (0xD00 + 8 * v.physP j)).take 8
      let r : PReg := { v := BitVec.ofNat 64 (valOf w), p := if anyPois w then BitVec.allOnes 64 else 0 }
      { v with p := store PReg.blank v.p (v.physP j) r }) v
    m.setTile a.tile { m.tile a.tile with vec := v }

/-- Consumer counts of the windows of a weight load advanced by one slot, or set. -/
def Mach.setCounts (m : Mach) (ws : List (Nat × Nat × Bool)) (f : Nat → Nat → Nat) : Mach :=
  (ws.mapIdx (fun i w => (i, w.2.1))).foldl (fun (m : Mach) w =>
    let c := m.curCtx
    m.setCurCtx { c with bufs := put Buf.blank c.bufs w.2 { c.buf w.2 with cc := f w.1 (c.buf w.2).cc } }) m

/-- Runs of a weight load repeated, and what its last one does. -/
def reloadLoop (i : Instr) (wt : Win) (sc : Option Win) (setB tr whole : Bool) : Nat → Mach → Active → Mach
  | 0, m, b => match (if whole then mwldLast wt sc setB m b else .next m b) with
    | .next m _ => m
    | _ => m
  | n + 1, m, b => match mwldStep wt sc setB tr m b with
    | .next m b' =>
      let h := i.hdr
      let m := if endsSlot (slotSpan h h.counts.length) b.c h.counts then m.setCounts i.bound (fun _ cc => cc + 1) else m
      reloadLoop i wt sc setB tr whole n m { b' with done := b.done + 1, c := nextIter b.c h.counts }
    | _ => m

/-- What a SETLOAD entry asks to repeat; `at'` is the offset of a begun load at which the stream resumes (R191, R316). -/
def reloadOf (q : List Byte) (at' : Option Nat) : Option Reload :=
  let off := fieldAt q 4 4
  if fieldAt q 0 1 ≠ 4 then none
  else some { setB := fieldAt q 1 1 = 1, off := off, ps := readApplied q 0x10 0, ccs := [fieldAt q 8 4, fieldAt q 12 4]
              part := at' = some off }

/-- The load that a set names until it is repeated. -/
def Reload.mark (r : Reload) : Active := { off := r.off, applied := r.ps, idx := r.ccs.map Int.ofNat }

/-- The first load of a restored ME stream is repeated from the restored scratchpad, without waits, signals or slot actions,
before the stream resumes (R191); it waits for its code. Code that is no weight load any more repeats nothing (DESIGN CHOICE,
log 35). -/
def Mach.reloadTurn (m : Mach) (r : Reload) : Mach :=
  let s := m.str
  let c := m.curCtx
  let done := fun (m : Mach) =>
    let m := m.setCurCtx { c with me := { s with rcache := [], rwant := none } }
    let t := m.tile m.cur.tile
    m.setTile m.cur.tile { t with mat := { t.mat with reloads := t.mat.reloads.drop 1 } }
  match (m.setStr { s with pc := r.off, pend := [], applied := r.ps }).fetch with
  | .wait m => m.setStr { s with rcache := m.str.rcache, rwant := m.str.rwant }
  | .trap _ _ m => done m
  | .ok i _ m => done (match i with
    | .mwld h wt sc setB tr =>
      let b : Active :=
        { instr := i, off := r.off, phase := .body, c := h.counts.map (fun _ => 0), left := h.total, applied := r.ps }
      let n := m.runsOf i r.part
      let m := m.setCounts i.bound (fun k _ => r.ccs.getD k 0)
      reloadLoop i wt sc setB tr (!r.part) (if r.part then min n h.total else h.total) m b
    | _ => m)

/-- The matrix engine's registers and sets from an area (R191, R192). -/
def Mach.restoreMat (m : Mach) (a : Agent) (bs : List PByte) : Mach :=
  let raw := bs.map (·.b)
  let sat := fieldAt raw 0x3C7 1 ≠ 0
  match (m.streamOf a).mode with
  | .run =>
    let q := raw.drop 0x500
    let s := m.streamOf a
    let at_ := if s.resume.any (·.hwdone) then some s.pc else none
    let ra := reloadOf (q.drop 128) at_
    let rb := reloadOf (q.drop 192) at_
    m.setTile a.tile { m.tile a.tile with mat :=
      { mrb := fieldAt raw 0x3C6 1, sat := sat, a := { load := ra.map Reload.mark }, b := { load := rb.map Reload.mark }
        reloads := ra.toList ++ rb.toList } }
  | .tail => m.setCtx a.tile a.ctx { m.ctx a.tile a.ctx with sat := sat }
  | _ => m

/-- Live chunks and row groups from an area (R317, R322). -/
def Mach.restoreData (m : Mach) (n : Nat) (bs : List PByte) : Mach :=
  let raw := bs.map (·.b)
  let scr := setBits (BitVec.ofNat 64 (fieldAt raw 0x20 8))
  let acc := setBits (BitVec.ofNat 64 (fieldAt raw 0x28 8))
  let m := (scr.mapIdx (fun k i => (k, i))).foldl (fun (m : Mach) x =>
    wrRun m (tsKey n (16384 * x.2)) ((bs.drop (0x5000 + 16384 * x.1)).take 16384)) m
  let base := 0x5000 + 16384 * scr.length
  (acc.mapIdx (fun k g => (k, g))).foldl (fun (m : Mach) x =>
    (List.range 512).foldl (fun (m : Mach) i =>
      let w := (bs.drop (base + 4096 * x.1 + 8 * i)).take 8
      let j := 512 * x.2 + i
      m.setAcc n j ⟨BitVec.ofNat 64 (valOf w), (fieldAt raw (0x4000 + j / 8) 1).testBit (j % 8), anyPois w⟩) m) m

/-- A task restored into a context of its tile (R322). -/
def Mach.restoreTask (m : Mach) (j : Job) (i : Nat) (f : FormeEnt) (forme : List Byte) (bs : List PByte) : Mach :=
  let raw := bs.map (·.b)
  let n := f.tile
  let m := m.loadCtx n f.ctx j.id i f.forme.toNat forme
  let c := m.ctx n f.ctx
  let m := m.setCtx n f.ctx { c with
    sems := (List.range 64).map (fun k => fieldAt raw (0x340 + 2 * k) 2)
    bufs := c.bufs.mapIdx (fun k b => { b with
      pc := fieldAt raw (0x800 + 32 * k) 4, cc := fieldAt raw (0x804 + 32 * k) 4
      tags := (List.range 16).map (fun s => fieldAt raw (0x808 + 32 * k + s) 1) })
    maps := (List.range 8).map (fun k =>
      ⟨BitVec.ofNat 64 (fieldAt raw (0xC00 + 32 * k) 8), BitVec.ofNat 64 (fieldAt raw (0xC08 + 32 * k) 8)⟩) }
  let m := m.restoreData n bs
  let m := [Engine.le, .me, .ve, .se].foldl (fun (m : Mach) e => m.restoreStream ⟨n, f.ctx, e⟩ bs) m
  (m.restoreVec ⟨n, f.ctx, .ve⟩ bs).restoreMat ⟨n, f.ctx, .me⟩ bs

/-- A saved task whose area or forme can no longer be read is killed with PAGEABS (R405). -/
def Mach.loseTask (m : Mach) (id i : Nat) (f : FormeEnt) : Mach :=
  match m.job? id with
  | none => m
  | some j =>
    let m := m.setJob ((j.setForme i (fun f => { f with st := .killed })).endLater f.tile i)
    (m.bereft (m.tileParty f.tile) id []).raise .task .pageabs
      { src := srcTile f.tile, eng := 255, id := m.tileParty f.tile, a0 := jobOff id 0, a1 := f.area, detail := f.area }

/-- Every stopped task of a job, in forme-index order; none of them while a page migrates, or the record of one that is lost has
no room (R370). -/
def Mach.restoreAll (m : Mach) (id : Nat) : List (Nat × FormeEnt) → Option Mach
  | [] => some m
  | (i, f) :: fs =>
    match m.job? id with
    | none => some m
    | some j =>
      if f.doom.isSome then none
      else match m.areaBytes f.area.toNat (f.size / 4096 + 1) f.size, m.hubRead f.forme.toNat 1024 i with
      | .wait _, _ | _, .hold => none
      | .done bs _, .ok forme =>
        ((m.restoreTask j i f forme bs).setJob
          (j.setForme i (fun f => { f with st := .loaded, age := m.hub.loads + 1 }))).restoreAll id fs
      | _, _ => if m.roomFor (srcTile f.tile) then (m.loseTask id i f).restoreAll id fs else none

/-- The tasks of a restored job whose weight loads have still to be repeated. -/
def Mach.reloadsLeft (m : Mach) (j : Job) : Bool :=
  j.loadedTasks.any (fun t => !(m.tile t.2.1).mat.reloads.isEmpty && (m.ctx t.2.1 t.2.2).dying.isNone)

/-- The end of a job's restore, once every weight load has been repeated: held packets are performed, its streams resume, and its
RESUMED event is posted (R322). -/
def Mach.revive (m : Mach) (id : Nat) : Mach :=
  match m.job? id with
  | none => m
  | some j =>
    if !j.reviving || m.reloadsLeft j then m
    else
      let m := (m.setJob { j with reviving := false }).unmark (j.loadedTasks.map (fun t => m.tileParty t.2.1))
      m.jobEvent j 4 0

/-- A stopped job goes on (R322): its tasks are restored; then come the reloads, the held packets and the RESUMED event. -/
def Mach.resumeJob (m : Mach) (id : Nat) : Mach :=
  match m.job? id with
  | none => m
  | some j =>
    match m.restoreAll id ((j.formes.mapIdx (fun i f => (i, f))).filter (fun x => x.2.st = .stopped)) with
    | none => m
    | some m => match m.job? id with
      | none => m
      | some j =>
        (m.setJob { j with st := .running, reviving := true }).revive id

/-- RESUME (R304, R306, R322): a stopped job that heads the ranking and whose tiles are free; one that is being restored goes
on. -/
def execResume (job : Nat) (s : State) : Host.Outcome State Fault Refusal :=
  act (fun m =>
    if (m.job? job).any (·.reviving) then m.revive job
    else match m.head? with
    | none => m
    | some j => if j.id = job && j.st = .stopped && m.fits j [] then m.resumeJob job else m) s

end Sys2Proof.Machine
end

