-- ==== Sys2Proof/Machine/HostIf.lean ====
section
/-!
DEFINITION. The host's side: commands (R296 to R300, R426), event rings (R301 to R303, R371, R372), notify pages (R427),
BAR4 (R267, R293, R398, R433), configuration (R364), function resets (R428) and PCIe completions.
-/

namespace Sys2Proof.Machine

open Sys2Proof

/-- A meaning that needs the firmware complex besides the machine proper. -/
def actFw (f : Firmware → Mach → Mach) (s : State) : Host.Outcome State Fault Refusal := .next { s with m := f s.fw s.m }

/-! ## Event rings (R301, R302) -/

/-- Log2 of a ring's entries, and whether the ring has room. -/
def Func.size (x : Func) : Nat := 2 ^ x.log2n
def Func.room (x : Func) : Bool := x.en && decide ((x.tail + 2 ^ 32 - x.head) % 2 ^ 32 < x.size)

/-- Whether a function's ring holds a record back. -/
def Mach.ringHeld (m : Mach) (f : Nat) : Bool := !(m.func f).room && m.hub.raised.any (fun r => r.rings.contains f)

/-- A record's bytes as the k-th of a ring: PHASE in FLAGS bit 0 (R302). -/
def Event.inRing (e : Event) (x : Func) : List Byte :=
  Event.bytes { e with flags := e.flags + (1 - x.tail / x.size % 2) }

/-- Whether a completion must wait for a record of its job that is not in every ring yet (R371). -/
def Mach.behindJob (m : Mach) (r : Raised) : Bool :=
  r.ev.type = 1 && r.ev.a0 ≠ 0 && (m.hub.raised.takeWhile (· ≠ r)).any (fun k =>
    0x80 ≤ k.ev.type && k.ev.a0.toNat % 2 ^ 32 = r.ev.a0.toNat)

/-- Whether a record is one of class TASK or wider of a ripening canary's code: of a supervisor, its cluster's or its tiles';
of QC5, of jobs of the queues that it serves (R351; DEDUCED, log 68). -/
def Mach.canaryBlames (m : Mach) (c : Canary) (r : Raised) : Bool :=
  Cls.task.code ≤ r.ev.type && c.since ≤ r.ev.gtc &&
    (if c.goSv then r.ev.src = srcCluster c.goCl
        || (srcTile 0 ≤ r.ev.src && r.ev.src < srcTile 512 && clusterOf (r.ev.src - srcTile 0) = c.goCl)
      else r.queue.any (fun q => bits64 ((m.queue q).qctl q) 9 3 = 5))

/-- The health monitor keeps the cause of a record that leaves the hub's store. -/
def Firmware.blame (f : Firmware) (m : Mach) (r : Raised) : Firmware :=
  if f.can.state = 2 && f.can.err.isNone && m.canaryBlames f.can r then
    { f with can := { f.can with err := some r.ev.status } } else f

/-- A record is written at the tail of a function's ring. -/
def Mach.writeRecord (m : Mach) (f : Nat) (r : Raised) : Mach :=
  let x := m.func f
  let addr := BitVec.ofNat 64 (x.base.toNat + x.tail % x.size * 64)
  let up := fun (k : Raised) => if k = r then { k with rings := k.rings.erase f } else k
  let left := (m.hub.raised.map up).filter (fun (k : Raised) => !k.rings.isEmpty)
  let out := m.hub.pcie ++ [PcieOut.write f addr (clean (r.ev.inRing x))]
  let m := { m with hub := { m.hub with raised := left, pcie := out } }
  m.setFunc f { x with tail := (x.tail + 1) % 2 ^ 32 }

/-- EVENT_RECORD_POST (R301, R370 to R372): the oldest record for a function's ring is written. -/
def execEventRecordPost (f : Nat) (s : State) : Host.Outcome State Fault Refusal :=
  .next (match s.m.hub.raised.find? (fun r => r.rings.contains f) with
    | none => s
    | some r =>
      if !(s.m.func f).room || s.m.behindJob r then s
      else { s with m := s.m.writeRecord f r, fw := s.fw.blame s.m r })

/-! ## Commands (R297 to R299, R426) -/

def cmdOpc (bs : List Byte) : Nat := fieldAt bs 0 1
def cmdReserved (bs : List Byte) : Bool := cmdOpc bs = 0 || 8 ≤ cmdOpc bs

/-- What R426 refuses with BADFIELD and no record. -/
def cmdBad (bs : List Byte) : Bool :=
  let log2Bad := fieldAt bs 0x10 1 < 12 || 40 < fieldAt bs 0x10 1
  4 ≤ fieldAt bs 1 1 || anySet bs 2 2 || (match cmdOpc bs with
    | 1 => decide (1 < fieldAt bs 0x10 1) || anySet bs 0x11 47
    | 2 | 3 => decide (47 < fieldAt bs 8 1) || anySet bs 9 1 || fieldAt bs 10 2 = 0 || anySet bs 12 52
    | 4 => log2Bad || decide (1 < fieldAt bs 0x11 1) || decide (63 < fieldAt bs 0x12 1) || anySet bs 0x13 1 || anySet bs 0x18 40
    | 5 => log2Bad || anySet bs 0x11 47
    | 6 | 7 => anySet bs 8 56
    | _ => true)

/-- The command at the head of a queue slot that may start: it has been read, its queue core runs, its function's ring holds
no record back, and BARRIER is met (R298, R299, R301); without PLL 1 the queue logic stands still (R356). None starts while a
write to QCTL waits for the open commands (R295; DESIGN CHOICE, log 97). -/
def headCmd (fw : Firmware) (m : Mach) (q : Nat) : Option Cmd :=
  let x := m.queue q
  let w := x.qctl q
  if fw.layer ≠ 2 || !m.hub.serving || !w.getLsbD 0 || x.ctlW.isSome || m.ringHeld (qctlFunc w)
      || !(at' 0 fw.qcctl (bits64 w 9 3)).getLsbD 0 || !m.locked.contains 1 then none
  else match x.cmds.find? (fun c => c.index = x.head) with
    | none => none
    | some c => if (fieldAt (c.bytes.map (·.b)) 1 1).testBit 0 && !x.started.isEmpty then none else some c

/-- A command starts: QHEAD counts it, and it is open until its completion. -/
def Mach.openCmd (m : Mach) (q : Nat) (c : Cmd) : Mach :=
  let x := m.queue q
  let bs := c.bytes.map (·.b)
  m.setQueue q { x with
    head := (x.head + 1) % 2 ^ 32, cmds := x.cmds.filter (fun k => k.index ≠ c.index)
    started := x.started ++ [{ index := c.index, opc := cmdOpc bs, cid := fieldAt bs 4 4, noev := (fieldAt bs 1 1).testBit 1 }] }

/-- The head command starts when its OPC is `opc`; `go` is its effect on a machine where it stands open, none while it cannot
start yet. A refused command has no effect but its completion; one with a reserved OPC is refused by whichever core step
meets it (R426). -/
def startCmd (opc q : Nat) (go : Firmware → Mach → Nat → List Byte → Option Mach) (s : State) :
    Host.Outcome State Fault Refusal :=
  actFw (fun fw m => match headCmd fw m q with
    | none => m
    | some c =>
      let bs := c.bytes.map (·.b)
      if cmdReserved bs || (cmdOpc bs = opc && cmdBad bs) then (m.openCmd q c).cmdDone q c.index 2 none 0 0
      else if cmdOpc bs ≠ opc then m
      else (go fw (m.openCmd q c) c.index bs).getD m) s

/-- A LAUNCH that its checks refuse (R302, R426) (DEDUCED, log 52). -/
def Mach.refuseLaunch (m : Mach) (q i : Nat) (b : Bad) : Option Mach :=
  if m.roomFor srcHub then some ((m.badJob 0 b).cmdDone q i b.cause.code none 0 0) else none

/-- A job enters the waiting set (R298). -/
def Mach.admitJob (m : Mach) (j : Job) : Mach :=
  let j := { j with id := m.hub.nextJob, arrival := m.hub.arrivals, start := m.gtc, gangKey := m.free }
  { m with free := m.free + 1, hub := { m.hub with
    jobs := m.hub.jobs ++ [j], nextJob := m.hub.nextJob + 1, arrivals := m.hub.arrivals + 1 } }

/-- A queue's job enters the waiting set (R298, R300, R302). -/
def Mach.admitTask (m : Mach) (q i : Nat) (bs : List Byte) (j : Job) : Mach :=
  let id := m.hub.nextJob
  let x := m.queue q
  let m := m.setQueue q { x with started := x.started.map (fun c => if c.index = i then { c with job := id } else c) }
  m.admitJob { j with
    queue := some q, index := i, cid := fieldAt bs 4 4
    prio := min j.prio (bits64 (x.qctl q) 2 2), strict := fieldAt bs 0x10 1 = 1 }

/-- Firmware launches a job: its checks are the same, and its PRIO stands (R52, R300); it runs under STRICT (DESIGN CHOICE,
log 86). -/
def Mach.launchJob (m : Mach) (fw : Firmware) (imp : Nat) : Mach :=
  match m.readJob fw imp with
  | .hold => m
  | .bad b => if m.roomFor srcHub then m.badJob 0 b else m
  | .ok j => match m.couldFit j with
    | .hold => m
    | .bad b => if m.roomFor srcHub then m.badJob 0 b else m
    | .ok _ => m.admitJob j

/-- LAUNCH (R56, R298, R300, R305, R324, R426). -/
def execLaunch (q : Nat) (s : State) : Host.Outcome State Fault Refusal :=
  startCmd 1 q (fun fw m i bs => match m.readJob fw (fieldAt bs 8 8) with
    | .hold => none
    | .bad b => m.refuseLaunch q i b
    | .ok j => match m.couldFit j with
      | .hold => none
      | .bad b => m.refuseLaunch q i b
      | .ok _ => some (m.admitTask q i bs j)) s

/-- WAITEV (R69, R298). -/
def execWaitev (q : Nat) (s : State) : Host.Outcome State Fault Refusal :=
  startCmd 2 q (fun _ m i bs =>
    let m := { m with hub := { m.hub with waiters := m.hub.waiters ++ [(q, i, fieldAt bs 8 1, fieldAt bs 10 2)] } }
    some (m.serveHub m.hub.waiters.length)) s

/-- SIGEV (R298, R386). -/
def execSigev (q : Nat) (s : State) : Host.Outcome State Fault Refusal :=
  startCmd 3 q (fun _ m i bs => some ((m.hubSignal (fieldAt bs 8 1) (fieldAt bs 10 2)).cmdDone q i 0 none 0 0)) s

/-- A token command's region refused: the cause of the first failed check of R259 and R265 (DEDUCED, log 43). -/
def hostRegion (ia log2 : Nat) : Option Cause :=
  if (homeDie ia).isNone || areaClass ia ≠ areaClass (ia + 2 ^ log2 - 1) then some .range
  else if ia % 2 ^ log2 ≠ 0 then some .align
  else if !validRegion ia log2 then some .range
  else none

/-- A token message of a command, whose answer completes it. -/
def Mach.hostToken (m : Mach) (q i f op ia log2 sem need : Nat) (data : List PByte) : Mach :=
  (m.requestAs
    { op := op, addr := BitVec.ofNat 64 ia, src := BitVec.ofNat 32 (m.hostParty f), dchip := iaChip ia
      arg := tokArg log2 sem false 0, data := data, bcnt := data.length }
    { write := false, cmd := some (q, i), need := need }).1

/-- Whether a BAR4 write of a function has still to be performed at its home, or a BAR4 read of it from a region (R262, R267). -/
def Mach.hostWrites (m : Mach) (f ia log2 : Nat) : Bool :=
  m.hub.requests.any (fun r => r.party = m.hostParty f
    && (r.op = 2 || (r.op = 1 && ia ≤ r.addr.toNat && r.addr.toNat < ia + 2 ^ log2)))

/-- TOKGRANT (R262, R267, R298): it starts when every BAR4 write of the function has been performed, and every BAR4 read of it
from the region. -/
def execTokgrant (q : Nat) (s : State) : Host.Outcome State Fault Refusal :=
  startCmd 4 q (fun _ m i bs =>
    let f := qctlFunc ((m.queue q).qctl q)
    let me := m.hostParty f
    let ia := fieldAt bs 8 8
    let log2 := fieldAt bs 0x10 1
    let ret := fieldAt bs 0x11 1 = 1
    let sem := fieldAt bs 0x12 1
    let dest := fieldAt bs 0x14 4
    let refuse := fun (c : Cause) => some (m.cmdDone q i c.code none 0 0)
    match hostRegion ia log2 with
    | some c => refuse c
    | none =>
      if !(m.exact me none ia log2).any (fun h => ret || h.ex) then refuse .unowned
      else if m.hostWrites f ia log2 then none
      else if !ret && dest = me then some ((m.signalParty me sem 1 me none).cmdDone q i 0 none 0 0)
      else
        let m := m.dropHolding me none ia log2
        some (if ret then m.hostToken q i f 0x43 ia log2 sem 0 []
          else m.hostToken q i f 0x44 ia log2 sem 0 (pbytes 4 dest false))) s

/-- TOKRECALL (R261, R267, R298). -/
def execTokrecall (q : Nat) (s : State) : Host.Outcome State Fault Refusal :=
  startCmd 5 q (fun _ m i bs =>
    let f := qctlFunc ((m.queue q).qctl q)
    let me := m.hostParty f
    let ia := fieldAt bs 8 8
    let log2 := fieldAt bs 0x10 1
    match hostRegion ia log2 with
    | some c => some (m.cmdDone q i c.code none 0 0)
    | none =>
      if m.atOnce me none ia log2 false then some (m.cmdDone q i 0 none 0 0)
      else if !m.holdRoom me (m.getNeeds me none ia log2) then none
      else some (m.hostToken q i f 0x41 ia log2 0 (m.getNeeds me none ia log2) [])) s

/-- NOPC (R298). -/
def execNopc (q : Nat) (s : State) : Host.Outcome State Fault Refusal :=
  startCmd 6 q (fun _ m i _ => some (m.cmdDone q i 0 none 0 0)) s

/-- TIMESTAMP (R298, R302): the completion carries the sample of GTC. -/
def execTimestamp (q : Nat) (s : State) : Host.Outcome State Fault Refusal :=
  startCmd 7 q (fun _ m i _ => some (m.cmdDone q i 0 (some m.gtc) 0 0)) s

/-! ## Notify pages and QCTL (R294 to R296, R427) -/

/-- A 32-bit write to a slot's notify page (R296, R427): in the very cycle in which the page was unmapped it is the old
function's, whether or not the slot is enabled again; without PLL 1 the queue logic stands still (R356; log 87). -/
def Mach.notifyAt (m : Mach) (q : Nat) (v : Word32) : Mach :=
      let x := m.queue q
      if !m.locked.contains 1 then m
      else match x.unmapped with
        | none => if (x.qctl q).getLsbD 0 then m.notify q v.toNat else m
        | some (f, base) =>
          let m := m.setQueue q { x with late := some (v.toNat, f, base), unmapped := none }
          if !m.roomFor srcHub then m.loseRecord srcHub
          else m.post { src := srcHub, type := Cls.corr.code, status := Cause.notifylate.code, eng := 255
                        detail := BitVec.ofNat 64 (v.toNat * 2 ^ 32 + q * 2 ^ 16 + f * 2 ^ 12) } (distinct [0, f])

/-- NOTIFY_WRITE (R290, R292, R296, R427): a write to a page of the PF or of a VF. -/
def execNotifyWrite (page off size : Nat) (v : Word32) (s : State) : Host.Outcome State Fault Refusal :=
  act (fun m =>
    if off ≠ 0 ∨ size ≠ 4 then m
    else match m.notifySlot page with
      | some q => m.notifyAt q v
      | none => m) s

/-- Bits of QCTL that are not reserved (R295). -/
def qctlMask : Word64 := 0x1FFE3D#64

/-- QCTL_WRITE (R295, R337). -/
def execQctlWrite (by' : Actor) (q : Nat) (v : Word64) (s : State) : Host.Outcome State Fault Refusal :=
  actFw (fun fw m =>
    if 128 ≤ q ∨ !m.writes fw by' (slotReg q 0) then m
    else
      let x := m.queue q
      let v := v &&& qctlMask
      let old := x.qctl q
      -- no queue is enabled before the last layer of the boot chain (R365)
      let v := if fw.layer = 2 then v else v &&& ~~~1#64
      let only := v = old ||| 1
      if only || x.started.isEmpty then m.applyQctl q v else m.setQueue q { x with ctlW := some v }) s

/-! ## BAR4 (R267, R293, R398, R433) -/

/-- Completion statuses of PCIe: successful, unsupported request, retry, completer abort. -/
def cplOk : Nat := 0
def cplUr : Nat := 1
def cplRetry : Nat := 2
def cplAbort : Nat := 4

def Mach.complete4 (m : Mach) (f status : Nat) (data : List PByte) : Mach :=
  { m with hub := { m.hub with pcie := m.hub.pcie ++ [.completion f status data] } }

/-- Size of a function's BAR4, log2: 256 MiB to 1 TiB (R290). -/
def Mach.bar4Log2 (m : Mach) (f : Nat) : Nat := look 28 m.hub.bar4 f

/-- The host sizes a BAR4 through its Resizable BAR capability (R290). -/
def Mach.sizeBar4 (m : Mach) (f log2 : Nat) : Mach :=
  if f < 16 && 28 ≤ log2 && log2 ≤ 40 then { m with hub := { m.hub with bar4 := store 28 m.hub.bar4 f log2 } } else m

/-- The place of a BAR4 access, in device memory or explicit SRAM (R293, R398), inside the BAR (R290). -/
def Mach.bar4Place (m : Mach) (f off n : Nat) : Option (Nat × Place) :=
  let l := ((m.func f).b4.toNat + off) % 2 ^ 43
  if 2 ^ m.bar4Log2 f < off + n then none
  else match m.homePlace l n with
  | some (.mem d o) => some (l, .mem d o)
  | some (.cpool k o) => some (l, .cpool k o)
  | some (.dpool k o) => some (l, .dpool k o)
  | _ => none

/-- Whether a function holds the token that an access needs. -/
def Mach.hostHolds (m : Mach) (f l n : Nat) (ex : Bool) : Bool :=
  m.hub.hold.any (fun h => h.party = m.hostParty f && h.covers (m.hub.chip * 2 ^ 43 + l) n && (h.ex || !ex))

/-- Advanced Error Reporting logs the header of an access that is refused (R398). -/
def Mach.logHeader (m : Mach) (f : Nat) (write : Bool) (off : Nat) : Mach :=
  { m with hub := { m.hub with aer := m.hub.aer ++ [(f, write, BitVec.ofNat 64 off)] } }

/-- Pieces of `n` bytes from `l`, none of which passes the end of a line of 256 (R281); `fuel` bounds their number. -/
def linePieces (l n : Nat) : Nat → List (Nat × Nat)
  | 0 => []
  | fuel + 1 =>
    let k := min n (256 - l % 256)
    if n = 0 then [] else (l, k) :: linePieces (l + k) (n - k) fuel

/-- The requests of a BAR4 read go to their homes as party accesses of the function (R267, R293): the tags, in order. -/
def Mach.hostParts (m : Mach) (f : Nat) : List (Nat × Nat) → Mach × List (Nat × Option (List PByte))
  | [] => (m, [])
  | (l, n) :: t =>
    let (m, tag) := m.request (readPkt (m.hub.chip * 2 ^ 43 + l) n (m.hostParty f)) none none false
    let (m, ts) := m.hostParts f t
    (m, (tag, none) :: ts)

/-- BAR4_READ (R374, R398, R433) (DEDUCED, log 44). -/
def execBar4Read (f off len : Nat) (s : State) : Host.Outcome State Fault Refusal :=
  actFw (fun fw m =>
    if fw.minimal then
      (if f = 0 then m.complete4 f cplOk (rdRun m (flashKey off) len) else (m.logHeader f false off).complete4 f cplUr [])
    else match m.bar4Place f off len with
      | none => (m.logHeader f false off).complete4 f cplUr []
      | some (l, _) =>
        if !m.hostHolds f l len false then (m.logHeader f false off).complete4 f cplAbort []
        else
          let (m, ts) := m.hostParts f (linePieces l len (len + 1))
          { m with hub := { m.hub with hreads := m.hub.hreads ++ [{ fn := f, parts := ts }] } }) s

/-- Flash bytes staged, and the pages whose last byte is written programmed (R433). -/
def stageFlash (s : State) (off : Nat) (data : List Byte) : State :=
  let st := s.fw.staged.filter (fun e => !(off ≤ e.1 && e.1 < off + data.length)) ++ data.mapIdx (fun i b => (off + i, b))
  let done := fun (o : Nat) => let last := o / 4096 * 4096 + 4095; off ≤ last && last < off + data.length
  let mem := (st.filter (fun e => done e.1)).foldl (fun mm e => store unwritten mm (flashKey e.1) e.2) s.m.mem
  { s with fw := { s.fw with staged := st.filter (fun e => !done e.1) }, m := { s.m with mem := mem } }

/-- The requests of a BAR4 write go to their homes. -/
def Mach.hostPut (m : Mach) (f : Nat) (data : List Byte) (ps : List (Nat × Nat)) : Mach :=
  ps.foldl (fun (m : Mach) x =>
    let bs := clean ((data.drop (x.1 - (ps.headD (0, 0)).1)).take x.2)
    (m.request { op := 2, addr := BitVec.ofNat 64 (m.hub.chip * 2 ^ 43 + x.1), src := BitVec.ofNat 32 (m.hostParty f)
                 dchip := m.hub.chip, data := bs, bcnt := bs.length } none none true).1) m

/-- BAR4_WRITE (R267, R398, R433). -/
def execBar4Write (f off : Nat) (data : List Byte) (s : State) : Host.Outcome State Fault Refusal :=
  .next (
    let no : State := { s with m := s.m.logHeader f true off }
    if s.fw.minimal then (if f = 0 then stageFlash s off data else no)
    else match s.m.bar4Place f off data.length with
      | none => no
      | some (l, _) =>
        if !s.m.hostHolds f l data.length true then no
        else { s with m := s.m.hostPut f data (linePieces l data.length (data.length + 1)) })

/-! ## Configuration and link (R364) -/

/-- CONFIG_REQUEST (R364). -/
def execConfigRequest (f reg : Nat) (s : State) : Host.Outcome State Fault Refusal :=
  act (fun m =>
    if m.hub.pcieReady then m.complete4 f cplOk (clean (bytesOf 4 (Config.configSpace f reg).toNat))
    else m.complete4 f cplRetry []) s

/-- PCIE_LINK_UP (R364). -/
def execPcieLinkUp (speed width : Nat) (flitMode : Bool) (s : State) : Host.Outcome State Fault Refusal :=
  act (fun m => { m with hub := { m.hub with
    pcieUp := true, pcieSpeed := speed % 16, pcieWidth := width % 32, pcieFlit := flitMode } }) s

/-- READY set, with its message. -/
def Mach.pcieReadyOn (m : Mach) : Mach :=
  if m.hub.pcieReady then m else { m with hub := { m.hub with pcieReady := true, pcie := m.hub.pcie ++ [.ready] } }

/-- PCIECTL_READY (R337, R364): a write of 0 is discarded. -/
def execPciectlReady (by' : Actor) (v : Word64) (s : State) : Host.Outcome State Fault Refusal :=
  actFw (fun fw m => if m.writes fw by' 0x5000 && v.getLsbD 0 then m.pcieReadyOn else m) s

/-! ## PCIe completions (R238, R296) -/

/-- The DATAERR record of bytes that the host has not delivered whole: the hub is the source that detects them (R373, R396;
DESIGN CHOICE, log 88). -/
def Mach.hostPoison (m : Mach) (r : PRead) (bs : List PByte) : Mach :=
  if !anyPois bs then m
  else m.raise .defer .dataerr
    { src := srcHub, flags := 2, eng := 255, a1 := r.addr
      detail := BitVec.ofNat 64 (2 * 2 ^ 48 + min 64 ((bs.length + 7) / 8) * 2 ^ 32) }

/-- PCIE_COMPLETION: bytes that the host does not deliver come poisoned, which the hub reports (R373). -/
def execPcieCompletion (tag : Nat) (data : List PByte) (s : State) : Host.Outcome State Fault Refusal :=
  act (fun m => match m.hub.preads.find? (fun r => r.tag = tag) with
    | none => m
    | some r =>
      let bs := (data ++ List.replicate r.len (⟨0, true⟩ : PByte)).take r.len
      if anyPois bs && !m.roomFor srcHub then m
      else
      let m := { m with hub := { m.hub with preads := m.hub.preads.erase r } }.hostPoison r bs
      match r.why with
      | .command q i =>
        let x := m.queue q
        m.setQueue q { x with cmds := x.cmds ++ [{ index := i, bytes := bs }] }
      | .remote p => m.answerRead p bs) s

/-! ## Function resets (R428) -/

/-- Steps 1 to 4 for one function; the ids of the jobs ended. -/
def Mach.resetFunction (m : Mach) (f : Nat) : Mach × List Nat :=
  let qs := (List.range 128).filter (fun q => qctlFunc ((m.queue q).qctl q) = f)
  let ids := (m.hub.jobs.filter (fun j => j.queue.any qs.contains)).map (·.id)
  let m := qs.foldl (fun (m : Mach) q =>
    let x := m.queue q
    m.setQueue q { x with ctl := x.ctl.map (· &&& ~~~1#64), ctlW := none, cmds := [], started := [] }) m
  let m := (m.hub.queues.map (·.1)).foldl (fun (m : Mach) q =>
    let x := m.queue q
    m.setQueue q { x with
      late := x.late.filter (fun l => l.2.1 ≠ f), unmapped := x.unmapped.filter (fun u => u.1 ≠ f) }) m
  let m := { m with hub := { m.hub with
    waiters := m.hub.waiters.filter (fun w => !qs.contains w.1)
    preads := m.hub.preads.filter (fun r => match r.why with
      | .command q _ => !qs.contains q
      | _ => true) } }
  let m := ids.foldl Mach.endJob m
  let js := m.hub.jobs.map (fun (j : Job) => if ids.contains j.id then { j with queue := none } else j)
  let m := { m with hub := { m.hub with jobs := js } }
  let m := (m.bereft (m.hostParty f) 0 []).orphan (m.hostParty f)
  let m := { m with hub := { m.hub with hreads := m.hub.hreads.filter (fun h => h.fn ≠ f) } }
  let m := m.setFunc f {}
  let rs := (m.hub.raised.map (fun (r : Raised) => { r with rings := r.rings.erase f })).filter
    (fun (r : Raised) => !r.rings.isEmpty)
  ({ m with hub := { m.hub with raised := rs } }, ids)

/-- The functions that a reset concerns: of the PF, all. -/
def resetOf (f : Nat) : List Nat := if f = 0 then List.range 16 else [f]

/-- What the health monitor keeps of the records that a function's reset drops, whose rings are all reset (R351). -/
def Firmware.blameAll (fw : Firmware) (m : Mach) (fs : List Nat) : Firmware :=
  (m.hub.raised.filter (fun r => r.rings.all fs.contains)).foldl (fun fw r => fw.blame m r) fw

/-- FUNCTION_LEVEL_RESET (R428): a job's record waits where the hub's store is full (R370). -/
def execFunctionLevelReset (f : Nat) (s : State) : Host.Outcome State Fault Refusal :=
  .next { s with
    fw := s.fw.blameAll s.m (resetOf f)
    m := if f = 0 then (resetOf f).foldl (fun (m : Mach) k => (m.resetFunction k).1) s.m
      else
        let (m, ids) := s.m.resetFunction f
        ids.foldl (fun (m : Mach) id => m.failJob id .funcreset (f * 2 ^ 12)) m }

end Sys2Proof.Machine
end

