-- ==== Sys2Proof/Machine/Control.lean ====
section
/-!
DEFINITION. Writes to the control registers (R6, R236 to R248, R276, R287, R294, R301, R307 to R311, R326, R337 to R343, R356 to
R364, R420 to R425, R434): ports, the rehash, a lost chip, clocks, training, and the registers without behaviour of their own.
-/

namespace Sys2Proof.Machine

open Sys2Proof

/-- A write that an actor makes to a register which it may write; else it is discarded (R337). -/
def regWrite (by' : Actor) (off : Nat) (f : Mach → Mach) (s : State) : Host.Outcome State Fault Refusal :=
  actFw (fun fw m => if m.writes fw by' off then f m else m) s

/-- An operation that waits for room for its record, or for a page (R242, R370). -/
def Mach.holdOp (m : Mach) (i : Instr) : Mach := { m with hub := { m.hub with ops := m.hub.ops ++ [i] } }

/-! ## Plane ports (R362) -/

/-- LKCTL's fields written: setting EN starts training, clearing it takes the port DOWN at once. -/
def Mach.lkctl (m : Mach) (plane : Nat) (en media : Bool) : Mach :=
  let l := m.link plane
  let m := m.setLink plane { l with en := en, media := media }
  if en && !l.en then m.setLink plane { m.link plane with state := 1 }
  else if !en && l.en then m.linkDown plane
  else m

/-- LKCTL_EN. -/
def execLkctlEn (by' : Actor) (plane : Nat) (v : Word64) (s : State) : Host.Outcome State Fault Refusal :=
  regWrite by' (0x4000 + 0x100 * plane) (fun m =>
    if plane < 8 then m.lkctl plane (v.getLsbD 0) (v.getLsbD 1) else m) s

/-! ## A lost chip (R407, R408, R425) -/

/-- The share or exclusive token of a chip's parties goes from an entry. -/
def TokEntry.lose (e : TokEntry) (chip : Nat) : TokEntry :=
  if e.excl then { e with pois := e.pois || decide (partyChip e.party = chip) }
  else
    let gone := (e.sharers.filter (fun p => partyChip p = chip)).length
    { e with share := e.share - gone, sharers := e.sharers.filter (fun p => partyChip p ≠ chip) }

/-- The TASK record of a task whose holding is reclaimed for loss of contact (R408). -/
def Mach.lostRec (m : Mach) (h : Holding) (ctx : Bool) : Event :=
  { src := srcTile (partyTile h.party), type := Cls.task.code, status := Cause.toklost.code, flags := if ctx then 8 else 0
    eng := 255, id := h.party, gtc := m.gtc, a0 := jobOff h.job 0, a1 := h.base
    detail := BitVec.ofNat 64 (h.party * 2 ^ 32 + h.ex.toNat * 256 + h.log2) }

/-- The kill of a live task whose holding is reclaimed for loss of contact: one loaded in a context, or stopped (R408). -/
def Mach.killLost (m : Mach) (h : Holding) : Mach :=
  if partyKind h.party ≠ 0 then m
  else
    let n := partyTile h.party
    let m := [false, true].foldl (fun (m : Mach) c =>
      let x := m.ctx n c
      if x.loaded && x.job = h.job then m.kill n c (m.lostRec h c) else m) m
    match m.job? h.job with
    | none => m
    | some j => m.setJob { j with formes := j.formes.map (fun f =>
        if f.st = .stopped && f.tile = n then { f with doom := f.doom.or (some (m.lostRec h f.ctx)) } else f) }

/-- Contact with a chip is lost: the homes of this device reclaim what its parties hold, and what this device's parties hold
of its homes is gone. -/
def Mach.chipLost (m : Mach) (chip : Nat) : Mach :=
  let m := { m with hub := { m.hub with lostChips := distinct (m.hub.lostChips ++ [chip]) } }
  let lost := fun (h : Holding) => decide (iaChip h.base.toNat = chip)
  let mine := (m.clusters.flatMap (fun e => e.2.hold)).filter lost
  let m := mine.foldl Mach.killLost m
  let m := mine.foldl (fun (m : Mach) h => match h.ex, holderCluster h.party with
    | true, some cl => m.dropDirty cl h.base.toNat (2 ^ h.log2)
    | _, _ => m) m
  let m := (m.clusters.map (·.1)).foldl (fun (m : Mach) c =>
    m.setCluster c { m.cluster c with hold := (m.cluster c).hold.filter (fun h => !lost h) }) m
  let m := { m with hub := { m.hub with hold := m.hub.hold.filter (fun h => !lost h) } }
  (List.range 4).foldl (fun (m : Mach) d =>
    let x := m.die d
    (m.setDie d { x with tok := x.tok.map (fun e => (e.1, e.2.lose chip)) }).homeServe d) m.failDue

/-- CHIPLOST. -/
def execChiplost (by' : Actor) (v : Word64) (s : State) : Host.Outcome State Fault Refusal :=
  regWrite by' 0x40 (fun m => m.chipLost (bits64 v 0 21)) s

/-! ## The rehash (R422 to R424) -/

/-- Whether a hash value's plane has been declared dead. -/
def Mach.deadHash (m : Mach) (h : Nat) : Bool := m.hub.dead.getLsbD (pmapEntry m.hub.pmap h)

/-- Every plane is dead: the device stops serving, every job ends, and it counts as lost to itself (R366, R423, R425)
(DEDUCED, log 60). -/
def Mach.allDead (m : Mach) : Mach := (m.raise .device .plane { src := srcHub, eng := 255 }).stopServing.chipLost m.hub.chip

/-- PREHASH (R422, R423): the hub holds the write that ends its service until its record has room (R370). -/
def execPrehash (by' : Actor) (v : Word64) (s : State) : Host.Outcome State Fault Refusal :=
  regWrite by' 0x30 (fun m =>
    if m.hub.rehash = 1 then m
    else if bits64 v 8 8 = 0xFF && !m.roomFor srcHub then m.holdOp (.prehash by' v)
    else
      let dead := BitVec.ofNat 8 (bits64 v 8 8)
      if dead = 0 then { m with hub := { m.hub with dead := 0 } }
      else
        let m := { m with hub := { m.hub with dead := dead, rehash := 1 } }
        let m := (List.range 8).foldl (fun (m : Mach) p =>
          if dead.getLsbD p then m.lkctl p false (m.link p).media else m) m
        if dead = 0xFF#8 then m.allDead else m) s

/-- The map after the rehash: entries that name live planes unchanged. -/
def rehashed (w : Word32) (dead : BitVec 8) : Word32 :=
  let live := (List.range 8).filter (fun p => !dead.getLsbD p)
  syl ((List.range 8).map (fun h =>
    let e := pmapEntry w h
    (3 * h, if dead.getLsbD e then live.getD (h % live.length) 0 else e)))

/-- The job that issued a request, or whose bytes a write-back carries (R246, R424). -/
def Mach.jobOf (m : Mach) (r : Request) : Option Nat :=
  match r.agent with
  | some a => some (m.ctx a.tile a.ctx).job
  | none => match r.job.or r.whose with
    | some j => some j
    | none => if partyKind r.party = 0 then m.liveTask r.party else none

/-- Requests of other devices that came on a dead plane and have not been performed are performed no more; what waits for a
dead port goes with it (DEDUCED, log 61). -/
def Mach.dropDead (m : Mach) : Mach :=
  let dead := fun (p : Packet) => m.hub.dead.getLsbD p.plane && partyChip p.src.toNat ≠ m.hub.chip && opVc p.op ≠ 1
    && p.op ≠ 0x42 && p.op ≠ 0x45 && p.op ≠ 0x49
  { m with
    net := m.net.filter (fun p => !dead p)
    homeq := m.homeq.filter (fun p => !dead p)
    dies := m.dies.map (fun e => (e.1, { e.2 with waits := e.2.waits.filter (fun w => !dead w.pkt) }))
    links := m.links.map (fun e => if m.hub.dead.getLsbD e.1 then (e.1, { e.2 with txq := [] }) else e) }

/-- The record of a finished rehash. Its DETAIL holds DEAD in bits 15 to 8 and the new PMAP in bits 23 to 0, which overlap:
bits 15 to 8 are open (DESIGN CHOICE, log 11). -/
def Mach.rehashDone (m : Mach) : Mach :=
  let (w, m) := fresh m
  let detail := (m.hub.pmap.setWidth 64 &&& 0xFF00FF#64) ||| (w &&& 0xFF00#64)
  m.raise .corr .plane { src := srcHub, eng := 255, detail := detail }

/-- Jobs with a request outstanding, on a hash value whose plane is dead, that does not wait for the rehash: they fail with it
(R424). -/
def Mach.planeJobs (m : Mach) : List Nat :=
  distinct ((m.hub.requests.filter (fun r => m.deadHash r.h
    && !m.hub.waiting.any r.carriedBy)).filterMap m.jobOf)

/-- What has waited for the rehash is sent, in the order of issue, each request on the plane that its hash now names (R423). -/
def Mach.resend (m : Mach) (ps : List Packet) : Mach :=
  let onPlane := fun (r : Request) =>
    if ps.any r.carriedBy then { r with plane := pmapEntry m.hub.pmap r.h } else r
  ps.foldl Mach.send { m with hub := { m.hub with requests := m.hub.requests.map onPlane } }

/-- PRHTIME (R423, R424): GTC has reached T; a job's end waits where its record has no room (R370). -/
def execPrhtime (s : State) : Host.Outcome State Fault Refusal :=
  act (fun m =>
    if m.hub.rehash ≠ 1 ∨ m.hub.dead = 0xFF#8 ∨ m.gtc < (m.reg 0x38).toNat then m
    else
      let ids := m.planeJobs
      let waits := m.hub.waiting
      let m := m.discard (fun r => (m.deadHash r.h && !waits.any r.carriedBy)
        || (waits.any r.carriedBy && (m.jobOf r).any ids.contains))
      let m := m.dropDead.serveHomes
      let m := ids.foldl (fun (m : Mach) id => m.failJob id .plane 0) m
      let w := rehashed m.hub.pmap m.hub.dead
      let waits := m.hub.waiting
      let m := { m with hub := { m.hub with pmap := w, pmapW := w, rehash := 2, waiting := [] } }
      (m.resend waits).rehashDone) s

/-! ## Chip id, plane map, pool divisions, translations (R236, R241, R247, R248, R276, R363) -/

/-- CHIPID_WRITE. -/
def execChipidWrite (by' : Actor) (v : Word64) (s : State) : Host.Outcome State Fault Refusal :=
  regWrite by' 0 (fun m =>
    if (List.range 8).any (fun p => (m.link p).en) || m.holdsTask (fun _ => true) then m
    else { m with hub := { m.hub with chip := bits64 v 0 21 } }) s

/-- PMAP_WRITE. -/
def execPmapWrite (by' : Actor) (v : Word64) (s : State) : Host.Outcome State Fault Refusal :=
  regWrite by' 8 (fun m => ({ m with hub := { m.hub with pmapW := BitVec.ofNat 32 (bits64 v 0 24) } }).settlePmap) s

/-- CPSPLIT_WRITE. -/
def execCpsplitWrite (by' : Actor) (cluster : Nat) (v : Word64) (s : State) : Host.Outcome State Fault Refusal :=
  regWrite by' (clusterReg cluster 0) (fun m =>
    if cluster < 32 then (m.setCluster cluster { m.cluster cluster with explW := bits64 v 0 3 }).settleCluster cluster else m) s

/-- DPSPLIT_WRITE. -/
def execDpsplitWrite (by' : Actor) (die : Nat) (v : Word64) (s : State) : Host.Outcome State Fault Refusal :=
  regWrite by' (dieReg die 0x10) (fun m =>
    if die < 4 then (m.setDie die { m.die die with explW := bits64 v 0 3 }).settleDie die else m) s

/-- TCINV (R241): the model keeps no stale translation, so that the invalidation is done at once and the register reads as
zero (DEDUCED, log 72). -/
def execTcinv (by' : Actor) (die : Nat) (_v : Word64) (s : State) : Host.Outcome State Fault Refusal :=
  regWrite by' (dieReg die 8) (fun m => if die < 4 then m.setDie die { m.die die with tcinv := 0 } else m) s

/-- HSIG (R339, R386). -/
def execHsig (by' : Actor) (v : Word64) (s : State) : Host.Outcome State Fault Refusal :=
  regWrite by' (fwReg 0x1200) (fun m => m.hubSignal (bits64 v 16 6) (bits64 v 0 16)) s

/-! ## Clocks (R356, R358) -/

/-- PLLC's EN and divider bits, the dividers alone, and EN. -/
def pllMask : Word64 := 0x41FFFF00#64
def pllDivs (v : Word64) : Word64 := v &&& 0x01FFFF00#64

/-- PLLC as written: a write that changes a divider while EN = 1 is discarded; clearing EN stops the domain. -/
def Mach.pllc (m : Mach) (i : Nat) (v : Word64) : Mach :=
  let r := 0x2000 + 8 * i
  let old := m.reg r
  if old.getLsbD 30 && pllDivs v ≠ pllDivs old then m
  else
    let m := m.setReg r (v &&& pllMask)
    if v.getLsbD 30 then m else { m with locked := m.locked.filter (· ≠ i) }

/-- PLLC_WRITE. -/
def execPllcWrite (by' : Actor) (i : Nat) (v : Word64) (s : State) : Host.Outcome State Fault Refusal :=
  regWrite by' (0x2000 + 8 * i) (fun m => if i < 35 then m.pllc i v else m) s

/-- Whether a PLL's dividers let it lock: 156.25 MHz over M from 5 to 50 MHz, times N from 2.0 to 4.4 GHz
(DEDUCED, log 59). -/
def pllCan (v : Word64) : Bool :=
  let n := bits64 v 8 10
  let d := bits64 v 18 5
  v.getLsbD 30 && bits64 v 23 2 ≠ 3 && d ≠ 0 && 500 * d ≤ 15625 && 15625 ≤ 5000 * d
    && 200000 * d ≤ 15625 * n && 15625 * n ≤ 440000 * d

/-- PLL_LOCK. -/
def execPllLock (i : Nat) (s : State) : Host.Outcome State Fault Refusal :=
  act (fun m => if i < 35 && pllCan (m.reg (0x2000 + 8 * i)) && !m.locked.contains i then { m with locked := i :: m.locked } else m) s

/-- GTCADJ: the shift still to apply grows by the signed value written. -/
def execGtcadj (by' : Actor) (v : Word64) (s : State) : Host.Outcome State Fault Refusal :=
  regWrite by' 0x28 (fun m => { m with adjLeft := m.adjLeft + v.toInt }) s

/-! ## HBM4 training (R361) -/

def Die.stack (x : Die) (st : Nat) : Stack := if st = 0 then x.st0 else x.st1
def Die.setStack (x : Die) (st : Nat) (t : Stack) : Die := if st = 0 then { x with st0 := t } else { x with st1 := t }

/-- HMCTL written with GO: the step runs when every step before it has. -/
def Stack.go (t : Stack) (v : Word64) : Stack :=
  let n := bits64 v 0 4
  if t.busy || !v.getLsbD 4 || n = 0 || 9 < n || t.done + 1 < n then t
  else { t with busy := true, fail := false, step := n, all := v.getLsbD 5 }

/-- HMCTL_GO. -/
def execHmctlGo (by' : Actor) (die stack : Nat) (v : Word64) (s : State) : Host.Outcome State Fault Refusal :=
  regWrite by' (dieReg die (0x1000 + 0x1000 * stack)) (fun m =>
    if die < 4 ∧ stack < 2 then m.setDie die ((m.die die).setStack stack (((m.die die).stack stack).go v)) else m) s

/-- A step completes, or fails. -/
def Stack.finish (t : Stack) (ok : Bool) (rep : Nat) : Stack :=
  if !t.busy then t
  else if !ok then { t with busy := false, fail := true }
  else
    let t := { t with done := t.step, rep := if t.step = 3 then rep % 256 else t.rep }
    if t.all && t.step < 9 then { t with step := t.step + 1 } else { t with busy := false }

/-- HBM_STEP_COMPLETE: `rep` lanes were remapped, where the step is the lane test. -/
def execHbmStepComplete (die stack : Nat) (ok : Bool) (rep : Nat) (s : State) : Host.Outcome State Fault Refusal :=
  act (fun m =>
    if die < 4 ∧ stack < 2 then m.setDie die ((m.die die).setStack stack (((m.die die).stack stack).finish ok rep)) else m) s

/-! ## Registers without behaviour of their own (R6) -/

/-- A value held within bounds. -/
def clamp (lo hi v : Nat) : Nat := max lo (min hi v)

/-- SCRUBCTL's fields (R395): a PASS of 0 stores 1. -/
def scrubctl (v : Word64) : Word64 := BitVec.ofNat 64 (bits64 v 16 1 * 2 ^ 16 + max 1 (bits64 v 0 16))

/-- Hub block: FDBOUND, AGELIM, PRHTIME, HWINi, PLIMIT, EWTi, LKERRp, the gang table. -/
def Mach.writeHub (m : Mach) (r : Nat) (v : Word64) : Mach :=
  let keep := fun (n : Nat) => m.setReg r (BitVec.ofNat 64 n)
  if r = 0x10 then keep (max 4000 (bits64 v 0 32))
  else if r = 0x18 then keep (bits64 v 0 48)
  else if r = 0x38 then m.setReg r v
  else if 0x1000 ≤ r ∧ r < 0x1200 then m.setReg r (v &&& 0xFFFFFFFFFFFF00F1#64)
  else if r = 0x3010 then keep (clamp 400 1800 (bits64 v 0 11))
  else if 0x3100 ≤ r ∧ r < 0x3158 then m.takeEnergy.setReg r (BitVec.ofNat 64 (bits64 v 0 16))
  else if 0x4000 ≤ r ∧ r < 0x4800 ∧ r % 0x100 = 0x10 then
    let p := (r - 0x4000) / 0x100
    if bits64 v 0 8 = 0xFF then m.setLink p { m.link p with downs := 0 } else m
  else if 0x6000 ≤ r ∧ r < 0x6200 ∧ r % 0x20 ≠ 0x18 then m.setReg r v
  else m

/-- Queue slot: QBASE, QSAVE, QSAVESZ. -/
def Mach.writeSlot (m : Mach) (q r : Nat) (v : Word64) : Mach :=
  let x := m.queue q
  let page := v &&& ~~~0xFFF#64
  if r = 8 then m.setQueue q { x with base := page }
  else if r = 0x20 then m.setQueue q { x with save := page }
  else if r = 0x28 then m.setQueue q { x with savesz := v }
  else m

/-- Function block: EVCTL, EVBASE, EVHEAD, B4BASE. -/
def Mach.writeFunc (m : Mach) (f r : Nat) (v : Word64) : Mach :=
  let x := m.func f
  if r = 0 then m.setFunc f { x with en := v.getLsbD 0, log2n := bits64 v 16 5 }
  else if r = 8 then m.setFunc f { x with base := v &&& ~~~0xFFF#64 }
  else if r = 0x10 then m.setFunc f { x with head := bits64 v 0 32 }
  else if r = 0x20 then m.setFunc f { x with b4 := v &&& ~~~0xFFFFFFF#64 }
  else m

/-- Die block: PDBASE, SCRUBCTL; FRCAP and THERM's thresholds, which the policy core alone writes. -/
def Mach.writeDie (m : Mach) (policy : Bool) (d r : Nat) (v : Word64) : Mach :=
  let x := m.die d
  if r = 0 then m.setDie d { x with pdbase := v &&& 0x1FFFF00000#64 }
  else if r = 0x18 then m.setReg (dieReg d r) (scrubctl v)
  else if r = 0x20 then (if policy then m.setDie d { x with frcap := bits64 v 0 32 } else m)
  else if r = 0x28 then (if policy then m.setDie d { x with tcrit := bits64 v 24 8, thot := bits64 v 16 8 } else m)
  else m

/-- Cluster block: CLK_SWALLOW (held at 48 by heat), TKBASE, TKPARTY, SCRUBCTL, DBMASK, and SVRAM while RUN is 0. -/
def Mach.writeCluster (m : Mach) (c r : Nat) (v : Word64) : Mach :=
  let x := m.cluster c
  if r = 0x10 then m.setCluster c { x with swallowW := if m.heldHot c then 48 else min 48 (bits64 v 0 6) }
  else if r = 0x100 then m.setCluster c { x with tkbase := v }
  else if r = 0x108 then m.setCluster c { x with tkparty := bits64 v 0 32 }
  else if r = 0x200 then m.setReg (clusterReg c r) (scrubctl v)
  else if r = 0x1200 then m.setCluster c { x with dbmask := v }
  else if 0x20000 ≤ r then (if x.svrun then m else wrRun m (m.svram c r) (pbytes 8 v.toNat false))
  else m

/-- Tile block: ME_RLIM; ME_ST's ME_SAT, which a 1 clears; ME_PROOF, whose QUAR, TAKEN and OFF the policy core alone writes, while
no context of the tile holds a task (DEDUCED, log 55). -/
def Mach.writeTile (m : Mach) (policy : Bool) (n r : Nat) (v : Word64) : Mach :=
  let t := m.tile n
  if r = 0 then m.setTile n { t with rlim := clamp 4096 16777216 (bits64 v 0 25) }
  else if r = 8 then (if v.getLsbD 0 then m.clearSat n else m)
  else if r = 0x10 then
    let t := { t with row := bits64 v 8 6, col := bits64 v 0 6 }
    m.setTile n (if policy && !m.holdsTask (fun k => k = n) then
        { t with quar := v.getLsbD 16, taken := v.getLsbD 15, off := v.getLsbD 14 }
      else t)
  else m

/-- Firmware-complex block: CANIMG, QCCTLq and KSLOT (the policy core alone), QNONCE. -/
def writeFw (policy : Bool) (r : Nat) (v : Word64) (s : State) : State :=
  if r = 0x28 then { s with m := s.m.setReg (fwReg r) (v &&& ~~~0xFFF#64) }
  else if r = 0x4800 then (if policy then { s with m := s.m.setReg (fwReg r) v } else s)
  else if 0x2000 ≤ r ∧ r < 0x2600 ∧ r % 0x100 = 0 then
    if policy then { s with fw := { s.fw with qcctl := put 0 s.fw.qcctl ((r - 0x2000) / 0x100) (v &&& ~~~0xFFE#64) } } else s
  else if 0x4000 ≤ r ∧ r < 0x4020 then
    let o := r - 0x4000
    let old := s.fw.nonce ++ List.replicate (32 - s.fw.nonce.length) 0
    { s with fw := { s.fw with nonce := old.take o ++ bytesOf 8 v.toNat ++ old.drop (o + 8) } }
  else s

/-- REGISTER_WRITE (R6, R337): an aligned write of eight bytes at a BAR0 offset. A register whose write is a row of its own
is written by that row. -/
def execRegisterWrite (by' : Actor) (off : Nat) (v : Word64) (s : State) : Host.Outcome State Fault Refusal :=
  .next (
    let off := s.m.regAt by' off
    if off % 8 ≠ 0 ∨ !s.m.writes s.fw by' off then s
    else
      let policy := decide (by' = .policy)
      let (b, r) := blockOf off
      match b with
      | .hub => { s with m := s.m.writeHub r v }
      | .slot q => { s with m := s.m.writeSlot q r v }
      | .func f => { s with m := s.m.writeFunc f r v }
      | .fw => writeFw policy r v s
      | .die d => { s with m := s.m.writeDie policy d r v }
      | .cluster c => { s with m := s.m.writeCluster c r v }
      | .tile n => { s with m := s.m.writeTile policy n r v }
      | .reserved => s)

end Sys2Proof.Machine
end

