-- ==== Sys2Proof/Machine/Supervisor.lean ====
section
/-!
DEFINITION. The cluster supervisors: token operations (R258, R266), doorbells (R343), acting on trapped streams (R378), the
watchdog's action register (R416) and SVCTL (R342).
-/

namespace Sys2Proof.Machine

open Sys2Proof

/-! ## Token operations (R266) -/

/-- TKOP's fields. -/
def tkLog2 (v : Word64) : Nat := bits64 v 20 6
def tkCode (v : Word64) : Nat := bits64 v 17 3
def tkN (v : Word64) : Nat := bits64 v 13 4
def tkSem (v : Word64) : Nat := bits64 v 7 6
def tkOnb (v : Word64) : Bool := v.getLsbD 6 && decide (tkCode v < 2)

/-- The party that an operation is for. -/
def Mach.tkFor (m : Mach) (c : Nat) (v : Word64) (party : Nat) : Nat := if tkOnb v then party else m.supParty c

/-- The record of a refused operation. -/
def Mach.tkRefuse (m : Mach) (c : Nat) (v base : Word64) (party : Nat) (cause : Cause) : Mach :=
  m.raise .corr cause { src := srcCluster c, eng := 255, id := m.tkFor c v party, a1 := base, detail := v }

/-- BADFIELD, RANGE or ALIGN of an operation (R259, R265). A party named by ONB is a tile task of the cluster. -/
def Mach.tkCheck (m : Mach) (c : Nat) (v base : Word64) (party : Nat) : Option Cause :=
  let n := tkLog2 v
  let kids := tkCode v = 4 || tkCode v = 5
  let inside := partyKind party = 0 && partyChip party = m.hub.chip && partyCluster party = c
  if 5 < tkCode v || n < 12 || 40 < n || (kids && (tkN v = 0 || n < tkN v + 12)) || (tkOnb v && !inside) then some .badfield
  else hostRegion base.toNat n

/-- A message of a supervisor's operation, for a party; `bell` names the cluster whose doorbell an ONB grant rings. -/
def Mach.tkSend (m : Mach) (v base : Word64) (op party n : Nat) (shared : Bool) (data : List PByte) (bell : Option Nat)
    (need : Nat) (whose : Option Nat := none) : Mach :=
  (m.requestAs
    { op := op, addr := base, src := BitVec.ofNat 32 party, dchip := iaChip base.toNat
      arg := tokArg (tkLog2 v) (tkSem v) shared n, data := data, bcnt := data.length }
    { write := false, bell := bell, need := need, whose := whose }).1

/-- The holding's job: the live task's for a tile task, none for the supervisor. -/
def Mach.tkJob (m : Mach) (v : Word64) (party : Nat) : Nat := if tkOnb v then (m.liveTask party).getD 0 else 0

/-- A get (R261): `shared` or exclusive. Every operation says whether it has been accepted, or stands held (R266). -/
def Mach.tkGet (m : Mach) (c : Nat) (v base : Word64) (dest : Nat) (shared : Bool) : Mach × Bool :=
  let me := m.tkFor c v dest
  let job := m.tkJob v dest
  let ia := base.toNat
  let n := m.getNeeds me (some job) ia (tkLog2 v)
  if m.atOnce me (some job) ia (tkLog2 v) shared then (m.ring c (tkSem v) 1, true)
  else if !m.holdRoom me n then (m, false)
  else (m.tkSend v base 0x41 me 0 shared [] (if tkOnb v then some c else none) n (if tkOnb v then m.liveTask me else none), true)

/-- Whether a load of a supervisor from a region has still to be answered. -/
def Mach.svReads (m : Mach) (c ia log2 : Nat) : Bool :=
  m.hub.requests.any (fun r => r.op = 1 && r.agent.isNone && r.party = m.supParty c
    && ia ≤ r.addr.toNat && r.addr.toNat < ia + 2 ^ log2)

/-- The flush of a release, once the supervisor's loads from the region have been performed, and what follows when every write-back
of the region's lines has been acknowledged, the supervisor's own stores among them (R262, R266). -/
def Mach.tkRelease (m : Mach) (c ia log2 : Nat) (send : Mach → Mach) : Mach × Bool :=
  if m.svReads c ia log2 then (m, false)
  else
  let m := m.flush (m.supParty c) none ia log2
  if m.flushed (m.supParty c) ia log2 then (send m, true) else (m, false)

/-- The holding that a release gives up: it leaves the table when the operation is accepted. -/
def Mach.tkDrop (m : Mach) (c : Nat) (h : Holding) : Mach :=
  let m := m.dropHolding h.party (some 0) h.base.toNat h.log2
  m.setCluster c { m.cluster c with tkgone := some h }

/-- A put (R262). -/
def Mach.tkPut (m : Mach) (c : Nat) (v base : Word64) (dest : Nat) : Mach × Bool :=
  let me := m.supParty c
  let go := fun (m : Mach) => m.tkRelease c base.toNat (tkLog2 v) (fun m => m.tkSend v base 0x43 me 0 false [] none 0)
  if (m.cluster c).tkgone.isSome then go m
  else match m.exact me (some 0) base.toNat (tkLog2 v) with
    | none => (m.tkRefuse c v base dest .unowned, true)
    | some h => go (m.tkDrop c h)

/-- A lend to TKPARTY (R262): the operation counts as being accepted until the home has recorded it. -/
def Mach.tkLend (m : Mach) (c : Nat) (v base : Word64) (dest : Nat) : Mach × Bool :=
  let me := m.supParty c
  let go := fun (m : Mach) => m.tkRelease c base.toNat (tkLog2 v) (fun m =>
    if dest = me then m.ring c (tkSem v) 1
    else
      let m := m.tkSend v base 0x44 me 0 false (pbytes 4 dest false) none 0
      m.setCluster c { m.cluster c with busy := true })
  if (m.cluster c).tkgone.isSome then go m
  else match (m.exact me (some 0) base.toNat (tkLog2 v)).filter (·.ex) with
    | none => (m.tkRefuse c v base dest .unowned, true)
    | some h => go (if dest = me then m else m.tkDrop c h)

/-- A split (R257, R263). -/
def Mach.tkSplit (m : Mach) (c : Nat) (v base : Word64) (dest : Nat) : Mach × Bool :=
  let me := m.supParty c
  if !(m.exact me (some 0) base.toNat (tkLog2 v)).any (·.ex) then (m.tkRefuse c v base dest .unowned, true)
  else if !m.holdRoom me (2 ^ tkN v - 1) then (m, false)
  else (m.tkSend v base 0x46 me (tkN v) false [] none (2 ^ tkN v - 1), true)

/-- A join (R257, R263). -/
def Mach.tkJoin (m : Mach) (c : Nat) (v base : Word64) (dest : Nat) : Mach × Bool :=
  let me := m.supParty c
  if !m.coversIn me (some 0) base.toNat (tkLog2 v) then (m.tkRefuse c v base dest .unowned, true)
  else (m.tkSend v base 0x47 me (tkN v) false [] none 0, true)

/-- TKOP written, with the operation `code`: discarded while BUSY; refused when a check fails; held while the holdings table
has no room or a release waits for its flush, when the same step tries it again (R258, R266). A reserved OP is refused by
whichever step meets it (DEDUCED, log 56). Without PLL 2 no supervisor runs (R356; log 87). -/
def tkop (code cluster : Nat) (v : Word64) (go : Mach → Word64 → Word64 → Nat → Mach × Bool) (s : State) :
    Host.Outcome State Fault Refusal :=
  act (fun m =>
    let x := m.cluster cluster
    let (v, base, dest) := x.tkheld.getD (v, x.tkbase.toNat, x.tkparty)
    let base := BitVec.ofNat 64 base
    if 32 ≤ cluster || x.busy || !m.locked.contains 2 then m
    else if tkCode v ≠ code ∧ tkCode v < 6 then m
    else match m.tkCheck cluster v base dest with
      | some cause => m.tkRefuse cluster v base dest cause
      | none =>
        let (m, taken) := go m v base dest
        m.setCluster cluster (if taken then { m.cluster cluster with tkheld := none, tkgone := none }
          else { m.cluster cluster with tkheld := some (v, base.toNat, dest) })) s

/-- TKOP_GET_EXCLUSIVE. -/
def execTkopGetExclusive (cluster : Nat) (v : Word64) (s : State) : Host.Outcome State Fault Refusal :=
  tkop 0 cluster v (fun m v base dest => m.tkGet cluster v base dest false) s

/-- TKOP_GET_SHARED. -/
def execTkopGetShared (cluster : Nat) (v : Word64) (s : State) : Host.Outcome State Fault Refusal :=
  tkop 1 cluster v (fun m v base dest => m.tkGet cluster v base dest true) s

/-- TKOP_PUT. -/
def execTkopPut (cluster : Nat) (v : Word64) (s : State) : Host.Outcome State Fault Refusal :=
  tkop 2 cluster v (fun m v base dest => m.tkPut cluster v base dest) s

/-- TKOP_LEND. -/
def execTkopLend (cluster : Nat) (v : Word64) (s : State) : Host.Outcome State Fault Refusal :=
  tkop 3 cluster v (fun m v base dest => m.tkLend cluster v base dest) s

/-- TKOP_SPLIT. -/
def execTkopSplit (cluster : Nat) (v : Word64) (s : State) : Host.Outcome State Fault Refusal :=
  tkop 4 cluster v (fun m v base dest => m.tkSplit cluster v base dest) s

/-- TKOP_JOIN. -/
def execTkopJoin (cluster : Nat) (v : Word64) (s : State) : Host.Outcome State Fault Refusal :=
  tkop 5 cluster v (fun m v base dest => m.tkJoin cluster v base dest) s

/-! ## Doorbells and interrupts (R134, R337, R343) -/

/-- The supervisor's machine external interrupt: asserted while a doorbell whose DBMASK bit is 1 is nonzero, or a stream trap
stands in the queue (R134, R337, R343, R378). -/
def Cluster.interrupt (x : Cluster) : Bool :=
  x.db.any (fun e => x.dbmask.getLsbD e.1 && e.2 ≠ 0) || !x.trapq.isEmpty

/-- DOORBELL_READ: the read returns the count, as readReg gives it, and clears it. -/
def execDoorbellRead (by' : Actor) (cluster i : Nat) (s : State) : Host.Outcome State Fault Refusal :=
  actFw (fun fw m =>
    if m.powered fw by' && mayRead fw m by' (clusterReg cluster (0x1000 + 8 * i)) && decide (cluster < 32) && decide (i < 64) then
      let x := m.cluster cluster
      m.setCluster cluster { x with db := store 0 x.db i 0 }
    else m) s

/-! ## TRAPACT (R378) -/

/-- An action on the oldest record of a cluster's trap queue, which is then removed. -/
def trapact (by' : Actor) (cluster : Nat) (go : Mach → Event → Mach) (s : State) : Host.Outcome State Fault Refusal :=
  regWrite by' (clusterReg cluster 0x1480) (fun m =>
    match (m.cluster cluster).trapq with
    | [] => m
    | e :: _ => go (m.popTrap cluster) e) s

/-- TRAPACT_RETRY. -/
def execTrapactRetry (by' : Actor) (cluster : Nat) (s : State) : Host.Outcome State Fault Refusal :=
  trapact by' cluster (fun m e => m.actRetry e) s

/-- TRAPACT_SKIP: what a scout that ends so asked for and pinned is given up (R160). -/
def execTrapactSkip (by' : Actor) (cluster : Nat) (s : State) : Host.Outcome State Fault Refusal :=
  trapact by' cluster (fun m e => (m.actSkip e).dropScout (scoutKey e.agent)) s

/-- TRAPACT_GOTO: outside the section it is a kill with BRBOUND. -/
def execTrapactGoto (by' : Actor) (cluster newoff : Nat) (s : State) : Host.Outcome State Fault Refusal :=
  trapact by' cluster (fun m e =>
    if newoff < (m.streamOf e.agent).clen then (m.actGoto e newoff).dropScout (scoutKey e.agent) else m.actKill e .brbound) s

/-- TRAPACT_KILL: with the record's cause. -/
def execTrapactKill (by' : Actor) (cluster : Nat) (s : State) : Host.Outcome State Fault Refusal :=
  trapact by' cluster (fun m e => m.actKill e (causeOf e.status)) s

/-! ## WDACT (R416) -/

/-- The WATCHDOG record of a context's task. -/
def Mach.watchdogRec (m : Mach) (tile : Nat) (ctx : Bool) : Event :=
  let c := m.ctx tile ctx
  { src := srcTile tile, type := Cls.task.code, status := Cause.watchdog.code, flags := if ctx then 8 else 0, eng := 255
    id := c.party, gtc := m.gtc, a0 := jobOff c.job 0
    detail := BitVec.ofNat 64 (m.supParty (clusterOf tile) * 2 ^ 32) }

/-- WDACT_KILL. -/
def execWdactKill (by' : Actor) (tile : Nat) (ctx : Bool) (s : State) : Host.Outcome State Fault Refusal :=
  regWrite by' (tileReg tile 0x180) (fun m => if tile < 512 then m.kill tile ctx (m.watchdogRec tile ctx) else m) s

/-- Index of the entry of a job whose task was last killed in a context. -/
def Job.killedAt (j : Job) (n : Nat) (c : Bool) : Option Nat :=
  ((List.range j.formes.length).filter (fun i =>
    let f := j.formes.getD i {}
    f.tile = n && f.ctx == c && f.st = .killed)).getLast?

/-- A forme loaded in place of a killed task, the tile's memories kept as for the same job. -/
def Mach.replaceTask (m : Mach) (n : Nat) (c : Bool) (j : Job) (i ia : Nat) (bs : List Byte) : Mach :=
  let m := m.setTile n { m.tile n with owner := j.id }
  let m := m.loadCtx n c j.id i ia bs
  let x := m.ctx n c
  let m := m.setCtx n c { x with stopping := j.st = .stopping, killed := none }
  m.setJob (j.setForme i (fun f => { f with st := .loaded, ctx := c, forme := BitVec.ofNat 64 ia, age := m.hub.loads }))

/-- WDACT_LOAD: held while a page of the forme migrates, or the record of a failing check has no room (R242, R370). -/
def execWdactLoad (by' : Actor) (tile : Nat) (ctx : Bool) (forme : Nat) (s : State) : Host.Outcome State Fault Refusal :=
  regWrite by' (tileReg tile 0x180) (fun m =>
    let x := m.ctx tile ctx
    if 512 ≤ tile || x.loaded then m
    else match x.killed.bind (fun k => m.job? k.1) with
      | none => m
      | some j => match j.killedAt tile ctx with
        | none => m
        | some i =>
          let ia := forme / 1024 * 1024
          match (m.hubRead ia 1024 i).bind (fun bs => (formeCheck bs ia i).bind (fun _ => .ok bs)) with
          | .ok bs => m.replaceTask tile ctx j i ia bs
          | .hold => m.holdOp (.wdactLoad by' tile ctx forme)
          | .bad b =>
            if m.roomFor srcHub then (m.badJob j.id { b with cause := .badfield }).endJob j.id
            else m.holdOp (.wdactLoad by' tile ctx forme)) s

/-! ## SVCTL (R342, R407) -/

/-- A supervisor is reset: its tokens are reclaimed by their homes, those of a split under way among them, and its SRAM stays
(R407; DEDUCED, log 57). -/
def Mach.stopSv (m : Mach) (cluster : Nat) : Mach :=
  let x := m.cluster cluster
  let m := m.setCluster cluster { x with svrun := false, busy := false, tkheld := none, tkgone := none, ld := [], exc := false }
  let me := m.supParty cluster
  let m := m.discard (fun r => r.op = 0x46 && r.agent.isNone && r.party = me
    && m.dies.any (fun e => e.2.waits.any (fun w => r.carriedBy w.pkt)))
  (m.serveHomes.bereft me 0 x.tkgone.toList).orphan me

/-- SVCTL_WRITE: RUN = 0 resets the supervisor. -/
def execSvctlWrite (by' : Actor) (cluster : Nat) (v : Word64) (s : State) : Host.Outcome State Fault Refusal :=
  regWrite by' (clusterReg cluster 0x1208) (fun m =>
    if 32 ≤ cluster then m
    else
      let m := m.setCluster cluster { m.cluster cluster with svrun := v.getLsbD 0, svhalf := v.getLsbD 1 }
      if v.getLsbD 0 then m else m.stopSv cluster) s

/-! ## Loads and stores of the cores (R25, R337, R394) -/

/-- Whether a supervisor's party holds the token that an access needs. -/
def Mach.svHolds (m : Mach) (c ia n : Nat) (ex : Bool) : Bool :=
  (m.cluster c).hold.any (fun h => h.party = m.supParty c && h.covers ia n && (h.ex || !ex))

/-- A supervisor's access to device memory or explicit SRAM, as its party under tokens, through its cluster's cache (R266,
R270, R337); without the token it takes the access-fault exception (DESIGN CHOICE, log 57). -/
def Mach.svMemory (m : Mach) (c ia : Nat) (data : Option (List Byte)) (n : Nat) : Mach :=
  if !m.svHolds c ia n data.isSome then m.setCluster c { m.cluster c with exc := true }
  else match data with
    | some bs => m.cacheWrite c ia (m.overlay c ia (List.replicate n {})) (clean bs) (n + 1)
    | none =>
      if (List.range n).all (fun i => (m.dirtyAt c (ia + i)).isSome) then m.svLoads c (m.overlay c ia (List.replicate n {}))
      else (m.requestAs (readPkt ia n (m.supParty c)) { write := false, need := n }).1

/-- The policy core's access to device memory or explicit SRAM, as the hub party at the home (R337). -/
def Mach.hubMemory (m : Mach) (ia : Nat) (data : Option (List Byte)) (n : Nat) : Mach :=
  match data with
  | some bs =>
    (m.requestAs { op := 2, addr := BitVec.ofNat 64 ia, src := BitVec.ofNat 32 m.hubParty, dchip := m.hub.chip, bcnt := n
                   data := clean bs } {}).1
  | none => (m.requestAs (readPkt ia n m.hubParty) { write := false, need := n }).1

/-- A queue core's load has its bytes (R337). -/
def Mach.qcLoads (m : Mach) (q : Nat) (bs : List PByte) : Mach := { m with hub := { m.hub with qld := put [] m.hub.qld q bs } }

/-- Bytes of a core's own SRAM written, or read. -/
def Mach.ownSram (m : Mach) (k : Nat) (data : Option (List Byte)) (n : Nat) (give : Mach → List PByte → Mach) : Mach :=
  match data with
  | some bs => wrRun m k (clean bs)
  | none => give m (rdRun m k n)

/-- A load or store of a core: cluster supervisor `c` below 32, queue core `c` - 32 above, or the policy core (R337). An access
is naturally aligned and of 1 to 8 bytes; any other, and one that the core cannot reach, does nothing (DESIGN CHOICE,
log 57). -/
def Mach.coreTurn (m : Mach) (who : Option Nat) (data : Option (List Byte)) (addr n : Nat) : Mach :=
  let n := (data.map (·.length)).getD n
  let ia := m.hub.chip * 2 ^ 43 + addr
  let memory := addr < 2 ^ 43 && (homeDie ia).isSome
  if !([1, 2, 4, 8].contains n) || addr % n ≠ 0 then m
  else match who with
    | none =>
      if 0x7F000000000 ≤ addr && addr + n ≤ 0x7F000100000 then
        m.ownSram (bootKey (addr - 0x7F000000000)) data n Mach.hubLoads
      else if memory then m.hubMemory ia data n else m
    | some c =>
      if 32 ≤ c then (if c < 38 && addr + n ≤ 2 ^ 16 then m.ownSram (qcKey (c - 32) addr) data n (fun m => m.qcLoads (c - 32)) else m)
      else if !(m.cluster c).svrun || !m.locked.contains 2 then m
      else if addr + n ≤ 2 ^ 18 then m.ownSram (svKey c addr) data n (fun m => m.svLoads c)
      else if memory then m.svMemory c ia data n else m

end Sys2Proof.Machine
end

