-- ==== Sys2Proof/Machine/Gangs.lean ====
section
/-!
DEFINITION. Gangs: slices under the gang table (R325 to R327, R429).
-/

namespace Sys2Proof.Machine

open Sys2Proof

/-- Key of a byte of a gang's sync block on this device; none where it does not lie in the explicit part of a die pool. -/
def Mach.syncKey (m : Mach) (e : GangEnt) (o : Nat) : Option Nat :=
  match areaOf (e.sync % 2 ^ 43 + o) with
  | .dpool d p => if p + 8 ≤ (m.die d).explBytes then some (diePoolKey d p) else none
  | _ => none

/-- The 64-bit word at an offset of the sync block. -/
def Mach.syncWord (m : Mach) (e : GangEnt) (o : Nat) : Nat :=
  match m.syncKey e o with
  | some k => valOf (rdRun m k 8)
  | none => 0

/-- Slice start and end. -/
def Mach.sliceStart (m : Mach) (e : GangEnt) : Nat := m.syncWord e 0
def Mach.sliceEnd (m : Mach) (e : GangEnt) : Nat := m.syncWord e 8

/-- Words written at an offset of a member's sync block: here, or by a write to that device. -/
def Mach.tellSync (m : Mach) (e : GangEnt) (chip o : Nat) (ws : List Nat) : Mach :=
  let bs := ws.flatMap (fun w => pbytes 8 w false)
  if chip = m.hub.chip then
    match m.syncKey e o with
    | some k => wrRun m k bs
    | none => m
  else
    let ia := chip * 2 ^ 43 + e.sync % 2 ^ 43 + o
    (m.request { op := 2, addr := BitVec.ofNat 64 ia, src := BitVec.ofNat 32 m.hubParty, dchip := chip, bcnt := bs.length
                 data := bs } none none true).1

/-- A hub semaphore of a member signalled by 1. -/
def Mach.tellSem (m : Mach) (sem chip : Nat) : Mach :=
  if chip = m.hub.chip then m.hubSignal sem 1
  else (m.request { op := 0x40, addr := partyAddr (chip * 2048 + 2) sem, src := BitVec.ofNat 32 m.hubParty, dchip := chip
                    arg := 1 } none none true).1

/-- Whether the hub can read a gang's member list, and the planes of its sync block are free (R242, R274). -/
def Mach.gangOpen (m : Mach) (e : GangEnt) : Bool :=
  m.listOpen e && m.hubOpen (m.hub.chip * 2 ^ 43 + e.sync % 2 ^ 43) (64 + 8 * e.nmem)

/-- One count of hub semaphore 62, a slice's abort, is taken (R429; DESIGN CHOICE, log 62). -/
def Mach.takeAbort (m : Mach) : Mach :=
  { m with hub := { m.hub with sems := put 0 m.hub.sems 62 (at' 0 m.hub.sems 62 - 1) } }

/-- Jobs of a gang on this device. -/
def Mach.gangJobs (m : Mach) (e : GangEnt) : List Job := m.hub.jobs.filter (fun j => j.gang = e.gid)

/-- Whether a gang job's tasks could be started: all its formes are loaded, or it is stopped and fits. -/
def Mach.canStart (m : Mach) (j : Job) : Bool :=
  (j.st = .placed && j.formes.all (fun f => f.st ≠ .reserved)) || (j.st = .stopped && m.fits j [])

/-- A gang job's tasks start; what was held for their parties is performed first (R322, R429). -/
def Mach.startGang (m : Mach) (j : Job) : Mach :=
  if j.st = .stopped then m.resumeJob j.id
  else (m.unmark (j.loadedTasks.map (fun t => m.tileParty t.2.1))).setJob { j with st := .running }

/-- A gang job's tasks start in the slice that ends at `till`. -/
def Mach.startSlice (m : Mach) (till : Nat) (j : Job) : Mach := (m.setJob { j with till := till }).startGang { j with till := till }

/-- The parties of a gang job's tasks are marked until they start (R429). -/
def Mach.markGang (m : Mach) (j : Job) : Mach :=
  let ps := (j.formes.filter (fun f => f.st = .loaded || f.st = .stopped)).map (fun f => m.tileParty f.tile)
  { m with hub := { m.hub with marked := distinct (m.hub.marked ++ ps) } }

/-- The coordinator plans the next slice: its times, which the manual leaves to the policy core, go to every member
(R325) (DESIGN CHOICE, log 62). -/
def Mach.planSlice (m : Mach) (e : GangEnt) : Mach :=
  let start := m.gtc + Config.choice m.free % 2 ^ 32 + 1
  let stop := start + Config.choice (m.free + 1) % 2 ^ 32 + 1
  let m := { m with free := m.free + 2 }
  (m.members e).foldl (fun (m : Mach) c => (m.tellSync e c 0 [start, stop]).tellSem 63 c) m

/-- Latest start of a slice after its start time: 200 µs, in ns (R429). -/
def lateBound : Nat := 200000

/-- GANG_SLICE_START (R325, R429): at the coordinator, once the last slice is over, the next is planned. From the slice start
time a member that is ready (`late` false) writes its start record and starts the gang's tasks; one that is not marks their
parties. -/
def execGangSliceStart (entry : Nat) (late : Bool) (s : State) : Host.Outcome State Fault Refusal :=
  act (fun m =>
    let e := m.gang entry
    let t := m.sliceStart e
    if 16 ≤ entry || e.gid = 0 || !m.kernelRuns || !m.gangOpen e then m
    else if e.pos = 0 && m.sliceEnd e ≤ m.gtc then
      (if (m.gangJobs e).isEmpty || (m.gangJobs e).any (fun j => j.st = .running) then m else m.planSlice e)
    else if m.gtc < t || m.sliceEnd e ≤ m.gtc then m
    else
      let js := (m.gangJobs e).filter (fun j => j.st = .placed || j.st = .stopped)
      if late then js.foldl Mach.markGang m
      else if t + lateBound < m.gtc || js.isEmpty || !js.all m.canStart then m
      else js.foldl (fun m j => m.startSlice (m.sliceEnd e) j) (m.tellSync e (m.memberChip e 0) (64 + 8 * e.pos) [t])) s

/-- The running jobs of a gang whose slice ends by a time are stopped (R314, R325). -/
def Mach.stopGang (m : Mach) (e : GangEnt) (by' : Nat) : Mach :=
  (((m.gangJobs e).filter (fun j => j.st = .running && j.till ≤ by')).map (·.id)).foldl Mach.stopJob m

/-- GANG_SLICE_END (R325): the tasks of a slice stop at its end, which the member has known since their start; a slice that ran
to its end breaks a row of aborted ones. -/
def execGangSliceEnd (entry : Nat) (s : State) : Host.Outcome State Fault Refusal :=
  act (fun m =>
    let e := m.gang entry
    if 16 ≤ entry || e.gid = 0 || !m.kernelRuns then m
    else
      let run := (m.gangJobs e).filter (fun j => j.st = .running && j.till ≤ m.gtc)
      (run.foldl (fun (m : Mach) j => m.setJob { j with aborts := 0 }) m).stopGang e m.gtc) s

/-- A slice is aborted on this device: its tasks stop, and after eight in a row the job is ended (R429). The coordinator, which
alone knows the missing member, posts the record (DESIGN CHOICE, log 62). -/
def Mach.abortSlice (m : Mach) (e : GangEnt) (missing : Option Nat) : Mach :=
  let m := m.stopGang e (((m.gangJobs e).map (·.till)).foldl max 0)
  let m := match missing with
    | some chip => m.raise .corr .plane { src := srcHub, eng := 255, detail := BitVec.ofNat 64 chip }
    | none => m
  (m.gangJobs e).foldl (fun (m : Mach) j =>
    if 8 ≤ j.aborts + 1 then m.failJob j.id .plane 0 else match m.job? j.id with
      | some k => m.setJob { k with aborts := j.aborts + 1 }
      | none => m) m

/-- GANG_START_CHECK (R429): the coordinator looks for every member's start record, and where one is missing signals hub semaphore
62 of every member, itself among them; a member whose semaphore has been signalled aborts its slice. -/
def execGangStartCheck (entry : Nat) (s : State) : Host.Outcome State Fault Refusal :=
  act (fun m =>
    let e := m.gang entry
    let t := m.sliceStart e
    if 16 ≤ entry || e.gid = 0 || !m.kernelRuns || !m.gangOpen e then m
    else if e.pos = 0 then
      if t = 0 || m.gtc < t + lateBound || look 0 m.hub.checked entry = t then m
      else
        let m := { m with hub := { m.hub with checked := store 0 m.hub.checked entry t } }
        match (List.range e.nmem).find? (fun p => m.syncWord e (64 + 8 * p) ≠ t) with
        | none => (m.gangJobs e).foldl (fun (m : Mach) j => m.setJob { j with aborts := 0 }) m
        | some p =>
          ((m.members e).foldl (fun (m : Mach) c => m.tellSem 62 c) m).takeAbort.abortSlice e (some (m.memberChip e p))
    else if at' 0 m.hub.sems 62 = 0 then m
    else m.takeAbort.abortSlice e none) s

end Sys2Proof.Machine
end

