-- ==== Sys2Proof/Machine/Platform.lean ====
section
/-!
DEFINITION. The package around the engines: heat and current (R434, R435), stored data and its recovery (R392 to R396), page-ins
and migration (R242 to R244, R403 to R406) and the reclamation of a dead holder's tokens (R407, R408).
-/

namespace Sys2Proof.Machine

open Sys2Proof

/-! ## Heat and current (R435) -/

/-- Clusters that are held at 48 take it up. -/
def Mach.holdHot (m : Mach) : Mach :=
  (List.range 32).foldl (fun (m : Mach) c =>
    if m.heldHot c then m.setCluster c { m.cluster c with swallowW := 48 } else m) m

/-- VRHOT: the level of the regulator pin. -/
def execVrhot (low : Bool) (s : State) : Host.Outcome State Fault Refusal :=
  act (fun m => ({ m with hub := { m.hub with vrhotLow := low } }).holdHot) s

/-! ## Stripes (R392 to R396) -/

/-- ARRAY of a DATAERR record. -/
def arrayCode : ArrayKind → Nat
  | .scratchpad => 1 | .accumulator => 2 | .clusterPool => 3 | .diePool => 4 | .hbm => 5 | .regs => 6 | .sram => 7

/-- Source of the records of an array. -/
def arraySrc (kind : ArrayKind) (unit : Nat) : Nat :=
  match kind with
  | .scratchpad | .accumulator | .regs => srcTile unit
  | .clusterPool => srcCluster unit
  | .diePool | .hbm => srcDie unit
  | .sram => if unit < 32 then srcCluster unit else srcHub

/-- Granules of a stripe: 64, every 64th of a block of 4,096; of HBM the eight of 64 bytes; of registers the lanes or cells
(DEDUCED, log 63). -/
def granuleOf (kind : ArrayKind) (stripe i : Nat) : Nat :=
  match kind with
  | .hbm => stripe * 8 + i
  | .regs => i
  | .scratchpad | .accumulator | .clusterPool | .diePool | .sram => stripe / 64 * 4096 + stripe % 64 + 64 * i

/-- Granules in a stripe. -/
def stripeSize : ArrayKind → Nat
  | .hbm => 8
  | .scratchpad | .accumulator | .clusterPool | .diePool | .sram | .regs => 64

/-- Stripes of an array that the patrol scrub reads (R392, R395). -/
def stripeCount (kind : ArrayKind) (unit : Nat) : Nat :=
  match kind with
  | .scratchpad => 2048
  | .accumulator => 512
  | .clusterPool => 32768
  | .diePool => 131072
  | .sram => if unit < 32 then 512 else 2048
  | .hbm | .regs => 0

/-- Granule `g` of an array in the byte map: its key over 8. -/
def granuleKey (kind : ArrayKind) (unit g : Nat) : Nat :=
  match kind with
  | .scratchpad => tsKey unit (8 * g) / 8
  | .clusterPool => clKey unit (8 * g) / 8
  | .diePool => diePoolKey unit (8 * g) / 8
  | .hbm => hbmKey unit (8 * g) / 8
  | .sram => (if unit < 32 then svKey unit (8 * g) else bootKey (8 * g)) / 8
  | .accumulator | .regs => g

/-- Granules of the explicit part of a cluster pool, and of a die pool; the die pool's first granule of the token table (R247,
R248, R254). -/
def Mach.clGranules (m : Mach) (c : Nat) : Nat := (m.cluster c).expl * 2 ^ 18
def Mach.dieGranules (m : Mach) (d : Nat) : Nat := (m.die d).expl * 2 ^ 20
def tokGranule : Nat := 63 * 2 ^ 17

/-- The dirty line that stands at a granule of the cache part of a cluster pool: its IA over 256. Which line takes which place is
open (R245; DESIGN CHOICE, log 63). -/
def Mach.lineAt (m : Mach) (c g : Nat) : Option Nat :=
  let first := m.clGranules c
  ((m.dirtyIn c 0 (2 ^ 64)).find? (fun e =>
    Config.cacheLine c (e.1 % 2 ^ 64 / 256) % ((2 ^ 21 - first) / 32) = (g - first) / 32)).map (fun e => e.1 % 2 ^ 64 / 256)

/-- IA of the granule of a dirty line that stands at a granule of the cache part. -/
def Mach.cachedIa (m : Mach) (c g : Nat) : Option Nat :=
  (m.lineAt c g).map (fun l => l * 256 + 8 * ((g - m.clGranules c) % 32))

/-- The granule of a die's device memory that stands at a granule of its pool's cache part (R248; DESIGN CHOICE, log 63). -/
def behindGranule (d g : Nat) : Nat := (Config.behindAt d + g) % (96 * 2 ^ 27)

/-- The eight bytes of a granule: of the explicit parts, of the lines cached, of the token table's entries, and of every other
array as it stands. -/
def Mach.granule (m : Mach) (kind : ArrayKind) (unit g : Nat) : Word64 :=
  let stored := BitVec.ofNat 64 (valOf (rdRun m (8 * granuleKey kind unit g) 8))
  match kind with
  | .accumulator => (m.accE unit g).v
  | .clusterPool =>
    if g < m.clGranules unit then stored
    else
      let open_ := bytesOf 8 (Config.cacheBits unit g).toNat
      match m.cachedIa unit g with
      | some ia => BitVec.ofNat 64 (valOf (m.overlay unit ia (clean open_)))
      | none => Config.cacheBits unit g
  | .diePool =>
    if tokGranule ≤ g then
      (((m.die unit).tok.find? (fun e => e.1 = (g - tokGranule) / 2)).map (fun e => e.2.word ((g - tokGranule) % 2))).getD 0
    else if g < m.dieGranules unit then stored
    else BitVec.ofNat 64 (valOf (rdRun m (hbmKey unit (8 * behindGranule unit g)) 8))
  | .scratchpad | .hbm | .sram | .regs => stored

/-- Row parity: one bit for each byte of a granule (R392). -/
def rowParity (w : Word64) : BitVec 8 :=
  (List.range 8).foldl (fun (r : BitVec 8) i =>
    if ((List.range 8).map (fun k => (w.getLsbD (8 * i + k)).toNat)).sum % 2 = 1 then r ||| (1#8 <<< i) else r) 0

/-- A granule with its row parity, as the column word takes it (R392). -/
def Mach.row (m : Mach) (kind : ArrayKind) (unit stripe i : Nat) : BitVec 72 :=
  let w := m.granule kind unit (granuleOf kind stripe i)
  rowParity w ++ w

/-- The XOR of the rows of a stripe that a list names. -/
def Mach.rowsXor (m : Mach) (kind : ArrayKind) (unit stripe : Nat) (is : List Nat) : BitVec 72 :=
  is.foldr (fun i (x : BitVec 72) => m.row kind unit stripe i ^^^ x) 0

/-- The column parity word of a stripe (R392): every write keeps it equal to the XOR of the 64 stored rows, so it is computed
from them and State holds it nowhere else (DEDUCED, log 63). -/
def Mach.columnWord (m : Mach) (kind : ArrayKind) (unit stripe : Nat) : BitVec 72 := m.rowsXor kind unit stripe (List.range 64)

/-- What the recovery engine rebuilds granule `i` as: the XOR of the column word and the other 63 granules (R393). A lemma of
Laws/Ops.lean says that it is the granule as written. -/
def Mach.rebuilt (m : Mach) (kind : ArrayKind) (unit stripe i : Nat) : BitVec 72 :=
  m.columnWord kind unit stripe ^^^ m.rowsXor kind unit stripe ((List.range 64).filter (· ≠ i))

/-- IA of a granule of a die's device memory, by the page whose frame holds it. -/
def Mach.hbmIa (m : Mach) (d g : Nat) : Nat :=
  match (m.framed d).find? (fun o => (m.page d o).phys ≤ 8 * g && 8 * g < (m.page d o).phys + (m.page d o).size) with
  | some o => m.iaOf d (o + (8 * g - (m.page d o).phys))
  | none => m.iaOf d 0

/-- ADDR of a record: the byte offset in a scratchpad or an accumulator memory, else an IA: of a cached line its own, of a
supervisor's SRAM that of its window in the cluster block (R341, R396; log 63). -/
def Mach.arrayAddr (m : Mach) (kind : ArrayKind) (unit g : Nat) : Nat :=
  let chip := m.hub.chip * 2 ^ 43
  match kind with
  | .scratchpad | .accumulator => 8 * g
  | .clusterPool => (m.cachedIa unit g).getD (chip + 0x40000000000 + unit * 2 ^ 24 + 8 * g)
  | .diePool =>
    if m.dieGranules unit ≤ g && g < tokGranule then m.hbmIa unit (behindGranule unit g)
    else chip + 0x50000000000 + unit * 2 ^ 26 + 8 * g
  | .hbm => m.hbmIa unit g
  | .regs => 0
  | .sram =>
    if unit < 32 then chip + 0x70000000000 + clusterReg unit (0x20000 + 8 * g % 2 ^ 17) else chip + 0x7F000000000 + 8 * g

/-- A register or a weight-set cell poisoned (R394): of a tile, `stripe` names vector registers 0 to 47, predicates 48 to 63, the
x registers of (context, engine, register) from 64, the cells of set A and B by k from 256 and 512, their scales by block from
768 and 832; `i` is the lane or the column. -/
def Mach.poisonReg (m : Mach) (n stripe i : Nat) : Mach :=
  let t := m.tile n
  let (w, m) := fresh m
  let bit := 1#64 <<< i
  if stripe < 48 then
    let r := look VReg.blank t.vec.v stripe
    let r : VReg := { v := put 0 r.v i (w.setWidth 32), p := r.p ||| bit }
    m.setTile n { t with vec := { t.vec with v := store VReg.blank t.vec.v stripe r } }
  else if stripe < 64 then
    let r := look PReg.blank t.vec.p (stripe - 48)
    let r : PReg := { v := (r.v &&& ~~~bit) ||| (w &&& bit), p := r.p ||| bit }
    m.setTile n { t with vec := { t.vec with p := store PReg.blank t.vec.p (stripe - 48) r } }
  else if stripe < 256 then
    let k := stripe - 64
    let a : Agent := ⟨n, k / 64 % 2 = 1, Engine.ofCode (k / 16 % 4)⟩
    let s := m.streamOf a
    m.setStreamOf a { s with x := put XReg.blank s.x (k % 16) ⟨w, true⟩ }
  else
    let up := fun (x : WSet) =>
      if stripe < 768 then { x with w := store (0, false) x.w ((stripe - 256) % 256 * 64 + i) (w.toNat % 2 ^ x.fmt.width, true) }
      else { x with sw := store (0, false) x.sw ((stripe - 768) % 64 * 64 + i) (w.toNat % 256, true) }
    let second := (512 ≤ stripe && stripe < 768) || 832 ≤ stripe
    m.setTile n { t with mat := if second then { t.mat with b := up t.mat.b } else { t.mat with a := up t.mat.a } }

/-- A holding that its home takes from a party of this device: its entry of the holdings table, and, of an exclusive one, its
lines in the party's cluster cache, dirty ones unwritten (R407). -/
def Mach.takeHolding (m : Mach) (ia log2 : Nat) (ex : Bool) (party : Nat) : Mach :=
  if partyChip party ≠ m.hub.chip then m
  else
    let m := m.dropHolding party Option.none ia log2
    match ex, holderCluster party with
    | true, some cl => m.dropDirty cl ia (2 ^ log2)
    | _, _ => m

/-- Regions named by a granule of the token table, which cannot be rebuilt, are reclaimed as a dead holder's (R396). -/
def Mach.loseEntry (m : Mach) (d i : Nat) : Mach :=
  match (m.die d).tok.find? (fun e => e.1 = i) with
  | none => m
  | some (_, e) =>
    let m := (if e.excl then [e.party] else e.sharers).foldl (fun m p => m.takeHolding (m.tokIa e) e.log2 e.excl p) m
    let e := if e.excl then { e with pois := true } else { e with share := 0, sharers := [] }
    (m.setDie d { m.die d with tok := store TokEntry.blank (m.die d).tok i e }).homeServe d

/-- A granule of the cache part of a cluster pool: its bytes of a dirty line are poisoned; a clean line leaves the cache (R246,
R393; log 63). -/
def Mach.poisonCached (m : Mach) (cl g : Nat) : Mach :=
  match m.cachedIa cl g with
  | none => m
  | some ia =>
    let (w, m) := fresh m
    let lo := dirtyKey cl ia
    { m with dirty := m.dirty.map (fun e =>
        if lo ≤ e.1 && e.1 < lo + 8 then (e.1, ⟨(bytesOf 8 w.toNat).getD (e.1 - lo) 0, true⟩) else e) }

/-- A granule of the cache part of a die pool: the granule of the die's device memory that stands there (R248, R393; log 63). -/
def Mach.poisonBehind (m : Mach) (d g : Nat) : Mach := poisonGranule m (hbmKey d (8 * behindGranule d g) / 8)

/-- One granule poisoned. -/
def Mach.poisonAt (m : Mach) (kind : ArrayKind) (unit stripe i : Nat) : Mach :=
  let g := granuleOf kind stripe i
  match kind with
  | .accumulator =>
    let (w, m) := fresh m
    m.setAcc unit g { m.accE unit g with v := w, p := true }
  | .clusterPool =>
    if m.clGranules unit ≤ g then m.poisonCached unit g else poisonGranule m (granuleKey kind unit g)
  | .diePool =>
    if tokGranule ≤ g then m.loseEntry unit ((g - tokGranule) / 2)
    else if m.dieGranules unit ≤ g then m.poisonBehind unit g
    else poisonGranule m (granuleKey kind unit g)
  | .regs => m.poisonReg unit stripe i
  | .scratchpad | .hbm | .sram => poisonGranule m (granuleKey kind unit g)

/-- The DATAERR record of a stripe: HOW 0 corrected in line, 1 rebuilt, 2 poisoned (R396). -/
def Mach.dataErr (m : Mach) (kind : ArrayKind) (unit stripe i how n : Nat) : Mach :=
  m.raise (if how = 2 then .defer else .corr) .dataerr
    { src := arraySrc kind unit, flags := if how = 2 then 2 else 0, eng := 255
      a1 := BitVec.ofNat 64 (m.arrayAddr kind unit (granuleOf kind stripe i))
      detail := BitVec.ofNat 64 (arrayCode kind * 2 ^ 56 + how * 2 ^ 48 + n * 2 ^ 32) }

/-- The recovery engine settles a stripe (R393, R394): `bad` are its granules with a row mismatch, and `column` says whether
its column word does not match. A rebuilt granule is `Mach.rebuilt`, the value that it held. Of HBM, `bad` not empty with
`column` false is a corrected symbol; registers have no column word. -/
def Mach.recover (m : Mach) (kind : ArrayKind) (unit stripe : Nat) (bad : List Nat) (column : Bool) : Mach :=
  let bad := distinct (bad.filter (fun i => i < stripeSize kind))
  let column := column && kind ≠ .regs
  let poisoned := match kind with
    | .hbm => if column then List.range 8 else []
    | .regs => bad
    | .scratchpad | .accumulator | .clusterPool | .diePool | .sram =>
      if 2 ≤ bad.length then bad else if bad.isEmpty && column then List.range 64 else []
  if bad.isEmpty && !column then m
  else if !m.roomFor (arraySrc kind unit) then m
  else match poisoned with
    | [] => m.dataErr kind unit stripe (bad.headD 0) (if kind = .hbm then 0 else 1) 0
    | i :: is =>
      let m := m.dataErr kind unit stripe (is.foldl min i) 2 poisoned.length
      poisoned.foldl (fun (m : Mach) i => m.poisonAt kind unit stripe i) m

/-- STRIPE_RECOVERY (R393): the findings come from outside the model. -/
def execStripeRecovery (kind : ArrayKind) (unit stripe : Nat) (bad : List Nat) (column : Bool) (s : State) :
    Host.Outcome State Fault Refusal :=
  act (fun m => m.recover kind unit stripe bad column) s

/-- SCRUBCTL of the block that an array belongs to (R395). -/
def Mach.scrubOf (m : Mach) (kind : ArrayKind) (unit : Nat) : Word64 :=
  match kind with
  | .scratchpad | .accumulator | .regs => m.reg (clusterReg (clusterOf unit) 0x200)
  | .clusterPool => m.reg (clusterReg unit 0x200)
  | .diePool | .hbm => m.reg (dieReg unit 0x18)
  | .sram => if unit < 32 then m.reg (clusterReg unit 0x200) else 0

/-- The stripe that the patrol scrub of an array reads next. -/
def Mach.scrubAt (m : Mach) (kind : ArrayKind) (unit : Nat) : Nat := look 0 m.scrubs (arrayCode kind * 1024 + unit)

/-- PATROL_SCRUB (R395): SRAM alone is scrubbed, while EN is 1, its stripes in address order; a column mismatch is handed on,
and the scrub waits where a record of it has no room (R370). -/
def execPatrolScrub (kind : ArrayKind) (unit stripe : Nat) (bad : List Nat) (column : Bool) (s : State) :
    Host.Outcome State Fault Refusal :=
  act (fun m =>
    if !(m.scrubOf kind unit).getLsbD 16 || kind = .hbm || kind = .regs || stripe ≠ m.scrubAt kind unit then m
    else if column && !m.roomFor (arraySrc kind unit) then m
    else
      let m := if column then m.recover kind unit stripe bad column else m
      { m with scrubs :=
          store 0 m.scrubs (arrayCode kind * 1024 + unit) ((stripe + 1) % stripeCount kind unit) }) s

/-! ## Page-ins (R242, R244, R406) -/

/-- STATE of an entry set. -/
def Mach.setPageState (m : Mach) (d off st : Nat) : Mach :=
  let k := hbmKey d (m.page d off).entry
  { m with mem := store unwritten m.mem k ((rdRaw m k &&& 0xFC#8) ||| BitVec.ofNat 8 (st % 4)) }

/-- Physical spans in use at a home: frames, the directory, page tables. -/
def Mach.usedSpans (m : Mach) (d : Nat) : List (Nat × Nat) :=
  let base := bits64 (m.die d).pdbase 20 17 * 2 ^ 20
  let tables := (m.dirEntries d).filterMap (fun n =>
    let e := m.hbm64 d (base + 8 * n)
    if e.getLsbD 6 then some (bits64 e 8 29 * 256, 256) else none)
  (base, 2 ^ 20) :: tables ++ (m.framed d).map (fun o => ((m.page d o).phys, (m.page d o).size))

/-- Whether a frame of a size is free: within the 96 GiB, on its size, and named by no entry (R239, R244). -/
def spanFree (used : List (Nat × Nat)) (size p : Nat) : Bool :=
  p % size = 0 && p + size ≤ 96 * 2 ^ 30 && used.all (fun u => p + size ≤ u.1 || u.1 + u.2 ≤ p)
def Mach.frameFree (m : Mach) (d size p : Nat) : Bool := spanFree (m.usedSpans d) size p

/-- A free frame of a size in the 96 GiB: an open one, else the first after a span in use. -/
def Mach.freeFrame (m : Mach) (d size : Nat) : Option Nat :=
  let used := m.usedSpans d
  let up := fun (p : Nat) => (p + size - 1) / size * size
  ((Config.choice m.free * size) :: 0 :: used.map (fun u => up (u.1 + u.2))).find? (spanFree used size)

/-- A resident page that is not pinned leaves: its contents go to host memory first, at a place the manual leaves open
(DESIGN CHOICE, log 64). -/
def Mach.pageOut (m : Mach) (d off : Nat) : Mach :=
  let p := m.page d off
  let (w, m) := fresh m
  let out := m.hub.pcie ++ [PcieOut.write 0 w (rdRun m (hbmKey d p.phys) p.size)]
  ({ m with hub := { m.hub with pcie := out } }).setPageState d off 0

/-- Pages leave, in an open order, until a frame is free; none that is pinned or among `ps` does (R244). -/
def Mach.makeRoom (m : Mach) (d size units : Nat) (ps : List Word64) : Nat → Option Nat × Mach
  | 0 => (none, m)
  | fuel + 1 =>
    match (if units ≤ m.freeUnits d then m.freeFrame d size else none) with
    | some f => (some f, { m with free := m.free + 1 })
    | none =>
      let vs := (m.framed d).filter (fun o =>
        !(m.page d o).pin && (m.page d o).state = 1 && !ps.contains (m.pageIa d o))
      match vs[Config.choice m.free % vs.length]? with
      | none => (none, m)
      | some o => ({ m with free := m.free + 1 }.pageOut d o).makeRoom d size units ps fuel

/-- The entry of a page names a frame, resident; PIN stays as it was. -/
def Mach.setFrame (m : Mach) (d off frame : Nat) : Mach :=
  let p := m.page d off
  let e := frame + p.pin.toNat * 128 + 1
  { m with mem := wrRaw m.mem (hbmKey d p.entry) (bytesOf 8 e) }

/-- A page takes a frame (R244, R406): its copy in host memory or zeros, or of a poisoned page every granule poisoned. -/
def Mach.fillFrame (m : Mach) (d off frame : Nat) (hostCopy : Option (List Byte)) : Mach :=
  let p := m.page d off
  let m := m.setFrame d off frame
  let k := hbmKey d frame
  let m := if p.state = 3 then wrRun m k (List.replicate p.size ⟨0, true⟩)
    else wrRun (clearRun m k p.size) k (clean ((hostCopy.getD []).take p.size))
  m.setDie d { m.die d with told := (m.die d).told.erase (m.pageIa d off) }

/-- The page-in at the head of a home's order has been judged. -/
def Mach.popPage (m : Mach) (d : Nat) : Mach := m.setDie d { m.die d with pageins := (m.die d).pageins.tail }

/-- The page-in at the head of a home's order (R160, R166, R404): a page that takes a frame, or that a scout finds resident by
then, is pinned for the stream that asked; a poisoned page stays as it is, NOFRAME judged before it, and so does a migrating
one; where no frame can be made free it ends NOFRAME, and else it waits. -/
def Mach.servePage (m : Mach) (d : Nat) (r : PageIn) (hostCopy : Option (List Byte)) : Mach :=
  let off := pageOff r.page
  let p := m.page d off
  let refused := fun (m : Mach) =>
    let m := m.popPage d
    m.setDie d { m.die d with noframe := (m.die d).noframe ++ [(r.page, r.key)] }
  if p.state = 1 then if r.ps.isEmpty then (m.popPage d).pin d off r.key else m.popPage d
  else if p.state = 2 then m.popPage d
  else if p.state = 3 then
    if (m.freeUnits d < p.units || (m.freeFrame d p.size).isNone) && m.noFrame d r.ps then refused m else m.popPage d
  else match m.makeRoom d p.size p.units r.ps ((m.framed d).length + 1) with
    | (some frame, m) => ((m.fillFrame d off frame hostCopy).popPage d).pin d off r.key
    | (none, m) =>
      if m.noFrame d r.ps then refused m else m

/-- Firmware brings in a page that nobody has asked for (R244, R406). -/
def Mach.ownPage (m : Mach) (d off : Nat) (p : Page) (hostCopy : Option (List Byte)) : Mach :=
  if p.state = 1 || p.state = 2 then m
  else match m.makeRoom d p.size p.units [] ((m.framed d).length + 1) with
    | (some frame, m) => m.fillFrame d off frame hostCopy
    | (none, _) => m

/-- Whether both stacks of a die are trained (R361): a page's lines lie in both by turns (R239). -/
def Mach.dieOpen (m : Mach) (d : Nat) : Bool := m.stackOpen d 0 && m.stackOpen d 256

/-- PAGE_IN: firmware on the policy core serves the page-in that is next in the home's order, or of itself brings in a page that nobody has asked
for, absent or poisoned. -/
def execPageIn (ia : Word64) (hostCopy : Option (List Byte)) (s : State) : Host.Outcome State Fault Refusal :=
  act (fun m =>
    let d := pageDie ia
    let off := pageOff ia
    let p := m.page d off
    -- the stacks hold every access until they are trained (R361)
    if 4 ≤ d || !m.kernelRuns || !m.dieOpen d then m
    else match (m.die d).pageins with
      | r :: _ =>
        if r.page = m.pageIa d off then m.servePage d r hostCopy
        else if (m.die d).pageins.any (·.page = m.pageIa d off) then m
        else m.ownPage d off p hostCopy
      | [] => m.ownPage d off p hostCopy) s

/-! ## Migration (R243) -/

/-- Bytes and poison bits of the `n` bytes from one key moved to another. -/
def moveRun (m : Mach) (k j n : Nat) : Mach :=
  let m' := clearRun m j n
  { m' with
    mem := (m.mem.filter (fun c => k ≤ c.1 && c.1 < k + n)).foldl (fun t c => store unwritten t (c.1 - k + j) c.2) m'.mem
    poison := (m.poison.filter (fun c => k / 8 ≤ c.1 && c.1 < (k + n) / 8)).foldl (fun t c =>
      store false t (c.1 - k / 8 + j / 8) c.2) m'.poison }

/-- Firmware begins to migrate a page: STATE becomes migrating; a pinned page does not migrate. -/
def Mach.migrate (m : Mach) (ia : Word64) : Mach :=
  let d := pageDie ia
  let p := m.page d (pageOff ia)
  if d < 4 && p.state = 1 && !p.pin then m.setPageState d (pageOff ia) 2 else m

/-- The frame has been copied, and the entry names the new one, resident; a frame in use, or off its page size, is none that
firmware takes (R239, R244). -/
def Mach.migrated (m : Mach) (ia : Word64) (frame : Nat) : Mach :=
  let d := pageDie ia
  let off := pageOff ia
  let p := m.page d off
  if d < 4 && p.state = 2 && m.frameFree d p.size frame then
    (moveRun m (hbmKey d p.phys) (hbmKey d frame) p.size).setFrame d off frame
  else m

/-- The policy core writes 8 bytes of a home's directory or of a page table, by physical address, or reads them (R240, R241,
R337): wherever no entry names a frame, so that it can build a table before it links it (DESIGN CHOICE, log 94). It runs while PLL 0 is
locked (R356), and an untrained stack holds its access (R361). -/
def Mach.entryTurn (m : Mach) (d p : Nat) (v : Option Word64) : Mach :=
  let framed := (m.framed d).any (fun o => (m.page d o).phys ≤ p && p < (m.page d o).phys + (m.page d o).size)
  if 4 ≤ d || p % 8 ≠ 0 || 96 * 2 ^ 30 ≤ p || !m.locked.contains 0 then m
  else if !m.stackOpen d p then { m with hub := { m.hub with entries := m.hub.entries ++ [(d, p, v)] } }
  else if framed then m
  else match v with
    | some w => wrRun m (hbmKey d p) (clean (bytesOf 8 w.toNat))
    | none => m.hubLoads (rdRun m (hbmKey d p) 8)

/-- The accesses of the policy core that an untrained stack held are tried again, in order. -/
def Mach.entriesDue (m : Mach) : Mach :=
  m.hub.entries.foldl (fun m e => m.entryTurn e.1 e.2.1 e.2.2) { m with hub := { m.hub with entries := [] } }

/-! ## Reclamation (R407, R408) -/

/-- Window offsets of the pages of a die that a span touches. -/
def Mach.pagesOver (m : Mach) (d o n : Nat) : List Nat :=
  let first := o / 2 ^ 21
  let last := (o + n - 1) / 2 ^ 21
  (List.range (last + 1 - first)).flatMap (fun i =>
    let b := (first + i) * 2 ^ 21
    if (m.page d b).size = 2 ^ 16 then
      ((List.range 32).map (fun k => b + k * 2 ^ 16)).filter (fun q => q < o + n && o < q + 2 ^ 16)
    else [b])

/-- Granules from key k on, over n bytes, poisoned. -/
def poisonRun (m : Mach) (k n : Nat) : Mach := (List.range (n / 8)).foldl (fun (m : Mach) i => poisonGranule m (k / 8 + i)) m

/-- The sweep of a region (R407): resident granules poisoned, absent pages turned poisoned; none while a page migrates
(DEDUCED, log 65). -/
def Mach.sweep (m : Mach) (ia n : Nat) : Option Mach :=
  match areaOf (iaLocal ia) with
  | .mem d o =>
    let ps := m.pagesOver d o n
    if ps.any (fun q => (m.page d q).state = 2) then none
    else some (ps.foldl (fun (m : Mach) q =>
      let p := m.page d q
      if p.state = 1 then
        let lo := max o q
        let hi := min (o + n) (q + p.size)
        poisonRun m (hbmKey d (p.phys + (lo - q))) (hi - lo)
      else if p.state = 0 then m.setPageState d q 3 else m) m)
  | .cpool c o => some (poisonRun m (clKey c o) n)
  | .dpool d o => some (poisonRun m (diePoolKey d o) n)
  | .host _ _ | .regs _ | .boot _ | .none => some m

/-- Whether an access of a dead holder, or a write-back of its cluster, is still on its way to its region (R407). -/
def Mach.onItsWay (m : Mach) (party ia n : Nat) : Bool :=
  let its := fun (src : Nat) => src = party || (holderCluster party).any (fun c => decide (src = m.supParty c))
  (m.unsent ++ m.net ++ m.homeq).any (fun p => 1 ≤ p.op && p.op ≤ 5 && its p.src.toNat
    && p.addr.toNat < ia + n && ia < p.addr.toNat + max p.bcnt p.data.length)

/-- TOKEN_RECLAIM: once every access of the dead holder has been performed or discarded, the home sweeps the region of the entry
that it left, then lists it at home. -/
def execTokenReclaim (die entry : Nat) (s : State) : Host.Outcome State Fault Refusal :=
  act (fun m =>
    let x := m.die die
    match x.tok.find? (fun e => e.1 = entry) with
    | none => m
    | some (i, e) =>
      if 4 ≤ die || !e.pois || !e.excl || !m.roomFor (srcDie die) || m.onItsWay e.party (m.tokIa e) (2 ^ e.log2) then m
      else match m.sweep (m.tokIa e) (2 ^ e.log2) with
        | none => m
        | some m =>
          let m := m.raise .defer .toklost
            { src := srcDie die, flags := 2, eng := 255, a1 := BitVec.ofNat 64 (m.tokIa e)
              detail := BitVec.ofNat 64 (e.party * 2 ^ 32 + 256 + e.log2) }
          let x := m.die die
          (m.setDie die { x with tok := store TokEntry.blank x.tok i { e with excl := false, pois := false, party := 0 } }).homeServe die) s

end Sys2Proof.Machine
end

