-- ==== Sys2Proof/Machine/Boot.lean ====
section
/-!
DEFINITION. The firmware complex and the security block: reset (R355), the boot chain and minimal mode (R344 to R348, R357, R361,
R365, R432, R433), quotes (R349), canaries (R350 to R352, R430) and alarms (R431, R434).
-/

namespace Sys2Proof.Machine

open Sys2Proof

/-! ## Flash, images, the log -/

def flashBytes (m : Mach) (o n : Nat) : List Byte := (rdRun m (flashKey o) n).map (·.b)
def Mach.poke (m : Mach) (k : Nat) (bs : List Byte) : Mach := { m with mem := wrRaw m.mem k bs }

/-- FAILS, in the boot-state block (R432). -/
def Mach.fails (m : Mach) : Nat := (rdRaw m (flashKey 0x1000)).toNat
def Mach.setFails (m : Mach) (n : Nat) : Mach := m.poke (flashKey 0x1000) [BitVec.ofNat 8 n]

/-- An object of the flash (R344). -/
def flashObject (m : Mach) (k : Nat) : List Byte :=
  let o := Config.flashAt k
  flashBytes m o (Config.imageSize (flashBytes m o 64))

/-- An image's version word, RMIN and WVER (R348). -/
def imageVer (bs : List Byte) : Word32 := BitVec.ofNat 32 (fieldAt bs 0 4)
def imageRmin (bs : List Byte) : Nat := fieldAt bs 5 1
def imageWver (bs : List Byte) : Nat := fieldAt bs 4 1

/-- The 64 bytes of a log entry (R347). -/
def logEntry (seq layer kind : Nat) (d : BitVec 256) (ver : Word32) (size : Nat) : List Byte :=
  bytesOf 4 seq ++ bytesOf 1 layer ++ bytesOf 1 kind ++ bytesOf 2 0 ++ digestBytes d ++ bytesOf 4 ver.toNat ++ bytesOf 4 size
    ++ bytesOf 16 0

/-- An append: refused when the log is full; the running digest takes the entry in (R347). -/
def Firmware.append (f : Firmware) (layer kind : Nat) (d : BitVec 256) (ver : Word32) (size : Nat) : Firmware :=
  if 256 ≤ f.log.length then f
  else
    let e := logEntry f.log.length layer kind d ver size
    { f with log := f.log ++ [e], logd := digest (digestBytes f.logd ++ e) }

/-- An image measured (R347). -/
def Firmware.measure (f : Firmware) (layer kind : Nat) (bs : List Byte) : Firmware :=
  f.append layer kind (digest bs) (imageVer bs) bs.length

/-! ## Failed starts (R432) -/

/-- The BOOTWHY record of a step. -/
def bootwhy (m : Mach) (step extra : Nat) : Event :=
  { src := srcHub, type := Cls.device.code, status := Cause.bootfail.code, eng := 255, gtc := m.gtc
    detail := BitVec.ofNat 64 (step * 2 ^ 56 + extra) }

/-- The start ends at a step, and its reason is written in flash. -/
def failStart (step extra : Nat) (s : State) : State :=
  { s with
    m := s.m.poke (flashKey 0x1040) (bootwhy s.m step extra).bytes
    fw := { s.fw with stage := .halted, stageAt := s.m.gtc } }

/-- Whether a step of a start is under way. -/
def Stage.starting : Stage → Bool
  | .pll0 | .plls | .hbm | .pcie | .images => true
  | .rom | .serving | .minPll | .minPcie | .minimal | .halted => false

/-- Whether a start still counts as failed: it is under way, or has reached its last layer with FAILS not cleared yet (R432). -/
def State.unsettled (s : State) : Bool := s.fw.stage.starting || (s.fw.stage = .serving && s.m.fails ≠ 0)

/-! ## The boot chain (R344, R345, R357, R361, R365) -/

/-- PLLC of PLL i as layer 1, or the ROM, writes it (R357). -/
def pllValue (i : Nat) : Word64 :=
  if i = 0 then 0x40E68000#64 else if i = 1 then 0x40E60000#64 else if i = 2 then 0x40E5E000#64 else 0x40E6A000#64
def Mach.startPll (m : Mach) (i : Nat) : Mach := m.setReg (0x2000 + 8 * i) (pllValue i)

/-- The chain passes to a stage. -/
def Firmware.enter (f : Firmware) (st : Stage) (now : Nat) : Firmware := { f with stage := st, stageAt := now }

/-- Out of reset: minimal mode when three starts have failed (R433); else the start is counted, and PLL 0 set going. -/
def bootRom (s : State) : State :=
  if 3 ≤ s.m.fails then
    { s with m := (s.m.startPll 0).startPll 1, fw := { s.fw.enter .minPll s.m.gtc with minimal := true } }
  else { s with m := (s.m.setFails (s.m.fails + 1)).startPll 0, fw := s.fw.enter .pll0 s.m.gtc }

/-- Steps 1 to 6: the ROM measures the blob and layer 1, and derives slots 0 and 1. -/
def bootMeasure (s : State) : State :=
  let blob := flashObject s.m 0
  let l1 := flashObject s.m 1
  if !Config.imageOk 0 blob then failStart 1 0 s
  else if !Config.imageOk 1 l1 then failStart 2 0 s
  else
    let mc := digest blob
    let m1 := digest (sha256 l1 ++ digestBytes mc)
    let uds := s.fw.uds.getD 0
    let cdi1 : BitVec 256 := BitVec.ofNat 256 (beVal (hmac (digestBytes uds) (digestBytes m1)))
    let k0 := deriveKey uds 0
    let n1 := (deriveKey cdi1 1).n
    let f := (s.fw.append 0 1 mc 0 blob.length).append 0 2 (digest l1) (imageVer l1) l1.length
    let cs : List Cert :=
      [{ layer := 0, subject := k0.n, issuer := k0.n, der := certDer k0 0 k0.n 0 },
        { layer := 1, subject := n1, issuer := k0.n, fwid := m1, der := certDer k0 1 n1 m1 }]
    let f : Firmware := { f with
      mc := mc, m1 := m1, uds := none, cdi1 := some cdi1, pufLocked := true, lockedSlots := [true, false, false]
      certs := cs
      hostdbg := Config.blobHostdbg blob, chip := Config.blobChip blob % 2 ^ 21, layer := 1 }
    let m := s.m.poke (bootKey 0) (l1.take (2 ^ 20))
    let m := (List.range 34).foldl (fun (m : Mach) i => m.startPll (i + 1)) m
    { s with m := m, fw := f.enter .plls s.m.gtc }

/-- The eight stacks start to train. -/
def bootTrain (s : State) : State :=
  let m := (List.range 4).foldl (fun (m : Mach) d =>
    let x := m.die d
    m.setDie d { x with st0 := x.st0.go 0x31, st1 := x.st1.go 0x31 }) s.m
  { s with m := m, fw := s.fw.enter .hbm s.m.gtc }

/-- A die's directory with every entry absent, at a place the manual leaves to layer 1; DPSPLIT at its reset value (R361)
(DESIGN CHOICE, log 66). -/
def Mach.newDirectory (m : Mach) (d : Nat) : Mach :=
  let base := Config.choice m.free % 98304 * 2 ^ 20
  let m := { m with free := m.free + 1 }
  let m := clearRun m (hbmKey d base) (2 ^ 20)
  m.setDie d { m.die d with pdbase := BitVec.ofNat 64 base, explW := 0 }

/-- The stacks of a package: die and stack. -/
def allStacks : List (Nat × Nat) := (List.range 8).map (fun i => (i / 2, i % 2))

/-- Training watched; then the directories, CHIPID and the planes' EN. -/
def bootHbm (s : State) : State :=
  let st := fun (x : Nat × Nat) => (s.m.die x.1).stack x.2
  match allStacks.find? (fun x => (st x).fail) with
  | some x => failStart 5 ((x.1 * 2 + x.2) * 2 ^ 48 + (st x).step * 2 ^ 40) s
  | none =>
    if allStacks.all (fun x => (st x).done = 9) then
      let m := (List.range 4).foldl Mach.newDirectory s.m
      let m := { m with hub := { m.hub with chip := s.fw.chip } }
      let m := (List.range 8).foldl (fun (m : Mach) p => m.lkctl p true (m.link p).media) m
      { s with m := m, fw := s.fw.enter .pcie s.m.gtc }
    else s

/-- Queue-core image into a queue core, and supervisor image into a supervisor's SRAM. -/
def Mach.loadQc (m : Mach) (img : List Byte) (q : Nat) : Mach := m.poke (qcKey q 0) (img.take (2 ^ 16))
def Mach.loadSv (m : Mach) (img : List Byte) (c : Nat) : Mach := m.poke (svKey c 0) (img.take (2 ^ 18))

/-- The registers that layer 2 finds at their reset values, whatever was written before (R365): pools, PMAP, AGELIM, FDBOUND and
the weights; CLK_SWALLOW 0 and ENACC from 0. -/
def Mach.freshRegs (m : Mach) : Mach :=
  let kept := m.regs.filter (fun e => !(e.1 = 0x10 || e.1 = 0x18 || (0x3100 ≤ e.1 && e.1 < 0x3158)))
  let m := { m with regs := kept, events := [], hub := { m.hub with pmap := 0x00FAC688, pmapW := 0x00FAC688 } }
  let m := (m.clusters.map (·.1)).foldl (fun (m : Mach) c =>
    m.setCluster c { m.cluster c with expl := 4, explW := 4, swallow := 0, swallowW := 0, pj := 0 }) m
  ((m.dies.map (·.1)).foldl (fun (m : Mach) d => m.setDie d { m.die d with expl := 0, explW := 0 }) m).holdHot

/-- What layer 2 stands on: PLLs locked, stacks trained, PCIe up and ready, no task (R365). -/
def Mach.standsReady (m : Mach) : Bool :=
  (List.range 35).all m.locked.contains && allStacks.all (fun x => ((m.die x.1).stack x.2).done = 9)
    && m.hub.pcieUp && m.hub.pcieReady && !m.holdsTask (fun _ => true)

/-- Steps 7 to 9: once all that it stands on is there, the images of layer 2 are measured and started, and LAYER becomes 2, with
every queue slot's EN at 0 and registers at their reset values (R365). -/
def bootImages (s : State) : State :=
  if !s.m.standsReady then s
  else
  let k := flashObject s.m 2
  let q := flashObject s.m 3
  let v := flashObject s.m 4
  if !Config.imageOk 2 k || !Config.imageOk 3 q || !Config.imageOk 4 v then failStart 3 0 s
  else
    let f := ((s.fw.measure 1 3 k).measure 1 4 q).measure 1 5 v
    let m2 := digest (sha256 k ++ sha256 q ++ sha256 v)
    let cdi2 : BitVec 256 := BitVec.ofNat 256 (beVal (hmac (digestBytes (f.cdi1.getD 0)) (digestBytes m2)))
    let k1 := deriveKey (f.cdi1.getD 0) 1
    let n2 := (deriveKey cdi2 2).n
    let cert : Cert := { layer := 2, subject := n2, issuer := k1.n, fwid := m2, der := certDer k1 2 n2 m2 }
    let f : Firmware := { f with
      cdi1 := none, cdi2 := some cdi2, lockedSlots := [true, true, false]
      certs := f.certs ++ [cert]
      qcctl := (List.range 6).map (fun i => at' 0 f.qcctl i ||| 1), rmin := imageRmin k, wver := imageWver k, layer := 2 }
    let m := (List.range 6).foldl (fun (m : Mach) i => m.loadQc q i) s.m
    let m := (List.range 32).foldl (fun (m : Mach) c =>
      let m := m.loadSv v c
      m.setCluster c { m.cluster c with svrun := true }) m
    let off := fun (w : Option Word64) => w.map (· &&& ~~~1#64)
    let qs := m.hub.queues.map (fun e => (e.1, { e.2 with ctl := off e.2.ctl, ctlW := off e.2.ctlW }))
    { s with m := ({ m with hub := { m.hub with queues := qs } }).freshRegs, fw := f.enter .serving s.m.gtc }

/-- Minimal mode reached: READY, LAYER 15 and the BOOTFAIL record (R433). -/
def bootMinimal (s : State) : State :=
  if !s.m.roomFor srcHub then s
  else
  let why := flashBytes s.m 0x1040 64
  let m := s.m.pcieReadyOn.raise .device .bootfail
    { src := srcHub, eng := 255, detail := BitVec.ofNat 64 (fieldAt why 0x28 8) }
  { s with m := m, fw := { s.fw.enter .minimal s.m.gtc with layer := 15 } }

/-- BOOT: the chain goes on as far as what it waits for has come; after an alarm none begins (R431)
(DEDUCED, log 67). -/
def execBoot (s : State) : Host.Outcome State Fault Refusal :=
  .next (match s.fw.stage with
    | .rom => if s.fw.alarm.isSome then s else bootRom s
    | .pll0 => if s.m.locked.contains 0 then bootMeasure s else s
    | .plls => if (List.range 35).all s.m.locked.contains then bootTrain s else s
    | .hbm => bootHbm s
    | .pcie => if s.m.hub.pcieUp then { s with m := s.m.pcieReadyOn, fw := s.fw.enter .images s.m.gtc } else s
    | .images => bootImages s
    | .minPll => if s.m.locked.contains 0 && s.m.locked.contains 1 then { s with fw := s.fw.enter .minPcie s.m.gtc } else s
    | .minPcie => if s.m.hub.pcieUp then bootMinimal s else s
    | .serving | .minimal | .halted => s)

/-- BOOT_TIMEOUT (R432): a step of the start has passed its bound. -/
def execBootTimeout (s : State) : Host.Outcome State Fault Refusal :=
  .next (
    let t := s.m.gtc
    let f := s.fw
    if !f.stage.starting then s
    else if (f.stage = .pll0 ∨ f.stage = .plls) ∧ f.stageAt + 200000 < t then failStart 4 0 s
    else if f.stage = .pcie ∧ f.stageAt + 10 ^ 9 < t then failStart 6 0 s
    else if 30 * 10 ^ 9 < t then failStart 7 0 s
    else s)

/-- FAILS_CLEAR (R432, R433): the policy kernel's work, 60 s after LAYER 2. -/
def execFailsClear (s : State) : Host.Outcome State Fault Refusal :=
  .next (if s.m.kernelRuns ∧ s.fw.stage = .serving ∧ s.fw.stageAt + 60 * 10 ^ 9 ≤ s.m.gtc then { s with m := s.m.setFails 0 } else s)

/-- BOOTCLR (R339, R433). -/
def execBootclr (by' : Actor) (v : Word64) (s : State) : Host.Outcome State Fault Refusal :=
  regWrite by' (fwReg 0x30) (fun m => if v.getLsbD 0 then m.setFails 0 else m) s

/-! ## Reset (R355) -/

/-- Bytes of HBM after a reset are undefined: those listed take open values. -/
def afterReset (m : Mach) : List Host.Cell :=
  let flash := m.mem.filter (fun c => flashKey 0 ≤ c.1 && c.1 < bootKey 0)
  let hbm := m.mem.filter (fun c => c.1 < 2 ^ 40)
  (hbm.mapIdx (fun i c => (i, c.1))).foldl (fun l x => store unwritten l x.2 ((Config.freeBits (m.free + x.1)).setWidth 8)) flash

/-- RESET: RESET_N or PERST# is low, then high, with every rail in band (R354). The flash, the pins' levels and a tile's damaged
cells stand outside the device's registers and remain, so that a low VRHOT_N holds every cluster from the start (R435); a start that
is not over is counted as failed (R432) (DEDUCED, log 70). -/
def execReset (s : State) : Host.Outcome State Fault Refusal :=
  .next (
    let s := if s.unsettled then failStart 8 0 s else s
    let tiles := (s.m.tiles.filter (fun e => e.2.bad ≠ [])).map (fun e => (e.1, ({ bad := e.2.bad } : Tile)))
    let hub : Hub := { vrhotLow := s.m.hub.vrhotLow }
    { agenda := s.agenda
      m := ({ mem := afterReset s.m, tiles := tiles, hub := hub, free := s.m.free + s.m.mem.length } : Mach).holdHot })

/-! ## Quotes (R349) -/

/-- QGO: nonce, LOGCNT and LOGD are captured in one step; a later turn signs them (DEDUCED, log 69). -/
def execQgo (by' : Actor) (v : Word64) (s : State) : Host.Outcome State Fault Refusal :=
  .next (
    if !s.m.writes s.fw by' (fwReg 0x4020) || !v.getLsbD 0 || s.fw.capture.isSome || s.fw.alarm.isSome then s
    else
      let nonce := (s.fw.nonce ++ List.replicate 32 0).take 32
      let c := nonce ++ bytesOf 4 s.fw.log.length ++ bytesOf 4 0 ++ digestBytes s.fw.logd
      { s with fw := { s.fw with capture := some c } })

/-! ## Canaries (R350 to R352, R430) -/

/-- Whether the SAVEVER of every saved context lies in a span. -/
def Mach.spanOk (m : Mach) (rmin wver : Nat) : Bool :=
  wver - rmin ≤ 1 && rmin ≤ wver &&
    (m.hub.jobs.filter (fun j => j.st = .stopped)).all (fun j => rmin ≤ j.savever && j.savever ≤ wver)

/-- A canary refused or ended, with its cause. -/
def Canary.close (c : Canary) (state why : Nat) : Canary := { c with state := state, why := why }

/-- A supervisor is reloaded under R342: reset, its image written, and started. -/
def Mach.renewSv (m : Mach) (img : List Byte) (c : Nat) : Mach :=
  let m := (m.stopSv c).loadSv img c
  m.setCluster c { m.cluster c with svrun := true }

/-- The canary's image runs from now on, in place of any that its core was still to take. -/
def canaryRuns (s : State) : State :=
  let c := s.fw.can
  let m := if c.goSv then
      let m := s.m.renewSv c.bytes c.goCl
      { m with hub := { m.hub with canaryCl := none } }
    else s.m.loadQc c.bytes 5
  let left := c.left.filter (· ≠ (c.goSv, if c.goSv then c.goCl else 5))
  { s with m := m, fw := { s.fw with can := { c with state := 2, since := s.m.gtc, left := left } } }

/-- A canary being loaded is started when it can be: QC5 at once, a supervisor when its cluster holds no task. -/
def canaryLoad (s : State) : State :=
  let c := s.fw.can
  if c.goSv && s.m.holdsTask (fun n => clusterOf n = c.goCl) then s else canaryRuns s

/-- Steps 1 and 2 for an image read. -/
def canaryStart (img : Word64) (bs : List Byte) (s : State) : State :=
  let refuse := fun (why : Nat) (s : State) => { s with fw := { s.fw with can := s.fw.can.close 5 why } }
  let rmin := imageRmin bs
  let wver := imageWver bs
  if !s.m.spanOk rmin wver then refuse Cause.layout.code s
  else if 256 ≤ s.fw.log.length then
    let (w, m) := fresh s.m
    refuse (w.toNat % 256) { s with m := m }
  else
    let f := s.fw.measure 2 6 bs
    let c := { f.can with
      state := 1, why := 0, img := img, digest := digest bs, ver := imageVer bs, size := bs.length, bytes := bs
      rmin := rmin, wver := wver, go := false, err := none }
    let m := if c.goSv then { s.m with hub := { s.m.hub with canaryCl := some c.goCl } } else s.m
    canaryLoad { s with m := m, fw := { f with can := c } }

/-- The image of a canary is read from device memory; while its page migrates, or its stack trains, the canary stays loading. -/
def canaryRead (s : State) : State :=
  let img := s.fw.can.img
  let refuse := { s with fw := { s.fw with can := { s.fw.can.close 5 Cause.range.code with go := false } } }
  match s.m.hubRead img.toNat 64 0xFFFF with
  | .hold => s
  | .bad _ => refuse
  | .ok head =>
    let n := Config.imageSize head
    match s.m.areaBytes img.toNat (n / 4096 + 2) n with
    | .done bs _ => canaryStart img (bs.map (·.b)) s
    | .wait _ => s
    | .trap _ | .park _ _ => refuse

/-- CANCTL_GO: CANCTL's fields are written; GO starts a canary, with them as they stand, unless one is loading or ripening,
when the write is discarded (DEDUCED, log 68). -/
def execCanctlGo (by' : Actor) (v : Word64) (s : State) : Host.Outcome State Fault Refusal :=
  .next (
    let c := s.fw.can
    let go := v.getLsbD 0
    if !s.m.writes s.fw by' (fwReg 0x18) || (go && (c.state = 1 || c.state = 2)) then s
    else
      let c := { c with period := bits64 v 16 16, cl := bits64 v 11 5, supervisor := v.getLsbD 10 }
      let s := { s with fw := { s.fw with can := c } }
      if !go then s
      else
        let c := { c with
          state := 1, why := 0, go := true, goPeriod := c.period, goCl := c.cl, goSv := c.supervisor, img := s.m.reg (fwReg 0x28) }
        canaryRead { s with fw := { s.fw with can := c } })

/-- The cause of an error record of the ripening canary's code, written to a ring or still in the hub's store. -/
def canaryError (s : State) : Option Nat :=
  let c := s.fw.can
  c.err.or ((s.m.hub.raised.find? (s.m.canaryBlames c)).map (fun r => r.ev.status))

/-- Cores added to those that wait for the committed image. -/
def Canary.renew (c : Canary) (us : List (Bool × Nat)) : Canary := { c with left := distinct (c.left ++ us) }

/-- Step 5, a revert: KIND 8, and the committed image comes back. -/
def canaryRevert (why : Nat) (s : State) : State :=
  let c := s.fw.can
  let f := s.fw.append 2 8 c.digest c.ver c.size
  { s with fw := { f with can := (c.close 4 why).renew [(c.goSv, if c.goSv then c.goCl else 5)] } }

/-- Step 5, a commit: KIND 7, the image goes to flash, and the other cores take it. -/
def canaryCommit (s : State) : State :=
  let c := s.fw.can
  let f := s.fw.append 2 7 c.digest c.ver c.size
  let m := s.m.poke (flashKey (Config.flashAt (if c.goSv then 4 else 3))) c.bytes
  let others := if c.goSv then (List.range 32).filter (· ≠ c.goCl) else List.range 5
  let can := (c.close 3 0).renew (others.map (fun u => (c.goSv, u)))
  { s with m := m, fw := { f with can := can, rmin := c.rmin, wver := c.wver } }

/-- The first core that waits for the committed image is reloaded, when it is idle. -/
def canaryReload (s : State) : State :=
  let c := s.fw.can
  match c.left with
  | [] => s
  | (sv, u) :: us =>
    let rest := { s.fw with can := { c with left := us } }
    if sv then
      if s.m.holdsTask (fun n => clusterOf n = u) then s
      else { s with m := s.m.renewSv (flashObject s.m 4) u, fw := rest }
    else if (List.range 128).any (fun q => bits64 ((s.m.queue q).qctl q) 9 3 = u && !(s.m.queue q).started.isEmpty) then s
    else { s with m := s.m.loadQc (flashObject s.m 3) u, fw := rest }

/-- RIPENING_PERIOD_END: the policy kernel carries a canary on. A loading one is started when it can be; a ripening one is
reverted at once on an error record of its load; at the end of PERIOD it is committed when its latency is within bounds and
its layouts still fit, and otherwise reverted; one whose layouts do not fit has a further PERIOD. Where nothing of this is
due, a core that waits takes the committed image. -/
def execRipeningPeriodEnd (latencyOk : Bool) (s : State) : Host.Outcome State Fault Refusal :=
  .next (if !s.m.kernelRuns then s else
    let c := s.fw.can
    let span := c.goPeriod * 10 ^ 9
    if c.state = 1 then (if c.go then canaryRead s else canaryLoad s)
    else if c.state = 2 then
      match canaryError s with
      | some why => canaryRevert why s
      | none =>
        if s.m.gtc < c.since + span then canaryReload s
        else if !latencyOk then canaryRevert 0 s
        else if s.m.spanOk c.rmin c.wver then canaryCommit s
        else if c.since + 2 * span ≤ s.m.gtc then canaryRevert Cause.layout.code s
        else canaryReload s
    else canaryReload s)

/-! ## Alarms (R431, R434) -/

/-- The level of a rail, as RAILST reports it (R354). -/
def Mach.setRail (m : Mach) (i : Nat) (ok : Bool) : Mach :=
  let bit := 1#10 <<< i
  { m with hub := { m.hub with rails := if ok then m.hub.rails ||| bit else m.hub.rails &&& ~~~bit } }

/-- The steps of an alarm (R366, R431); the hub holds it until its record has room (R370). `detail` is the RAILST bit of source 4
(DEDUCED, log 71). -/
def raiseAlarm (source detail : Nat) (s : State) : State :=
  if s.fw.alarm.isSome then s
  else if !s.m.roomFor srcHub then { s with fw := { s.fw with alarmDue := s.fw.alarmDue.or (some (source, detail)) } }
  else
    let f := { s.fw with
      alarmDue := none, cdi2 := none, lockedSlots := [true, true, true], alarm := some source, capture := none
      qcctl := s.fw.qcctl.map (· &&& ~~~1#64) }
    let m := (s.m.ctxs.map (·.1)).foldl (fun (m : Mach) k => m.kill (k / 2) (k % 2 = 1) { src := srcTile (k / 2) }) s.m
    let m := (m.clusters.map (·.1)).foldl (fun (m : Mach) c => m.setCluster c { m.cluster c with svrun := false }) m
    let code := source + (if source = 4 then detail % 256 * 256 else 0)
    let m := m.raise .device .alarm { src := srcHub, eng := 255, detail := BitVec.ofNat 64 code }
    let s : State := { s with fw := f, m := m.stopServing }
    if s.unsettled then failStart 9 code s else s

/-- ALARM: 1 a glitch, 2 the PUF, 3 a read of a locked slot, 4 a rail that leaves its band, 5 temperature. -/
def execAlarm (source detail : Nat) (s : State) : Host.Outcome State Fault Refusal :=
  .next (raiseAlarm source detail (if source = 4 then { s with m := s.m.setRail detail false } else s))

/-- A die whose TMAX is at or above TCRIT raises an alarm (R431, R434). -/
def heatAlarm (die : Nat) (s : State) : State := if (s.m.die die).tcrit ≤ (s.m.die die).tmax then raiseAlarm 5 0 s else s

/-- THERMAL_HOT: what a die's sensors report: the hottest, and each cluster's hottest. HOT follows from THOT, and the clusters
that it names are held (R434, R435). -/
def execThermalHot (die tmax : Nat) (temps : List Nat) (s : State) : Host.Outcome State Fault Refusal :=
  .next (
    if 4 ≤ die then s
    else
      let ts := (temps.take 8).map (· % 256)
      heatAlarm die { s with m := (s.m.setDie die { s.m.die die with tmax := ts.foldl max (tmax % 256), temps := ts }).holdHot })

/-- What is due as time passes: an alarm that waited for room, one for a threshold written at or below TMAX, clusters held for a
THOT written, and ends that waited for room (R370, R431, R434, R435). -/
def State.due (s : State) : State :=
  let s := match s.fw.alarmDue with
    | some (source, detail) => raiseAlarm source detail s
    | none => s
  let s := (List.range 4).foldl (fun s d => heatAlarm d s) s
  { s with m := s.m.holdHot.failDue }

end Sys2Proof.Machine
end

