-- ==== Sys2Proof/Machine/Dispatch.lean ====
section
/-!
DEFINITION. One arm for each constructor of `Instr`: a direct call of its meaning.
-/

namespace Sys2Proof.Machine

open Sys2Proof

def exec (i : Instr) (s : State) : Host.Outcome State Fault Refusal :=
  match i with
  | .nop => Sys2Proof.Machine.execNop s
  | .tail => Sys2Proof.Machine.execTail s
  | .wait a0 a1 => Sys2Proof.Machine.execWait a0 a1 s
  | .signal a0 a1 => Sys2Proof.Machine.execSignal a0 a1 s
  | .sigr a0 a1 a2 => Sys2Proof.Machine.execSigr a0 a1 a2 s
  | .bar a0 a1 => Sys2Proof.Machine.execBar a0 a1 s
  | .br a0 => Sys2Proof.Machine.execBr a0 s
  | .brx a0 a1 a2 a3 => Sys2Proof.Machine.execBrx a0 a1 a2 a3 s
  | .call a0 => Sys2Proof.Machine.execCall a0 s
  | .ret => Sys2Proof.Machine.execRet s
  | .disp a0 a1 => Sys2Proof.Machine.execDisp a0 a1 s
  | .patch a0 a1 a2 a3 => Sys2Proof.Machine.execPatch a0 a1 a2 a3 s
  | .xli a0 a1 a2 => Sys2Proof.Machine.execXli a0 a1 a2 s
  | .xop a0 a1 a2 a3 a4 => Sys2Proof.Machine.execXop a0 a1 a2 a3 a4 s
  | .xopImm a0 a1 a2 a3 => Sys2Proof.Machine.execXopImm a0 a1 a2 a3 s
  | .fence a0 => Sys2Proof.Machine.execFence a0 s
  | .pfence => Sys2Proof.Machine.execPfence s
  | .tkget a0 a1 a2 a3 => Sys2Proof.Machine.execTkget a0 a1 a2 a3 s
  | .tkput a0 a1 a2 => Sys2Proof.Machine.execTkput a0 a1 a2 s
  | .tklend a0 a1 a2 a3 => Sys2Proof.Machine.execTklend a0 a1 a2 a3 s
  | .tksplit a0 a1 a2 => Sys2Proof.Machine.execTksplit a0 a1 a2 s
  | .tkjoin a0 a1 a2 => Sys2Proof.Machine.execTkjoin a0 a1 a2 s
  | .trap a0 => Sys2Proof.Machine.execTrap a0 s
  | .ldw a0 a1 a2 a3 a4 => Sys2Proof.Machine.execLdw a0 a1 a2 a3 a4 s
  | .ldg a0 a1 a2 a3 => Sys2Proof.Machine.execLdg a0 a1 a2 a3 s
  | .ldc a0 a1 a2 a3 a4 a5 a6 a7 a8 a9 => Sys2Proof.Machine.execLdc a0 a1 a2 a3 a4 a5 a6 a7 a8 a9 s
  | .ldx a0 a1 a2 a3 => Sys2Proof.Machine.execLdx a0 a1 a2 a3 s
  | .probe a0 a1 a2 => Sys2Proof.Machine.execProbe a0 a1 a2 s
  | .pref a0 a1 => Sys2Proof.Machine.execPref a0 a1 s
  | .waitm a0 a1 a2 a3 a4 a5 => Sys2Proof.Machine.execWaitm a0 a1 a2 a3 a4 a5 s
  | .stw a0 a1 a2 => Sys2Proof.Machine.execStw a0 a1 a2 s
  | .sts a0 a1 a2 a3 => Sys2Proof.Machine.execSts a0 a1 a2 a3 s
  | .stk a0 a1 a2 a3 a4 a5 => Sys2Proof.Machine.execStk a0 a1 a2 a3 a4 a5 s
  | .stx a0 a1 a2 a3 => Sys2Proof.Machine.execStx a0 a1 a2 a3 s
  | .atom a0 a1 a2 a3 a4 a5 a6 a7 a8 => Sys2Proof.Machine.execAtom a0 a1 a2 a3 a4 a5 a6 a7 a8 s
  | .stred a0 a1 a2 => Sys2Proof.Machine.execStred a0 a1 a2 s
  | .mwld a0 a1 a2 a3 a4 => Sys2Proof.Machine.execMwld a0 a1 a2 a3 a4 s
  | .mstrm a0 a1 a2 a3 a4 a5 a6 => Sys2Proof.Machine.execMstrm a0 a1 a2 a3 a4 a5 a6 s
  | .mrb a0 a1 => Sys2Proof.Machine.execMrb a0 a1 s
  | .mzero a0 a1 a2 => Sys2Proof.Machine.execMzero a0 a1 a2 s
  | .vloop a0 a1 a2 a3 a4 => Sys2Proof.Machine.execVloop a0 a1 a2 a3 a4 s
  | .vrst a0 => Sys2Proof.Machine.execVrst a0 s
  | .meBlockStart a0 => Sys2Proof.Machine.execMeBlockStart a0 s
  | .streamStart a0 => Sys2Proof.Machine.execStreamStart a0 s
  | .loadForme a0 => Sys2Proof.Machine.execLoadForme a0 s
  | .placeJob => Sys2Proof.Machine.execPlaceJob s
  | .taskRetire a0 a1 => Sys2Proof.Machine.execTaskRetire a0 a1 s
  | .jobComplete a0 => Sys2Proof.Machine.execJobComplete a0 s
  | .taskKill a0 a1 => Sys2Proof.Machine.execTaskKill a0 a1 s
  | .aging a0 => Sys2Proof.Machine.execAging a0 s
  | .planInterval a0 => Sys2Proof.Machine.execPlanInterval a0 s
  | .save a0 => Sys2Proof.Machine.execSave a0 s
  | .resume a0 => Sys2Proof.Machine.execResume a0 s
  | .rlimit a0 => Sys2Proof.Machine.execRlimit a0 s
  | .launch a0 => Sys2Proof.Machine.execLaunch a0 s
  | .waitev a0 => Sys2Proof.Machine.execWaitev a0 s
  | .sigev a0 => Sys2Proof.Machine.execSigev a0 s
  | .tokgrant a0 => Sys2Proof.Machine.execTokgrant a0 s
  | .tokrecall a0 => Sys2Proof.Machine.execTokrecall a0 s
  | .nopc a0 => Sys2Proof.Machine.execNopc a0 s
  | .timestamp a0 => Sys2Proof.Machine.execTimestamp a0 s
  | .notifyWrite a0 a1 a2 a3 => Sys2Proof.Machine.execNotifyWrite a0 a1 a2 a3 s
  | .eventRecordPost a0 => Sys2Proof.Machine.execEventRecordPost a0 s
  | .bar4Read a0 a1 a2 => Sys2Proof.Machine.execBar4Read a0 a1 a2 s
  | .bar4Write a0 a1 a2 => Sys2Proof.Machine.execBar4Write a0 a1 a2 s
  | .configRequest a0 a1 => Sys2Proof.Machine.execConfigRequest a0 a1 s
  | .functionLevelReset a0 => Sys2Proof.Machine.execFunctionLevelReset a0 s
  | .readReq a0 => Sys2Proof.Machine.execReadReq a0 s
  | .writeReq a0 => Sys2Proof.Machine.execWriteReq a0 s
  | .atomicReq a0 => Sys2Proof.Machine.execAtomicReq a0 s
  | .reduceStore a0 => Sys2Proof.Machine.execReduceStore a0 s
  | .waitmWatch a0 => Sys2Proof.Machine.execWaitmWatch a0 s
  | .peerWrite a0 => Sys2Proof.Machine.execPeerWrite a0 s
  | .peerAtomic a0 => Sys2Proof.Machine.execPeerAtomic a0 s
  | .peerReduceStore a0 => Sys2Proof.Machine.execPeerReduceStore a0 s
  | .dataResp a0 => Sys2Proof.Machine.execDataResp a0 s
  | .acknowledge a0 => Sys2Proof.Machine.execAcknowledge a0 s
  | .remoteSignal a0 => Sys2Proof.Machine.execRemoteSignal a0 s
  | .tokenRequest a0 => Sys2Proof.Machine.execTokenRequest a0 s
  | .tokenGrant a0 => Sys2Proof.Machine.execTokenGrant a0 s
  | .tokenReturn a0 => Sys2Proof.Machine.execTokenReturn a0 s
  | .tokenPass a0 => Sys2Proof.Machine.execTokenPass a0 s
  | .tokenAcknowledge a0 => Sys2Proof.Machine.execTokenAcknowledge a0 s
  | .tokenSplit a0 => Sys2Proof.Machine.execTokenSplit a0 s
  | .tokenJoin a0 => Sys2Proof.Machine.execTokenJoin a0 s
  | .barrierArrival a0 => Sys2Proof.Machine.execBarrierArrival a0 s
  | .barrierCompletion a0 => Sys2Proof.Machine.execBarrierCompletion a0 s
  | .flit a0 a1 => Sys2Proof.Machine.execFlit a0 a1 s
  | .ackTimeout a0 => Sys2Proof.Machine.execAckTimeout a0 s
  | .linkAn a0 => Sys2Proof.Machine.execLinkAn a0 s
  | .linkTrain a0 => Sys2Proof.Machine.execLinkTrain a0 s
  | .linkFec a0 => Sys2Proof.Machine.execLinkFec a0 s
  | .linkLlinit a0 a1 => Sys2Proof.Machine.execLinkLlinit a0 a1 s
  | .lkctlEn a0 a1 a2 => Sys2Proof.Machine.execLkctlEn a0 a1 a2 s
  | .prehash a0 a1 => Sys2Proof.Machine.execPrehash a0 a1 s
  | .prhtime => Sys2Proof.Machine.execPrhtime s
  | .chiplost a0 a1 => Sys2Proof.Machine.execChiplost a0 a1 s
  | .chipidWrite a0 a1 => Sys2Proof.Machine.execChipidWrite a0 a1 s
  | .pmapWrite a0 a1 => Sys2Proof.Machine.execPmapWrite a0 a1 s
  | .cpsplitWrite a0 a1 a2 => Sys2Proof.Machine.execCpsplitWrite a0 a1 a2 s
  | .dpsplitWrite a0 a1 a2 => Sys2Proof.Machine.execDpsplitWrite a0 a1 a2 s
  | .tcinv a0 a1 a2 => Sys2Proof.Machine.execTcinv a0 a1 a2 s
  | .qctlWrite a0 a1 a2 => Sys2Proof.Machine.execQctlWrite a0 a1 a2 s
  | .hsig a0 a1 => Sys2Proof.Machine.execHsig a0 a1 s
  | .qgo a0 a1 => Sys2Proof.Machine.execQgo a0 a1 s
  | .canctlGo a0 a1 => Sys2Proof.Machine.execCanctlGo a0 a1 s
  | .ripeningPeriodEnd a0 => Sys2Proof.Machine.execRipeningPeriodEnd a0 s
  | .bootclr a0 a1 => Sys2Proof.Machine.execBootclr a0 a1 s
  | .tkopGetExclusive a0 a1 => Sys2Proof.Machine.execTkopGetExclusive a0 a1 s
  | .tkopGetShared a0 a1 => Sys2Proof.Machine.execTkopGetShared a0 a1 s
  | .tkopPut a0 a1 => Sys2Proof.Machine.execTkopPut a0 a1 s
  | .tkopLend a0 a1 => Sys2Proof.Machine.execTkopLend a0 a1 s
  | .tkopSplit a0 a1 => Sys2Proof.Machine.execTkopSplit a0 a1 s
  | .tkopJoin a0 a1 => Sys2Proof.Machine.execTkopJoin a0 a1 s
  | .doorbellRead a0 a1 a2 => Sys2Proof.Machine.execDoorbellRead a0 a1 a2 s
  | .trapactRetry a0 a1 => Sys2Proof.Machine.execTrapactRetry a0 a1 s
  | .trapactSkip a0 a1 => Sys2Proof.Machine.execTrapactSkip a0 a1 s
  | .trapactGoto a0 a1 a2 => Sys2Proof.Machine.execTrapactGoto a0 a1 a2 s
  | .trapactKill a0 a1 => Sys2Proof.Machine.execTrapactKill a0 a1 s
  | .wdactKill a0 a1 a2 => Sys2Proof.Machine.execWdactKill a0 a1 a2 s
  | .wdactLoad a0 a1 a2 a3 => Sys2Proof.Machine.execWdactLoad a0 a1 a2 a3 s
  | .svctlWrite a0 a1 a2 => Sys2Proof.Machine.execSvctlWrite a0 a1 a2 s
  | .pllcWrite a0 a1 a2 => Sys2Proof.Machine.execPllcWrite a0 a1 a2 s
  | .pllLock a0 => Sys2Proof.Machine.execPllLock a0 s
  | .hmctlGo a0 a1 a2 a3 => Sys2Proof.Machine.execHmctlGo a0 a1 a2 a3 s
  | .hbmStepComplete a0 a1 a2 a3 => Sys2Proof.Machine.execHbmStepComplete a0 a1 a2 a3 s
  | .gtcadj a0 a1 => Sys2Proof.Machine.execGtcadj a0 a1 s
  | .pciectlReady a0 a1 => Sys2Proof.Machine.execPciectlReady a0 a1 s
  | .registerWrite a0 a1 a2 => Sys2Proof.Machine.execRegisterWrite a0 a1 a2 s
  | .reset => Sys2Proof.Machine.execReset s
  | .boot => Sys2Proof.Machine.execBoot s
  | .bootTimeout => Sys2Proof.Machine.execBootTimeout s
  | .failsClear => Sys2Proof.Machine.execFailsClear s
  | .alarm a0 a1 => Sys2Proof.Machine.execAlarm a0 a1 s
  | .vrhot a0 => Sys2Proof.Machine.execVrhot a0 s
  | .thermalHot a0 a1 a2 => Sys2Proof.Machine.execThermalHot a0 a1 a2 s
  | .patrolScrub a0 a1 a2 a3 a4 => Sys2Proof.Machine.execPatrolScrub a0 a1 a2 a3 a4 s
  | .stripeRecovery a0 a1 a2 a3 a4 => Sys2Proof.Machine.execStripeRecovery a0 a1 a2 a3 a4 s
  | .pageIn a0 a1 => Sys2Proof.Machine.execPageIn a0 a1 s
  | .tokenReclaim a0 a1 => Sys2Proof.Machine.execTokenReclaim a0 a1 s
  | .gangSliceStart a0 a1 => Sys2Proof.Machine.execGangSliceStart a0 a1 s
  | .gangSliceEnd a0 => Sys2Proof.Machine.execGangSliceEnd a0 s
  | .gangStartCheck a0 => Sys2Proof.Machine.execGangStartCheck a0 s
  | .pcieCompletion a0 a1 => Sys2Proof.Machine.execPcieCompletion a0 a1 s
  | .pcieLinkUp a0 a1 a2 => Sys2Proof.Machine.execPcieLinkUp a0 a1 a2 s

end Sys2Proof.Machine
end

