-- ==== Sys2Proof/Machine/Turns.lean ====
section
/-!
DEFINITION. What each turn of the agenda does, up to the instruction that it runs: a stream's fetch, the message that is
delivered, the passing of time (DESIGN CHOICE, log 1).
-/

namespace Sys2Proof.Machine

open Sys2Proof

/-- What a turn comes to: an instruction to run at a state, or a state. -/
inductive Todo where
  | run (i : Instr) (s : State)
  | stay (s : State)

/-- The next turn: the agenda's head, or an open one where the agenda is empty (DESIGN CHOICE, log 1). -/
def State.nextTurn (s : State) : Turn × State :=
  match s.agenda with
  | t :: ts => (t, { s with agenda := ts })
  | [] => (Config.freeTurn s.m.free, { s with m := { s.m with free := s.m.free + 1 } })

/-! ## Streams -/

/-- Whether a stream may issue: not before its task is restored whole (R65, R67, R258, R322, R376, R378). -/
def Mach.issues (m : Mach) (a : Agent) : Bool :=
  let c := m.ctx a.tile a.ctx
  let mode := (c.stream a.eng).mode
  a.tile < 512 && m.clocked a.tile && c.dying.isNone &&
    c.loaded && (mode = .run || mode = .held) && !(m.job? c.job).any (·.reviving) && !m.stopsHere a && !m.meHeld a

/-- What a stream has under way beside its instructions goes on: its releases (R262), and the signals behind a sigr's pfence
(R133). -/
def Mach.besides (m : Mach) (a : Agent) : Mach :=
  if !(m.ctx a.tile a.ctx).loaded then m
  else { (({ m with cur := a } : Mach).releaseTurn.postTurn) with cur := m.cur }

/-- Whether an instruction reads memory as it issues: the index lists of R161. -/
def readsEarly : Instr → Bool
  | .ldg _ _ _ _ | .sts _ _ _ _ => true
  | _ => false

/-- The weight load that a restored ME stream has to repeat next, before the task's streams resume (R191, R322). -/
def Mach.reloadDue (m : Mach) (a : Agent) : Option Reload :=
  let c := m.ctx a.tile a.ctx
  if a.eng = .me && c.loaded && c.me.mode = .run then (m.tile a.tile).mat.reloads.head? else none

/-- A stream's turn: what it has under way beside its instructions goes on (R133, R262), what it needs to know of its safe points
is asked for (R64), a restored weight set is loaded (R191), its block goes on, or its next instruction is fetched (R83, R127,
R379); one that reads memory as it issues waits for the pfence of an earlier sigr (R148). -/
def streamTurn (a : Agent) (s : State) : Todo :=
  if 512 ≤ a.tile || !s.m.clocked a.tile || (s.m.ctx a.tile a.ctx).dying.isSome then .stay s
  else
  let s := { s with m := s.m.besides a }
  match s.m.sideAsk a with
  | some m => .stay { s with m := m }
  | none =>
    let m := { s.m with cur := a }
    match s.m.reloadDue a with
    | some r =>
      let m' := m.reloadTurn r
      .stay { s with m := m'.revive m'.curCtx.job }
    | none =>
    if !s.m.issues a then .stay s
    else
      match m.str.blk with
      | some b => .run b.instr { s with m := m }
      | none =>
        match m.fetch with
        | .ok i _ m' => if readsEarly i && !m.str.posts.isEmpty then .stay s else .run i { s with m := m' }
        | .trap n t m => .stay { s with m := m.trapAt n t }
        | .wait m => .stay { s with m := m }

/-! ## Messages -/

/-- The instruction that a message is (R283); none for a reserved OP. -/
def msgInstr (p : Packet) : Option Instr :=
  match p.op with
  | 0x01 => some (.readReq p) | 0x02 => some (.writeReq p) | 0x03 => some (.atomicReq p)
  | 0x04 => some (.reduceStore p) | 0x05 => some (.waitmWatch p) | 0x06 => some (.peerWrite p)
  | 0x07 => some (.peerAtomic p) | 0x08 => some (.peerReduceStore p) | 0x20 => some (.dataResp p)
  | 0x21 => some (.acknowledge p) | 0x40 => some (.remoteSignal p) | 0x41 => some (.tokenRequest p)
  | 0x42 => some (.tokenGrant p) | 0x43 => some (.tokenReturn p) | 0x44 => some (.tokenPass p)
  | 0x45 => some (.tokenAcknowledge p) | 0x46 => some (.tokenSplit p) | 0x47 => some (.tokenJoin p)
  | 0x48 => some (.barrierArrival p) | 0x49 => some (.barrierCompletion p)
  | _ => none

/-- Whether two messages keep their order: one plane, one channel, one source and one destination, and no others (R279,
R280). -/
def Mach.sameWay (m : Mach) (p q : Packet) : Bool :=
  p.plane = q.plane && p.vc = q.vc && m.fromNode p = m.fromNode q && toNode p = toNode q

/-- The messages that no earlier one holds back (R279). -/
def Mach.deliverable (m : Mach) : List Packet → List Packet → List Packet
  | _, [] => []
  | seen, p :: ps => (if seen.any (m.sameWay p) then [] else [p]) ++ m.deliverable (p :: seen) ps

/-- Whether a message can reach its part: the fabric has its clock, and so has the cluster of a tile or of a port (R356). -/
def Mach.wayOpen (m : Mach) (p : Packet) : Bool :=
  m.locked.contains 1 && (match toNode p with
    | .tile k n => k ≠ m.hub.chip || m.clocked n
    | .port k c => k ≠ m.hub.chip || m.locked.contains (3 + c)
    | .home _ _ | .hub _ => true)

/-- A message's turn; one that follows a held request to the same page is held behind it (R242). -/
def deliverTurn (k : Nat) (s : State) : Todo :=
  let ps := s.m.deliverable [] s.m.net
  match (ps[k % ps.length]?).filter s.m.wayOpen with
  | none => .stay s
  | some p =>
    let m := { s.m with net := s.m.net.erase p }
    match (if p.rsv then none else msgInstr p) with
    | some i => if m.behind p m.homeq then .stay { s with m := m.keep p } else .run i { s with m := m }
    | none => .stay { s with m := m.badPacket p }

/-- A held request's turn: it is performed once nothing holds it any more (R242, R361). -/
def heldTurn (k : Nat) (s : State) : Todo :=
  let ps := s.m.firstHeld [] s.m.homeq
  match (ps[k % ps.length]?).filter s.m.wayOpen with
  | none => .stay s
  | some p => match msgInstr p with
    | some i => if s.m.homeReady p then .run i { s with m := { s.m with homeq := s.m.homeq.erase p } } else .stay s
    | none => .stay s

/-! ## Time -/

/-- PMETER takes a sample, an open amount (R360; DESIGN CHOICE, log 51). -/
def Mach.sampleMeter (m : Mach) : Mach :=
  { m with free := m.free + 1, hub := { m.hub with meter := (m.hub.meter + Config.choice m.free) % 2 ^ 64 } }

/-- Edges of the reference clock pass (R358): GTC advances, GTCADJ's shift is slewed by at most 1 ns for each µs, and PMETER
is sampled where a µs has passed (DESIGN CHOICE, log 78). -/
def Mach.passEdges (m : Mach) (n : Nat) : Mach :=
  let m' := { m with edges := m.edges + n }
  let k := m'.edges * 32 / 5 / 1000 - m.edges * 32 / 5 / 1000
  let step : Int := if 0 ≤ m.adjLeft then min m.adjLeft (k : Nat) else max m.adjLeft (-(k : Int))
  let m' := { m' with adj := m.adj + step, adjLeft := m.adjLeft - step }
  (m.hub.queues.map (·.1)).foldl Mach.pastUnmap (if k = 0 then m' else m'.sampleMeter)

/-- A quote in progress is finished: it is signed with slot 2, DONE is set and BUSY cleared (R349). -/
def Firmware.finishQuote (f : Firmware) : Firmware :=
  match f.capture, f.cdi2 with
  | some c, some secret => { f with quote := c ++ rsaSign (deriveKey secret 2) c, quoteDone := true, capture := none }
  | _, _ => f

/-- A core's load or store (R337, R356): a queue core runs while its QCCTL.RUN is 1 and PLL 1 is locked, the policy core while it
has a clock. -/
def coreTodo (who : Option Nat) (data : Option (List Byte)) (addr n : Nat) (s : State) : Todo :=
  let runs := match who with
    | some c => c < 32 || ((at' 0 s.fw.qcctl (c - 32)).getLsbD 0 && s.m.locked.contains 1)
    | none => s.m.powered s.fw .policy
  .stay (if runs then { s with m := s.m.coreTurn who data addr n } else s)

/-- A rail's level changes (R354); one that leaves its band while the device runs raises an alarm (R431). -/
def railTodo (i : Nat) (ok : Bool) (s : State) : Todo :=
  let t := if i < 10 then { s with m := s.m.setRail i ok } else s
  .stay (if i < 10 && !ok then raiseAlarm 4 i t else t)

/-- An operation that waited for room for its record, or for a page, is tried again (R242, R370); with none, the accesses that an
untrained stack held (R361). -/
def againTurn (k : Nat) (s : State) : Todo :=
  match s.m.hub.ops[k % s.m.hub.ops.length]? with
  | some i => .run i { s with m := { s.m with hub := { s.m.hub with ops := s.m.hub.ops.erase i } } }
  | none => .stay ({ s with m := s.m.entriesDue } : State).due

/-- What the turn does. -/
def Turn.todo (t : Turn) (s : State) : Todo :=
  match t with
  | .stream a => streamTurn a s
  | .event i => .run i s
  | .deliver k => deliverTurn k s
  | .edges n => .stay ({ s with fw := s.fw.finishQuote, m := (s.m.passEdges n).settle } : State).due
  | .pulses c n => .stay { s with m := s.m.pulses c n }
  | .link p => .stay (if s.m.locked.contains 1 then { s with m := s.m.linkTurn p } else s)
  | .idle p => .stay (if s.m.locked.contains 1 then { s with m := s.m.idleTurn p } else s)
  | .held k => heldTurn k s
  | .cycleStart => .stay { s with m := { s.m with cycle := true } }
  | .cycleEnd => .stay { s with m := s.m.endCycle }
  | .core who data addr n => coreTodo who data addr n s
  | .launch imp => .stay (if s.fw.layer = 2 && s.m.hub.serving && s.m.kernelRuns then { s with m := s.m.launchJob s.fw imp } else s)
  | .migrate ia => .stay (if s.m.kernelRuns then { s with m := s.m.migrate (BitVec.ofNat 64 ia) } else s)
  | .migrated ia frame => .stay (if s.m.kernelRuns then { s with m := s.m.migrated (BitVec.ofNat 64 ia) frame } else s)
  | .entry d p v => .stay { s with m := s.m.entryTurn d p v }
  | .rail i ok => railTodo i ok s
  | .again k => againTurn k s
  | .bar4 f l => .stay { s with m := s.m.sizeBar4 f l }
  | .watch k => .stay { s with m := s.m.watchTurn k }
  | .evict c l => .stay { s with m := s.m.evictLine c l }

/-! ## A program in place (R59, R63, R66, R67) -/

/-- The bytes of an instruction's words as the table numbers their bits, with zeros above. -/
def tableBytes (w : Nat) : List Byte := bytesOf 1024 w

/-- The context that runs a program from the explicit part of cluster pool 0 on the LE of tile 0. -/
def slotCtx (s : Stream) : Ctx :=
  { loaded := true
    le := { s with mode := .run, enabled := true, clen := 1024 }
    maps := [{ w0 := 1, w1 := BitVec.ofNat 64 (0x40000000000 + 1) }] }

end Sys2Proof.Machine
end

