-- ==== Sys2Proof/Machine/Step.lean ====
section
/-!
DEFINITION. One step of the device: the next turn of the agenda, and the instruction that it runs.
-/

namespace Sys2Proof.Machine

open Sys2Proof

/-- One step. -/
def step (s : State) : Host.Outcome State Fault Refusal :=
  let (t, s) := s.nextTurn
  match Turn.todo t s with
  | .run i s => exec i s
  | .stay s => .next s

/-- The state in which the next step fetches and runs the instruction whose bits are `w`: a task stands loaded in
context 0 of tile 0 as a LOAD_FORME leaves it, its cluster's PLL is locked, the instruction stands at its LE's offset,
and the LE is next on the agenda (DESIGN CHOICE, log 1). -/
def State.withFetchWord (s : State) (_nbits w : Nat) : State :=
  let a : Agent := ⟨0, false, .le⟩
  let m := { s.m with locked := 3 :: s.m.locked }
  let m := m.setCtx 0 false (slotCtx (m.ctx 0 false).le)
  let m := m.setTile 0 { m.tile 0 with runs := put none (m.tile 0).runs 0 (some false) }
  { s with
    agenda := .stream a :: s.agenda
    m := { m with mem := wrRaw m.mem (clKey 0 ((m.ctx 0 false).le.code.toNat + (m.ctx 0 false).le.pc)) (tableBytes w) } }

end Sys2Proof.Machine
end

