-- ==== Sys2Proof/Safety.lean ====
section
/-!
DEFINITION. The terms that statements about the machine use: tables in canonical form, the invariant of the measurement
log, and what a step of one stream leaves alone.
-/

namespace Sys2Proof.Machine

open Sys2Proof

/-! ## Canonical tables -/

/-- The keys of a sparse table rise strictly, from `lo` on. -/
def keysRise {α : Type} : Nat → Sparse α → Bool
  | _, [] => true
  | lo, (k, _) :: t => lo ≤ k && keysRise (k + 1) t

/-- Every sparse table of the machine is in canonical form, so that what is written is what is read. -/
structure Mach.Canon (m : Mach) : Prop where
  mem : Memory.wf m.mem = true
  poison : sparseOk false 0 m.poison = true
  acc : sparseOk AccEntry.blank 0 m.acc = true
  tiles : sparseOk Tile.blank 0 m.tiles = true
  ctxs : sparseOk Ctx.blank 0 m.ctxs = true
  clusters : sparseOk Cluster.blank 0 m.clusters = true
  dies : sparseOk Die.blank 0 m.dies = true
  links : sparseOk Link.blank 0 m.links = true
  queues : sparseOk Queue.blank 0 m.hub.queues = true
  funcs : sparseOk Func.blank 0 m.hub.funcs = true
  sources : sparseOk Source.blank 0 m.hub.sources = true
  /-- An unlisted register reads as its own reset value, so that its key alone is in form. -/
  regs : keysRise 0 m.regs = true

/-! ## The measurement log (R347) -/

/-- The running digest of a log: each entry hashed behind the digest before it. -/
def logDigest (l : List (List Byte)) : BitVec 256 := l.foldl (fun d e => digest (digestBytes d ++ e)) 0

/-- At most 256 entries of 64 bytes, and LOGD is their running digest. -/
structure Firmware.LogInv (f : Firmware) : Prop where
  count : f.log.length ≤ 256
  entries : ∀ e ∈ f.log, e.length = 64
  running : f.logd = logDigest f.log

/-- Once an alarm has been raised CDI2 and the key slots are erased, no quote is in progress and no start is under way
(R431). -/
def Firmware.AlarmInv (f : Firmware) : Prop :=
  f.alarm.isSome = true →
    f.cdi2 = none ∧ f.lockedSlots = [true, true, true] ∧ f.capture = none ∧ f.stage.starting = false

/-! ## What a stream's step leaves alone -/

/-- The acting stream passed on to offset `off` from its instruction, with registers `x`; everything else it holds is as
it was, but for the notes it keeps about the instruction it has left. -/
def Mach.moved (m : Mach) (off : Nat) (x : List XReg) : Stream :=
  { m.str with
    x := x, last := m.position, pc := off, granted := false, applied := [], late := false, rcache := [], rwant := none
    resume := none }

/-- Every byte of memory reads as before, with its poison bit. -/
def sameBytes (m m' : Mach) : Prop := ∀ k, rdByte m' k = rdByte m k

/-- Registers that read as before but for register `d`, which reads as `r`. -/
def regsBut (x x' : List XReg) (d : Nat) (r : XReg) : Prop :=
  ∀ j, at' XReg.blank x' j = if j = d then r else at' XReg.blank x j

/-- A step after which the acting stream stands as `st` and NOTHING ELSE of the device has changed: no other stream, no
memory, no special register. -/
def onlyStream (s t : State) (st : Stream) : Prop :=
  t = { s with m := s.m.setStr st } ∧ t.m.str = st ∧ sameBytes s.m t.m

/-- The acting stream writes register `d` with `r` and passes on to `off`. -/
def writesReg (s t : State) (d : Nat) (r : XReg) (off : Nat) : Prop :=
  ∃ x, regsBut s.m.str.x x d r ∧ onlyStream s t (s.m.moved off x)

/-- The acting stream passes on to `off`. -/
def passesTo (s t : State) (off : Nat) : Prop := onlyStream s t (s.m.moved off s.m.str.x)

/-- A step after which the acting stream's context stands as `c` and NOTHING ELSE of the device has changed. -/
def onlyCtx (s t : State) (c : Ctx) : Prop :=
  t = { s with m := s.m.setCurCtx c } ∧ t.m.curCtx = c ∧ sameBytes s.m t.m

/-- The acting stream's failure is taken by the one operation for every cause (R376, R378), for an instruction of `n`
bytes; nothing of the instruction has been performed. -/
def fails (s t : State) (n : Nat) (f : Trap) : Prop := t = { s with m := s.m.trapAt n f } ∧ sameBytes s.m t.m

/-- Semaphores that read as before but for `sem`, which reads as `v`. -/
def semsBut (c c' : Ctx) (sem v : Nat) : Prop := ∀ j, c'.sem j = if j = sem then v else c.sem j

/-- Length in bytes of a common instruction without, and with, its extension (R86). -/
def lenOf (s : State) : Nat := s.m.cur.eng.wordBytes
def lenExt (s : State) : Nat := if s.m.cur.eng = .ve then 8 else s.m.cur.eng.wordBytes

/-- A condition of brx and waitm on 64-bit values, in the integers (R88). -/
def condProp (c : Cond) (a b : Word64) : Prop :=
  match c with
  | .eq => a = b
  | .ne => a ≠ b
  | .lt => a.toInt < b.toInt
  | .ge => b.toInt ≤ a.toInt
  | .ltu => a.toNat < b.toNat
  | .geu => b.toNat ≤ a.toNat

/-- No waiter of a context can be served: what every count and every wait leaves (R69, R70). -/
def settledWaits (c : Ctx) : Prop := servable c.sems [] c.waitq = none

/-- The acting stream is free to run its next instruction: it runs, inside no block, and its instruction has not been
granted a wait before. -/
structure Mach.Fresh (m : Mach) : Prop where
  mode : m.str.mode = .run
  blk : m.str.blk = none
  granted : m.str.granted = false
  order : m.inOrder = false

/-- Every context but the acting one is as it was. -/
def othersKept (m m' : Mach) : Prop := ∀ n c, ¬ (n = m.cur.tile ∧ c = m.cur.ctx) → m'.ctx n c = m.ctx n c

/-- The acting stream stands in the last iteration of its block: the slots are held, and no kill is under way. `span` and
`counts` are those of the block's nest. -/
structure Mach.AtLast (m : Mach) (b : Active) (span : Nat) (counts : List Nat) : Prop where
  blk : m.str.blk = some b
  phase : b.phase = .body
  slot : b.inSlot = true
  left : b.left = 1
  last : endsSlot span b.c counts = true

/-- The nest of a block as its header gives it. -/
def Mach.AtLastOf (m : Mach) (i : Instr) (b : Active) : Prop :=
  m.AtLast b (slotSpan i.hdr i.hdr.counts.length) i.hdr.counts

/-- What ends a block after its last iteration has left the machine at `m`: the write it has been collecting goes out
(R281), then the slot signals of its bound windows, then its header signal; the stream passes on (R71 to R73). `b` is the
block as that iteration found it, `b'` as it left it. -/
def closeBlock (i : Instr) (m : Mach) (b b' : Active) : Mach :=
  let (m, b') := m.sendOut b'
  blockDone .stream i.hdr (slotSignals i.bound m b) b'

/-- No kill of the acting task is under way, nor does a slot signal of the block begin one (R386). -/
def survives (i : Instr) (m : Mach) (b b' : Active) : Prop :=
  m.curCtx.dying = none ∧ (slotSignals i.bound (m.sendOut b').1 b).curCtx.dying = none

/-- Only the machine proper has changed: the agenda and the firmware complex are as they were. -/
def machOnly (s t : State) : Prop := t.agenda = s.agenda ∧ t.fw = s.fw

end Sys2Proof.Machine
end

