-- ==== Sys2Proof/Certificates/Slice0/Obligations.lean ====
section
/-!
DEFINITION. The statements about the model, for the provers. Each says in its docstring which rules it rests on; values
that are the model's own choice are named as such with their log entry.
-/

open Sys2Proof Sys2Proof.Machine

/-! ## Common instructions (06) -/

/-- nop passes on and changes nothing else (R130). A fence passes on once every earlier access of the stream inside its
scope has been performed, a pfence once every write-class request is acknowledged; until then they change nothing
(R147, R148). -/
def Obligations.NopAndFencesPassOn : Prop :=
  ∀ (sc : Scope) (s : State), s.m.Canon →
    (∃ t, exec .nop s = .next t ∧ passesTo s t (s.m.str.pc + lenOf s)) ∧
    (s.m.fenceDone sc = true → ∃ t, exec (.fence sc) s = .next t ∧ passesTo s t (s.m.str.pc + lenOf s)) ∧
    (s.m.fenceDone sc = false → exec (.fence sc) s = .next s) ∧
    (s.m.pfenceDone = true → ∃ t, exec .pfence s = .next t ∧ passesTo s t (s.m.str.pc + lenOf s)) ∧
    (s.m.pfenceDone = false → exec .pfence s = .next s)

/-- xli loads its extension, zero-extended, sign-extended, or as the high half of the register (R144), into its register
and into nothing else. -/
def Obligations.XliLoadsItsExtension : Prop :=
  ∀ (d : Nat) (imm : Word32) (s : State), s.m.Canon →
    (∃ t, exec (.xli d .zx imm) s = .next t ∧
      writesReg s t d ⟨BitVec.ofNat 64 imm.toNat, false⟩ (s.m.str.pc + lenExt s)) ∧
    (∃ t, exec (.xli d .sx imm) s = .next t ∧
      writesReg s t d ⟨BitVec.ofInt 64 imm.toInt, false⟩ (s.m.str.pc + lenExt s)) ∧
    ((s.m.xr d).p = false → ∃ t, exec (.xli d .hi imm) s = .next t ∧
      writesReg s t d ⟨BitVec.ofNat 64 (imm.toNat * 2 ^ 32 + (s.m.xr d).v.toNat % 2 ^ 32), false⟩
        (s.m.str.pc + lenExt s))

/-- The result of each minor operation on 64-bit values, as R145 lists them: the statement's own reading, in the
integers. -/
def xopResult (op : XMinor) (a b r : Word64) : Prop :=
  let n := b.toNat % 64
  match op with
  | .add => r = BitVec.ofInt 64 (a.toInt + b.toInt)
  | .sub => r = BitVec.ofInt 64 (a.toInt - b.toInt)
  | .mul => r = BitVec.ofInt 64 (a.toInt * b.toInt)
  | .and => ∀ i, r.getLsbD i = (a.getLsbD i && b.getLsbD i)
  | .or => ∀ i, r.getLsbD i = (a.getLsbD i || b.getLsbD i)
  | .xor => ∀ i, r.getLsbD i = (a.getLsbD i ^^ b.getLsbD i)
  | .shl => r = BitVec.ofNat 64 (a.toNat * 2 ^ n)
  | .shr => r = BitVec.ofNat 64 (a.toNat / 2 ^ n)
  | .sra => r = BitVec.ofInt 64 (a.toInt / 2 ^ n)
  | .min => r.toInt = min a.toInt b.toInt
  | .max => r.toInt = max a.toInt b.toInt
  | .minu => r.toNat = min a.toNat b.toNat
  | .maxu => r.toNat = max a.toNat b.toNat
  | .mov => r = b

/-- xop with a register and with a sign-extended extension (R145), on operands without poison (mov does not read
its first): the result goes to its register, wrapping modulo 2^64, and nothing else changes. The destination may be a source: operands are read first. -/
def Obligations.XopComputes : Prop :=
  ∀ (d a b : Nat) (op : XMinor) (imm : Word32) (s : State), s.m.Canon → ((s.m.xr a).p = false ∨ op = .mov) →
    ((s.m.xr b).p = false → ∃ t r, exec (.xop d a op .operand b) s = .next t ∧
      xopResult op (s.m.xr a).v (s.m.xr b).v r ∧ writesReg s t d ⟨r, false⟩ (s.m.str.pc + lenOf s)) ∧
    (∃ t r, exec (.xopImm d a op imm) s = .next t ∧
      xopResult op (s.m.xr a).v (BitVec.ofInt 64 imm.toInt) r ∧ writesReg s t d ⟨r, false⟩ (s.m.str.pc + lenExt s))

/-- xop.mov from the sources of R146: the cycle counter, GTC, the tile, the party and the loop counters of the last
block. A minor operation, and xli.hi, on a poisoned register that it reads gives a poisoned result (R374) whose bits nothing
constrains (the model's choice, log 2). -/
def Obligations.XopSamplesAndPoison : Prop :=
  ∀ (d a b l : Nat) (imm : Word32) (s : State), s.m.Canon →
    (∀ src v, ((src = .cycles ∧ v = (s.m.tile s.m.cur.tile).cycles) ∨ (src = .gtc ∧ v = s.m.gtc) ∨
        (src = .tile ∧ v = s.m.cur.tile) ∨ (src = .party ∧ v = s.m.curCtx.party) ∨
        (src = .counter l ∧ v = at' 0 s.m.str.lc l)) →
      ∃ t, exec (.xop d a .mov src b) s = .next t ∧
        writesReg s t d ⟨BitVec.ofNat 64 v, false⟩ (s.m.str.pc + lenOf s)) ∧
    (∀ op, (op ≠ .mov ∧ (s.m.xr a).p = true ∨ (s.m.xr b).p = true) → ∃ t v, exec (.xop d a op .operand b) s = .next t ∧
      t.m.str = s.m.moved (s.m.str.pc + lenOf s) (put XReg.blank s.m.str.x d ⟨v, true⟩) ∧
      t = { s with m := { s.m.setStr t.m.str with free := s.m.free + 1 } }) ∧
    ((s.m.xr d).p = true → ∃ t v, exec (.xli d .hi imm) s = .next t ∧
      t.m.str = s.m.moved (s.m.str.pc + lenExt s) (put XReg.blank s.m.str.x d ⟨v, true⟩))

/-- The target of a transfer by OFF words (R137). -/
def targetOf (s : State) (off : Int) : Int := (s.m.str.pc : Nat) + off * (s.m.cur.eng.wordBytes : Nat)

/-- The failure of a target outside the section (R137, R381). -/
def outside (t : Int) : Trap := { cause := .brbound, detail := BitVec.ofInt 64 t }

/-- br, brx, call and ret (R137): the target checks in their order, the return store of eight, and a branch not taken.
Operands are without poison. -/
def Obligations.ControlTransfers : Prop :=
  ∀ (cmp : Cond) (a b : Nat) (off : Int) (s : State), s.m.Canon →
    let tgt := targetOf s off
    let inside := 0 ≤ tgt ∧ tgt < (s.m.str.clen : Nat)
    let next := s.m.str.pc + lenExt s
    (inside → ∃ t, exec (.br off) s = .next t ∧ passesTo s t tgt.toNat) ∧
    (¬ inside → ∃ t, exec (.br off) s = .next t ∧ fails s t (lenExt s) (outside tgt)) ∧
    ((s.m.xr a).p = false → (s.m.xr b).p = false →
      (¬ condProp cmp (s.m.xr a).v (s.m.xr b).v →
        ∃ t, exec (.brx cmp a b off) s = .next t ∧ passesTo s t next) ∧
      (condProp cmp (s.m.xr a).v (s.m.xr b).v → inside →
        ∃ t, exec (.brx cmp a b off) s = .next t ∧ passesTo s t tgt.toNat) ∧
      (condProp cmp (s.m.xr a).v (s.m.xr b).v → ¬ inside →
        ∃ t, exec (.brx cmp a b off) s = .next t ∧ fails s t (lenExt s) (outside tgt))) ∧
    (inside → s.m.str.rs.length < 8 → ∃ t, exec (.call off) s = .next t ∧
      onlyStream s t { s.m.moved tgt.toNat s.m.str.x with rs := next :: s.m.str.rs }) ∧
    (¬ inside → ∃ t, exec (.call off) s = .next t ∧ fails s t (lenExt s) (outside tgt)) ∧
    (inside → 8 ≤ s.m.str.rs.length → ∃ t f, exec (.call off) s = .next t ∧ f.cause = .rsovf ∧ f.task = false ∧
      fails s t (lenExt s) f) ∧
    (∀ r rs, s.m.str.rs = r :: rs → ∃ t, exec .ret s = .next t ∧
      onlyStream s t { s.m.moved r s.m.str.x with rs := rs }) ∧
    (s.m.str.rs = [] → ∃ t, exec .ret s = .next t ∧ fails s t (lenOf s) { cause := .rsunf })

/-- disp (R140): the first mould that holds the count, its capacity written back, or the overflow target, once the reads of
the tables have been answered. That a target off the word length is taken as given is the model's reading (log 58). -/
def Says.DispChoosesTheFirstMould : Prop :=
  ∀ (xc tab a nm dflt : Nat) (bs hs : List PByte) (mould : Nat → List PByte) (s : State), s.m.Canon →
    let cap := fun i => valOf (mould i) % 2 ^ 32
    let target := fun i => valOf (mould i) / 2 ^ 32 % 2 ^ 32
    (s.m.xr xc).p = false → tab < s.m.curCtx.mdn →
    s.m.readTable (s.m.curCtx.mdir.toNat + 8 * tab) 8 = .ok bs s.m → a = valOf bs →
    s.m.readTable a 8 = .ok hs s.m → valOf hs = dflt * 2 ^ 32 + s.m.cur.eng.code * 2 ^ 8 + nm →
    1 ≤ nm → nm ≤ 255 → dflt < 2 ^ 32 →
    (∀ i, i < nm → s.m.readTable (a + 8 + 8 * i) 8 = .ok (mould i) s.m) →
    (∀ i, i < nm → (∀ j, j < i → cap j < (s.m.xr xc).v.toNat) → (s.m.xr xc).v.toNat ≤ cap i →
      target i < s.m.str.clen → ∃ t, exec (.disp xc tab) s = .next t ∧
        writesReg s t xc ⟨BitVec.ofNat 64 (cap i), false⟩ (target i)) ∧
    ((∀ j, j < nm → cap j < (s.m.xr xc).v.toNat) → dflt ≠ 2 ^ 32 - 1 → dflt < s.m.str.clen →
      ∃ t, exec (.disp xc tab) s = .next t ∧ passesTo s t dflt) ∧
    ((∀ j, j < nm → cap j < (s.m.xr xc).v.toNat) → dflt = 2 ^ 32 - 1 →
      ∃ t f, exec (.disp xc tab) s = .next t ∧ f.cause = .dispnone ∧ f.task = false ∧ fails s t (lenOf s) f)

/-- patch (R141, R143) into the issuing stream or into another one of the task, once its checks hold: the target's store
takes the entry at once, replacing one for the same position and field, and nothing else changes (where the target stands, and that the
entry takes no cycles, are the model's reading, log 22). -/
def Says.PatchEntersTheStore : Prop :=
  ∀ (xv pfi pos : Nat) (e : Engine) (b0 bs : List PByte) (s : State), s.m.Canon →
    let target := s.m.curCtx.stream e
    let v := (s.m.xr xv).v.toNat % 2 ^ 32
    (s.m.xr xv).p = false → target.enabled = true → target.mode ≠ .tail → pos % e.wordBytes = 0 →
    (s.m.here e < (pos : Int)) → pos < target.clen →
    s.m.readTable (target.code.toNat + pos) 4 = .ok b0 s.m → isMajor e ((sylsOf b0).getD 0 0) = true →
    s.m.readTable (target.code.toNat + pos) 16 = .ok bs s.m → patchWord e (sylsOf bs) pfi v = none →
    (target.pend.any (fun p => p.pos = pos && p.pfi = pfi) = true ∨ target.pend.length < 8) →
    ∃ t ps, exec (.patch xv pfi e pos) s = .next t ∧
      (∀ q, q ∈ ps ↔ (q = ⟨pos, pfi, v⟩ ∨ (q ∈ target.pend ∧ ¬ (q.pos = pos ∧ q.pfi = pfi)))) ∧
      onlyCtx s t ((s.m.curCtx.setStream e { target with pend := ps }).setStream s.m.cur.eng
        { s.m.moved (s.m.str.pc + lenExt s) s.m.str.x with pend := if e = s.m.cur.eng then ps else s.m.str.pend })

/-- wait (R69, R131): it is served at once when no older waiter waits on the semaphore and the value suffices, and then
subtracts; otherwise the stream waits behind the others and nothing is subtracted. In a cycle that several turns make up,
waiters are served at its end (R70; the model's own field, log 1). -/
def Says.WaitIsServedOrWaits : Prop :=
  ∀ (sem n : Nat) (s : State), s.m.Canon → s.m.Fresh → settledWaits s.m.curCtx →
    let c := s.m.curCtx
    let free := s.m.cycle = false ∧ (∀ w ∈ c.waitq, w.sem ≠ sem) ∧ n ≤ c.sem sem
    (free → ∃ t c', exec (.wait sem n) s = .next t ∧ semsBut c c' sem (c.sem sem - n) ∧
      onlyCtx s t c' ∧ c' = { c.setStream s.m.cur.eng
        { s.m.moved (s.m.str.pc + lenOf s) s.m.str.x with since := s.m.gtc } with sems := c'.sems }) ∧
    (¬ free → ∃ t, exec (.wait sem n) s = .next t ∧
      onlyCtx s t { c.setStream s.m.cur.eng { s.m.str with mode := .waiting sem n, since := s.m.gtc } with
        waitq := c.waitq ++ [{ sem := sem, n := n, eng := s.m.cur.eng, who := .stream }] })

/-- signal (R132, R385) on a stream without a matrix block in progress: the count is added where no one waits on the
semaphore; a sum past 65,535 is refused with SEMSAT and changes no value. Behind the pfence of an earlier sigr (R133, R148)
the count is reserved, the signal stands behind the others, and the stream passes on. -/
def Says.SignalAdds : Prop :=
  ∀ (sem n : Nat) (s : State), s.m.Canon → settledWaits s.m.curCtx → s.m.meBusy = false →
    let c := s.m.curCtx
    (c.sem sem + c.rsv sem + n ≤ 65535 → s.m.str.posts ≠ [] → ∃ t c', exec (.signal sem n) s = .next t ∧
      (∀ j, c'.rsv j = if j = sem then c.rsv sem + n else c.rsv j) ∧ onlyCtx s t c' ∧
      c' = { c.setStream s.m.cur.eng { s.m.moved (s.m.str.pc + lenOf s) s.m.str.x with
        posts := s.m.str.posts ++ [{ sem := sem, n := n }] } with resv := c'.resv }) ∧
    (c.sem sem + c.rsv sem + n ≤ 65535 → s.m.str.posts = [] → (∀ w ∈ c.waitq, w.sem ≠ sem) →
      ∃ t c', exec (.signal sem n) s = .next t ∧ semsBut c c' sem (c.sem sem + n) ∧ (∀ j, c'.rsv j = c.rsv j) ∧
        onlyCtx s t c' ∧ c' = { c.setStream s.m.cur.eng (s.m.moved (s.m.str.pc + lenOf s) s.m.str.x) with
          sems := c'.sems, resv := c'.resv }) ∧
    (65535 < c.sem sem + c.rsv sem + n → ∃ t f, exec (.signal sem n) s = .next t ∧ f.cause = .semsat ∧
      f.task = false ∧ fails s t (lenOf s) f)

/-- signal on the matrix engine behind blocks that are still in progress (R132, R385): the count is reserved, the signal
stands in the queue behind the blocks before it (its place there is the model's reading, log 32), no value changes yet, and the
stream passes on. -/
def Says.SignalBehindMatrixBlocks : Prop :=
  ∀ (sem n : Nat) (s : State), s.m.Canon → s.m.meBusy = true →
    let c := s.m.curCtx
    c.sem sem + c.rsv sem + n ≤ 65535 →
    ∃ t b, exec (.signal sem n) s = .next t ∧ b.instr = .signal sem n ∧
      (t.m.tile s.m.cur.tile).mat.queue = (s.m.tile s.m.cur.tile).mat.queue ++ [b] ∧ t.m.curCtx.sems = c.sems ∧
      (∀ j, t.m.curCtx.rsv j = if j = sem then c.rsv sem + n else c.rsv j) ∧
      t.m.str = s.m.moved (s.m.str.pc + lenOf s) s.m.str.x ∧ othersKept s.m t.m ∧ sameBytes s.m t.m ∧ machOnly s t

/-- The order of service (R69, R70): whoever is served waits on a value that suffices, behind no older waiter of the same
semaphore. -/
def Says.WaitersAreServedInOrder : Prop :=
  ∀ (sems : List Nat) (ws : List Waiter) (w : Waiter), servable sems [] ws = some w →
    w.n ≤ at' 0 sems w.sem ∧ ∃ before after, ws = before ++ w :: after ∧ ∀ u ∈ before, u.sem ≠ w.sem

/-- A message sent (R276, R278, R286): it takes PMAP's plane for its hash, a response keeps the plane of its request;
it stays on the package when its destination is this chip, and otherwise waits at its plane's port. Beside it only the
counts of energy events change (R359). -/
def Says.MessagesTakeTheirPlane : Prop :=
  ∀ (p : Packet) (m : Mach), m.Canon → m.hub.rehash ≠ 1 →
    let plane := if opVc p.op = 1 then p.plane else pmapEntry m.hub.pmap p.hash
    let q := { p with plane := plane, vc := opVc p.op }
    (p.dchip = m.hub.chip → ∃ ev, m.send p = { m with net := m.net ++ [q], events := ev }) ∧
    (p.dchip ≠ m.hub.chip →
      (∃ ev, m.send p =
        { m.setLink plane { m.link plane with txq := (m.link plane).txq ++ [q] } with events := ev }) ∧
      ((m.send p).link plane).txq = (m.link plane).txq ++ [q] ∧ sameBytes m (m.send p))

/-- One message of OP `op` leaves for a chip, on PMAP's plane for its hash (R274, R276, R286): it joins the package's traffic
when the chip is this one, and else the queue of its plane's port; no other message moves. -/
def leaves (s t : State) (chip op : Nat) (msg : Packet → Prop) : Prop :=
  ∃ p : Packet, p.op = op ∧ p.dchip = chip ∧ p.plane = pmapEntry s.m.hub.pmap p.hash ∧ msg p ∧
    (chip = s.m.hub.chip → t.m.net = s.m.net ++ [p] ∧ t.m.links = s.m.links) ∧
    (chip ≠ s.m.hub.chip → t.m.net = s.m.net ∧ (t.m.link p.plane).txq = (s.m.link p.plane).txq ++ [p] ∧
      ∀ k, k ≠ p.plane → t.m.link k = s.m.link k)

/-- sigr (R133, R148): with every earlier write acknowledged it sends the count to the party in its register, as a request of
the stream that is outstanding until acknowledged. Before that the stream passes on all the same, and the signal stands behind
its pfence: on the ME in the queue of its blocks, elsewhere among the stream's later signals, whose first is sent once the
earlier writes have been acknowledged. A register that names no legal receiver is refused (R150). -/
def Says.SigrSendsTheSignal : Prop :=
  ∀ (xp sem n : Nat) (s : State), s.m.Canon → (s.m.xr xp).p = false →
    let v := (s.m.xr xp).v.toNat
    let legal := v < 2 ^ 32 ∧ ¬ (v % 4 = 2 ∧ 48 ≤ sem)
    let passed := s.m.moved (s.m.str.pc + lenOf s) s.m.str.x
    let sent := fun (t : State) (v sem n : Nat) => ∃ r, t.m.hub.requests = s.m.hub.requests ++ [r] ∧ r.op = 0x40 ∧
      r.agent = some s.m.cur ∧ r.write = true ∧ r.chip = v / 2048 ∧ r.tracked = none ∧
      leaves s t (v / 2048) 0x40 (fun p => p.tag = r.tag ∧ p.addr = BitVec.ofNat 64 (v * 2 ^ 32 + sem) ∧
        p.arg = BitVec.ofNat 32 n ∧ p.src = BitVec.ofNat 32 s.m.curCtx.party) ∧
      othersKept s.m t.m ∧ sameBytes s.m t.m ∧ machOnly s t
    (legal → s.m.pfenceDone = true → s.m.hub.rehash ≠ 1 →
      ∃ t, exec (.sigr xp sem n) s = .next t ∧ sent t v sem n ∧ t.m.str = passed) ∧
    (legal → s.m.pfenceDone = false → s.m.cur.eng ≠ .me → ∃ t, exec (.sigr xp sem n) s = .next t ∧
      onlyStream s t { passed with posts := s.m.str.posts ++ [{ dest := some v, sem := sem, n := n }] }) ∧
    (legal → s.m.pfenceDone = false → s.m.cur.eng = .me → ∃ t b, exec (.sigr xp sem n) s = .next t ∧
      b.instr = .sigr xp sem n ∧ b.xs = [⟨BitVec.ofNat 64 v, false⟩] ∧
      (t.m.tile s.m.cur.tile).mat.queue = (s.m.tile s.m.cur.tile).mat.queue ++ [b] ∧ t.m.str = passed ∧
      t.m.hub = s.m.hub ∧ t.m.net = s.m.net ∧ othersKept s.m t.m ∧ sameBytes s.m t.m ∧ machOnly s t) ∧
    (∀ ps k j d, s.m.str.posts = { dest := some d, sem := k, n := j } :: ps →
      (s.m.quiet = false → s.m.postTurn = s.m) ∧
      (s.m.quiet = true → s.m.hub.rehash ≠ 1 → sent { s with m := s.m.postTurn } d k j ∧
        s.m.postTurn.str = { s.m.str with posts := ps })) ∧
    (∀ ps k j, s.m.str.posts = { sem := k, n := j } :: ps →
      s.m.postTurn = (s.m.setStr { s.m.str with posts := ps }).addReserved s.m.cur.tile s.m.cur.ctx k j) ∧
    (¬ legal → ∃ t f, exec (.sigr xp sem n) s = .next t ∧ f.cause = .badfield ∧ f.task = false ∧
      fails s t (lenOf s) f)

/-- A poisoned register in a use of R375 ends the task with POISONUSE: as a condition of brx, the party of sigr, the
count of disp, the value of patch and the address of a token instruction. -/
def Obligations.PoisonedRegistersAreUses : Prop :=
  ∀ (i j k n : Nat) (cmp : Cond) (off : Int) (e : Engine) (sh : Bool) (s : State), s.m.Fresh →
    (s.m.xr i).p = true →
    let dies := fun (x : Instr) (len : Nat) => ∃ t, exec x s = .next t ∧ fails s t len { cause := .poisonuse, task := true }
    dies (.brx cmp i j off) (lenExt s) ∧ dies (.brx cmp j i off) (lenExt s) ∧ dies (.sigr i j n) (lenOf s) ∧
    dies (.disp i j) (lenOf s) ∧ dies (.patch i j e k) (lenExt s) ∧ dies (.tkget i j k sh) (lenOf s) ∧
    dies (.tkput i j k) (lenOf s) ∧ dies (.tklend i j k n) (lenOf s) ∧ dies (.tksplit i j k) (lenOf s) ∧
    dies (.tkjoin i j k) (lenOf s)

/-- trap (R149): the stream stops with cause TRAPI, its record naming the code and the offset of the next instruction. -/
def Says.TrapStopsTheStream : Prop :=
  ∀ (code : Nat) (s : State), code < 2 ^ 14 → s.m.str.pc + lenOf s < 2 ^ 32 →
    ∃ t f, exec (.trap code) s = .next t ∧ f.cause = .trapi ∧ f.task = false ∧ f.detail.toNat % 2 ^ 32 = code ∧
      f.detail.toNat / 2 ^ 32 = s.m.str.pc + lenOf s ∧ fails s t (lenOf s) f

/-! ## Taking a failure, and returning from it (19) -/

/-- Class STREAM (R302, R378): the stream stops with its offset, its instruction's length and its registers as they are;
its record goes behind the others of its cluster's trap queue under its source's next sequence number, or, where the queue
holds 16, waits for room and is numbered when it enters (R303), and nothing else changes. An instruction that is refused has not
issued (R141, log 22), and leaves the stream's RESUME entry with INBLK 0 (R382). -/
def Says.AFailureStopsItsStream : Prop :=
  ∀ (n : Nat) (f : Trap) (m : Mach), m.Canon → f.task = false →
    let k := clusterOf m.cur.tile
    let m' := m.trapAt n f
    let c := m.cluster k
    let c' := m'.cluster k
    let src := fun (x : Mach) j => look Source.blank x.hub.sources j
    let old := src m (srcTile m.cur.tile)
    let e : Event := { m.trapRec f with
      seq := old.seq, lost := old.lost
      flags := if old.lost = 0 then (m.trapRec f).flags else (m.trapRec f).flags ||| 16 }
    (∃ since, m'.str = { m.str with
      mode := .trapped, since := since, trapOff := f.off.getD m.str.pc, trapLen := n, late := false
      last := if f.off.isSome then m.str.last else m.str.prev
      applied := if f.off = none ∧ m.cur.eng = .me then [] else m.str.applied
      resume := if f.off.isSome then m.str.resume
        else m.str.resume.map (fun r => { r with inblk := false, c := [], ports := [] }) }) ∧
    (c.trapHeld = [] → c.trapq.length < 16 → c'.trapq = c.trapq ++ [e] ∧ c'.trapHeld = [] ∧
      ∀ j, src m' j = if j = srcTile m.cur.tile then ⟨(old.seq + 1) % 2 ^ 32, 0⟩ else src m j) ∧
    (16 ≤ c.trapq.length → c'.trapq = c.trapq ∧ c'.trapHeld = c.trapHeld ++ [m.trapRec f] ∧
      m'.hub.sources = m.hub.sources) ∧
    (c.trapq.length ≤ 16 → c'.trapq.length ≤ 16) ∧
    c' = { c with trapq := c'.trapq, trapHeld := c'.trapHeld } ∧
    m' = (({ m with hub := { m.hub with sources := m'.hub.sources } }).setStr m'.str).setCluster k (m'.cluster k) ∧
    sameBytes m m'

/-- The record of a stream's failure (R368, R381): cause, class, party, job, offset, address and detail. -/
def Says.TheRecordOfAFailure : Prop :=
  ∀ (f : Trap) (m : Mach), (f.off.getD m.str.pc) < 2 ^ 32 → m.curCtx.job < 2 ^ 32 →
    let e := m.trapRec f
    e.status = f.cause.code ∧ e.type = (if f.task then Cls.task.code else Cls.stream.code) ∧
    e.id = m.curCtx.party ∧ e.a0.toNat % 2 ^ 32 = m.curCtx.job ∧ e.a0.toNat / 2 ^ 32 = f.off.getD m.str.pc ∧
    e.a1 = f.addr ∧ e.detail = f.detail ∧ e.eng = m.cur.eng.code ∧ e.src = 0x20000 + m.cur.tile

/-- Class TASK (R376): the kill begins. No stream of the task issues any more, its waiters and its records leave, the
record of the kill stands ready, and no other context changes. -/
def Says.AKillBegins : Prop :=
  ∀ (n : Nat) (f : Trap) (m : Mach), m.Canon → f.task = true → m.curCtx.loaded = true → m.curCtx.dying = none →
    let k := clusterOf m.cur.tile
    let m' := m.trapAt n f
    m'.curCtx.dying = some (m.trapRec f) ∧ m'.curCtx.waitq = [] ∧
    (∀ e, m'.issues ⟨m.cur.tile, m.cur.ctx, e⟩ = false) ∧
    (∀ r ∈ (m'.cluster k).trapq, r.ofCtx m.cur.tile m.cur.ctx = false) ∧ othersKept m m' ∧ sameBytes m m'

/-! ## Barriers and tail (03, 06) -/

/-- bar at tile scope (R75, R76): when the other streams of the task have arrived the instance completes, and every
stream that stood there runs on; otherwise the stream stands there. -/
def Says.TileBarrierCompletesWithItsLastArrival : Prop :=
  ∀ (id : Nat) (s : State), s.m.Canon → s.m.Fresh →
    let c := s.m.curCtx
    let others := ∀ e, e ≠ s.m.cur.eng → arrivedTile id (c.stream e) = true
    (others → ∃ t, exec (.bar .tile id) s = .next t ∧ t.m.str.mode = .run ∧
      t.m.str.pc = s.m.str.pc + lenOf s ∧ t.m.str.x = s.m.str.x ∧
      (∀ e, e ≠ s.m.cur.eng → (c.stream e).mode = .barrier .tile id →
        t.m.curCtx.stream e = { c.stream e with mode := .run, granted := true, since := s.m.gtc }) ∧
      (∀ e, e ≠ s.m.cur.eng → (c.stream e).atBar .tile id = false → t.m.curCtx.stream e = c.stream e) ∧
      othersKept s.m t.m ∧ sameBytes s.m t.m ∧ machOnly s t) ∧
    (¬ others → ∃ t, exec (.bar .tile id) s = .next t ∧
      onlyStream s t { s.m.str with mode := .barrier .tile id, since := s.m.gtc })

/-- bar at a wider scope (R75 to R77, R136): the arrival of a group's last member completes the instance: the stream passes on,
and so does every stream of the group's tasks that stood there; before that it stands there. At system scope the arrival goes to
the hub of this device as a message (the model's choice, log 36). A task whose MEMBER bit is 0 is refused with BADFIELD
(R150). -/
def Says.GroupBarriers : Prop :=
  ∀ (sc : Scope) (id g : Nat) (j : Job) (s : State), s.m.Canon → s.m.Fresh → sc ≠ .tile →
    (s.m.curCtx.group sc = none → ∃ t f, exec (.bar sc id) s = .next t ∧ f.cause = .badfield ∧ f.task = false ∧
      fails s t (lenOf s) f) ∧
    (s.m.curCtx.group sc = some g → sc ≠ .sys → s.m.curCtx.loaded = true → s.m.job? s.m.curCtx.job = some j →
      let stands := s.m.setMode s.m.cur (.barrier sc id)
      (j.membersOf sc g ≤ stands.arrivals s.m.curCtx.job sc g id → ∃ t, exec (.bar sc id) s = .next t ∧
        t.m.str.mode = .run ∧ t.m.str.pc = s.m.str.pc + lenOf s ∧ t.m.str.x = s.m.str.x ∧
        (∀ e, e ≠ s.m.cur.eng → t.m.curCtx.stream e = (s.m.curCtx.stream e).passBar sc id s.m.gtc) ∧
        (∀ n x, ¬ (n = s.m.cur.tile ∧ x = s.m.cur.ctx) →
          ((n, x) ∈ s.m.jobCtxs s.m.curCtx.job → (s.m.ctx n x).group sc = some g →
            t.m.ctx n x = (s.m.ctx n x).passBar sc id s.m.gtc) ∧
          (¬ ((n, x) ∈ s.m.jobCtxs s.m.curCtx.job ∧ (s.m.ctx n x).group sc = some g) → t.m.ctx n x = s.m.ctx n x)) ∧
        t.m = { s.m with ctxs := t.m.ctxs } ∧ sameBytes s.m t.m ∧ machOnly s t) ∧
      (stands.arrivals s.m.curCtx.job sc g id < j.membersOf sc g → ∃ t, exec (.bar sc id) s = .next t ∧
        onlyStream s t { s.m.str with mode := .barrier sc id, since := s.m.gtc })) ∧
    (s.m.curCtx.group sc = some g → sc = .sys → s.m.hub.rehash ≠ 1 → ∃ t p, exec (.bar sc id) s = .next t ∧
      t.m.str = { s.m.str with mode := .barrier .sys id, since := s.m.gtc } ∧ t.m.net = s.m.net ++ [p] ∧
      p.op = 0x48 ∧ p.dchip = s.m.hub.chip ∧ p.src = BitVec.ofNat 32 s.m.curCtx.party ∧
      othersKept s.m t.m ∧ sameBytes s.m t.m ∧ machOnly s t)

/-- tail (R79, R130): the stream ends, its return store, pending patches and registers are discarded, what it still has
outstanding, releases whose message is still to be sent among it, is counted in the context's tracker, and the engine is
released. -/
def Obligations.TailEndsTheStream : Prop :=
  ∀ (s : State), s.m.Canon → s.m.meBusy = false → s.m.str.posts = [] →
    let a := s.m.cur
    let mine := fun (r : Request) => r.agent == some a && r.tracked.isNone
    ∃ t, exec .tail s = .next t ∧ t.m.str.mode = .tail ∧ t.m.str.rs = [] ∧ t.m.str.pend = [] ∧
      (∀ i, t.m.xr i = XReg.blank) ∧
      (∀ r ∈ t.m.hub.requests, ¬ (r.agent = some a ∧ r.tracked = none ∧ (r.write = true ∨ r.isToken = true))) ∧
      at' 0 t.m.curCtx.tracker (2 * a.eng.code) = (s.m.hub.requests.filter (fun r => mine r && r.write)).length ∧
      at' 0 t.m.curCtx.tracker (2 * a.eng.code + 1) = (s.m.hub.requests.filter (fun r => mine r && r.isToken)).length
        + (s.m.curCtx.leaving.filter (fun r => r.eng = a.eng.code)).length ∧
      at' none (t.m.tile a.tile).runs a.eng.code ≠ some a.ctx ∧ othersKept s.m t.m ∧ sameBytes s.m t.m ∧ machOnly s t

/-! ## Ownership tokens (12) -/

/-- A token instruction's register names a region of an owned range, aligned to its size and inside one home (R253, R259). -/
def namesRegion (s : State) (xr log2 ia : Nat) : Prop :=
  (s.m.xr xr).p = false ∧ ia % 2 ^ log2 = 0 ∧ validRegion ia log2 = true ∧
    ∃ r, s.m.curCtx.translate (s.m.xr xr).v.toNat (2 ^ log2) = some (r, ia) ∧ r.kind = .owned

/-- A request of OP `op` for a region leaves the stream to its home (R261 to R263, R283). -/
def asksHomeWith (s t : State) (op ia log2 : Nat) (more : Packet → Prop) : Prop :=
  ∃ r, t.m.hub.requests = s.m.hub.requests ++ [r] ∧ r.op = op ∧ r.agent = some s.m.cur ∧ r.tracked = none ∧
    r.chip = ia / 2 ^ 43 ∧
    leaves s t (ia / 2 ^ 43) op (fun p => p.tag = r.tag ∧ p.addr = BitVec.ofNat 64 ia ∧
      p.src = BitVec.ofNat 32 s.m.curCtx.party ∧ p.log2 = log2 ∧ more p)
def asksHome (s t : State) (op ia log2 : Nat) : Prop := asksHomeWith s t op ia log2 (fun _ => True)

/-- tkget (R258, R260, R261): a party that holds the region already is signalled at once; otherwise a request goes to the
home, and the stream passes on without waiting for the grant; without room for the holding it is held at issue. -/
def Says.TkgetAsksOrSignals : Prop :=
  ∀ (xr log2 sem ia : Nat) (shared : Bool) (s : State), s.m.Canon → namesRegion s xr log2 ia → log2 < 64 → sem < 64 →
    let c := s.m.curCtx
    let held := s.m.atOnce c.party (some c.job) ia log2 shared
    let room := s.m.holdRoom c.party (s.m.getNeeds c.party (some c.job) ia log2)
    let since := fun (x : Mode) => if s.m.str.mode = x then s.m.str.since else s.m.gtc
    let passed := { s.m.moved (s.m.str.pc + lenOf s) s.m.str.x with mode := .run, since := since .run }
    (held = true → settledWaits c → s.m.cycle = false → c.sem sem + c.rsv sem + 1 ≤ 65535 →
      (∀ w ∈ c.waitq, w.sem ≠ sem) →
      ∃ t c', exec (.tkget xr log2 sem shared) s = .next t ∧ semsBut c c' sem (c.sem sem + 1) ∧ onlyCtx s t c' ∧
        c' = { c.setStream s.m.cur.eng passed with sems := c'.sems }) ∧
    (held = false → room = true → s.m.hub.rehash ≠ 1 → ∃ t,
      exec (.tkget xr log2 sem shared) s = .next t ∧ asksHome s t 0x41 ia log2 ∧
      t.m.str = passed ∧ t.m.clusters = s.m.clusters ∧
      othersKept s.m t.m ∧ sameBytes s.m t.m ∧ machOnly s t) ∧
    (held = false → room = false → ∃ t, exec (.tkget xr log2 sem shared) s = .next t ∧
      onlyStream s t { s.m.str with mode := .held, since := since .held })

/-- tkput and tklend (R260, R262): the holding leaves the party at once, and the stream resumes when pfence completes, whatever
is still dirty. For a region with nothing left to read or to flush the return, or the lend with its receiver, goes to the home
in the same step; a lend to the party itself only signals. -/
def Says.TkputAndTklendRelease : Prop :=
  ∀ (xr xp log2 sem ia : Nat) (h : Holding) (s : State), s.m.Canon → s.m.Fresh → namesRegion s xr log2 ia →
    s.m.hub.rehash ≠ 1 → log2 < 64 → sem < 64 → (∀ r ∈ s.m.curCtx.leaving, r.eng ≠ s.m.cur.eng.code) →
    let c := s.m.curCtx
    s.m.exact c.party (some c.job) ia log2 = some h →
    let clear := s.m.pfenceDone = true ∧ s.m.readsIn ia log2 = false ∧ s.m.flushed c.party ia log2 = true ∧
      ∀ cl, holderCluster c.party = some cl → s.m.crowded (s.m.supParty cl) = false
    let dropped := fun (t : State) => t.m.exact c.party (some c.job) ia log2 = none
    let passed := s.m.moved (s.m.str.pc + lenOf s) s.m.str.x
    let left := fun (t : State) => t.m.str = passed ∧ t.m.curCtx.leaving = c.leaving ∧
      othersKept s.m t.m ∧ sameBytes s.m t.m ∧ machOnly s t
    let lends := h.ex = true ∧ (s.m.xr xp).p = false ∧ (s.m.xr xp).v.toNat < 2 ^ 32
    (s.m.pfenceDone = false → ∃ t, exec (.tkput xr log2 sem) s = .next t ∧ dropped t ∧
      t.m.str = { s.m.str with granted := true } ∧ t.m.net = s.m.net ∧ t.m.hub.requests = s.m.hub.requests) ∧
    (s.m.pfenceDone = true → ∃ t, exec (.tkput xr log2 sem) s = .next t ∧ dropped t ∧ t.m.str = passed ∧
      othersKept s.m t.m ∧ sameBytes s.m t.m ∧ machOnly s t) ∧
    (lends → (s.m.xr xp).v.toNat ≠ c.party → s.m.pfenceDone = true →
      ∃ t, exec (.tklend xr log2 sem xp) s = .next t ∧ dropped t ∧ t.m.str = passed) ∧
    (clear → ∃ t, exec (.tkput xr log2 sem) s = .next t ∧ dropped t ∧ asksHome s t 0x43 ia log2 ∧ left t) ∧
    (clear → lends → (s.m.xr xp).v.toNat ≠ c.party →
      ∃ t, exec (.tklend xr log2 sem xp) s = .next t ∧ dropped t ∧ left t ∧
        asksHomeWith s t 0x44 ia log2 (fun p => valOf p.data = (s.m.xr xp).v.toNat)) ∧
    (clear → lends → (s.m.xr xp).v.toNat = c.party →
      settledWaits c → s.m.cycle = false → c.sem sem + c.rsv sem + 1 ≤ 65535 → (∀ w ∈ c.waitq, w.sem ≠ sem) →
      ∃ t, exec (.tklend xr log2 sem xp) s = .next t ∧ semsBut c t.m.curCtx sem (c.sem sem + 1) ∧
        t.m.clusters = s.m.clusters ∧ t.m.hub = s.m.hub ∧ left t)

/-- tksplit and tkjoin (R257, R258, R260, R263): a holder of the whole region asks the home and waits; the home's
acknowledgement lets the stream pass on. Without the token the instruction is refused with UNOWNED (R265); without room for
the holdings tksplit is held at issue. -/
def Says.TksplitAndTkjoinWaitForTheHome : Prop :=
  ∀ (xr log2 n ia : Nat) (s : State), s.m.Canon → s.m.str.blk = none → namesRegion s xr log2 ia → s.m.hub.rehash ≠ 1 →
    log2 < 64 → n < 16 →
    let c := s.m.curCtx
    let waits := fun (t : State) => t.m.str = { s.m.str with mode := .token, since := s.m.gtc } ∧
      t.m.clusters = s.m.clusters ∧ othersKept s.m t.m ∧ sameBytes s.m t.m ∧ machOnly s t
    (s.m.Fresh →
      ((s.m.exact c.party (some c.job) ia log2).any (·.ex) = true → s.m.holdRoom c.party (2 ^ n - 1) = true →
        ∃ t, exec (.tksplit xr log2 n) s = .next t ∧ asksHome s t 0x46 ia log2 ∧ waits t) ∧
      ((s.m.exact c.party (some c.job) ia log2).any (·.ex) = true → s.m.holdRoom c.party (2 ^ n - 1) = false →
        ∃ t, exec (.tksplit xr log2 n) s = .next t ∧ onlyStream s t { s.m.str with mode := .held, since := s.m.gtc }) ∧
      (s.m.coversIn c.party (some c.job) ia log2 = true →
        ∃ t, exec (.tkjoin xr log2 n) s = .next t ∧ asksHome s t 0x47 ia log2 ∧ waits t) ∧
      ((s.m.exact c.party (some c.job) ia log2).any (·.ex) = false →
        ∃ t f, exec (.tksplit xr log2 n) s = .next t ∧ f.cause = .unowned ∧ f.task = false ∧ fails s t (lenOf s) f) ∧
      (s.m.coversIn c.party (some c.job) ia log2 = false →
        ∃ t f, exec (.tkjoin xr log2 n) s = .next t ∧ f.cause = .unowned ∧ f.task = false ∧ fails s t (lenOf s) f)) ∧
    (s.m.str.granted = true →
      (∃ t, exec (.tksplit xr log2 n) s = .next t ∧ passesTo s t (s.m.str.pc + lenOf s)) ∧
      (∃ t, exec (.tkjoin xr log2 n) s = .next t ∧ passesTo s t (s.m.str.pc + lenOf s)))

/-- A token message of this chip's home die `d`, whose waiting list is empty and whose table is tidy with the message in
its list (R254, R257). -/
def atTidyHome (p : Packet) (d : Nat) (s : State) : Prop :=
  homeDie p.addr.toNat = some d ∧ (s.m.die d).waits = [] ∧
    ({ s.m.die d with waits := [⟨p⟩] } : Die).settle = { s.m.die d with waits := [⟨p⟩] } ∧
    sparseOk TokEntry.blank 0 (s.m.die d).tok = true ∧ p.src.toNat / 2048 = s.m.hub.chip ∧ s.m.hub.rehash ≠ 1

/-- One message leaves, to the party that sent `p`, under its tag (R261, R262). -/
def answered (s t : State) (p : Packet) (op : Nat) : Prop :=
  ∃ q, t.m.net = s.m.net ++ [q] ∧ q.op = op ∧ q.addr = p.addr ∧ q.src = p.src ∧ q.tag = p.tag ∧ q.log2 = p.log2

/-- Only the home's table and the network have changed. -/
def onlyHome (s t : State) (d : Nat) : Prop :=
  machOnly s t ∧ sameBytes s.m t.m ∧ t.m.ctxs = s.m.ctxs ∧ t.m.hub = s.m.hub ∧ t.m.clusters = s.m.clusters ∧
    t.m.tiles = s.m.tiles ∧ ∀ k, k ≠ d → t.m.die k = s.m.die k

/-- TOKEN_REQUEST (R254, R256, R261): a request that the table allows is recorded and answered with a grant, a repeated one
adding no second share; one that conflicts, or finds no free entry, waits, and nothing is sent. -/
def Says.TokenRequestIsGrantedOrWaits : Prop :=
  ∀ (p : Packet) (d : Nat) (s : State), s.m.Canon → p.op = 0x41 → p.log2 < 64 → atTidyHome p d s →
    let x := s.m.die d
    let region := fun (y : Die) => y.entryOf (tokBase p.addr.toNat) p.log2
    (x.grantable p = true → ((region x).isSome = true ∨ x.freeTok ≠ 0) →
      ∃ t i e, exec (.tokenRequest p) s = .next t ∧ region (t.m.die d) = some (i, e) ∧ (t.m.die d).waits = [] ∧
        (p.shared = false → e.excl = true ∧ e.share = 0 ∧ e.party = p.src.toNat) ∧
        (p.shared = true → e.excl = false ∧ p.src.toNat ∈ e.sharers) ∧
        (p.shared = true → (region x).all (fun y => !y.2.sharers.contains p.src.toNat) = true →
          e.share = ((region x).map (·.2.share)).getD 0 + 1) ∧
        (p.shared = true → (region x).any (fun y => y.2.sharers.contains p.src.toNat) = true →
          region x = some (i, e)) ∧
        (∀ j, j ≠ i → look TokEntry.blank (t.m.die d).tok j = look TokEntry.blank x.tok j) ∧
        answered s t p 0x42 ∧ onlyHome s t d) ∧
    ((x.grantable p = false ∨ (region x = none ∧ x.freeTok = 0)) →
      ∃ t, exec (.tokenRequest p) s = .next t ∧ (t.m.die d).waits = [⟨p⟩] ∧ (t.m.die d).tok = x.tok ∧
        t.m.net = s.m.net ∧ onlyHome s t d)

/-- TOKEN_RETURN (R262): the exclusive token of a region, or one share of it, comes back and is acknowledged. -/
def Says.TokenReturnComesHome : Prop :=
  ∀ (p : Packet) (d i : Nat) (e : TokEntry) (s : State), s.m.Canon → p.num < 14 → p.log2 < 64 → atTidyHome p d s →
    let x := s.m.die d
    let region := fun (y : Die) => y.entryOf (tokBase p.addr.toNat) p.log2
    let others := fun (t : State) =>
      ∀ j, j ≠ i → look TokEntry.blank (t.m.die d).tok j = look TokEntry.blank x.tok j
    region x = some (i, e) → (∀ f ∈ x.tok, f.2.split = false ∧ (f.2.base = e.base → f.2.log2 = e.log2 → f = (i, e))) →
    (e.excl = true → e.share = 0 → e.pois = false →
      ∃ t, exec (.tokenReturn p) s = .next t ∧ region (t.m.die d) = none ∧ others t ∧ answered s t p 0x45 ∧
        onlyHome s t d) ∧
    (e.excl = false → 2 ≤ e.share → ∃ t, exec (.tokenReturn p) s = .next t ∧
      region (t.m.die d) = some (i, { e with share := e.share - 1, sharers := e.sharers.erase p.src.toNat }) ∧ others t ∧
      answered s t p 0x45 ∧ onlyHome s t d)

/-- TOKEN_PASS (R262): the home records the receiver as the party of the region, grants it, and tells the lender. -/
def Says.TokenPassGoesToTheReceiver : Prop :=
  ∀ (p : Packet) (d i dest : Nat) (e : TokEntry) (s : State), s.m.Canon → p.log2 < 64 → atTidyHome p d s →
    let region := fun (y : Die) => y.entryOf (tokBase p.addr.toNat) p.log2
    region (s.m.die d) = some (i, e) → valOf p.data = dest → dest < 2 ^ 32 → dest / 2048 = s.m.hub.chip →
    dest ≠ 0 →
    ∃ t g a, exec (.tokenPass p) s = .next t ∧ region (t.m.die d) = some (i, { e with party := dest }) ∧
      (∀ j, j ≠ i → look TokEntry.blank (t.m.die d).tok j = look TokEntry.blank (s.m.die d).tok j) ∧
      t.m.net = s.m.net ++ [g, a] ∧ g.op = 0x42 ∧ g.src.toNat = dest ∧ g.addr = p.addr ∧
      a.op = 0x45 ∧ a.src = p.src ∧ a.tag = p.tag ∧ onlyHome s t d

/-- TOKEN_SPLIT (R257, R263): 2^N child entries, each exclusive to the holder, stand in consecutive entries that were
free, the region's entry is split, and the holder is told. -/
def Says.TokenSplitMakesChildren : Prop :=
  ∀ (p : Packet) (d i c : Nat) (e : TokEntry) (s : State), s.m.Canon → p.op = 0x46 → atTidyHome p d s →
    1 ≤ p.num → 12 + p.num ≤ p.log2 → p.log2 < 64 →
    let x := s.m.die d
    x.entryOf (tokBase p.addr.toNat) p.log2 = some (i, e) → x.runOfFree (2 ^ p.num) = some c →
    ∃ t, exec (.tokenSplit p) s = .next t ∧
      look TokEntry.blank (t.m.die d).tok i =
        { e with excl := false, party := 0, split := true, nspl := p.num, child := c } ∧
      (∀ k, k < 2 ^ p.num → look TokEntry.blank (t.m.die d).tok (c + k) =
        { excl := true, log2 := p.log2 - p.num, base := e.base + k * 2 ^ (p.log2 - p.num - 12), party := e.party }) ∧
      (∀ j, j ≠ i → ¬ (c ≤ j ∧ j < c + 2 ^ p.num) →
        look TokEntry.blank (t.m.die d).tok j = look TokEntry.blank x.tok j) ∧
      answered s t p 0x45 ∧ onlyHome s t d

/-- TOKEN_JOIN (R257, R263): the entries inside the region are freed, its own entry is exclusive to the holder and split no
longer, and the holder is told. -/
def Says.TokenJoinRestoresTheRegion : Prop :=
  ∀ (p : Packet) (d i : Nat) (e : TokEntry) (s : State), s.m.Canon → p.log2 < 64 → atTidyHome p d s →
    let x := s.m.die d
    let inside := fun (f : TokEntry) =>
      f.log2 < p.log2 && overlaps (tokBase p.addr.toNat * 4096) p.log2 (f.base * 4096) f.log2
    x.entryOf (tokBase p.addr.toNat) p.log2 = some (i, e) → (∀ f ∈ x.tok, f.2.split = true → f = (i, e) ∨ inside f.2 = true) →
    ∃ t f, exec (.tokenJoin p) s = .next t ∧ (t.m.die d).entryOf (tokBase p.addr.toNat) p.log2 = some (i, f) ∧
      f.excl = true ∧ f.share = 0 ∧ f.split = false ∧ f.party = p.src.toNat ∧
      (∀ g ∈ (t.m.die d).tok, inside g.2 = false) ∧
      (∀ j, j ≠ i → let g := look TokEntry.blank x.tok j
        look TokEntry.blank (t.m.die d).tok j = g ∨
          (look TokEntry.blank (t.m.die d).tok j = TokEntry.blank ∧
            (inside g = true ∨ (g.atHome = true ∧ g.split = false ∧ g.pois = false)))) ∧
      answered s t p 0x45 ∧ onlyHome s t d

/-- TOKEN_GRANT at a tile's cluster (R258, R261): the holding is the party's and the asking task's job's, the request is
outstanding no longer, and the semaphore that the request named is signalled. A grant that finds the holdings table full
waits (log 80). -/
def Says.TokenGrantReachesItsTask : Prop :=
  ∀ (p : Packet) (r : Request) (a : Agent) (s : State), s.m.Canon →
    s.m.hub.requests.find? (·.answeredBy p) = some r → r.agent = some a → r.job = none → r.gone = none → r.tracked = none →
    p.data = [] → partyKind p.src.toNat = 0 →
    let c := s.m.ctx a.tile a.ctx
    let job := c.job
    let answered := { s.m with hub := { s.m.hub with requests := s.m.hub.requests.erase r } }
    let room := answered.entryFor p.src.toNat job p.addr.toNat p.log2
    (room = false → exec (.tokenGrant p) s = .next { s with m := { s.m with net := p :: s.m.net } }) ∧
    (room = true → settledWaits c → s.m.cycle = false → c.sem p.sem + c.rsv p.sem + 1 ≤ 65535 →
    (∀ w ∈ c.waitq, w.sem ≠ p.sem) → ∃ t h, exec (.tokenGrant p) s = .next t ∧ t.m.exact p.src.toNat (some job) p.addr.toNat p.log2 = some h ∧
      h.ex = !p.shared ∧ h.job = job ∧ t.m.hub.requests = s.m.hub.requests.erase r ∧
      t.m.ctx a.tile a.ctx = { c with sems := (t.m.ctx a.tile a.ctx).sems } ∧
      semsBut c (t.m.ctx a.tile a.ctx) p.sem (c.sem p.sem + 1) ∧
      (∀ n x, ¬ (n = a.tile ∧ x = a.ctx) → t.m.ctx n x = s.m.ctx n x) ∧ sameBytes s.m t.m ∧ machOnly s t)

/-- TOKEN_ACKNOWLEDGE (R262, R263): a tkput's semaphore is signalled; the holdings of a split or join are rewritten and its
stream runs on past the instruction. -/
def Says.TokenAcknowledgeEndsTheOperation : Prop :=
  ∀ (p : Packet) (r : Request) (a : Agent) (s : State), s.m.Canon →
    s.m.hub.requests.find? (·.answeredBy p) = some r → r.agent = some a → r.cmd = none → r.gone = none →
    r.tracked = none → partyKind p.src.toNat = 0 →
    let c := s.m.ctx a.tile a.ctx
    let party := p.src.toNat
    let ia := p.addr.toNat
    (r.op = 0x43 → settledWaits c → s.m.cycle = false → c.sem p.sem + c.rsv p.sem + 1 ≤ 65535 →
      (∀ w ∈ c.waitq, w.sem ≠ p.sem) →
      ∃ t, exec (.tokenAcknowledge p) s = .next t ∧ t.m.hub.requests = s.m.hub.requests.erase r ∧
        semsBut c (t.m.ctx a.tile a.ctx) p.sem (c.sem p.sem + 1) ∧ t.m.clusters = s.m.clusters ∧
        sameBytes s.m t.m ∧ machOnly s t) ∧
    (r.op = 0x46 → (c.stream a.eng).mode ≠ .run → p.num ≤ p.log2 →
      ∃ t, exec (.tokenAcknowledge p) s = .next t ∧ t.m.hub.requests = s.m.hub.requests.erase r ∧
        (t.m.streamOf a).mode = .run ∧ (t.m.streamOf a).granted = true ∧
        (∀ k, k < 2 ^ p.num → ∃ h ∈ t.m.holdings party, h.ex = true ∧ h.party = party ∧ h.job = c.job ∧
          h.base = BitVec.ofNat 64 (ia + k * 2 ^ (p.log2 - p.num)) ∧ h.log2 = p.log2 - p.num) ∧
        (1 ≤ p.num → t.m.exact party (some c.job) ia p.log2 = none) ∧ sameBytes s.m t.m ∧ machOnly s t) ∧
    (r.op = 0x47 → (c.stream a.eng).mode ≠ .run →
      ∃ t h, exec (.tokenAcknowledge p) s = .next t ∧ t.m.hub.requests = s.m.hub.requests.erase r ∧
        (t.m.streamOf a).mode = .run ∧ (t.m.streamOf a).granted = true ∧
        t.m.exact party (some c.job) ia p.log2 = some h ∧ h.ex = true ∧ sameBytes s.m t.m ∧ machOnly s t)

/-! ## Blocks of the load and store engines (03, 07) -/

/-- The end of a block without bound windows that has collected no write (R71, R146): its header signal is counted out of its reservation where no one
waits, its loop counters are left, the stream passes on by its length, and no byte of memory changes. -/
def Says.ABlockEndsWithItsSignal : Prop :=
  ∀ (i : Instr) (b b' : Active) (m : Mach), m.Canon → i.bound = [] → b'.out = none → b'.skip = false → settledWaits m.curCtx →
    (∀ w ∈ m.curCtx.waitq, w.sem ≠ i.hdr.ssem) →
    let c := m.curCtx
    let m' := closeBlock i m b b'
    m'.str = { m.moved (m.str.pc + b'.len) m.str.x with
      blk := none, lc := i.hdr.counts.map (· - 1), since := m'.str.since } ∧
    semsBut c m'.curCtx i.hdr.ssem (c.sem i.hdr.ssem + i.hdr.scnt) ∧
    (∀ j, m'.curCtx.rsv j = if j = i.hdr.ssem then c.rsv j - i.hdr.scnt else c.rsv j) ∧
    m'.curCtx = { c.setStream m.cur.eng m'.str with sems := m'.curCtx.sems, resv := m'.curCtx.resv } ∧
    m' = m.setCurCtx m'.curCtx ∧ sameBytes m m'

/-- Elements of the scratchpad (R94, R95, R153): an element of whole bytes is its bytes at the window's base plus its
index, least significant first; reading it changes nothing. -/
def Says.ScratchpadElementsAreRead : Prop :=
  ∀ (k : Nat) (w : Win) (idx : Int) (more : Unit → Nat) (pipe : Option Bool) (b : Active) (m : Mach), w.space = .ts →
    w.bd = none → 8 ≤ w.fmt.width → 0 ≤ idx →
    let n := w.fmt.width / 8
    let o := w.base + idx.toNat * n
    o + n ≤ 2 ^ 20 → m.readElem k w idx more pipe b =
      (.done ⟨valOf (rdRun m (tsKey m.cur.tile o) n) % 2 ^ w.fmt.width, w.fmt,
        anyPois (rdRun m (tsKey m.cur.tile o) n)⟩ m, b)

/-- A clean element written to clean bytes of the scratchpad (R94, R95, R153, R373): its bytes read as written, and EVERY
other byte of the device reads as before. -/
def Says.ScratchpadElementsAreWritten : Prop :=
  ∀ (k : Nat) (w : Win) (idx : Int) (pat : Nat) (b : Active) (last : Bool) (m : Mach), m.Canon → w.space = .ts →
    w.bd = none → 8 ≤ w.fmt.width → 0 ≤ idx → pat < 2 ^ w.fmt.width →
    let n := w.fmt.width / 8
    let o := w.base + idx.toNat * n
    let key := tsKey m.cur.tile o
    o + n ≤ 2 ^ 20 → o % n = 0 → (∀ j, j < n → (rdByte m (key + j)).p = false) →
    ∃ m', m.writeElem k w idx pat false b last = (.done () m', b) ∧ valOf (rdRun m' key n) = pat ∧
      (∀ j, j < n → (rdByte m' (key + j)).p = false) ∧
      (∀ a, a < key ∨ key + n ≤ a → rdByte m' a = rdByte m a) ∧
      m' = { m with mem := m'.mem, poison := m'.poison }

/-- An owned, constant or sync access reaches device memory only where the page directory has a page (R241, R242): an absent
page ends the access with PAGEABS of class TASK (R405), a migrating one holds it, and a poisoned one reads as poison; so does
a stack that has not finished training (R361). An access that crosses into the next page takes its rest from that page's
frame. -/
def Says.PagesGateMemory : Prop :=
  ∀ (va d off n : Nat) (c : List Nat) (m : Mach),
    let p := m.page d off
    let k := p.size - off % p.size
    let q := m.page d (off + k)
    let frame := p.phys + off % p.size
    let frame2 := q.phys + (off + k) % q.size
    (m.dirOpen d off = false → m.memRead va d off n c = .wait m) ∧
    (m.dirOpen d off = true → n ≤ k →
      (p.state = 1 → m.stackOpen d frame = true → m.memRead va d off n c = .done (rdRun m (hbmKey d frame) n) m) ∧
      (p.state = 1 → m.stackOpen d frame = false → m.memRead va d off n c = .wait m) ∧
      (p.state = 2 → m.memRead va d off n c = .wait m) ∧
      (p.state = 3 → ∃ bs, m.memRead va d off n c = .done bs m ∧ bs.length = n ∧ ∀ x ∈ bs, x.p = true) ∧
      (p.state = 0 → ∃ f, m.memRead va d off n c = .trap f ∧ f.cause = .pageabs ∧ f.task = true ∧ f.inblk = true)) ∧
    (m.dirOpen d off = true → m.dirOpen d (off + k) = true → k < n → n - k ≤ q.size → p.state = 1 → q.state = 1 →
      m.stackOpen d frame = true → m.stackOpen d frame2 = true →
      m.memRead va d off n c =
        .done (rdRun m (hbmKey d frame) k ++ rdRun m (hbmKey d frame2) (n - k)) m)

/-- Which range an access takes, and what each kind and permission allows (R152, R232). -/
def Says.AccessesPassTheirRange : Prop :=
  ∀ (k va n : Nat) (u : Use) (c : List Nat) (m : Mach),
    (m.curCtx.translate va n = none → ∃ f, m.locateVm k va n u c = .trap f ∧ f.cause = .range) ∧
    (∀ r ia, m.curCtx.translate va n = some (r, ia) →
      (r.lo ≤ va ∧ va + n ≤ r.lo + r.pages * 4096 ∧ ia = (r.ia + (va - r.lo)) % 2 ^ 64) ∧
      (kindAllows r.kind u = false → ∃ f, m.locateVm k va n u c = .trap f ∧ f.cause = .kindviol ∧ f.task = false) ∧
      (kindAllows r.kind u = true → permAllows r u = false →
        ∃ f, m.locateVm k va n u c = .trap f ∧ f.cause = .range ∧ f.task = false))

/-- The copies (R153, R158, R161, R162) in the last iteration of their nest: the source element is read, converted to the
destination's format in its rounding mode, and written; the block then ends. A row of ldg and sts comes from the index
list read at issue; an iteration of ldc outside the image writes the padding value. A scouting ldw gives its pins back
(R160). -/
def Says.CopiesMoveTheirLastElement : Prop :=
  ∀ (h : Hdr) (dst src idx : Win) (pad : Pad) (kh kw sh sw ih iw spg : Nat) (e : Elem) (b b1 b2 : Active)
    (m1 m2 : Mach) (s : State),
    let moves := fun (i : Instr) (di si : Active → Int) => s.m.AtLastOf i b ∧
      s.m.readElem 1 src (si b) (runOf h si b) none b = (.done e m1, b1) ∧
      m1.writeElem 0 dst (di b1) (convert e.fmt dst.fmt (dst.mode h) e.bits (winDraw h b1)) e.p b1 (b1.left = 1) =
        (.done () m2, b2) ∧ survives i m2 b b2
    let copies := fun (i : Instr) (di si : Active → Int) =>
      moves i di si → exec i s = .next { s with m := closeBlock i m2 b b2 }
    let row := fun (x : Active) => x.idx.getD x.done 0
    let at2 := convAt src pad sh sw b.c
    let inside := 0 ≤ at2.1 ∧ at2.1 < (ih : Int) ∧ 0 ≤ at2.2 ∧ at2.2 < (iw : Int)
    let conv : Instr := .ldc h dst src pad kh kw sh sw ih iw
    let scouts : Instr := .ldw h dst src true spg
    copies (.ldw h dst src false spg) (at_ dst) (at_ src) ∧
    (moves scouts (at_ dst) (at_ src) → s.m.srcPages src (at_ src b) = [] →
      let m3 := (slotSignals scouts.bound (m2.sendOut b2).1 b).dropScout (scoutKey s.m.cur)
      exec scouts s = .next { s with m := blockDone .stream h m3 b2 }) ∧
    copies (.stw h dst src) (at_ dst) (at_ src) ∧
    copies (.ldg h dst src idx) (at_ dst) row ∧
    copies (.sts h dst src idx) row (at_ src) ∧
    (inside → copies conv (at_ dst) (fun x => convIdx src x.c at2.1 at2.2)) ∧
    (¬ inside → s.m.AtLastOf conv b →
      s.m.writeElem 0 dst (at_ dst b) (convert src.fmt dst.fmt (dst.mode h) (pad.v.toNat % 2 ^ src.fmt.width) (winDraw h b))
        false b (b.left = 1) = (.done () m2, b2) → survives conv m2 b b2 →
      exec conv s = .next { s with m := closeBlock conv m2 b b2 })

/-- ldx and stx (R164, R165) in the last iteration: the next register takes the element, sign-extended for an I format and
zero-extended otherwise; the next register as it was at issue goes to the window, clamped for an integer format. -/
def Says.ScalarsMove : Prop :=
  ∀ (h : Hdr) (w : Win) (x n : Nat) (e : Elem) (r : XReg) (b b1 : Active) (m1 : Mach) (s : State),
    let ld : Instr := .ldx h w x n
    let st : Instr := .stx h w x n
    (s.m.AtLastOf ld b → s.m.readElem 0 w (at_ w b) (runOf h (at_ w) b) none b = (.done e m1, b1) → b1.done = b.done →
      let m2 := m1.setX (x + b.done) ⟨extend64 e.fmt e.bits, e.p⟩
      survives ld m2 b b1 → exec ld s = .next { s with m := closeBlock ld m2 b b1 }) ∧
    (s.m.AtLastOf st b → b.xs[b.done]? = some r →
      s.m.writeElem 0 w (at_ w b) (narrow64 w.fmt r.v) r.p b (b.left = 1) = (.done () m1, b1) →
      survives st m1 b b1 → exec st s = .next { s with m := closeBlock st m1 b b1 }) ∧
    (∀ (f : Fmt) (v : Nat), v < 2 ^ f.width →
      (f ∈ [.i64, .i32, .i16, .i8, .i4] → (extend64 f v).toInt =
        if v < 2 ^ (f.width - 1) then (v : Int) else (v : Int) - 2 ^ f.width) ∧
      (f ∉ [Fmt.i64, .i32, .i16, .i8, .i4] → (extend64 f v).toNat = v))

/-- waitm (R173): when the element meets the condition against the register the block ends with the value in its result
register; until then it goes on watching; a poisoned value ends the task (R375). A sync word in its own cluster's pool is
read, any other is watched at its home, by one request, whose answer is the value. -/
def Says.WaitmWatchesItsWord : Prop :=
  ∀ (h : Hdr) (w : Win) (cmp : Cond) (sc : Scope) (xv xr va : Nat) (p : Place) (bs : List PByte) (b b1 : Active)
    (m1 : Mach) (s : State),
    let i : Instr := .waitm h w cmp sc xv xr
    let span := elemSpan w.fmt (at_ w b)
    let ia := match p with
      | .remote x => x
      | _ => 0
    let holds := fun (l : List PByte) => condHolds cmp (extend64 w.fmt (valOf l)) (s.m.xr xv).v
    s.m.AtLastOf i b → va = s.m.vaOf w span.1 →
    s.m.locate 0 w false span.1 span.2.1 .waitm b = .done p s.m →
    (p.away = false →
      s.m.readPlace p va span.2.1 (fun _ => span.2.1) none b = (.done bs m1, b1) → m1.xr xv = s.m.xr xv →
      (anyPois bs = false → (s.m.xr xv).p = false → holds bs = true →
        let m2 := m1.setX xr ⟨extend64 w.fmt (valOf bs), false⟩
        survives i m2 b b1 → exec i s = .next { s with m := closeBlock i m2 b b1 }) ∧
      (anyPois bs = false → (s.m.xr xv).p = false → holds bs = false → b1.out = none →
        exec i s = .next { s with m := m1.setB .stream (some { b1 with cache := [], ahead := none }) }) ∧
      (anyPois bs = true ∨ (s.m.xr xv).p = true →
        ∃ f, f.cause = .poisonuse ∧ f.task = true ∧ exec i s = .next { s with m := blockTrap .stream m1 b f })) ∧
    (p = .remote ia → (s.m.xr xv).p = false → b.fetched ia span.2.1 = none → b.out = none →
      (b.resp = none → b.await = none → s.m.Canon → s.m.hub.rehash ≠ 1 → ∃ t r, exec i s = .next t ∧
        t.m.hub.requests = s.m.hub.requests ++ [r] ∧ r.op = 5 ∧ r.agent = some s.m.cur ∧ r.chip = ia / 2 ^ 43 ∧
        t.m.str = { s.m.str with blk := some { b with await := some r.tag } } ∧
        leaves s t (ia / 2 ^ 43) 5 (fun q => q.tag = r.tag ∧ q.addr = BitVec.ofNat 64 ia ∧
          valOf q.data = (s.m.xr xv).v.toNat) ∧
        othersKept s.m t.m ∧ sameBytes s.m t.m ∧ machOnly s t) ∧
      (b.resp = some bs → bs.length = span.2.1 → anyPois bs = false → holds bs = true →
        let m2 := s.m.setX xr ⟨extend64 w.fmt (valOf bs), false⟩
        survives i m2 b b → exec i s = .next { s with m := closeBlock i m2 b b }))

/-- The atomic operations (R170): the new value of a clean element of an integer format. -/
def Says.AtomicOperations : Prop :=
  ∀ (f : Fmt) (mode : RMode) (old a b r : Nat), f.isInt = true → old < 2 ^ f.width → a < 2 ^ f.width → b < 2 ^ f.width →
    let sgn := fun (x : Nat) => if x < 2 ^ (f.width - 1) then (x : Int) else (x : Int) - 2 ^ f.width
    let out := fun op => atomVal op f mode old a b r
    out .add = (old + a) % 2 ^ f.width ∧ out .swap = a ∧ (old = a → out .cas = b) ∧ (old ≠ a → out .cas = old) ∧
    sgn (out .min) = min (sgn old) (sgn a) ∧ sgn (out .max) = max (sgn old) (sgn a) ∧
    (∀ k, (out .and).testBit k = (old.testBit k && a.testBit k)) ∧
    (∀ k, (out .or).testBit k = (old.testBit k || a.testBit k)) ∧
    (∀ k, (out .xor).testBit k = (old.testBit k ^^ a.testBit k))

/-- atom (R170, R171), its release fence done, in the last iteration: the element is read, combined and written back, and
with .f its old value goes to the destination register; the block then ends. An element that is reached by messages alone is
sent to its home; a block that wants neither the old value nor acquire order then ends without the answer (the model's reading,
log 31). -/
def Says.AtomReadsAndWritesOnce : Prop :=
  ∀ (h : Hdr) (w : Win) (op : AOp) (ord : AOrd) (sc : Scope) (f : Bool) (xd xa xb va : Nat) (ra rb : XReg) (p : Place)
    (old : List PByte) (b b1 : Active) (m1 : Mach) (s : State),
    let i : Instr := .atom h w op ord sc f xd xa xb
    let span := elemSpan w.fmt (at_ w b)
    s.m.AtLastOf i b → b.xs = [ra, rb] → ra.p = false → rb.p = false → atomHeld s.m ord sc b = false →
    va = s.m.vaOf w span.1 → s.m.locate 0 w true span.1 span.2.1 .atom b = .done p s.m →
    (p.away = false → s.m.rmw p va span.2.1 (fun o => pbytes span.2.1
      (atomVal op w.fmt (w.mode h) (valOf o) ra.v.toNat rb.v.toNat (winDraw h b)) (anyPois o)) b = (.done old m1, b1) →
      survives i m1 b b1 →
      let m2 := slotSignals i.bound (m1.sendOut b1).1 b
      let m3 := if f then m2.setX xd (oldReg w.fmt old false) else m2
      exec i s = .next { s with m := blockDone .stream h m3 b1 }) ∧
    (p.away = true → f = false → ord ≠ .acq → ord ≠ .ar →
      let data := pbytes 8 ra.v.toNat false ++ (if op = .cas then pbytes 8 rb.v.toNat false else [])
      let q := msgTo s.m 3 p [(28, op.code), (24, w.fmt.code), (23, 0), (20, (w.mode h).code)] data
      let m2 := (s.m.requestAs { q with draws := [winDraw h b] }
        { agent := some s.m.cur, write := true, va := BitVec.ofNat 64 va, off := b.off, iter := some b.c }).1
      survives i m2 b b → exec i s = .next { s with m := closeBlock i m2 b b })

/-- stred and stk (R158, R159, R174) in the last iteration: the element is added at its memory with the destination's
arithmetic, or joins the message that adds it there; a rank's value and index are written, the row being read and put in order
once, and its index is counted where there is a count window. The block then ends. -/
def Obligations.ReductionsAndSelection : Prop :=
  ∀ (h : Hdr) (dst src val ind cnt : Win) (k va : Nat) (e : Elem) (p : Place) (old : List PByte) (f : Fmt) (pat : Nat)
    (z : Bool) (row : List (Fmt × Nat × Bool)) (j : Int) (b b0 b1 b2 b3 b4 : Active) (m1 m2 m3 m4 : Mach) (s : State),
    let rd : Instr := .stred h dst src
    let sk : Option Win → Instr := fun c => .stk h val ind src c k
    let span := elemSpan dst.fmt (at_ dst b1)
    let draws := winDraw h b1
    (s.m.AtLastOf rd b → s.m.readElem 1 src (at_ src b) (fun _ => 0) none b = (.done e m1, b1) →
      va = m1.vaOf dst span.1 → m1.locate 0 dst true span.1 span.2.1 .stred b1 = .done p m1 →
      (p.away = false → m1.rmw p va span.2.1 (fun o => pbytes span.2.1
          (radd dst.fmt (dst.mode h) (valOf o) (e.fmt.value e.bits) draws) (e.p || anyPois o)) b1 = (.done old m2, b2) →
        survives rd m2 b b2 → exec rd s = .next { s with m := closeBlock rd m2 b b2 }) ∧
      (p.away = true → (e.p && m1.leaves p) = false →
        let q := msgTo m1 4 p [(28, e.fmt.code), (24, dst.fmt.code), (20, (dst.mode h).code)]
          (pbytes ((e.fmt.width + 7) / 8) e.bits e.p)
        m1.putOut { q with draws := [draws] } va b1 = (m2, b2) →
        survives rd m2 b b2 → exec rd s = .next { s with m := closeBlock rd m2 b b2 })) ∧
    (s.m.AtLast b (if h.slv = 7 then (k :: h.counts.drop 1).length else max 1 h.slv) (k :: h.counts.drop 1) →
      b.wrote = 0 → takeRow h src s.m b = some b0 → b0.row = some row → row.any (·.2.2) = false →
      row[b0.c.headD 0]? = some (f, pat, z) → b0.idx[b0.c.headD 0]? = some j →
      s.m.writeElem 0 val (at_ val b0) (rankedVal f val.fmt (val.mode h) pat (winDraw h b0)) false b0 false =
        (.done () m2, b2) → b2.wrote = 0 → b2.c = b0.c → b2.idx = b0.idx →
      m2.writeElem 1 ind (at_ ind b0) (convNum ind.fmt (ind.mode h) (Sys2Proof.Num.ofInt (j.toNat : Nat)) (winDraw h b0)).1 false
        { b2 with wrote := 1 } false = (.done () m3, b3) → b3.c = b0.c →
      (survives (sk none) m3 b b3 → exec (sk none) s = .next { s with m := closeBlock (sk none) m3 b b3 }) ∧
      (let cs := elemSpan cnt.fmt (idxAt cnt.stride (j.toNat :: b3.c.drop 1))
       m3.locate 3 cnt true cs.1 cs.2.1 .write { b3 with wrote := 2 } = .done p m3 →
       m3.rmw p 0 cs.2.1 (fun o => pbytes cs.2.1 ((valOf o + 1) % 2 ^ cnt.fmt.width) (anyPois o)) { b3 with wrote := 2 } =
         (.done old m4, b4) →
       survives (sk (some cnt)) m4 b b4 →
       exec (sk (some cnt)) s = .next { s with m := closeBlock (sk (some cnt)) m4 b b4 }))

/-- probe and pref (R166, R167, R169, R403, R404) past their header wait: a probe that has taken its last page pins the
resident pages of its list for the job and answers 0 with the number it brought in; one whose page finds no frame answers 1, one
whose page stays poisoned after its home has looked for a frame answers 3;
one whose pages, as the directory stood when it issued, need more frames than FRCAP gives answers 2; pref ends, having changed
no value that any party reads. -/
def Obligations.ProbeAndPrefEnd : Prop :=
  ∀ (h : Hdr) (src : Win) (xs nres k asked : Nat) (ps : List Word64) (p : Word64) (b : Active) (s : State),
    let key := scoutKey s.m.cur
    let sorted := ps.foldl (fun acc p => insPage p acc) []
    (s.m.probePages src h.counts h.total (h.counts.map (fun _ => 0)) [] = .ok ps →
      ∃ b', probePrep h src s.m b = .ok b' ∧ b'.pages = sorted ∧
        b'.idx = [0, 0, 0, if s.m.tooBig sorted then 1 else 0]) ∧
    (s.m.AtLast b 0 [] →
    let i : Instr := .probe h src xs
    let pinned := b.pages.foldl (fun (m : Mach) p =>
      if (m.page (pageDie p) (pageOff p)).state = 1 then m.pin (pageDie p) (pageOff p) s.m.curCtx.job else m) s.m
    let ends := fun (status nres : Nat) =>
      let m1 := (pinned.dropScout key).setX xs ⟨BitVec.ofNat 64 (nres * 2 ^ 32 + status), false⟩
      survives i m1 b b → exec i s = .next { s with m := closeBlock i m1 b b }
    (b.idx = [(nres : Int), (b.pages.length : Int), (asked : Int), 0] → ends 0 nres) ∧
    (b.idx = [(nres : Int), (k : Int), (asked : Int), 0] → b.pages[k]? = some p →
      ((s.m.page (pageDie p) (pageOff p)).state = 0 ∨ (s.m.page (pageDie p) (pageOff p)).state = 3) →
      (s.m.die (pageDie p)).asked p key = false → (p, key) ∈ (s.m.die (pageDie p)).noframe → ends 1 nres) ∧
    (b.idx = [(nres : Int), (k : Int), 1, 0] → b.pages[k]? = some p →
      (s.m.page (pageDie p) (pageOff p)).state = 3 → (s.m.die (pageDie p)).asked p key = false →
      (p, key) ∉ (s.m.die (pageDie p)).noframe → ends 3 nres) ∧
    (b.idx = [0, 0, 0, 1] → ends 2 0) ∧
    (survives (.pref h src) s.m b b → exec (.pref h src) s = .next { s with m := closeBlock (.pref h src) s.m b b }))

/-! ## The matrix engine (08) -/

/-- mwld, mstrm, mrb and mzero issue (R185, R385): with fewer than sixteen blocks in progress and its checks passed, the
block stands last in the queue with the patches applied to it, which leave the store (R142), its header signal is reserved,
and the stream passes on; with sixteen it waits; a failing check is taken and nothing issues. -/
def Obligations.MatrixBlocksIssue : Prop :=
  ∀ (h : Hdr) (w acc : Win) (sc : Option Win) (setB tr accSet ret i64 : Bool) (sel : Sel) (rowb : Nat) (s : State),
    s.m.Canon → s.m.cur.eng = .me → s.m.skips = false → s.m.str.resume = none →
    let issues := fun (i : Instr) (check : Option Trap) =>
      let t0 := s.m.tile s.m.cur.tile
      let c := s.m.curCtx
      (16 ≤ t0.mat.blocks → exec i s = .next s) ∧
      (t0.mat.blocks < 16 → check = none →
        (i.hdr.scnt = 0 ∨ c.sem i.hdr.ssem + c.rsv i.hdr.ssem + i.hdr.scnt ≤ 65535) →
        ∃ t b, exec i s = .next t ∧ b.instr = i ∧ b.off = s.m.str.pc ∧ b.phase = .header ∧ b.skip = false ∧
          b.left = i.hdr.total ∧ b.applied = s.m.str.applied ∧
          t.m.tile s.m.cur.tile = { t0 with mat := { t0.mat with queue := t0.mat.queue ++ [b], issued := t0.mat.issued + 1 } } ∧
          t.m.str = { s.m.moved (s.m.str.pc + blockLen .me i) s.m.str.x with
            lc := i.hdr.counts.map (· - 1), last := some s.m.str.pc
            pend := s.m.str.pend.filter (fun p => p.pos ≠ s.m.str.pc) } ∧
          t.m.curCtx.sems = c.sems ∧
          (∀ j, t.m.curCtx.rsv j = if j = i.hdr.ssem then c.rsv j + i.hdr.scnt else c.rsv j) ∧
          othersKept s.m t.m ∧ sameBytes s.m t.m ∧ machOnly s t) ∧
      (∀ f, t0.mat.blocks < 16 → check = some f → ∃ t, exec i s = .next t ∧ fails s t (blockLen .me i) f)
    issues (.mwld h w sc setB tr) (mwldCheck (.mwld h w sc setB tr) h w sc tr s.m) ∧
    issues (.mstrm h w acc sc sel accSet ret) (mstrmCheck (.mstrm h w acc sc sel accSet ret) h w acc sc sel s.m) ∧
    issues (.mrb h rowb) none ∧ issues (.mzero h acc i64) (mzeroCheck (.mzero h acc i64) h acc s.m)

/-- A matrix block that can start: its tile's ME runs context `ctx`, nothing holds the engine, the block stands alone in
the queue before empty pipes, without a header wait or signal, with one iteration in its nest and no bound window. -/
structure MayStart (m : Mach) (tile : Nat) (ctx : Bool) (b : Active) : Prop where
  runs : at' none (m.tile tile).runs 1 = some ctx
  task : (m.ctx tile ctx).loaded = true ∧ (m.ctx tile ctx).dying = none ∧ (m.ctx tile ctx).stopping = false
  clocked : m.clocked tile = true
  mode : (m.ctx tile ctx).me.mode ≠ .trapped
  queue : (m.tile tile).mat.queue = [b] ∧ (m.tile tile).mat.load = none ∧ (m.tile tile).mat.strm = none
  block : b.phase = .header ∧ b.skip = false ∧ b.queued = false ∧ b.inSlot = false ∧ b.left = 1 ∧ b.out = none ∧ b.instr.bound = []
  hdr : b.instr.hdr.wcnt = 0 ∧ b.instr.hdr.scnt = 0

/-- ME_BLOCK_START (R179, R182, R184, R186, R190): mrb sets the boundary row; a row of mzero sets its 64 entries to zero of its
type and opens the stream with LIMIT latched; a pass of mstrm is performed; the last run of an unscaled mwld enters its set, which
takes the load's format. The pipe is free afterwards. -/
def Obligations.MatrixBlocksStart : Prop :=
  ∀ (h : Hdr) (w acc : Win) (i64 accSet ret setB tr : Bool) (sel : Sel) (rowb tile : Nat) (ctx : Bool) (b : Active)
    (s : State), s.m.Canon → MayStart s.m tile ctx b →
    let t0 := s.m.tile tile
    let j := ((acc.base : Nat) + idxAt acc.stride b.c).toNat
    let idle := fun (t : State) => (t.m.tile tile).mat.queue = [] ∧ (t.m.tile tile).mat.load = none ∧
      (t.m.tile tile).mat.strm = none ∧ sameBytes s.m t.m ∧ machOnly s t
    (b.instr = .mrb h rowb → ∃ t, exec (.meBlockStart tile) s = .next t ∧ idle t ∧
      (t.m.tile tile).mat = { t0.mat with mrb := rowb, queue := [] } ∧ t.m.acc = s.m.acc ∧ t.m.ctxs = s.m.ctxs) ∧
    (b.instr = .mzero h acc i64 → j + 64 ≤ 32768 → ∃ t, exec (.meBlockStart tile) s = .next t ∧ idle t ∧
      (∀ n, n < 64 → t.m.accE tile (j + n) = ⟨0, i64, false⟩) ∧
      (∀ n, n < 32768 → (n < j ∨ j + 64 ≤ n) → t.m.accE tile n = s.m.accE tile n) ∧
      (t.m.tile tile).mat.isOpen = true ∧ (t0.mat.isOpen = false → (t.m.tile tile).mat.limit = t0.rlim) ∧
      t.m.ctxs = s.m.ctxs) ∧
    (b.instr = .mstrm h w acc none sel accSet ret → sel ≠ .split → t0.bad = [] → j + 64 ≤ 32768 →
      let m0 := { s.m with cur := ⟨tile, ctx, .me⟩ }
      let p : Pass :=
        { fmt := w.fmt, a := m0.cellRun b.instr 0 w (idxAt w.stride b.c) w.fmt.kp, sa := [], set := t0.mat.set (sel == .b) }
      let new := fun n => (p.entry accSet (s.m.accE tile (j + n)) n).1
      (∀ n, n < 64 → (new n).p = false) →
      ∃ t, exec (.meBlockStart tile) s = .next t ∧ idle t ∧ (∀ n, n < 64 → t.m.accE tile (j + n) = new n) ∧
        (t.m.tile tile).mat.isOpen = !ret ∧ t.m.ctxs = s.m.ctxs) ∧
    (b.instr = .mwld h w none setB tr →
      let m0 := { s.m with cur := ⟨tile, ctx, .me⟩ }
      let old := t0.mat.set setB
      let run := m0.cellRun b.instr 0 w (idxAt w.stride b.c) (if tr then w.fmt.kp else 64)
      ∃ t l, exec (.meBlockStart tile) s = .next t ∧ idle t ∧ (b.done ≠ 0 → l = old.load) ∧
        (t.m.tile tile).mat.set setB =
          { old.loadRun tr w.fmt.kp b.done run none with fmt := w.fmt, scaled := false, sw := [], load := l } ∧
        (t.m.tile tile).mat.set (!setB) = t0.mat.set (!setB) ∧ (t.m.tile tile).mat.isOpen = true ∧
        t.m.acc = s.m.acc ∧ t.m.ctxs = s.m.ctxs)

/-- A run of a weight load enters its set (R177, R179): element n of run k is cell (k, n), or with the transpose bit element
k of run n; every other cell is as it was. -/
def Says.WeightRunsFillTheirCells : Prop :=
  ∀ (x : WSet) (kp i k n : Nat) (es : List (Nat × Bool)) (ss : Option (List (Nat × Bool))),
    sparseOk noWeight 0 x.w = true → k < 256 → n < 64 → kp ≤ 256 →
    (i < 256 → es.length = 64 → ((x.loadRun false kp i es ss).cell k n = if k = i then es.getD n noWeight else x.cell k n)) ∧
    (i < 64 → es.length = kp →
      ((x.loadRun true kp i es ss).cell k n = if n = i ∧ k < kp then es.getD k noWeight else x.cell k n))

/-- A pass on a tile without faulty cells (R46, R49, R181): its 64 entries take the pass's results, every other entry and
every byte is as it was, and ME_SAT is set when a result was clamped. -/
def Says.APassUpdatesItsEntries : Prop :=
  ∀ (p : Pass) (accSet : Bool) (r j : Nat) (m : Mach), m.Canon →
    let tile := m.cur.tile
    let new := fun n => p.entry accSet (m.accE tile (j + n)) n
    (m.tile tile).bad = [] → j + 64 ≤ 32768 → (∀ n, n < 64 → (new n).1.p = false) →
    let m' := m.writePass p accSet false ((m.tile tile).corrupt r) j 64 0
    (∀ n, n < 64 → m'.accE tile (j + n) = (new n).1) ∧
    (∀ n, n < 32768 → (n < j ∨ j + 64 ≤ n) → m'.accE tile n = m.accE tile n) ∧
    ((m'.tile tile).mat.sat = true ↔ (m.tile tile).mat.sat = true ∨ ∃ n, n < 64 ∧ (new n).2 = true) ∧ sameBytes m m'

/-- The integer update (R49): the exact sum of entry and products, clamped to the I64 range; it reports the clamp. -/
def Says.IntegerPassesClamp : Prop :=
  ∀ (acc : Nat) (ps : List Int), acc < 2 ^ 64 →
    let old : Int := if acc < 2 ^ 63 then (acc : Int) else (acc : Int) - 2 ^ 64
    let sum := old + ps.sum
    let v := (passI acc ps).1
    let new : Int := if v < 2 ^ 63 then (v : Int) else (v : Int) - 2 ^ 64
    v < 2 ^ 64 ∧ new = max (-2 ^ 63) (min (2 ^ 63 - 1) sum) ∧ ((passI acc ps).2 = true ↔ new ≠ sum)

/-! ## Arithmetic (02) -/

/-- A finite value as a number. -/
def ratOf : Sys2Proof.Num → ℚ
  | .fin s m e => (if s then -1 else 1) * (m : ℚ) * 2 ^ e
  | .nan | .inf _ => 0

/-- The `n`-th magnitude of a format's grid, its exponent unbounded above (R32, R38). -/
def gridVal (f : FSpec) (n : Nat) : ℚ :=
  if n / 2 ^ f.fw = 0 then (n : ℚ) * 2 ^ f.qmin
  else ((2 ^ f.fw + n % 2 ^ f.fw : Nat) : ℚ) * 2 ^ (f.qmin + (n / 2 ^ f.fw : Nat) - 1)

/-- Whether a mode takes the neighbour farther from zero of a magnitude that lies `rest` above the `n`-th of a grid and `gap - rest`
below the next (R38, R41). -/
def roundsAway (mode : RMode) (neg : Bool) (n r : Nat) (rest gap : ℚ) : Prop :=
  rest ≠ 0 ∧ match mode with
    | .rne => gap < 2 * rest ∨ (2 * rest = gap ∧ n % 2 = 1)
    | .rtz => False
    | .rup => neg = false
    | .rdn => neg = true
    | .rna => gap ≤ 2 * rest
    | .sr => if neg then ¬ (r : ℤ) < ⌊(1 - rest / gap) * 2 ^ 32⌋ else (r : ℤ) < ⌊rest / gap * 2 ^ 32⌋

/-- Formats with infinities, and the canonical NaN of those with NaN (R32, R33). -/
def withInf : List Fmt := [.f64, .f32, .bf16, .f16, .e5m2]
def nanOf : Fmt → Nat
  | .f64 => 0x7FF8000000000000 | .f32 => 0x7FC00000 | .bf16 => 0x7FC0 | .f16 => 0x7E00 | .e5m2 => 0x7E | .e4m3 => 0x7F
  | .e3m2 | .e2m3 | .e2m1 | .i64 | .i32 | .i16 | .i8 | .ui8 | .i4 | .ui4 => 0

/-- What a pattern of each floating-point format stands for (R32): sign, exponent and fraction, with subnormals; and the formats'
widths and limits, as the table of R32 gives them. -/
def Says.FormatsAreLaidOut : Prop :=
  (∀ (g : Fmt) (neg : Bool) (k : Nat), g.isInt = false → k < 2 ^ (g.spec.ew + g.spec.fw) →
    let v := g.value ((if neg then 2 ^ (g.spec.ew + g.spec.fw) else 0) + k)
    (k ≤ g.spec.maxMag → ∃ m e, v = .fin neg m e ∧ (m : ℚ) * 2 ^ e = gridVal g.spec k) ∧
    (g.spec.maxMag < k → v = if g ∈ withInf ∧ k % 2 ^ g.spec.fw = 0 then .inf neg else .nan)) ∧
  ∀ (g : Fmt) (ew fw bias : Nat) (most least tiny : ℚ),
    (g, ew, fw, bias, most, least, tiny) ∈
      [(Fmt.f64, 11, 52, 1023, (2 - 2 ^ (-52 : ℤ)) * 2 ^ 1023, 2 ^ (-1022 : ℤ), 2 ^ (-1074 : ℤ)),
        (.f32, 8, 23, 127, (2 - 2 ^ (-23 : ℤ)) * 2 ^ 127, 2 ^ (-126 : ℤ), 2 ^ (-149 : ℤ)),
        (.bf16, 8, 7, 127, (2 - 2 ^ (-7 : ℤ)) * 2 ^ 127, 2 ^ (-126 : ℤ), 2 ^ (-133 : ℤ)),
        (.f16, 5, 10, 15, 65504, 2 ^ (-14 : ℤ), 2 ^ (-24 : ℤ)), (.e5m2, 5, 2, 15, 57344, 2 ^ (-14 : ℤ), 2 ^ (-16 : ℤ)),
        (.e4m3, 4, 3, 7, 448, 2 ^ (-6 : ℤ), 2 ^ (-9 : ℤ)), (.e3m2, 3, 2, 3, 28, 2 ^ (-2 : ℤ), 2 ^ (-4 : ℤ)),
        (.e2m3, 2, 3, 1, 15 / 2, 1, 2 ^ (-3 : ℤ)), (.e2m1, 2, 1, 1, 6, 1, 1 / 2)] →
    g.spec.ew = ew ∧ g.spec.fw = fw ∧ g.spec.bias = bias ∧ gridVal g.spec g.spec.maxMag = most ∧
      gridVal g.spec (2 ^ fw) = least ∧ gridVal g.spec 1 = tiny

/-- Rounding of a nonzero finite value (R38, R39, R41, R43): to the neighbour that the mode names, among the two between which the
value lies on the unbounded grid; past the largest finite value it overflows as the mode and the format say. NX when the result is
not the value, UF when it is not and the value is tiny before rounding, OF and NX on overflow. -/
def Says.RoundingIsCorrect : Prop :=
  ∀ (g : Fmt) (mode : RMode) (neg : Bool) (m r : Nat) (e : Int), g.isInt = false → r < 2 ^ 32 → 0 < m →
    let f := g.spec
    let x : ℚ := m * 2 ^ e
    let sgn := if neg then 2 ^ (f.ew + f.fw) else 0
    ∃ n k : Nat, gridVal f n ≤ x ∧ x < gridVal f (n + 1) ∧
      let rest := x - gridVal f n
      let away := roundsAway mode neg n r rest (gridVal f (n + 1) - gridVal f n)
      (away → k = n + 1) ∧ (¬ away → k = n) ∧
      (k ≤ f.maxMag → roundFin f mode neg m e r =
        (sgn + k, (if rest ≠ 0 then flNX else 0) ||| (if rest ≠ 0 ∧ x < 2 ^ (1 - (f.bias : ℤ)) then flUF else 0))) ∧
      (f.maxMag < k →
        let toInf := g ∈ withInf ∧ (mode ∈ [RMode.rne, .rna, .sr] ∨ (mode = .rup ∧ neg = false) ∨ (mode = .rdn ∧ neg = true))
        (toInf → g.value (roundFin f mode neg m e r).1 = .inf neg ∧ (roundFin f mode neg m e r).1 < 2 ^ (f.ew + f.fw + 1)) ∧
        (¬ toInf → (roundFin f mode neg m e r).1 = sgn + f.maxMag) ∧ (roundFin f mode neg m e r).2 = flOF ||| flNX)

/-- Conversions (R33, R43): equal formats move the pattern; into a floating-point format an infinity or NaN becomes that of the
format, or what R43 gives where the format has none; into an integer format the value is rounded to an integer and saturated, with
NV on saturation, an infinity or NaN, and NX where the result differs from the value (NX beside NV of an infinity or NaN is not set:
the model's reading, log 26). -/
def Says.ConversionsFollowTheirPair : Prop :=
  (∀ (a b : Fmt) (mode : RMode) (bits r : Nat),
    convert a b mode bits r = if a = b then bits % 2 ^ a.width else (convNum b mode (a.value bits) r).1) ∧
  (∀ (g : Fmt) (mode : RMode) (r : Nat), g.isInt = false →
    let f := g.spec
    convNum g mode .nan r = (if g ∈ [Fmt.e3m2, .e2m3, .e2m1] then (0, flNV) else (nanOf g, 0)) ∧
    ∀ neg, (g ∈ withInf → g.value (convNum g mode (.inf neg) r).1 = .inf neg ∧ (convNum g mode (.inf neg) r).2 = 0 ∧
        (convNum g mode (.inf neg) r).1 < 2 ^ (f.ew + f.fw + 1)) ∧
      (g ∉ withInf → convNum g mode (.inf neg) r = ((if neg then 2 ^ (f.ew + f.fw) else 0) + f.maxMag, flOF ||| flNX)) ∧
      (∀ m e, convNum g mode (.fin neg m e) r = roundFin f mode neg m e r) ∧
      (∀ e, roundFin f mode neg 0 e r = (if neg then 2 ^ (f.ew + f.fw) else 0, 0))) ∧
  (∀ (lo hi : Int) (mode : RMode) (neg : Bool) (m r : Nat) (e : Int), lo ≤ hi → r < 2 ^ 32 →
    let x : ℚ := m * 2 ^ e
    let n := ⌊x⌋₊
    let away := roundsAway mode neg n r (x - n) 1
    ∃ k : Nat, (away → k = n + 1) ∧ (¬ away → k = n) ∧
      let v : Int := if neg then -k else k
      intOf lo hi mode (.fin neg m e) r = (max lo (min hi v),
        if v < lo ∨ hi < v then flNV ||| flNX else if x ≠ n then flNX else 0)) ∧
  (∀ (lo hi : Int) (mode : RMode) (neg : Bool) (r : Nat),
    intOf lo hi mode .nan r = (0, flNV) ∧ intOf lo hi mode (.inf neg) r = (if neg then lo else hi, flNV)) ∧
  ∀ (g : Fmt) (mode : RMode) (x : Sys2Proof.Num) (r : Nat) (lo hi : Int),
    (g, lo, hi) ∈ [(Fmt.i64, -2 ^ 63, 2 ^ 63 - 1), (.i32, -2 ^ 31, 2 ^ 31 - 1), (.i16, -32768, 32767), (.i8, -128, 127), (.ui8, 0, 255),
      (.i4, -8, 7), (.ui4, 0, 15)] →
    (((convNum g mode x r).1 : Int) = (intOf lo hi mode x r).1 % 2 ^ g.width) ∧ (convNum g mode x r).2 = (intOf lo hi mode x r).2

/-- The draw of stochastic rounding (R42): seed, operation and position mixed, then each of the five counters. -/
def Says.DrawsAreFixed : Prop :=
  ∀ (seed : Word32) (j op : Nat) (c : List Nat), j < 2 ^ 16 → op < 2 ^ 8 → (∀ n ∈ c, n < 2 ^ 16) →
    let mix := fun (x : Word32) =>
      let y := (x ^^^ (x >>> 16)) * 0x7FEB352D#32
      let z := (y ^^^ (y >>> 15)) * 0x846CA68B#32
      z ^^^ (z >>> 16)
    let h := mix (mix (seed ^^^ 0x9E3779B9#32) ^^^ (BitVec.ofNat 32 op <<< 16 ||| BitVec.ofNat 32 j))
    let turn := fun (h : Word32) (i : Nat) => mix (h ^^^ (BitVec.ofNat 32 (c.getD i 0) <<< 16 ||| BitVec.ofNat 32 i))
    srDraw seed j op c = (turn (turn (turn (turn (turn h 0) 1) 2) 3) 4).toNat

/-- A number without its fraction. -/
def towardZero (q : ℚ) : Int := if 0 ≤ q then ⌊q⌋ else ⌈q⌉

/-- One floating-point pass into an entry (R46): NaN for a NaN among products and entry, or for infinities of opposite sign; an
infinite sum; nothing where every product is zero or the truncated sum is; else entry and sum of the products, each truncated toward
zero on the grid 96 binades below the largest, rounded once to nearest even. -/
def Says.PassesAreExact : Prop :=
  ∀ (acc : Nat) (ps : List Sys2Proof.Num), acc < 2 ^ 64 →
    let a := Fmt.f64.value acc
    let nan := 0x7FF8000000000000
    let out := passF acc ps
    (Num.nan ∈ ps ∨ (Num.inf true ∈ ps ∧ Num.inf false ∈ ps) ∨ a = .nan → out = nan) ∧
    (∀ neg, a ≠ .nan → Num.nan ∉ ps → Num.inf neg ∈ ps → Num.inf (!neg) ∉ ps →
      (a = .inf (!neg) → out = nan) ∧ (a ≠ .inf (!neg) → out = if neg then 0xFFF0000000000000 else 0x7FF0000000000000)) ∧
    (a ≠ .nan → (∀ p ∈ ps, ∃ s m e, p = .fin s m e) →
      ((∀ p ∈ ps, ratOf p = 0) → out = acc) ∧
      ∀ top : Int, (∃ p ∈ ps, (2 : ℚ) ^ top ≤ |ratOf p|) → (∀ p ∈ ps, |ratOf p| < 2 ^ (top + 1)) →
        let sum := ((ps.map (fun p => towardZero (ratOf p / 2 ^ (top - 96)))).sum : ℚ) * 2 ^ (top - 96)
        (sum = 0 ∨ (∃ neg, a = .inf neg) → out = acc) ∧
        (sum ≠ 0 → ∀ s m e, a = .fin s m e →
          ∃ neg n q, ratOf (.fin neg n q) = ratOf a + sum ∧ (n = 0 → neg = false) ∧
            out = (roundFin Fmt.f64.spec .rne neg n q 0).1))

/-- The products of a floating-point pass (R37, R46): for each k the exact product of activation, weight and their scales, the
scale 255 being NaN; the entry takes them as one pass. -/
def Says.ProductsAreScaled : Prop :=
  ∀ (p : Pass) (accSet : Bool) (old : AccEntry) (n : Nat), p.fmt.isInt = false →
    (p.entry accSet old n).1.v = BitVec.ofNat 64 (passF (if accSet then 0 else old.v.toNat) (p.products n)) ∧
    (p.products n).length = p.a.length ∧
    ∀ k, k < p.a.length →
      let a := p.fmt.value (p.a.getD k (0, false)).1
      let w := p.set.fmt.value (p.set.cell k n).1
      let sa := (p.sa.getD (k / 32) noScale).1 % 256
      let sw := (p.set.scale k n).1 % 256
      let x := (p.products n).getD k .nan
      let zeroInf := (a.isZero = true ∧ w.isInf = true) ∨ (a.isInf = true ∧ w.isZero = true)
      (a = .nan ∨ w = .nan ∨ sa = 255 ∨ sw = 255 ∨ zeroInf → x = .nan) ∧
      (a ≠ .nan → w ≠ .nan → sa ≠ 255 → sw ≠ 255 → ¬ zeroInf →
        (a.isInf = true ∨ w.isInf = true → x = .inf (a.sign != w.sign)) ∧
        (a.isInf = false → w.isInf = false → ∃ s m e, x = .fin s m e ∧
          ratOf x = ratOf a * ratOf w * 2 ^ ((sa : ℤ) - 127) * 2 ^ ((sw : ℤ) - 127)))

/-! ## The vector engine (09, 10) -/

/-- vloop and vrst in the last iteration of their nest (R196, R202, R203): the bundles issue in order, the names rotate by
one, what is in flight lands, and the block ends; vrst sets every vector and predicate register, the rotation bases and FPF
to zero and leaves the k registers. -/
def Says.VectorBlocksEnd : Prop :=
  ∀ (h : Hdr) (ports : BitVec 7) (wins : List Win) (ks : List Word32) (body : List VWord) (b : Active) (s : State),
    let i : Instr := .vloop h ports wins ks body
    let m1 := ((bundles 0 [] body).foldl (Mach.bundle i ⟨i, h, ports, wins, ks⟩ b) (s.m, {})).1
    let m2 := m1.setVec { m1.vec with vrb := (m1.vec.vrb + 31) % 32, prb := (m1.vec.prb + 7) % 8 }
    let m3 := m2.vecSlotEnd i.bound b
    let e : Active := { b with
      inSlot := false, served := [], left := 0, done := b.done + 1, c := nextIter b.c h.counts, cache := [], ahead := none }
    (s.m.AtLastOf i b → b.out = none → m2.curCtx.dying = none → m3.curCtx.dying = none →
      exec i s = .next { s with m := blockDone .stream h (m3.drain i e 16) e }) ∧
    (s.m.AtLastOf (.vrst h) b →
      let clear := s.m.setVec { s.m.vec with v := [], p := [], vrb := 0, prb := 0, fpf := 0 }
      survives (.vrst h) clear b b → exec (.vrst h) s = .next { s with m := closeBlock (.vrst h) clear b b })

/-- Operations that move lanes, predicates and stream registers (R215 to R218, R228, R229): each lane of the result is what the
operation names, with its poison. -/
def Says.LanesMove : Prop :=
  ∀ (e : VEnv) (w : VWord) (a b d : VReg) (pa pb : PReg) (x : XReg) (l : Nat), l < 64 →
    let lane := fun (op : VOp) (v : Word32) (p : Bool) => w.op = op →
      ∃ r, (vecOp e w a b d pa pb x).1 = .vec r ∧ r.lane l = v ∧ r.pois l = p
    let k := (b.lane 0).toNat % 64
    lane .vmov (a.lane l) (a.pois l) ∧ lane .vbcast (a.lane k) (b.pois 0 || a.pois k) ∧
    lane .vperm (a.lane ((b.lane l).toNat % 64)) (b.pois l || a.pois ((b.lane l).toNat % 64)) ∧
    lane .vrotl (a.lane ((l + k) % 64)) (b.pois 0 || a.pois ((l + k) % 64)) ∧
    lane .vsel (if pa.v.getLsbD l then a.lane l else b.lane l)
      (pa.p.getLsbD l || (if pa.v.getLsbD l then a.pois l else b.pois l)) ∧
    lane .vlui (w.imm16 ++ (d.lane l).setWidth 16) (d.pois l) ∧
    lane .vidx (BitVec.ofNat 32 (if w.m = 0 then l else e.c.getD (w.m - 1) 0)) false ∧
    lane .xtov (if w.m = 1 then (x.v >>> 32).setWidth 32 else x.v.setWidth 32) x.p ∧
    lane .pcnt (BitVec.ofNat 32 ((Finset.range 64).filter (fun i => pa.v.getLsbD i = true)).card) (decide (pa.p ≠ 0)) ∧
    (w.op = .pand → (vecOp e w a b d pa pb x).1 = .pred ⟨pa.v &&& pb.v, pa.p ||| pb.p⟩) ∧
    (w.op = .por → (vecOp e w a b d pa pb x).1 = .pred ⟨pa.v ||| pb.v, pa.p ||| pb.p⟩) ∧
    (w.op = .pxor → (vecOp e w a b d pa pb x).1 = .pred ⟨pa.v ^^^ pb.v, pa.p ||| pb.p⟩) ∧
    (w.op = .pnot → (vecOp e w a b d pa pb x).1 = .pred ⟨~~~pa.v, pa.p⟩) ∧
    (w.op = .pmov → (vecOp e w a b d pa pb x).1 = .pred pa) ∧
    (w.op = .pset → ∃ r, (vecOp e w a b d pa pb x).1 = .pred r ∧ r.v.getLsbD l = decide (a.lane l ≠ 0) ∧ r.p = a.p) ∧
    (w.op = .vtox → (vecOp e w a b d pa pb x).1 =
      .xreg ⟨if w.ty = .i32 then (a.lane 0).signExtend 64 else (a.lane 0).setWidth 64, a.pois 0⟩)

/-- A sum formed exactly and rounded once into a floating-point type (R40, R210, R219): the canonical NaN for a NaN, and with NV for
infinities of opposite sign; an infinity; else the exact sum rounded. A zero sum is -0 where every term is -0, +0 where every term
is +0, and otherwise +0, or -0 under RDN. A NaN goes before a clash of infinities (for vredsum and vscan the model's choice,
log 93). -/
def sumRounds (f : Fmt) (mode : RMode) (r : Nat) (ns : List Sys2Proof.Num) (out : Nat × BitVec 5) : Prop :=
  if Num.nan ∈ ns then out = (nanOf f, 0)
  else if Num.inf true ∈ ns ∧ Num.inf false ∈ ns then out = (nanOf f, flNV)
  else if Num.inf true ∈ ns ∨ Num.inf false ∈ ns then
    f.value out.1 = .inf (decide (Num.inf true ∈ ns)) ∧ out.1 < 2 ^ f.width ∧ out.2 = 0
  else ∃ neg m e, ratOf (.fin neg m e) = (ns.map ratOf).sum ∧
    (m = 0 → (neg = true ↔ (∀ x ∈ ns, x.sign = true ∧ ratOf x = 0) ∨
      (mode = .rdn ∧ ¬ ∀ x ∈ ns, x.sign = false ∧ ratOf x = 0))) ∧
    out = roundFin f.spec mode neg m e r

/-- The factors and the term beside them of each float operation (R209), a difference as the sum with the opposite. -/
def factors (o : VOp) (x y z : Sys2Proof.Num) : Option (Sys2Proof.Num × Sys2Proof.Num × List Sys2Proof.Num) :=
  let one : Sys2Proof.Num := .fin false 1 0
  match o with
  | .vadd => some (x, one, [y])
  | .vsub => some (x, one, [y.neg])
  | .vmul => some (x, y, [])
  | .vfma => some (x, y, [z])
  | .vfms => some (x, y, [z.neg])
  | .vfnma => some (x.neg, y, [z])
  | .vmad => some (x, z, [y])
  | _ => none

/-- The exact product of two values that are not NaN and not zero times infinity, with the sign of R40. -/
def isProduct (u v p : Sys2Proof.Num) : Prop :=
  p.sign = (u.sign != v.sign) ∧ (u.isInf = true ∨ v.isInf = true → p.isInf = true) ∧
  (u.isInf = false → v.isInf = false → (∃ s m e, p = .fin s m e) ∧ ratOf p = ratOf u * ratOf v)

/-- Whether a value lies below another; -0 is not below +0 here. -/
def below : Sys2Proof.Num → Sys2Proof.Num → Prop
  | .nan, _ => False
  | .inf _, .nan | .fin _ _ _, .nan => False
  | .inf s, .inf t => s = true ∧ t = false
  | .inf s, .fin _ _ _ => s = true
  | .fin _ _ _, .inf t => t = false
  | .fin s m e, .fin t n f => ratOf (.fin s m e) < ratOf (.fin t n f)

/-- Float arithmetic of one element (R40, R209, R210): products and sums exact, rounded once; 0 times infinity gives the canonical
NaN with NV; minimum and maximum return an operand, -0 below +0; vabs, vneg and vcpsgn set the sign bit alone; vclass one class bit
(R213); vscale multiplies by 2^(scale - 127) (R225). -/
def Says.FloatElementsRoundOnce : Prop :=
  ∀ (e : VEnv) (w : VWord) (j a b d : Nat), w.ty.isFloat = true → a < 2 ^ w.ty.w → b < 2 ^ w.ty.w →
    let t := w.ty
    let f := t.fmt
    let x := f.value a
    let y := f.value b
    let out := elemOp e w j a b d
    (∀ u v c, factors w.op x y (f.value d) = some (u, v, c) →
      (Num.nan ∈ u :: v :: c → out = (nanOf f, 0)) ∧
      (Num.nan ∉ u :: v :: c →
        ((u.isInf = true ∧ v.isZero = true) ∨ (u.isZero = true ∧ v.isInf = true) → out = (nanOf f, flNV)) ∧
        (¬ ((u.isInf = true ∧ v.isZero = true) ∨ (u.isZero = true ∧ v.isInf = true)) →
          ∃ p, isProduct u v p ∧ sumRounds f (e.mode w.m) (e.draw j) (p :: c) out))) ∧
    (w.op = .vmin ∨ w.op = .vmax → (x = .nan ∨ y = .nan → out = (nanOf f, 0)) ∧
      (x ≠ .nan → y ≠ .nan → ∃ k, out = (k, 0) ∧ (k = a ∨ k = b) ∧
        ∀ o ∈ [a, b],
          let lo := if w.op = .vmin then f.value o else f.value k
          let hi := if w.op = .vmin then f.value k else f.value o
          ¬ below lo hi ∧ ¬ (lo.isZero = true ∧ hi.isZero = true ∧ lo.sign = true ∧ hi.sign = false))) ∧
    (w.op = .vabs ∨ w.op = .vneg ∨ w.op = .vcpsgn → (x = .nan → out = (nanOf f, 0)) ∧
      (x ≠ .nan → ∃ k, out = (k, 0) ∧ k < 2 ^ t.w ∧ (∀ i, i + 1 < t.w → k.testBit i = a.testBit i) ∧
        k.testBit (t.w - 1) = if w.op = .vabs then false else if w.op = .vneg then !a.testBit (t.w - 1) else b.testBit (t.w - 1))) ∧
    (w.op = .vclass → out.2 = 0 ∧ match x with
      | .nan => out.1 = 1
      | .inf neg => out.1 = if neg then 2 else 256
      | .fin neg _ _ =>
        (ratOf x = 0 → out.1 = if neg then 16 else 32) ∧
        (ratOf x ≠ 0 → |ratOf x| < 2 ^ (1 - (f.spec.bias : ℤ)) → out.1 = if neg then 8 else 64) ∧
        (2 ^ (1 - (f.spec.bias : ℤ)) ≤ |ratOf x| → out.1 = if neg then 4 else 128)) ∧
    (∀ scale r, scale < 256 → let q := scaleOp t (e.mode w.m) a scale r
      (scale = 255 → q = (nanOf f, flNV)) ∧ (scale ≠ 255 → ∃ p, sumRounds f (e.mode w.m) r [p] q ∧
        (x = .nan ↔ p = .nan) ∧ (x ≠ .nan → isProduct x (.fin false 1 ((scale : ℤ) - 127)) p)))

/-- An integer element as its type reads it, and the least and greatest value of the type (R206). -/
def elemInt (t : VTy) (k : Nat) : Int := if t = .ui32 ∨ k < 2 ^ (t.w - 1) then k else (k : Int) - 2 ^ t.w
def elemMin (t : VTy) : Int := if t = .ui32 then 0 else -2 ^ (t.w - 1)
def elemMax (t : VTy) : Int := if t = .ui32 then 2 ^ 32 - 1 else 2 ^ (t.w - 1) - 1

/-- An exact integer by the overflow code (R208): clamped to the type, or the value of the type that differs by a multiple of 2^w. -/
def overflows (t : VTy) (sat : Bool) (exact : Int) (k : Nat) : Prop :=
  k < 2 ^ t.w ∧ (sat = true → elemInt t k = max (elemMin t) (min (elemMax t) exact)) ∧
  (sat = false → (2 ^ t.w : Int) ∣ elemInt t k - exact)

/-- Integer arithmetic, logic, shifts and counts of one element (R208, R209, R211, R214); none sets a flag. -/
def Says.IntegerElementsAreExact : Prop :=
  ∀ (e : VEnv) (w : VWord) (j a b d : Nat), w.ty.isFloat = false → a < 2 ^ w.ty.w → b < 2 ^ w.ty.w → d < 2 ^ w.ty.w →
    let t := w.ty
    let x := elemInt t a
    let y := elemInt t b
    let n := b % t.w
    let out := (elemOp e w j a b d).1
    let bits := fun (f : Nat → Bool) => out < 2 ^ t.w ∧ ∀ i, i < t.w → out.testBit i = f i
    (w.op ≠ .vcvt → w.op ∉ [VOp.vexp2, .vlog2, .vrcp, .vrsqrt, .vsqrt, .vsinpi, .vcospi, .vtanh] →
      w.op ∉ [VOp.vfma, .vfms, .vfnma, .vcpsgn, .vclass] → (elemOp e w j a b d).2 = 0) ∧
    (t ≠ .special → ∀ exact,
      (w.op, exact) ∈ [(VOp.vadd, x + y), (.vsub, x - y), (.vmul, x * y), (.vmad, x * elemInt t d + y), (.vabs, |x|), (.vneg, -x)] →
      overflows t (w.m = 1) exact out) ∧
    (t ≠ .special → w.op = .vmulh → out < 2 ^ t.w ∧ elemInt t out = x * y / 2 ^ t.w) ∧
    (t ≠ .special → w.op = .vmin → (out = a ∨ out = b) ∧ elemInt t out = min x y) ∧
    (t ≠ .special → w.op = .vmax → (out = a ∨ out = b) ∧ elemInt t out = max x y) ∧
    (w.op = .vand → bits (fun i => a.testBit i && b.testBit i)) ∧ (w.op = .vor → bits (fun i => a.testBit i || b.testBit i)) ∧
    (w.op = .vxor → bits (fun i => a.testBit i != b.testBit i)) ∧ (w.op = .vandn → bits (fun i => a.testBit i && !b.testBit i)) ∧
    (w.op = .vnot → bits (fun i => !a.testBit i)) ∧ (w.op = .vshl → bits (fun i => n ≤ i && a.testBit (i - n))) ∧
    (w.op = .vshr → bits (fun i => a.testBit (i + n))) ∧ (w.op = .vsra → bits (fun i => a.testBit (min (i + n) (t.w - 1)))) ∧
    (w.op = .vrot → bits (fun i => a.testBit ((i + t.w - n) % t.w))) ∧
    (w.op = .vpopc → out = ((Finset.range t.w).filter (fun i => a.testBit i = true)).card) ∧
    (w.op = .vclz → out ≤ t.w ∧ a < 2 ^ (t.w - out) ∧ (0 < a → 2 ^ (t.w - out - 1) ≤ a))

/-- vcvt of one element (R221): to a float type the value rounded; to an integer type rounded and saturated, with the flags of R43
from a float and none from an integer. -/
def Says.VectorConversions : Prop :=
  ∀ (e : VEnv) (w : VWord) (j a b d : Nat), w.op = .vcvt →
    let src := VTy.ofCode (w.b % 8)
    let x : Sys2Proof.Num := if src.isFloat then src.fmt.value a else .fin (decide (src.int a < 0)) (src.int a).natAbs 0
    (w.ty.isFloat = true → elemOp e w j a b d = convNum w.ty.fmt (e.mode w.m) x (e.draw j)) ∧
    (w.ty.isFloat = false →
      let v := intOf (elemMin w.ty) (elemMax w.ty) (e.mode w.m) x (e.draw j)
      ((elemOp e w j a b d).1 : Int) = v.1 % 2 ^ w.ty.w ∧ (elemOp e w j a b d).2 = if src.isFloat then v.2 else 0)

/-- Two values alike, the sign of a zero included. -/
def sameValue (x y : Sys2Proof.Num) : Prop := x.isNan = y.isNan ∧ x.isInf = y.isInf ∧ x.sign = y.sign ∧ ratOf x = ratOf y

/-- The three terms of an f32 value (R45): successive truncations to BF16, each difference exact. -/
def threeTerms (x : Sys2Proof.Num) (t : Nat → Nat) : Prop :=
  let v := fun i => Fmt.bf16.value (t i)
  (x = .nan → t 0 = nanOf .bf16 ∧ t 1 = 0 ∧ t 2 = 0) ∧
  (∀ s, x = .inf s → t 0 = (if s then 0xFF80 else 0x7F80) ∧ t 1 = 0 ∧ t 2 = 0) ∧
  (∀ s m e, x = .fin s m e → ratOf x = 0 → ∀ i, i < 3 → t i = if s then 0x8000 else 0) ∧
  (∀ s m e, x = .fin s m e → ratOf x ≠ 0 → ∃ g0 g1 g2, sumRounds .bf16 .rtz 0 [x] (t 0, g0) ∧
    sumRounds .bf16 .rtz 0 [x, (v 0).neg] (t 1, g1) ∧ sumRounds .bf16 .rtz 0 [x, (v 0).neg, (v 1).neg] (t 2, g2))

/-- vmovi, vpack, vunpk and vsplit3 (R45, R216, R222 to R224): an immediate in every lane; two sources narrowed into one lane, floats
rounded, integers saturated; half a lane widened exactly; a term of the decomposition. -/
def Says.LanesAreConverted : Prop :=
  ∀ (e : VEnv) (w : VWord) (a b d : VReg) (pa pb : PReg) (x : XReg),
    let t := w.ty
    let gives := fun (r : VReg) (fl : BitVec 5) => vecOp e w a b d pa pb x = (.vec r, fl)
    let f32 := fun (r : VReg) (l : Nat) => Fmt.f32.value (r.lane l).toNat
    (w.op = .vmovi → ∃ r, gives r 0 ∧ ∀ l, l < 64 →
      (t = .f32 → (r.lane l).toNat = w.imm16.toNat * 2 ^ 16) ∧
      (t ∈ [VTy.bf16, .f16, .i16] → ∀ s, s < 2 → t.elem (r.lane l) s = w.imm16.toNat) ∧
      (t = .i32 → (r.lane l).toInt = w.imm16.toInt) ∧ (t = .ui32 → (r.lane l).toNat = w.imm16.toNat) ∧
      (t = .i8 → ∀ s, s < 4 → t.elem (r.lane l) s = w.imm16.toNat % 256)) ∧
    (w.op = .vpack → t ∈ [VTy.bf16, .f16] → ∃ r fl, gives r fl ∧
      let q := fun (l s : Nat) => convNum t.fmt (e.mode w.m) (f32 (if s = 0 then a else b) l) (e.draw (4 * l + s))
      (∀ l s, l < 64 → s < 2 → t.elem (r.lane l) s = (q l s).1 % 2 ^ 16) ∧
      ∀ i, fl.getLsbD i = true ↔ ∃ l s, l < 64 ∧ s < 2 ∧ (q l s).2.getLsbD i = true) ∧
    (w.op = .vpack → t = .i16 → ∃ r, gives r 0 ∧ ∀ l s, l < 64 → s < 2 →
      let v := ((if s = 0 then a else b).lane l).toInt
      let k := t.elem (r.lane l) s
      (w.m = 1 → (k : Int) = max 0 (min 65535 v)) ∧ (w.m ≠ 1 → elemInt t k = max (-32768) (min 32767 v))) ∧
    (w.op = .vpack → t = .i8 → ∃ r, gives r 0 ∧ ∀ l s, l < 64 → s < 4 →
      let v := elemInt .i16 (VTy.i16.elem ((if s < 2 then a else b).lane l) (s % 2))
      let k := t.elem (r.lane l) s
      (w.m = 1 → (k : Int) = max 0 (min 255 v)) ∧ (w.m ≠ 1 → elemInt t k = max (-128) (min 127 v))) ∧
    (w.op = .vunpk → ∃ r, gives r 0 ∧ ∀ l s, l < 64 → s < t.m →
      let n := t.w / 2
      let v := (a.lane l).toNat / 2 ^ (n * (t.m * (w.m % 2) + s)) % 2 ^ n
      let k := t.elem (r.lane l) s
      let kind := w.m / 2 % 2
      let widens := fun (src : Fmt) => (src.value v = .nan → k = nanOf t.fmt) ∧
        (src.value v ≠ .nan → sameValue (t.fmt.value k) (src.value v))
      (t = .f32 → widens (if kind = 0 then .bf16 else .f16)) ∧
      (t ∈ [VTy.bf16, .f16] → widens (if kind = 0 then .e4m3 else .e5m2)) ∧
      (t ∈ [VTy.i32, .i16, .i8] → elemInt t k = if kind = 0 ∧ 2 ^ (n - 1) ≤ v then (v : Int) - 2 ^ n else v)) ∧
    (w.op = .vsplit3 → w.m < 3 → ∃ r, gives r 0 ∧ ∀ l, l < 64 → ∃ u v : Nat → Nat,
      threeTerms (f32 a l) u ∧ threeTerms (f32 b l) v ∧ u w.m < 2 ^ 16 ∧ v w.m < 2 ^ 16 ∧
      (t = .f32 → (r.lane l).toNat = u w.m * 2 ^ 16) ∧ (t = .bf16 → (r.lane l).toNat = u w.m + v w.m * 2 ^ 16))

/-- vmxq (R226): a block of 32 lanes with a NaN or an infinity gives code 255 or NaNs, and NV; any other the exponent of its
greatest magnitude less emax, at least -127, and each value divided by that power of two, rounded into the format, a value above its
largest finite taken as that; NX and UF as the rounding sets them, and OF never. -/
def Says.BlocksAreQuantised : Prop :=
  ∀ (e : VEnv) (w : VWord) (a b d : VReg) (pa pb : PReg) (x : XReg) (g : Fmt) (emax : Int), w.op = .vmxq →
    (g, emax) ∈ [(Fmt.e5m2, 15), (.e4m3, 8), (.e3m2, 4), (.e2m3, 2), (.e2m1, 2)] → w.m = g.code →
    let v := fun l => Fmt.f32.value (a.lane l).toNat
    let bad := fun l => ∃ i, i < 32 ∧ ((v (l / 32 * 32 + i)).isNan = true ∨ (v (l / 32 * 32 + i)).isInf = true)
    ∃ (r : VReg) (fl : BitVec 5) (gl : Nat → BitVec 5), vecOp e w a b d pa pb x = (.vec r, fl) ∧
      (∀ i, fl.getLsbD i = true ↔ ∃ l, l < 64 ∧ (gl l).getLsbD i = true) ∧
      ∀ l, l < 64 →
        (bad l → gl l = flNV ∧ (r.lane l).toNat = if w.ty = .f32 then nanOf .f32 else 255) ∧
        (¬ bad l → ∃ k : Int,
          ((∀ i, i < 32 → ratOf (v (l / 32 * 32 + i)) = 0) → k = -127) ∧
          (∀ top : Int, (∃ i, i < 32 ∧ (2 : ℚ) ^ top ≤ |ratOf (v (l / 32 * 32 + i))|) →
            (∀ i, i < 32 → |ratOf (v (l / 32 * 32 + i))| < 2 ^ (top + 1)) → k = max (-127) (top - emax)) ∧
          (w.ty ≠ .f32 → ((r.lane l).toNat : Int) = k + 127) ∧
          (w.ty = .f32 → ∃ p q fq, isProduct (v l) (.fin false 1 (-k)) p ∧ sumRounds g e.rm (e.draw (4 * l)) [p] (q, fq) ∧
            gl l = fq &&& ~~~flOF ∧
            let mag := 2 ^ (g.spec.ew + g.spec.fw)
            sameValue (Fmt.f32.value (r.lane l).toNat) (g.value (if g.spec.maxMag < q % mag then q - q % mag + g.spec.maxMag else q))))

/-- The special functions at the operands of R227's table, and at the integers, halves and one that it names. -/
def Says.SpecialValues : Prop :=
  let inf := fun (s : Bool) => if s then 0xFF800000 else 0x7F800000
  let one := 0x3F800000
  let nan := 0x7FC00000
  let f := Fmt.f32.value
  (∀ o a, a < 2 ^ 32 → f a = .nan → specialOp o a = (nan, 0)) ∧
  (∀ s,
    let null := if s then 0x80000000 else 0
    specialOp .vexp2 null = (one, 0) ∧ specialOp .vexp2 (inf s) = (if s then 0 else inf false, 0) ∧
    specialOp .vlog2 null = (inf true, flDZ) ∧ specialOp .vlog2 (inf s) = (if s then (nan, flNV) else (inf false, 0)) ∧
    specialOp .vrcp null = (inf s, flDZ) ∧ specialOp .vrcp (inf s) = (null, 0) ∧
    specialOp .vrsqrt null = (inf s, flDZ) ∧ specialOp .vrsqrt (inf s) = (if s then (nan, flNV) else (0, 0)) ∧
    specialOp .vsqrt null = (null, 0) ∧ specialOp .vsqrt (inf s) = (if s then (nan, flNV) else (inf false, 0)) ∧
    specialOp .vsinpi null = (null, 0) ∧ specialOp .vsinpi (inf s) = (nan, flNV) ∧
    specialOp .vcospi null = (one, 0) ∧ specialOp .vcospi (inf s) = (nan, flNV) ∧
    specialOp .vtanh null = (null, 0) ∧ specialOp .vtanh (inf s) = (if s then 0xBF800000 else one, 0)) ∧
  (∀ o ∈ [VOp.vlog2, .vrsqrt, .vsqrt], ∀ a m e, f a = .fin true m e → 0 < m → specialOp o a = (nan, flNV)) ∧
  (∀ a s m e, a < 2 ^ 32 → f a = .fin s m e → (∃ n : ℤ, ratOf (f a) = n) →
    specialOp .vsinpi a = (if s then 0x80000000 else 0, 0)) ∧
  (∀ a s m e, a < 2 ^ 32 → f a = .fin s m e → (∃ n : ℤ, ratOf (f a) = n + 1 / 2) → specialOp .vcospi a = (0, 0)) ∧
  specialOp .vlog2 one = (0, 0)

/-- Operations on one element each (R205 to R209, R374): element s of lane l of the result is that of the operands' elements, at
position 4 l + s; a flag is set exactly where some element sets it, and a lane is poisoned where one that it reads is. What
lands only adds flags to FPF (R44). -/
def Says.ElementsAreComputedAlone : Prop :=
  (∀ (e : VEnv) (w : VWord) (a b d : VReg) (pa pb : PReg) (x : XReg),
    w.op ∈ [VOp.vadd, .vsub, .vmul, .vfma, .vfms, .vfnma, .vmad, .vmin, .vmax, .vabs, .vneg, .vcpsgn, .vmulh, .vclass, .vand, .vor,
      .vxor, .vandn, .vnot, .vshl, .vshr, .vsra, .vrot, .vpopc, .vclz, .vcvt, .vexp2, .vlog2, .vrcp, .vrsqrt, .vsqrt, .vsinpi,
      .vcospi, .vtanh] →
    let t := w.ty
    let el := fun (l s : Nat) => elemOp e w (l * 4 + s) (t.elem (a.lane l) s) (t.elem (b.lane l) s) (t.elem (d.lane l) s)
    ∃ r, (vecOp e w a b d pa pb x).1 = .vec r ∧
      (∀ l s, l < 64 → s < t.m → t.elem (r.lane l) s = (el l s).1 % 2 ^ t.w) ∧
      (∀ l, l < 64 → r.pois l = lanePois w a b d l) ∧
      (∀ i, (vecOp e w a b d pa pb x).2.getLsbD i = true ↔ ∃ l s, l < 64 ∧ s < t.m ∧ (el l s).2.getLsbD i = true)) ∧
  ∀ (v : VecEng) (fl : BitVec 5) (i : Nat),
    ((v.raiseFlags fl).fpf.getLsbD i = (v.fpf.getLsbD i || fl.getLsbD i)) ∧ { v.raiseFlags fl with fpf := v.fpf } = v

/-- Reductions and the scan (R219, R220): sums of all elements, or of elements 0 to e, formed exactly and rounded once at each
element's own position, with the flags of all; vredmax and vredmin give every element the greatest or the least; vargmax the
position of the largest, NaN below every number, the first of equals. -/
def Says.ReductionsAreExact : Prop :=
  ∀ (e : VEnv) (w : VWord) (a b d : VReg) (pa pb : PReg) (x : XReg), w.ty ≠ .special →
    let t := w.ty
    let xs := (List.range (64 * t.m)).map (fun k => t.elem (a.lane (k / t.m)) (k % t.m))
    let vals := xs.map (fun k => if t.isFloat then t.fmt.value k else .fin (decide (elemInt t k < 0)) (elemInt t k).natAbs 0)
    let fl := (vecOp e w a b d pa pb x).2
    (w.op = .vredsum ∨ w.op = .vscan →
      ∃ (r : VReg) (g : Nat → BitVec 5), (vecOp e w a b d pa pb x).1 = .vec r ∧
        (∀ i, fl.getLsbD i = true ↔ ∃ k, k < 64 * t.m ∧ (g k).getLsbD i = true) ∧
        ∀ k, k < 64 * t.m →
          let out := t.elem (r.lane (k / t.m)) (k % t.m)
          let terms := if w.op = .vredsum then 64 * t.m else k + 1
          (t.isFloat = true →
            sumRounds t.fmt (e.mode w.m) (e.draw (k / t.m * 4 + k % t.m)) (vals.take terms) (out, g k)) ∧
          (t.isFloat = false → g k = 0 ∧ overflows t (w.m = 1) (((xs.take terms).map (elemInt t)).sum) out)) ∧
    (w.op = .vredmax ∨ w.op = .vredmin →
      ∃ r v, (vecOp e w a b d pa pb x).1 = .vec r ∧ fl = 0 ∧
        (∀ k, k < 64 * t.m → t.elem (r.lane (k / t.m)) (k % t.m) = v) ∧
        (t.isFloat = true → Num.nan ∈ vals → v = nanOf t.fmt) ∧
        (t.isFloat = false ∨ Num.nan ∉ vals → v ∈ xs ∧ ∀ o ∈ xs,
          let lo := if w.op = .vredmin then t.num o else t.num v
          let hi := if w.op = .vredmin then t.num v else t.num o
          ¬ below lo hi ∧ ¬ (t.isFloat = true ∧ lo.isZero = true ∧ hi.isZero = true ∧ lo.sign = true ∧ hi.sign = false))) ∧
    (w.op = .vargmax →
      ∃ r k, (vecOp e w a b d pa pb x).1 = .vec r ∧ fl = 0 ∧ k < 64 * t.m ∧ (∀ l, l < 64 → r.lane l = BitVec.ofNat 32 k) ∧
        let best := vals.getD k .nan
        (∀ o ∈ vals, o ≠ .nan → best ≠ .nan ∧ ¬ below best o) ∧
        (∀ i, i < k → ¬ (vals.getD i .nan ≠ .nan ∧ ¬ below (vals.getD i .nan) best)) ∧ ((∀ o ∈ vals, o = .nan) → k = 0))

/-- vcmp (R212): bit l holds where the condition holds for every element of the lane, with M from 8 for any; NV is set where an
ordering condition meets a NaN. -/
def Says.ComparesWriteTheirPredicate : Prop :=
  ∀ (e : VEnv) (w : VWord) (a b d : VReg) (pa pb : PReg) (x : XReg), w.op = .vcmp → w.m < 16 → w.ty ≠ .special →
    let t := w.ty
    let u := fun (l s : Nat) => t.num (t.elem (a.lane l) s)
    let v := fun (l s : Nat) => t.num (t.elem (b.lane l) s)
    let un := fun (l s : Nat) => u l s = .nan ∨ v l s = .nan
    let same := fun (l s : Nat) => ¬ un l s ∧ ¬ below (u l s) (v l s) ∧ ¬ below (v l s) (u l s)
    let holds := fun (l s : Nat) => match w.m % 8 with
      | 0 => same l s
      | 1 => ¬ same l s
      | 2 => below (u l s) (v l s)
      | 3 => below (u l s) (v l s) ∨ same l s
      | 4 => below (v l s) (u l s)
      | 5 => below (v l s) (u l s) ∨ same l s
      | 6 => ¬ un l s
      | _ => un l s
    ∃ r, (vecOp e w a b d pa pb x).1 = .pred r ∧
      (∀ l, l < 64 → (r.v.getLsbD l = true ↔
        if w.m < 8 then ∀ s, s < t.m → holds l s else ∃ s, s < t.m ∧ holds l s)) ∧
      (∀ l, l < 64 → r.p.getLsbD l = (a.pois l || b.pois l)) ∧
      ((∃ l s, l < 64 ∧ s < t.m ∧ un l s ∧ 2 ≤ w.m % 8 ∧ w.m % 8 ≤ 5) → (vecOp e w a b d pa pb x).2 = flNV) ∧
      ((¬ ∃ l s, l < 64 ∧ s < t.m ∧ un l s ∧ 2 ≤ w.m % 8 ∧ w.m % 8 ≤ 5) → (vecOp e w a b d pa pb x).2 = 0)

/-! ## Tasks and jobs (03, 14) -/

/-- Every context but one is as it was. -/
def ctxsBut (m m' : Mach) (n : Nat) (c : Bool) : Prop := ∀ k x, ¬ (k = n ∧ x = c) → m'.ctx k x = m.ctx k x

/-- STREAM_START (R65, R67): the stream of a loaded task runs at its entry, with the forme's values in its x registers, an
empty return store and its engine's own registers at their initial values; nothing else changes. -/
def Says.StreamsStartAtTheirEntry : Prop :=
  ∀ (a : Agent) (s : State), s.m.Canon →
    let c := s.m.ctx a.tile a.ctx
    let st := c.stream a.eng
    a.tile < 512 → s.m.clocked a.tile = true → c.loaded = true → c.dying = none → c.stopping = false →
    (∀ j, s.m.job? c.job = some j → j.st = .running ∧ j.reviving = false) → st.mode = .off →
    at' none (s.m.tile a.tile).runs a.eng.code = none → s.m.olderFirst a = false →
    ∃ t n, exec (.streamStart a) s = .next t ∧ n = t.m.streamOf a ∧ n.mode = .run ∧ n.pc = st.entry ∧
      (∀ i, at' XReg.blank n.x i = ⟨at' 0 st.x0 i, false⟩) ∧ n.rs = [] ∧ n.last = none ∧
      at' none (t.m.tile a.tile).runs a.eng.code = some a.ctx ∧
      (a.eng = .me → (t.m.tile a.tile).mat = {}) ∧ (a.eng = .ve → (t.m.tile a.tile).vec = {}) ∧
      t.m.ctx a.tile a.ctx = c.setStream a.eng n ∧ ctxsBut s.m t.m a.tile a.ctx ∧ sameBytes s.m t.m ∧ machOnly s t

/-- TASK_RETIRE (R79, R80, R414): four tails and a drained tracker free the context and its engines, the job's entry is
retired, and ME_SAT goes to the job. What then comes into force for want of tasks is SETTLE's. -/
def Says.TasksRetire : Prop :=
  ∀ (tile : Nat) (ctx : Bool) (s : State), s.m.Canon →
    let c := s.m.ctx tile ctx
    c.loaded = true → c.dying = none → (∀ e, (c.stream e).mode = .tail) → (∀ n ∈ c.tracker, n = 0) →
    ∃ m1 : Mach, exec (.taskRetire tile ctx) s = .next { s with m := m1.settle } ∧ m1.ctx tile ctx = idleCtx c.killed s.m.gtc ∧
      ctxsBut s.m m1 tile ctx ∧ (∀ e : Engine, at' none (m1.tile tile).runs e.code ≠ some ctx) ∧
      (∀ j, s.m.job? c.job = some j → c.fidx < j.formes.length → ∃ j', m1.job? c.job = some j' ∧
        (j'.formes.getD c.fidx {}).st = .retired ∧ j'.sat = (j.sat || c.sat))

/-- What comes into force when units are idle (R247, R248, R276, R295) leaves every context, job and tile as it is. -/
def Says.SettlingLeavesTasksAlone : Prop :=
  ∀ (m : Mach), m.settle.ctxs = m.ctxs ∧ m.settle.hub.jobs = m.hub.jobs ∧ m.settle.tiles = m.tiles

/-- RLIMIT (R190, R390): an open stream whose count has reached LIMIT has its task killed, with the offset of the stream's
opening and LIMIT in the record; below LIMIT nothing happens. -/
def Says.OpenStreamsAreBounded : Prop :=
  ∀ (tile : Nat) (ctx : Bool) (s : State), s.m.Canon →
    let x := (s.m.tile tile).mat
    let c := s.m.ctx tile ctx
    at' none (s.m.tile tile).runs 1 = some ctx →
    (x.count < x.limit → exec (.rlimit tile) s = .next s) ∧
    (x.isOpen = true → x.limit ≤ x.count → c.loaded = true → c.dying = none → c.me.mode ≠ .tail →
      ∃ t e, exec (.rlimit tile) s = .next t ∧
        t.m.ctx tile ctx = { c with dying := some e, waitq := [], stopping := false } ∧
        e.status = Cause.rlimit.code ∧ e.id = c.party ∧ e.detail.toNat % 2 ^ 25 = x.limit % 2 ^ 25 ∧
        e.detail.toNat / 2 ^ 32 = x.openOff % 2 ^ 32 ∧ ctxsBut s.m t.m tile ctx ∧ sameBytes s.m t.m ∧ machOnly s t)

/-- What loading forme entry `i` of job `j`, whose bytes are `bs`, into context `c` of tile `n` leaves (R57 to R66): the
context holds the task as the forme gives it, the entry is loaded, the scratchpad and accumulators are kept for the same
job and zero for another, and no other context or byte changes. -/
def formeLoaded (s t : State) (n : Nat) (c : Bool) (j : Job) (i : Nat) (bs : List Byte) : Prop :=
  let x := t.m.ctx n c
  x.loaded = true ∧ x.dying = none ∧ x.party = s.m.hub.chip * 2048 + n * 4 ∧ x.job = j.id ∧ x.fidx = i ∧
  (∀ k, k < 64 → x.sem k = fieldAt bs (0x100 + 2 * k) 2) ∧ (∀ k, x.rsv k = 0) ∧
  (∀ k, k < 8 → at' Range.blank x.maps k =
    ⟨BitVec.ofNat 64 (fieldAt bs (0x280 + 16 * k) 8), BitVec.ofNat 64 (fieldAt bs (0x288 + 16 * k) 8)⟩) ∧
  (∀ k, k < 32 → (at' Buf.blank x.bufs k).raw = BitVec.ofNat 64 (fieldAt bs (0x180 + 8 * k) 8)) ∧
  (∀ e : Engine,
    let st := x.stream e
    st.mode = (if fieldAt bs 2 1 / 2 ^ e.code % 2 = 1 then .off else .tail) ∧
    st.code = BitVec.ofNat 64 (fieldAt bs (0x40 + 48 * e.code) 8) ∧ st.clen = fieldAt bs (0x48 + 48 * e.code) 4 ∧
    st.entry = fieldAt bs (0x4C + 48 * e.code) 4) ∧
  (∃ j', t.m.job? j.id = some j' ∧ (j'.formes.getD i {}).st = .loaded) ∧
  ((s.m.tile n).owner = j.id → sameBytes s.m t.m ∧ t.m.acc = s.m.acc) ∧
  ((s.m.tile n).owner ≠ j.id → (∀ o, o < 2 ^ 20 → rdByte t.m (tsKey n o) = ⟨0, false⟩) ∧
    (∀ k, (k < tsKey n 0 ∨ tsKey n 0 + 2 ^ 20 ≤ k) → rdByte t.m k = rdByte s.m k) ∧
    (∀ k, k < 32768 → t.m.accE n k = AccEntry.blank)) ∧
  ctxsBut s.m t.m n c ∧ machOnly s t

/-- LOAD_FORME (R52, R66, R81): the first forme of a placed job whose grants are all performed; or, on a tile without one,
the next forme of a running job's sequence there. -/
def Obligations.FormesLoad : Prop :=
  ∀ (n i : Nat) (j : Job) (bs : List Byte) (s : State), s.m.Canon → n < 512 →
    let first := s.m.hub.jobs.find? (fun j => j.st = .placed && j.grants.isEmpty
      && !(s.m.hub.requests.any (fun r => r.job = some j.id)) && j.reserves.contains n)
    s.m.hubRead (j.formes.getD i {}).forme.toNat 1024 i = .ok bs →
    (first = some j → (s.m.ctx n false).loaded = false →
      j.formes.findIdx? (fun f => f.tile = n && f.st = .reserved) = some i →
      ∃ t, exec (.loadForme n) s = .next t ∧ formeLoaded s t n false j i bs) ∧
    (∀ c, first = none →
      s.m.hub.jobs.findSome? (fun j => if j.st = .running then (s.m.successor j n).map (fun s => (j, s)) else none) =
        some (j, i, c) →
      ∃ t, exec (.loadForme n) s = .next t ∧ formeLoaded s t n c j i bs)

/-- PLACE_JOB (R52, R54, R304 to R306) for the head of the ranking, no other job being placed: a job that fits takes tiles
that were free, one to each entry, the first entry of each tile reserving it. -/
def Says.HeadJobsArePlaced : Prop :=
  ∀ (j : Job) (p : Placing) (s : State), (∀ k ∈ s.m.hub.jobs, k.st ≠ .placed) → s.m.head? = some j → j.st = .waiting →
    s.m.couldFit j = .ok () → s.m.fits j [] = true → placeJob j.formes (s.m.freeTiles j []) = .ok p →
    ∃ t j', exec .placeJob s = .next t ∧ t.m.job? j.id = some j' ∧ j'.st = .placed ∧ j'.prio = j.prio ∧
      (∀ i f, j.formes[i]? = some f → p.tileOf i ∈ s.m.freeTiles j [] ∧ j'.formes[i]? = some { f with
        tile := p.tileOf i
        st := if (List.range i).any (fun k => p.tileOf k = p.tileOf i) then .unplaced else .reserved }) ∧
      t.m.ctxs = s.m.ctxs ∧ t.m.tiles = s.m.tiles ∧ sameBytes s.m t.m ∧ machOnly s t

/-- TASK_KILL (R371, R376, R407): once no access that the task sent still awaits its answer, the kill ends. Its context and
engines are free, nothing of it is outstanding, its party holds no token for its job, and its TASK record is raised for the
PF's ring at least. Until then the task goes on dying and no record of it is raised. What a kill discards and what it waits for is the
model's reading (log 40). -/
def Says.AKillEnds : Prop :=
  ∀ (tile : Nat) (ctx : Bool) (e : Event) (s : State), s.m.Canon →
    let c := s.m.ctx tile ctx
    let sent := ∃ r ∈ (s.m.killRequests tile ctx (s.m.unreleased tile ctx)).hub.requests, r.ofCtx tile ctx = true
    c.dying = some e → s.m.canRecord e = true →
    (sent → ∃ t, exec (.taskKill tile ctx) s = .next t ∧ (t.m.ctx tile ctx).dying = some e ∧
      t.m.hub.raised = s.m.hub.raised ∧ ctxsBut s.m t.m tile ctx ∧ sameBytes s.m t.m ∧ machOnly s t) ∧
    (¬ sent → ∃ m1 : Mach, exec (.taskKill tile ctx) s = .next { s with m := m1.settle } ∧
      m1.ctx tile ctx = idleCtx (some (c.job, c.party)) s.m.gtc ∧ ctxsBut s.m m1 tile ctx ∧
      (∀ r ∈ m1.hub.requests, r.ofCtx tile ctx = false) ∧
      (∀ x : Engine, at' none (m1.tile tile).runs x.code ≠ some ctx) ∧
      (∀ h ∈ m1.holdings c.party, ¬ (h.party = c.party ∧ h.job = c.job)) ∧
      (e.status ≠ 0 → ∃ r, m1.hub.raised = s.m.hub.raised ++ [r] ∧ r.ev.status = (causeOf e.status).code ∧
        r.ev.type = Cls.task.code ∧ r.ev.id = e.id ∧ r.ev.a0 = e.a0 ∧ r.ev.a1 = e.a1 ∧ r.ev.detail = e.detail ∧
        0 ∈ r.rings) ∧
      (e.status = 0 → m1.hub.raised = s.m.hub.raised))

/-- JOB_COMPLETE (R52, R166, R302, R414) of a job that holds no token any more: the job leaves, its pins are released, and
its CMDDONE, with the status of its first failure and its ME_SAT, is raised for the ring of its queue's function. -/
def Says.JobsComplete : Prop :=
  ∀ (j : Job) (q : Nat) (oc : OpenCmd) (s : State), s.m.Canon → s.m.job? j.id = some j → j.over = true →
    j.doom = none → j.st ≠ .waiting → j.st ≠ .stopped → s.m.jobHoldings j.id = [] → j.queue = some q →
    (s.m.queue q).started.find? (·.index == j.index) = some oc → oc.noev = false →
    ∃ (m1 : Mach) (r : Raised), exec (.jobComplete j.id) s = .next { s with m := m1.settle } ∧ m1.job? j.id = none ∧
      (∀ k, k.id ≠ j.id → (k ∈ m1.hub.jobs ↔ k ∈ s.m.hub.jobs)) ∧
      (∀ d, d < 4 → ∀ p ∈ (m1.die d).pins, p.2 ≠ j.id) ∧
      m1.hub.raised = s.m.hub.raised ++ [r] ∧ r.ev.src = q ∧ r.ev.type = 1 ∧ r.ev.status = j.fail.getD 0 ∧
      r.ev.id = oc.cid ∧ r.ev.a0 = BitVec.ofNat 64 j.id ∧ r.ev.flags = (if j.sat then 4 else 0) ∧
      r.rings = [qctlFunc ((s.m.queue q).qctl q)] ∧ m1.ctxs = s.m.ctxs

/-- AGING (R304, R307): a job that has waited past its class's limit ranks one class higher, at most 3; before that nothing
happens. -/
def Says.WaitingJobsAge : Prop :=
  ∀ (j : Job) (l : Nat) (s : State), s.m.job? j.id = some j → s.m.ageLimit j.prio = some l →
    (j.waits = true → j.start + l < s.m.gtc → ∃ j', exec (.aging j.id) s = .next { s with m := s.m.setJob j' } ∧
      j' = { j with aged := true } ∧ j'.rank = min 3 (j.prio + 1)) ∧
    (¬ (j.waits = true ∧ j.start + l < s.m.gtc) → exec (.aging j.id) s = .next s)

/-- PLAN_INTERVAL (R308, R309, R311, R312, R360, R435): PLIMIT comes into force, PMETER takes its sample, and every
cluster's CLK_SWALLOW follows E, the difference of PMETER across the interval; a cluster that is too hot is held at 48, one without
tasks at 0. The policy core does so, while its PLL is locked (R356). -/
def Says.PlanIntervalsSetTheClocks : Prop :=
  ∀ (more : Nat) (s : State), s.m.Canon →
    (0 ∉ s.m.locked → exec (.planInterval more) s = .next s) ∧
    (0 ∈ s.m.locked →
    let lim := s.m.hub.plimit * 10 ^ 6
    let budget := (s.m.hub.plimit - 200) * 10 ^ 6
    let meter := (s.m.hub.meter + more) % 2 ^ 64
    let energy := (meter + 2 ^ 64 - s.m.hub.meterAt) % 2 ^ 64
    ∃ t, exec (.planInterval more) s = .next t ∧ t.m.hub.plimit = (s.m.reg 0x3010).toNat % 2048 ∧
      t.m.hub.meter = meter ∧ t.m.hub.meterAt = meter ∧
      (∀ c, c < 32 → ∃ n, t.m.cluster c = { s.m.cluster c with swallowW := n } ∧
        let old := (s.m.cluster c).swallowW
        let tasks := s.m.holdsTask (fun k => clusterOf k = c)
        (s.m.heldHot c = true → n = 48) ∧ (s.m.heldHot c = false → tasks = false → n = 0) ∧
        (s.m.heldHot c = false → tasks = true →
          (lim < energy → ∃ k, n = min 48 (old + k) ∧ 64 * (energy - lim) ≤ k * energy ∧
            k * energy < 64 * (energy - lim) + energy) ∧
          (energy ≤ lim → budget ≤ energy → n = old) ∧ (energy < budget → n = old - 1))) ∧
      t.m.ctxs = s.m.ctxs ∧ t.m.tiles = s.m.tiles ∧ sameBytes s.m t.m ∧ machOnly s t)

/-! ## Saving and resuming (14) -/

/-- SAVE (R314, R317, R319): the streams of a stopping job stop where they can. When all have, and their accesses are done,
its tasks' areas are written, their contexts freed and the job is stopped; with a save region too small the stop is
abandoned and every stream goes on. -/
def Says.StoppingJobsAreSaved : Prop :=
  ∀ (j : Job) (s : State), s.m.Canon → s.m.job? j.id = some j → j.st = .stopping → j.over = false →
    j.reviving = false →
    let ts := j.loadedTasks
    (∀ x ∈ ts, (s.m.ctx x.2.1 x.2.2).dying = none) →
    let m0 := ts.foldl (fun (m : Mach) x => m.stopTask x.2.1 x.2.2) s.m
    let halted := ∀ x ∈ ts, (∀ e, ((m0.ctx x.2.1 x.2.2).stream e).halted = true) ∧
      (∃ e, ((m0.ctx x.2.1 x.2.2).stream e).mode ≠ .tail) ∧ m0.drained x.2.1 x.2.2 = true
    let region := m0.queue (j.queue.getD 0)
    let as := m0.layAreas ts region.save.toNat
    let total := (as.map (fun a => round4k a.2.2.2.2)).sum
    (¬ halted → exec (.save j.id) s = .next { s with m := m0 }) ∧
    (halted → region.savesz.toNat < total → m0.hub.held = [] →
      ∃ t, exec (.save j.id) s = .next t ∧ (∀ k ∈ t.m.hub.jobs, k.id = j.id → k.st = .running ∧ k.noStop = true) ∧
        (∀ x ∈ ts, (t.m.ctx x.2.1 x.2.2).stopping = false ∧
          ∀ e, ((t.m.ctx x.2.1 x.2.2).stream e).mode ≠ .stopped) ∧ sameBytes m0 t.m) ∧
    (∀ m1, halted → total ≤ region.savesz.toNat → m0.writeAreas as = .done () m1 →
      ∃ m2 : Mach, exec (.save j.id) s = .next { s with m := m2.settle } ∧
        (∀ x ∈ ts, (m2.ctx x.2.1 x.2.2).loaded = false) ∧
        (∀ n c, (∀ x ∈ ts, ¬ (x.2.1 = n ∧ x.2.2 = c)) → m2.ctx n c = m1.ctx n c) ∧ sameBytes m1 m2 ∧
        (∀ k ∈ m2.hub.jobs, k.id = j.id → k.st = .stopped))

/-- RESUME (R304, R322) of a job with one saved task and no packet held: the task stands in its context
again with its semaphores and range registers, the streams that had ended are ended, and the others run on where they
stood; the job runs. -/
def Says.SavedTasksResume : Prop :=
  ∀ (j : Job) (i : Nat) (f : FormeEnt) (forme : List Byte) (bs : List PByte) (mx : Mach) (s : State), s.m.Canon →
    s.m.head? = some j → s.m.job? j.id = some j → j.st = .stopped → j.reviving = false → f.doom = none →
    s.m.fits j [] = true →
    (j.formes.mapIdx (fun i f => (i, f))).filter (fun x => x.2.st = .stopped) = [(i, f)] →
    s.m.areaBytes f.area.toNat (f.size / 4096 + 1) f.size = .done bs mx → s.m.hubRead f.forme.toNat 1024 i = .ok forme →
    (s.m.ctx f.tile (!f.ctx)).loaded = false → s.m.hub.held = [] →
    let raw := bs.map (·.b)
    ∃ t c, exec (.resume j.id) s = .next t ∧ c = t.m.ctx f.tile f.ctx ∧ c.loaded = true ∧ c.job = j.id ∧
      c.party = s.m.hub.chip * 2048 + f.tile * 4 ∧ (∀ k, k < 64 → c.sem k = fieldAt raw (0x340 + 2 * k) 2) ∧
      (∀ k, k < 8 → at' Range.blank c.maps k =
        ⟨BitVec.ofNat 64 (fieldAt raw (0xC00 + 32 * k) 8), BitVec.ofNat 64 (fieldAt raw (0xC08 + 32 * k) 8)⟩) ∧
      (∀ e : Engine, (fieldAt raw 1 1).testBit e.code = false → (c.stream e).mode = .tail) ∧
      (∀ e : Engine, (fieldAt raw 1 1).testBit e.code = true →
        (c.stream e).mode = .run ∧ (c.stream e).pc = fieldAt raw (0x404 + 256 * e.code) 4) ∧
      (∃ j', t.m.job? j.id = some j' ∧ j'.st = .running) ∧ ctxsBut s.m t.m f.tile f.ctx ∧ machOnly s t

/-! ## The host's side (14, 17) -/

/-- Queue slot `q` has a command at its head that may start (R298, R299): its bytes are `bs`, its OPC is `opc`, R426 finds
nothing against it, and no command started before carries its index. -/
structure MayRun (s : State) (q opc : Nat) (c : Cmd) (bs : List Byte) : Prop where
  head : headCmd s.fw s.m q = some c
  bytes : bs = c.bytes.map (·.b)
  opc : cmdOpc bs = opc
  ok : cmdBad bs = false
  index : ∀ k ∈ (s.m.queue q).started, k.index ≠ c.index
  event : (fieldAt bs 1 1).testBit 1 = false

/-- The command has left its slot: QHEAD counts it, the commands open before are open, and nothing else of the slot has
changed. -/
def leftSlot (s t : State) (q : Nat) (c : Cmd) : Prop :=
  t.m.queue q = { s.m.queue q with
    head := ((s.m.queue q).head + 1) % 2 ^ 32, cmds := (s.m.queue q).cmds.filter (fun k => k.index ≠ c.index) }

/-- The CMDDONE record of a command (R297, R302). -/
def doneRec (s : State) (q : Nat) (bs : List Byte) (status : Nat) (r : Raised) : Prop :=
  r.ev.src = q ∧ r.ev.type = 1 ∧ r.ev.status = status ∧ r.ev.id = fieldAt bs 4 4 ∧
    r.rings = [qctlFunc ((s.m.queue q).qctl q)]

/-- Commands that complete at once (R298, R302): NOPC; TIMESTAMP, whose completion carries GTC; SIGEV, which adds to a hub
semaphore that no one waits on; WAITEV, which is served when the value suffices and otherwise waits, open. -/
def Says.SimpleCommandsComplete : Prop :=
  ∀ (q : Nat) (c : Cmd) (bs : List Byte) (s : State), s.m.Canon →
    let sem := fieldAt bs 8 1
    let n := fieldAt bs 10 2
    let v := at' 0 s.m.hub.sems sem
    let done := fun (t : State) => leftSlot s t q c ∧ ∃ r, t.m.hub.raised = s.m.hub.raised ++ [r] ∧ doneRec s q bs 0 r
    let semsBut := fun (t : State) (x : Nat) => ∀ j, at' 0 t.m.hub.sems j = if j = sem then x else at' 0 s.m.hub.sems j
    let rest := fun (t : State) => t.m.ctxs = s.m.ctxs ∧ t.m.hub.jobs = s.m.hub.jobs ∧ sameBytes s.m t.m ∧ machOnly s t
    let noWaiter := hubServable s.m.hub.sems [] s.m.hub.waiters = none ∧ ∀ w ∈ s.m.hub.waiters, w.2.2.1 ≠ sem
    (MayRun s q 6 c bs → ∃ t, exec (.nopc q) s = .next t ∧ done t ∧ t.m.hub.sems = s.m.hub.sems ∧ rest t) ∧
    (MayRun s q 7 c bs → ∃ t, exec (.timestamp q) s = .next t ∧ done t ∧ t.m.hub.sems = s.m.hub.sems ∧ rest t ∧
      ∀ r, t.m.hub.raised = s.m.hub.raised ++ [r] → r.ev.gtc = s.m.gtc) ∧
    (MayRun s q 3 c bs → noWaiter →
      ∃ t, exec (.sigev q) s = .next t ∧ done t ∧ semsBut t (min 65535 (v + n)) ∧ rest t) ∧
    (MayRun s q 2 c bs → noWaiter → n ≤ v → ∃ t, exec (.waitev q) s = .next t ∧ done t ∧ semsBut t (v - n) ∧ rest t) ∧
    (MayRun s q 2 c bs → noWaiter → v < n → ∃ t, exec (.waitev q) s = .next t ∧
      t.m.hub.waiters = s.m.hub.waiters ++ [(q, c.index, sem, n)] ∧ t.m.hub.raised = s.m.hub.raised ∧
      t.m.hub.sems = s.m.hub.sems ∧ (∃ oc ∈ (t.m.queue q).started, oc.index = c.index ∧ oc.opc = 2) ∧ rest t)

/-- LAUNCH (R298, R300, R304, R305): an imposition whose checks pass makes a waiting job, the last to arrive, at the lesser of
its own and its queue's priority; one that its checks refuse gives a JOB record and a completion with the failing cause. -/
def Says.LaunchMakesAJob : Prop :=
  ∀ (q : Nat) (c : Cmd) (bs : List Byte) (s : State), s.m.Canon → MayRun s q 1 c bs →
    let m0 := s.m.openCmd q c
    let rest := fun (t : State) => t.m.ctxs = s.m.ctxs ∧ sameBytes s.m t.m ∧ machOnly s t
    (∀ j, m0.readJob s.fw (fieldAt bs 8 8) = .ok j → m0.couldFit j = .ok () →
      ∃ t j', exec (.launch q) s = .next t ∧ t.m.hub.jobs = s.m.hub.jobs ++ [j'] ∧ j'.id = s.m.hub.nextJob ∧
        j'.queue = some q ∧ j'.cid = fieldAt bs 4 4 ∧ j'.st = .waiting ∧ j'.formes = j.formes ∧ j'.grants = j.grants ∧
        j'.energy = j.energy ∧ j'.prio = min j.prio (bits64 ((s.m.queue q).qctl q) 2 2) ∧
        j'.arrival = s.m.hub.arrivals ∧ j'.start = s.m.gtc ∧ t.m.hub.nextJob = s.m.hub.nextJob + 1 ∧
        (t.m.queue q).head = ((s.m.queue q).head + 1) % 2 ^ 32 ∧ rest t) ∧
    (∀ b, (m0.readJob s.fw (fieldAt bs 8 8) = .bad b ∨
        (∃ j, m0.readJob s.fw (fieldAt bs 8 8) = .ok j ∧ m0.couldFit j = .bad b)) → s.m.roomFor srcHub = true →
      ∃ t r d, exec (.launch q) s = .next t ∧ t.m.hub.jobs = s.m.hub.jobs ∧ leftSlot s t q c ∧
        t.m.hub.raised = s.m.hub.raised ++ [r, d] ∧ r.ev.type = Cls.job.code ∧ r.ev.status = b.cause.code ∧
        r.ev.a1 = BitVec.ofNat 64 b.addr ∧ doneRec s q bs b.cause.code d ∧ rest t)

/-- A request of OP `op` for `party` stands outstanding, and its message to the home is under way. -/
def asksFor (s t : State) (op party ia log2 : Nat) (r : Request) : Prop :=
  t.m.hub.requests = s.m.hub.requests ++ [r] ∧ r.op = op ∧ r.party = party ∧ r.agent = none ∧
    leaves s t (ia / 2 ^ 43) op (fun p => p.tag = r.tag ∧ p.addr = BitVec.ofNat 64 ia ∧
      p.src = BitVec.ofNat 32 party ∧ (log2 < 64 → p.log2 = log2))

/-- TOKGRANT and TOKRECALL (R261, R262, R267): the host function's token goes home, or to its receiver; a region that the
function does not hold is asked for, and completes at once when it holds it already. The command is open until the home
answers (R298, R302). A TOKGRANT waits for the function's BAR4 writes, and its BAR4 reads of the region; that a region which it
does not hold is refused with UNOWNED is the model's choice (log 43). -/
def Obligations.TokenCommandsAskTheHome : Prop :=
  ∀ (q : Nat) (c : Cmd) (bs : List Byte) (s : State), s.m.Canon → s.m.hub.rehash ≠ 1 →
    let me := s.m.hub.chip * 2048 + qctlFunc ((s.m.queue q).qctl q) * 4 + 3
    let ia := fieldAt bs 8 8
    let log2 := fieldAt bs 0x10 1
    let writing := s.m.hostWrites (qctlFunc ((s.m.queue q).qctl q)) ia log2
    let dest := fieldAt bs 0x14 4
    let ret := fieldAt bs 0x11 1 = 1
    let rest := fun (t : State) => t.m.ctxs = s.m.ctxs ∧ sameBytes s.m t.m ∧ machOnly s t
    me < 2 ^ 32 →
    (∀ h, MayRun s q 4 c bs → hostRegion ia log2 = none → s.m.exact me none ia log2 = some h → (ret ∨ h.ex = true) →
      (writing = true → exec (.tokgrant q) s = .next s) ∧ (writing = false → (ret ∨ dest ≠ me) → ∃ t r, exec (.tokgrant q) s = .next t ∧
        asksFor s t (if ret then 0x43 else 0x44) me ia log2 r ∧ r.cmd = some (q, c.index) ∧
        t.m.exact me none ia log2 = none ∧ rest t)) ∧
    (MayRun s q 4 c bs → hostRegion ia log2 = none → s.m.exact me none ia log2 = none →
      ∃ t r, exec (.tokgrant q) s = .next t ∧ t.m.hub.raised = s.m.hub.raised ++ [r] ∧
        doneRec s q bs Cause.unowned.code r ∧ leftSlot s t q c ∧ t.m.hub.hold = s.m.hub.hold ∧ rest t) ∧
    (MayRun s q 5 c bs → hostRegion ia log2 = none → s.m.atOnce me none ia log2 false = true →
      ∃ t r, exec (.tokrecall q) s = .next t ∧ t.m.hub.raised = s.m.hub.raised ++ [r] ∧ doneRec s q bs 0 r ∧
        leftSlot s t q c ∧ rest t) ∧
    (MayRun s q 5 c bs → hostRegion ia log2 = none → s.m.atOnce me none ia log2 false = false →
      s.m.holdRoom me (s.m.getNeeds me none ia log2) = true → ∃ t r, exec (.tokrecall q) s = .next t ∧ asksFor s t 0x41 me ia log2 r ∧
        r.cmd = some (q, c.index) ∧ rest t)

/-- NOTIFY_WRITE (R290, R292, R296): pages 0 to 127 are the PF's, one for each slot, and eight follow for the first slots of
each VF; an aligned write of four bytes at offset 0 of an enabled slot's page sets QTAIL, and every command up to it is read
from the ring, the queue logic having its clock; any other write is discarded. One in the cycle in which the slot's page was
unmapped is captured for the old function and recorded (R427). -/
def Says.NotifyWritesFetchCommands : Prop :=
  ∀ (page q f k off size : Nat) (v : Word32) (s : State), s.m.Canon →
    let x := s.m.queue q
    let n := (v.toNat + 2 ^ 32 - x.fetched) % 2 ^ 32
    ((s.m.notifySlot page = none ∨ off ≠ 0 ∨ size ≠ 4) → exec (.notifyWrite page off size v) s = .next s) ∧
    (page < 128 → s.m.notifySlot page = some page) ∧ (248 ≤ page → s.m.notifySlot page = none) ∧
    (f < 15 → k < 8 → s.m.notifySlot (128 + 8 * f + k) = (s.m.slotsOf (f + 1))[k]?) ∧
    (∀ g base, s.m.notifySlot page = some q → 1 ∈ s.m.locked → x.unmapped = some (g, base) → s.m.roomFor srcHub = true →
      ∃ t r, exec (.notifyWrite page 0 4 v) s = .next t ∧
        t.m.queue q = { x with late := some (v.toNat, g, base), unmapped := none } ∧ t.m.hub.raised = s.m.hub.raised ++ [r] ∧
        r.ev.status = Cause.notifylate.code ∧ r.ev.type = Cls.corr.code ∧ r.ev.src = srcHub ∧
        r.ev.detail = BitVec.ofNat 64 (v.toNat * 2 ^ 32 + q * 2 ^ 16 + g * 2 ^ 12) ∧ (∀ k, k ∈ r.rings ↔ k = 0 ∨ k = g) ∧
        (∀ k, k ≠ q → t.m.queue k = s.m.queue k) ∧ t.m.ctxs = s.m.ctxs ∧ sameBytes s.m t.m ∧ machOnly s t) ∧
    (s.m.notifySlot page = some q → 1 ∈ s.m.locked → x.unmapped = none → (x.qctl q).getLsbD 0 = true → x.fetched < 2 ^ 32 →
      n ≤ 2 ^ bits64 (x.qctl q) 16 5 →
      ∃ t rs, exec (.notifyWrite page 0 4 v) s = .next t ∧
        t.m.queue q = { x with tail := v.toNat, fetched := v.toNat } ∧
        t.m.hub.preads = s.m.hub.preads ++ rs ∧ rs.length = n ∧
        (∀ i r, rs[i]? = some r → r.why = .command q ((x.fetched + i) % 2 ^ 32) ∧ r.len = 64 ∧
          r.addr = BitVec.ofNat 64 (x.base.toNat + (x.fetched + i) % 2 ^ 32 % 2 ^ bits64 (x.qctl q) 16 5 * 64)) ∧
        (∀ k, k ≠ q → t.m.queue k = s.m.queue k) ∧ t.m.ctxs = s.m.ctxs ∧ sameBytes s.m t.m ∧ machOnly s t)

/-- EVENT_RECORD_POST (R301, R302, R371): the oldest record for a function's ring is written at EVTAIL's entry, its 64 bytes with
the PHASE of that lap, and EVTAIL moves on; the record stands for that ring no longer, and for none is gone. A full or disabled ring takes none, nor does a ring whose record is a completion
that a record of its job precedes. -/
def Says.RecordsEnterTheirRing : Prop :=
  ∀ (f : Nat) (r : Raised) (s : State), s.m.Canon →
    let x := s.m.func f
    s.m.hub.raised.find? (fun r => r.rings.contains f) = some r →
    (s.m.behindJob r = true → exec (.eventRecordPost f) s = .next s) ∧
    (x.en = true → (x.tail + 2 ^ 32 - x.head) % 2 ^ 32 < 2 ^ x.log2n → s.m.behindJob r = false → r.ev.flags % 2 = 0 →
      let phase := 1 - x.tail / 2 ^ x.log2n % 2
      let data := clean (Event.bytes { r.ev with flags := r.ev.flags + phase })
      ∃ t, exec (.eventRecordPost f) s = .next t ∧ t.m.hub.pcie = s.m.hub.pcie ++
          [.write f (BitVec.ofNat 64 (x.base.toNat + x.tail % 2 ^ x.log2n * 64)) data] ∧ data.length = 64 ∧
        (data.getD 10 {}).b.toNat % 2 = phase ∧
        t.m.hub.raised = (s.m.hub.raised.map (fun k => if k = r then { k with rings := k.rings.erase f } else k)).filter
          (fun k => !k.rings.isEmpty) ∧
        t.m.func f = { x with tail := (x.tail + 1) % 2 ^ 32 } ∧ (∀ k, k ≠ f → t.m.func k = s.m.func k) ∧
        t.m.ctxs = s.m.ctxs ∧ sameBytes s.m t.m ∧ t.fw = s.fw.blame s.m r ∧ t.agenda = s.agenda) ∧
    (x.en = false ∨ 2 ^ x.log2n ≤ (x.tail + 2 ^ 32 - x.head) % 2 ^ 32 → exec (.eventRecordPost f) s = .next s)

/-- Accesses of the host to memory and configuration (R267, R293, R364, R398, R433): a BAR4 read or write that the function's
token allows goes to its home as requests of the function's party, one for each line it touches, and a read is completed
when they have been answered; in minimal mode the PF reads the flash; a configuration request before READY is asked to come
again. A write outside BAR4's memory or without the token is discarded, a read answered with Unsupported Request or Completer
Abort, and Advanced Error Reporting logs the header. That an access is one packet for each line, and that a read whose home answers
with a nonzero status is a Completer Abort, are the model's reading (log 44). -/
def Says.HostAccesses : Prop :=
  ∀ (f off len reg l : Nat) (pl : Place) (data : List Byte) (p : Packet) (r : Request) (h : HRead) (s : State), s.m.Canon →
    let answers := fun (i : Instr) (m : Mach) (out : PcieOut) =>
      exec i s = .next { s with m := { m with hub := { m.hub with pcie := m.hub.pcie ++ [out] } } }
    let logged := fun (write : Bool) =>
      { s.m with hub := { s.m.hub with aer := s.m.hub.aer ++ [(f, write, BitVec.ofNat 64 off)] } }
    let lines := fun (n : Nat) => linePieces l n (n + 1)
    let ia := fun (x : Nat × Nat) => BitVec.ofNat 64 (s.m.hub.chip * 2 ^ 43 + x.1)
    let rest := fun (t : State) => t.m.ctxs = s.m.ctxs ∧ sameBytes s.m t.m ∧ machOnly s t
    (s.fw.minimal = false → s.m.bar4Place f off len = some (l, pl) →
      (s.m.hostHolds f l len false = true → s.m.hub.rehash ≠ 1 → l + len ≤ 2 ^ 43 →
        ∃ t ps, exec (.bar4Read f off len) s = .next t ∧ t.m.net = s.m.net ++ ps ∧
          ps.map (fun p => (p.op, p.addr, p.bcnt, p.src)) =
            (lines len).map (fun x => (1, ia x, x.2, BitVec.ofNat 32 (s.m.hostParty f))) ∧
          t.m.hub.hreads = s.m.hub.hreads ++ [{ fn := f, parts := ps.map (fun p => (p.tag, none)) }] ∧
          t.m.hub.pcie = s.m.hub.pcie ∧ rest t) ∧
      (s.m.hostHolds f l len false = false → answers (.bar4Read f off len) (logged false) (.completion f 4 []))) ∧
    (s.fw.minimal = false → s.m.bar4Place f off len = none →
      answers (.bar4Read f off len) (logged false) (.completion f 1 [])) ∧
    (s.m.hub.requests.find? (·.answeredBy p) = some r → r.agent = none → r.gone = none → r.op = 1 →
      partyKind r.party = 3 → partyFunc r.party = h.fn → r.tracked = none →
      s.m.hub.hreads.count h = 1 → h.parts = [(p.tag, none)] → h.bad = false →
      (∀ k ∈ s.m.hub.hreads, k ≠ h → k.whole = false ∧ (k.fn = h.fn → ∀ x ∈ k.parts, x.1 ≠ p.tag)) →
      ∃ t, exec (.dataResp p) s = .next t ∧ t.m.hub.requests = s.m.hub.requests.erase r ∧
        t.m.hub.hreads = s.m.hub.hreads.filter (fun k => k ≠ h) ∧
        t.m.hub.pcie = s.m.hub.pcie ++ [if p.status = 0 then .completion h.fn 0 p.data else .completion h.fn 4 []] ∧ rest t) ∧
    (s.fw.minimal = true → answers (.bar4Read 0 off len) s.m (.completion 0 0 (rdRun s.m (flashKey off) len))) ∧
    (s.fw.minimal = false → s.m.bar4Place f off data.length = some (l, pl) →
      (s.m.hostHolds f l data.length true = true → s.m.hub.rehash ≠ 1 →
        ∃ t ps, exec (.bar4Write f off data) s = .next t ∧ t.m.net = s.m.net ++ ps ∧
          ps.map (fun p => (p.op, p.addr, p.data, p.src)) = (lines data.length).map (fun x =>
            (2, ia x, clean ((data.drop (x.1 - l)).take x.2), BitVec.ofNat 32 (s.m.hostParty f))) ∧
          t.m.hub.requests.map (·.tag) = s.m.hub.requests.map (·.tag) ++ ps.map (·.tag) ∧ rest t) ∧
      (s.m.hostHolds f l data.length true = false → exec (.bar4Write f off data) s = .next { s with m := logged true })) ∧
    (s.fw.minimal = false → s.m.bar4Place f off data.length = none →
      exec (.bar4Write f off data) s = .next { s with m := logged true }) ∧
    (s.m.hub.pcieReady = true → ∃ bs, bs.length = 4 ∧ answers (.configRequest f reg) s.m (.completion f 0 bs)) ∧
    (s.m.hub.pcieReady = false → answers (.configRequest f reg) s.m (.completion f 2 []))

/-- PCIE_LINK_UP (R364) and PCIE_COMPLETION (R238, R296): the link's speed, width and mode are shown; the bytes read go to the
command slot or to the party that waits for them, and the read is outstanding no longer. -/
def Says.LinkUpAndCompletions : Prop :=
  ∀ (speed width tag q i : Nat) (flitMode : Bool) (p : Packet) (data : List PByte) (r : PRead) (s : State),
    s.m.Canon →
    (∃ t, exec (.pcieLinkUp speed width flitMode) s = .next t ∧ t.m.hub = { s.m.hub with
      pcieUp := true, pcieSpeed := speed % 16, pcieWidth := width % 32, pcieFlit := flitMode } ∧
      t.m.ctxs = s.m.ctxs ∧ sameBytes s.m t.m ∧ machOnly s t) ∧
    (s.m.hub.preads.find? (fun r => r.tag = tag) = some r → data.length = r.len → anyPois data = false →
      let m0 := { s.m with hub := { s.m.hub with preads := s.m.hub.preads.erase r } }
      (r.why = .command q i → ∃ t, exec (.pcieCompletion tag data) s = .next t ∧
        t.m.hub.preads = s.m.hub.preads.erase r ∧
        t.m.queue q = { s.m.queue q with cmds := (s.m.queue q).cmds ++ [{ index := i, bytes := data }] }) ∧
      (r.why = .remote p → exec (.pcieCompletion tag data) s = .next { s with m := m0.answerRead p data }))

/-- FUNCTION_LEVEL_RESET of a VF (R428): its function block is as after reset, its queue slots are disabled and hold no command,
its records leave, no other function is touched, and a notify captured for it is dropped wherever it stands. The health monitor
keeps what the records it drops say of a canary (R351). -/
def Says.FunctionResetsClear : Prop :=
  ∀ (f : Nat) (s : State), s.m.Canon → f ≠ 0 → f < 16 →
    (∀ r ∈ s.m.hub.raised, r.rings.count f ≤ 1) →
    ∃ t, exec (.functionLevelReset f) s = .next t ∧ t.m.func f = Func.blank ∧
      (∀ k, k ≠ f → t.m.func k = s.m.func k) ∧
      (∀ q, q < 128 → qctlFunc ((s.m.queue q).qctl q) = f →
        ((t.m.queue q).qctl q).getLsbD 0 = false ∧ (t.m.queue q).cmds = [] ∧ (t.m.queue q).started = []) ∧
      (∀ q, q < 128 → qctlFunc ((s.m.queue q).qctl q) ≠ f → t.m.queue q = { s.m.queue q with
        late := (s.m.queue q).late.filter (fun l => l.2.1 ≠ f)
        unmapped := (s.m.queue q).unmapped.filter (fun u => u.1 ≠ f) }) ∧
      (∀ r ∈ t.m.hub.raised, f ∉ r.rings) ∧
      (∀ j ∈ t.m.hub.jobs, ∀ q, j.queue = some q → q < 128 → qctlFunc ((s.m.queue q).qctl q) ≠ f) ∧
      t.fw = s.fw.blameAll s.m [f] ∧ t.agenda = s.agenda

/-! ## Messages at their targets (07, 11, 13) -/

/-- A response (R278, R280, R374): it goes back under the request's tag, on the request's plane, with its status and data; it
stays on the package for a party of this chip and otherwise waits at that plane's port. Its flits count as energy events.
Poisoned bytes asked for by another chip, whose flits carry no poison, go as an answer without data (the model's choice,
log 81). -/
def Says.ResponsesGoBack : Prop :=
  ∀ (p : Packet) (op st : Nat) (data : List PByte) (m : Mach), m.Canon → opVc op = 1 → st < 256 →
    let m0 := { m with events := (m.respond p op st data).events }
    let away := p.src.toNat / 2048 ≠ m.hub.chip
    (∃ q, q.op = op ∧ q.tag = p.tag ∧ q.plane = p.plane ∧ q.src = p.src ∧ q.status = st ∧ q.data = data ∧
      (¬ away → m.respond p op st data = { m0 with net := m.net ++ [q] }) ∧
      (away → m.respond p op st data =
        m0.setLink p.plane { m.link p.plane with txq := (m.link p.plane).txq ++ [q] })) ∧
    (anyPois data = false ∨ ¬ away → m.answerRead p data = m.respond p 0x20 0 data) ∧
    (anyPois data = true → away → m.answerRead p data = m.respond p 0x20 4 (List.replicate data.length ⟨0, true⟩))

/-- READ, WRITE, ATOMIC and REDUCE_STORE at memory of this chip (R159, R170, R250, R283, R406): the bytes are read, written, or
read and written back once, and the request is answered, with status 0x04 where a write meets a poisoned page; one whose page
migrates is held in the home's order, a watch too (R242); WAITM_WATCH is answered when its condition holds and is kept otherwise.
What no
store of this chip holds is discarded and answered with status 0x01 (the model's choice, log 30). -/
def Says.RequestsActOnMemory : Prop :=
  ∀ (p : Packet) (pl : Place) (bs : List PByte) (m1 : Mach) (s : State), s.m.Canon →
    let ia := p.addr.toNat
    let ends := fun (i : Instr) (m : Mach) => exec i s = .next { s with m := m }
    let n := p.fmt1.width / 8
    let d := (drawOf s.m p 0).1
    let m0 := (drawOf s.m p 0).2
    let held := { m1 with homeq := m1.homeq ++ [p] }
    let status := if s.m.poisonedPage pl = true then 4 else 0
    let here := fun (x : Place) => ∀ fn a, x ≠ .host fn a
    let met := anyPois bs = true ∨ condHolds ((Cond.ofCode (bits p.arg 29 3)).getD .eq) (extend64 p.fmt1 (valOf bs))
      (BitVec.ofNat 64 (valOf p.data)) = true
    (here pl →
      (s.m.homePlace ia p.bcnt = some pl →
        ((s.m.readPlace pl ia p.bcnt (fun _ => p.bcnt) none {}).1 = .done bs m1 → ends (.readReq p) (m1.answerRead p bs)) ∧
        ((s.m.readPlace pl ia p.bcnt (fun _ => p.bcnt) none {}).1 = .wait m1 → ends (.readReq p) held)) ∧
      (s.m.homePlace ia p.data.length = some pl →
        ((s.m.writePlace pl ia p.data false {}).1 = .done () m1 → ends (.writeReq p) (m1.respond p 0x21 status [])) ∧
        ((s.m.writePlace pl ia p.data false {}).1 = .wait m1 → ends (.writeReq p) held)) ∧
      (s.m.homePlace ia n = some pl → (m0.rmw pl ia n (p.atomBytes d) {}).1 = .done bs m1 → m0.poisonedPage pl = false →
        (p.wantsOld = true → ends (.atomicReq p) (m1.answerRead p bs)) ∧
        (p.wantsOld = false → ends (.atomicReq p) (m1.respond p 0x21 0 []))) ∧
      (s.m.homePlace ia n = some pl → (s.m.readPlace pl ia n (fun _ => n) none {}).1 = .done bs m1 →
        (met → ends (.waitmWatch p) (m1.answerRead p bs)) ∧
        (¬ met → ends (.waitmWatch p) { m1 with hub := { m1.hub with watches := m1.hub.watches ++ [p] } })) ∧
      (s.m.homePlace ia n = some pl → (s.m.readPlace pl ia n (fun _ => n) none {}).1 = .wait m1 →
        ends (.waitmWatch p) held)) ∧
    (s.m.addAll p p.sources = .done () m1 → (s.m.homePlace ia 1).any s.m.poisonedPage = false →
      ends (.reduceStore p) (m1.respond p 0x21 0 [])) ∧
    (s.m.homePlace ia p.bcnt = none → ends (.readReq p) (s.m.respond p 0x20 1 (List.replicate p.bcnt ⟨0, true⟩))) ∧
    (s.m.homePlace ia p.data.length = none → ends (.writeReq p) (s.m.respond p 0x21 1 []))

/-- One addition of a REDUCE_STORE (R42, R159): the element at the packet's address, and nothing else, takes the sum of what it
held and the first source element, rounded by the draw that its sender made where it made one. -/
def Says.ReduceStoresAddEachElement : Prop :=
  ∀ (p : Packet) (i : Nat) (src old : List PByte) (rest : List (Nat × List PByte)) (pl : Place) (s0 m1 : Mach),
    let n := p.fmt1.width / 8
    let ia := p.addr.toNat + i * n
    let d := (drawOf s0 p i).1
    let m := (drawOf s0 p i).2
    (∀ r, p.draws[i]? = some r → d = r ∧ m = s0) ∧ (m.homePlace ia n = some pl → (∀ fn a, pl ≠ .host fn a) →
    (m.rmw pl ia n (fun o => pbytes n (radd p.fmt1 p.rmode (valOf o) (p.fmt0.value (valOf src % 2 ^ p.fmt0.width)) d)
      (anyPois src || anyPois o)) {}).1 = .done old m1 →
    s0.addAll p ((i, src) :: rest) = m1.addAll p rest)

/-- The target of a PEER access (R74, R157): the newest task of the tile, and its inbound descriptor, with the scratchpad
offset of the access of `n` bytes. -/
structure PeerTarget (m : Mach) (p : Packet) (n : Nat) (c : Bool) (d : Buf) : Prop where
  lost : m.fromLost p = false
  open_ : m.heldFor p = none
  kind : partyKind p.party = 0
  newest : m.newest (partyTile p.party) = some c
  alive : (m.ctx (partyTile p.party) c).dying = none
  buf : d = (m.ctx (partyTile p.party) c).buf (peerBuf p)
  valid : d.valid = true ∧ d.inbound = true
  fits : peerSlot p < d.slots ∧ peerOff p + n ≤ d.size

/-- PEER_WRITE, PEER_ATOMIC and PEER_REDUCE_STORE (R74, R157, R159, R386): the scratchpad of the target takes the bytes, with
the last write of a slot its tag and a FULL signal; an atomic answers with the old value when it is asked for. -/
def Says.PeerAccessesLand : Prop :=
  ∀ (p : Packet) (c : Bool) (d : Buf) (s : State), s.m.Canon →
    let tile := partyTile p.party
    let x := s.m.ctx tile c
    let key := tsKey tile (d.slotAt (peerSlot p) + peerOff p)
    let n := p.fmt1.width / 8
    let r := (drawOf s.m p 0).1
    let m0 := (drawOf s.m p 0).2
    let ends := fun (i : Instr) (m : Mach) => exec i s = .next { s with m := m }
    (PeerTarget s.m p (max 1 p.data.length) c d →
      (p.arg.getLsbD 23 = false → ends (.peerWrite p) ((wrRun s.m key p.data).respond p 0x21 0 [])) ∧
      (p.arg.getLsbD 23 = true → s.m.cycle = false → settledWaits x → x.sem d.full + x.rsv d.full + 1 ≤ 65535 → (∀ w ∈ x.waitq, w.sem ≠ d.full) →
        ∃ m1 : Mach, ends (.peerWrite p) (m1.respond p 0x21 0 []) ∧
          (∀ k, rdByte m1 k = rdByte (wrRun s.m key p.data) k) ∧ semsBut x (m1.ctx tile c) d.full (x.sem d.full + 1) ∧
          at' 0 ((m1.ctx tile c).buf (peerBuf p)).tags (peerSlot p) = bits p.arg 24 8 ∧ ctxsBut s.m m1 tile c)) ∧
    (PeerTarget s.m p n c d →
      (p.wantsOld = true → ends (.peerAtomic p)
        ((wrRun m0 key (p.atomBytes r (rdRun s.m key n))).answerRead p (rdRun s.m key n))) ∧
      (p.wantsOld = false → ends (.peerAtomic p)
        ((wrRun m0 key (p.atomBytes r (rdRun s.m key n))).respond p 0x21 0 []))) ∧
    (∀ src, PeerTarget s.m p n c d → p.sources = [(0, src)] → ends (.peerReduceStore p)
      ((wrRun m0 key (p.addBytes r src (rdRun s.m key n))).respond p 0x21 0 []))

/-- What a PEER access meets instead (R157): a tile without a task answers 3; a descriptor that is not inbound, or a slot or
offset outside it, answers 6 or 7 with a RANGE record of class CORR, and nothing is stored. Of a run that passes the end of
its slot the bytes inside it are stored, but nothing of three bytes, one group of 6-bit elements; one such record is posted
(the model's choice, log 50; so are status 7 for a SLOT beyond the buffer's, and PARTY, the record's ID, taken from the address). -/
def Says.PeerAccessesAreChecked : Prop :=
  ∀ (p : Packet) (c : Bool) (s : State), s.m.fromLost p = false → s.m.heldFor p = none → partyKind p.party = 0 →
    let tile := partyTile p.party
    let d := (s.m.ctx tile c).buf (peerBuf p)
    let answers := fun (m : Mach) (st : Nat) => exec (.peerWrite p) s = .next { s with m := m.respond p 0x21 st [] }
    let rec_ := fun (st : Nat) => s.m.raise .corr .range
      { src := 0x20000 + tile, eng := 255, id := p.party, a1 := p.addr
        detail := BitVec.ofNat 64 (p.src.toNat * 2 ^ 32 + st) }
    (s.m.newest tile = none → answers s.m 3) ∧
    (s.m.newest tile = some c → (s.m.ctx tile c).dying = none →
      (d.valid = false ∨ d.inbound = false → answers (rec_ 6) 6) ∧
      (d.valid = true → d.inbound = true → (d.slots ≤ peerSlot p ∨ d.size ≤ peerOff p) → answers (rec_ 7) 7) ∧
      (d.valid = true → d.inbound = true → peerSlot p < d.slots → peerOff p < d.size → d.size < peerOff p + p.data.length →
        answers ((wrRun s.m (tsKey tile (d.slotAt (peerSlot p) + peerOff p)) (peerTake p (d.size - peerOff p))).raise
          .corr .range { src := 0x20000 + tile, eng := 255, id := p.party, a1 := p.addr
                         detail := BitVec.ofNat 64 (p.src.toNat * 2 ^ 32 + 7) }) 7))

/-- DATA and ACKNOWLEDGE (R79, R280, R436): the request that the response names, by its tag, its party and its plane, is
outstanding no longer, the tracker entry that counted it falls by
one, and the block that waits takes the data, poisoned where the response says that there are none. -/
def Says.ResponsesCompleteTheirRequest : Prop :=
  ∀ (p : Packet) (r : Request) (a : Agent) (b : Active) (s : State), s.m.Canon →
    s.m.hub.requests.find? (·.answeredBy p) = some r → r.agent = some a →
    let st := s.m.streamOf a
    let c := s.m.ctx a.tile a.ctx
    let gone := fun (t : State) => t.m.hub = { s.m.hub with requests := s.m.hub.requests.erase r } ∧
      ctxsBut s.m t.m a.tile a.ctx ∧ sameBytes s.m t.m ∧ machOnly s t
    (r.tracked = none → st.rwant = none → st.blk = some b → b.await = some p.tag →
      ∃ t, exec (.dataResp p) s = .next t ∧ gone t ∧ t.m.ctx a.tile a.ctx = c.setStream a.eng { st with
        blk := some { b with
          await := none, resp := some (if p.status = 0 then p.data else List.replicate 256 ⟨0, true⟩) } }) ∧
    (∀ e, r.tracked = some e → st.rwant = none → st.blk = none →
      ∃ t, exec (.acknowledge p) s = .next t ∧ gone t ∧
        (∀ k, at' 0 (t.m.ctx a.tile a.ctx).tracker k =
          if k = e then at' 0 c.tracker k - 1 else at' 0 c.tracker k) ∧
        (∀ x, (t.m.ctx a.tile a.ctx).stream x = c.stream x))

/-- REMOTE_SIGNAL (R134, R386): the count reaches the newest task of a tile, a supervisor's doorbell, a hub semaphore or a
host function's ring, by the party's kind, and is acknowledged; for a task it may not pass 65,535, with the counts reserved
for signals of its own, which kills the task and is answered so; elsewhere it stops there. In a cycle that several turns make
up, signals are judged and doorbells rung at its end (R70, R343; the model's own field, log 1), and so not here. -/
def Says.RemoteSignalsReachTheirParty : Prop :=
  ∀ (p : Packet) (c : Bool) (s : State), s.m.Canon → s.m.fromLost p = false → s.m.heldFor p = none →
    let party := p.party
    let sem := p.addr.toNat % 64
    let n := bits p.arg 0 14
    let tile := partyTile party
    let x := s.m.ctx tile c
    let acked := fun (m1 : Mach) (st : Nat) => exec (.remoteSignal p) s = .next { s with m := m1.respond p 0x21 st [] }
    (partyKind party = 0 → s.m.newest tile = some c → x.dying = none → s.m.cycle = false →
      (x.sem sem + x.rsv sem + n ≤ 65535 → settledWaits x → (∀ w ∈ x.waitq, w.sem ≠ sem) → ∃ m1, acked m1 0 ∧
        semsBut x (m1.ctx tile c) sem (x.sem sem + n) ∧ m1.ctx tile c = { x with sems := (m1.ctx tile c).sems } ∧
        ctxsBut s.m m1 tile c ∧ sameBytes s.m m1) ∧
      (65535 < x.sem sem + x.rsv sem + n → x.loaded = true → ∃ (m1 : Mach) (e : Event), acked m1 2 ∧
        m1.ctx tile c = { x with dying := some e, waitq := [], stopping := false } ∧ e.status = Cause.semsat.code)) ∧
    (partyKind party = 0 → s.m.newest tile = none → acked s.m 3) ∧
    (partyKind party = 1 → s.m.cycle = false → sparseOk 0 0 (s.m.cluster (partyCluster party)).db = true → ∃ m1 : Mach, acked m1 0 ∧ ∀ k, look 0 (m1.cluster (partyCluster party)).db k =
      if k = sem then min 65535 (look 0 (s.m.cluster (partyCluster party)).db k + n)
      else look 0 (s.m.cluster (partyCluster party)).db k) ∧
    (partyKind party = 2 → hubServable s.m.hub.sems [] s.m.hub.waiters = none → (∀ w ∈ s.m.hub.waiters, w.2.2.1 ≠ sem) →
      ∃ m1 : Mach, acked m1 0 ∧ ∀ k, at' 0 m1.hub.sems k =
        if k = sem then min 65535 (at' 0 s.m.hub.sems k + n) else at' 0 s.m.hub.sems k) ∧
    (partyKind party = 3 → ∃ (m1 : Mach) (r : Raised), acked m1 0 ∧ m1.hub.raised = s.m.hub.raised ++ [r] ∧ r.ev.type = 2 ∧
      r.ev.id = p.src.toNat ∧ r.ev.a0 = BitVec.ofNat 64 (sem * 65536 + n) ∧ r.rings = [partyFunc party])

/-- System barriers (R75 to R77): on one device the arrival of the last member task completes the instance, and every stream
that stands at it runs on; a completion from the gang's coordinator does the same for the job whose arrival was sent there. An
arrival before the last changes nothing. While a gang's member list cannot be read (R242, R274) the message is held; one from a
lost device is discarded (R425). What a hub sends and keeps of an instance is the model's reading (log 36). -/
def Says.SystemBarriersComplete : Prop :=
  ∀ (p : Packet) (c : Ctx) (j : Job) (s : State), s.m.Canon →
    let g := bits p.arg 12 12
    let id := bits p.arg 8 4
    let passes := fun (i : Instr) => ∃ t, exec i s = .next t ∧
      (∀ n x, (n, x) ∈ s.m.jobCtxs j.id → (s.m.ctx n x).group .sys = some g →
        t.m.ctx n x = (s.m.ctx n x).passBar .sys id s.m.gtc) ∧
      (∀ n x, ¬ ((n, x) ∈ s.m.jobCtxs j.id ∧ (s.m.ctx n x).group .sys = some g) → t.m.ctx n x = s.m.ctx n x) ∧
      sameBytes s.m t.m ∧ machOnly s t
    (s.m.fromLost p = true → exec (.barrierArrival p) s = .next s ∧ exec (.barrierCompletion p) s = .next s) ∧
    (s.m.fromLost p = false → s.m.listsReady = false →
      exec (.barrierArrival p) s = .next { s with m := s.m.keep p } ∧
      exec (.barrierCompletion p) s = .next { s with m := s.m.keep p }) ∧
    (s.m.fromLost p = false → s.m.listsReady = true → partyKind p.src.toNat = 0 →
      ((List.range 2).map (fun k => s.m.ctx (partyTile p.src.toNat) (k = 1))).find?
        (fun c => c.loaded && c.atBar .sys id) = some c →
      s.m.job? c.job = some j → s.m.gangOf j.gang = none →
      (j.membersOf .sys g ≤ s.m.arrivals j.id .sys g id → passes (.barrierArrival p)) ∧
      (s.m.arrivals j.id .sys g id < j.membersOf .sys g → exec (.barrierArrival p) s = .next s)) ∧
    (s.m.fromLost p = false → s.m.listsReady = true → s.m.sentJob (p.src.toNat / 2048) g id = some j →
      passes (.barrierCompletion p))

/-- The streams that a passed instance concerns run on past their bar, one that stands in the trap queue once its record has
been acted on; the others are as they were (R76, R378). -/
def Says.PassedStreamsRunOn : Prop :=
  ∀ (sc : Scope) (id now : Nat) (c : Ctx) (e : Engine),
    ((c.stream e).mode = .barrier sc id → (c.passBar sc id now).stream e =
      { c.stream e with mode := .run, granted := true, since := now }) ∧
    ((c.stream e).mode = .trapped → (c.stream e).bar = some (sc, id) → (c.passBar sc id now).stream e =
      { c.stream e with granted := true, bar := none }) ∧
    ((c.stream e).atBar sc id = false → (c.passBar sc id now).stream e = c.stream e) ∧
    (c.passBar sc id now).sems = c.sems ∧ (c.passBar sc id now).loaded = c.loaded

/-! ## Links and planes (13, 18) -/

/-- FLIT (R285, R419): on a link that is UP an intact flit in order is taken, and a packet of one flit for this chip arrives;
one out of order is not performed; a damaged one is counted, opens a retry episode once and is asked for again. -/
def Says.FlitsArriveInOrder : Prop :=
  ∀ (plane : Nat) (bytes : List Byte) (s : State), s.m.Canon →
    let l := s.m.link plane
    let pay := bytes.take 56
    let q := { packetOf (flitVc bytes) plane pay [] with flits := [bytes] }
    let quiet := fun (t : State) => t.m.ctxs = s.m.ctxs ∧ sameBytes s.m t.m ∧ machOnly s t
    (l.state ≠ 5 → exec (.flit plane bytes) s = .next s) ∧
    (l.state = 5 → flitIntact bytes = true → flitSeq bytes = l.rxSeq → flitKind bytes = 0 → ndataOf pay = 0 →
      ∃ t, exec (.flit plane bytes) s = .next t ∧ (t.m.link plane).rxSeq = (l.rxSeq + 1) % 4096 ∧
        (t.m.link plane).retry = false ∧ t.m.net = (if q.dchip = s.m.hub.chip then s.m.net ++ [q] else s.m.net) ∧ quiet t) ∧
    (l.state = 5 → flitIntact bytes = true → flitSeq bytes ≠ l.rxSeq →
      ∃ t, exec (.flit plane bytes) s = .next t ∧ t.m.net = s.m.net ∧ (t.m.link plane).rxSeq = l.rxSeq ∧ quiet t) ∧
    (l.state = 5 → flitIntact bytes = false → ∃ t, exec (.flit plane bytes) s = .next t ∧ t.m.net = s.m.net ∧
      (t.m.link plane).rxSeq = l.rxSeq ∧ (t.m.link plane).retry = true ∧
      (t.m.link plane).crc = min (2 ^ 32 - 1) (l.crc + 1) ∧
      (t.m.link plane).epis = (if l.retry then l.epis else min 65535 (l.epis + 1)) ∧ quiet t)

/-- Packets and flits (R281 to R284): the packet that a packet's flit payloads carry is that packet, every field of its
header and every data byte with it, but for what a packet keeps on the package alone. -/
def Obligations.PacketsSurviveTheirFlits : Prop :=
  ∀ (p : Packet), opKnown p.op = true → p.dchip < 2 ^ 21 → p.tag < 2 ^ 16 → p.rsv = false → p.vc < 3 →
    (∀ b ∈ p.data, b.p = false) → (p.op = 1 → p.data = [] ∧ 1 ≤ p.bcnt ∧ p.bcnt ≤ 256) → (p.op ≠ 1 → p.bcnt = p.data.length) →
    (opData p.op = true → 1 ≤ p.data.length ∧ p.data.length ≤ 256) →
    (opData p.op = false → p.data = [] ∨ ((p.op = 0x42 ∨ p.op = 0x44) ∧ p.data.length = 4)) →
    p.flits = [] → p.draws = [] →
    ∃ head rest, p.payloads = head :: rest ∧ (∀ b ∈ p.payloads, b.length = 56) ∧ rest.length = ndataOf head ∧
      packetOf p.vc p.plane head rest = p

/-- Training (R362): auto-negotiation, link training, FEC lock and the link layer's start take an enabled port from DOWN's
successor to UP in this order, UP with full credits, LLINIT beginning with the flit that carries CHIPID and the plane (its
layout, and SEQ 1 after it, are the model's, log 47); a port elsewhere stays where it is. Setting EN starts training,
clearing it takes the port down. 100 µs without an acknowledgement take an UP link down to train again (R419, R420); that what was not
acknowledged is lost, and that DOWNS stays at 255, are the model's reading (log 47). -/
def Says.LinksTrain : Prop :=
  ∀ (plane peer : Nat) (by' : Actor) (v : Word64) (s : State), s.m.Canon →
    let l := s.m.link plane
    let turns := fun (i : Instr) (x : Link) => exec i s = .next { s with m := s.m.setLink plane x }
    (l.en = true → (l.state = 1 → turns (.linkAn plane) { l with state := 2 }) ∧
      (l.state = 2 → turns (.linkTrain plane) { l with state := 3 }) ∧
      (l.state = 3 → turns (.linkFec plane) { l with
        state := 4, wire := l.wire ++ [llinitFlit s.m.hub.chip plane] }) ∧
      (l.state = 4 → turns (.linkLlinit plane peer) { l with
        state := 5, peer := peer % 2 ^ 21, txSeq := 1, rxSeq := 1, rxAck := 0, unacked := [], ctl := [], rx := []
        retry := false, resends := 0
        credits := [512, 512, 128], lastAck := s.m.gtc })) ∧
    (l.state ≠ 1 → exec (.linkAn plane) s = .next s) ∧ (l.state ≠ 4 → exec (.linkLlinit plane peer) s = .next s) ∧
    (plane < 8 → s.m.writes s.fw by' (0x4000 + 0x100 * plane) = true →
      (v.getLsbD 0 = true → l.en = false → ∃ t, exec (.lkctlEn by' plane v) s = .next t ∧
        t.m.link plane = { l with en := true, media := v.getLsbD 1, state := 1 } ∧ machOnly s t) ∧
      (v.getLsbD 0 = false → l.en = true → ∃ t, exec (.lkctlEn by' plane v) s = .next t ∧
        (t.m.link plane).en = false ∧ (t.m.link plane).state = 0 ∧ (t.m.link plane).unacked = [] ∧ machOnly s t)) ∧
    (l.state = 5 → l.unacked ≠ [] → l.lastAck + 100000 ≤ s.m.gtc → ∃ t, exec (.ackTimeout plane) s = .next t ∧
      (t.m.link plane).state = (if l.en then 1 else 0) ∧ (t.m.link plane).unacked = [] ∧
      (t.m.link plane).downs = min 255 (l.downs + 1) ∧ t.m.ctxs = s.m.ctxs ∧ sameBytes s.m t.m ∧ machOnly s t) ∧
    (s.m.gtc < l.lastAck + 100000 → exec (.ackTimeout plane) s = .next s)

/-- The plane map after a rehash (R423): hash values of live planes keep their plane, and those of dead planes go to the live
planes by their index. -/
def Says.RehashKeepsLivePlanes : Prop :=
  ∀ (w : Word32) (dead : BitVec 8) (h : Nat), h < 8 → dead ≠ 0xFF#8 →
    let live := (List.range 8).filter (fun p => !dead.getLsbD p)
    let e := pmapEntry w h
    (dead.getLsbD e = false → pmapEntry (rehashed w dead) h = e) ∧
    (dead.getLsbD e = true → live[h % live.length]? = some (pmapEntry (rehashed w dead) h)) ∧
    dead.getLsbD (pmapEntry (rehashed w dead) h) = false

/-- PREHASH and PRHTIME (R422 to R424): naming dead planes clears their ports' EN and starts the rehash; when GTC reaches
the agreed time the new map is in force and nothing waits for it any more. Where no request of a job was lost and no token
request waits at a home, each message that waited is sent, in order of issue, under the new map, and nothing else is. -/
def Says.DeadPlanesAreRehashed : Prop :=
  ∀ (by' : Actor) (v : Word64) (s : State), s.m.Canon →
    let dead := BitVec.ofNat 8 (bits64 v 8 8)
    (s.m.writes s.fw by' 0x30 = true → s.m.hub.rehash ≠ 1 → dead ≠ 0 → dead ≠ 0xFF#8 →
      ∃ t, exec (.prehash by' v) s = .next t ∧ t.m.hub.dead = dead ∧ t.m.hub.rehash = 1 ∧ t.m.hub.pmap = s.m.hub.pmap ∧
        (∀ p, p < 8 → (t.m.link p).en = (if dead.getLsbD p then false else (s.m.link p).en)) ∧
        t.m.ctxs = s.m.ctxs ∧ sameBytes s.m t.m ∧ machOnly s t) ∧
    (s.m.hub.rehash = 1 → s.m.hub.dead ≠ 0xFF#8 → (s.m.reg 0x38).toNat ≤ s.m.gtc →
      (∃ t, exec .prhtime s = .next t ∧ t.m.hub.pmap = rehashed s.m.hub.pmap s.m.hub.dead ∧ t.m.hub.rehash = 2 ∧
        t.m.hub.waiting = [] ∧ machOnly s t) ∧
      (s.m.planeJobs = [] → (∀ d, (s.m.die d).waits = []) → ∃ m1 : Mach,
        m1.hub.pmap = rehashed s.m.hub.pmap s.m.hub.dead ∧ m1.hub.rehash = 2 ∧ m1.hub.waiting = [] ∧ m1.ctxs = s.m.ctxs ∧
        sameBytes s.m m1 ∧ (∀ p ∈ m1.net, p ∈ s.m.net) ∧
        exec .prhtime s = .next { s with m := (s.m.hub.waiting.foldl Mach.send m1).rehashDone })) ∧
    (s.m.gtc < (s.m.reg 0x38).toNat → exec .prhtime s = .next s)

/-- CHIPLOST (R407, R408, R425): the chip counts as lost, and no party of this device holds a region of that chip any
more. -/
def Says.LostChipsAreForgotten : Prop :=
  ∀ (by' : Actor) (v : Word64) (s : State), s.m.Canon → s.m.writes s.fw by' 0x40 = true →
    let chip := bits64 v 0 21
    ∃ t, exec (.chiplost by' v) s = .next t ∧ chip ∈ t.m.hub.lostChips ∧ (∀ c ∈ s.m.hub.lostChips, c ∈ t.m.hub.lostChips) ∧
      (∀ c, ∀ h ∈ (t.m.cluster c).hold, h.base.toNat / 2 ^ 43 ≠ chip) ∧
      (∀ h ∈ t.m.hub.hold, h.base.toNat / 2 ^ 43 ≠ chip) ∧ machOnly s t

/-- PREHASH, PRHTIME and CHIPLOST complete (R337, R356, R422 to R425). A PREHASH that its writer may make, outside a rehash,
stores DEAD, starts a rehash where a plane is dead, and clears EN of every dead plane's port; with all eight dead the device
stops serving, its record having room, and until it has the hub holds the write (R370). PRHTIME, at T, with a plane live, puts
the new map in force. CHIPLOST names a chip lost, and no party of this device holds a region of its any more. A write that may
not be made, a PREHASH during a rehash, and PRHTIME outside one change nothing. -/
def Obligations.RehashAndLossComplete : Prop :=
  ∀ (by' : Actor) (v : Word64) (s : State), s.m.Canon →
    let dead := BitVec.ofNat 8 (bits64 v 8 8)
    let chip := bits64 v 0 21
    (s.m.writes s.fw by' 0x30 = true → s.m.hub.rehash ≠ 1 → dead = 0xFF#8 → s.m.roomFor srcHub = false →
      exec (.prehash by' v) s = .next { s with m := s.m.holdOp (.prehash by' v) }) ∧
    (s.m.writes s.fw by' 0x30 = true → s.m.hub.rehash ≠ 1 → (dead = 0xFF#8 → s.m.roomFor srcHub = true) →
      ∃ t, exec (.prehash by' v) s = .next t ∧ t.m.hub.dead = dead ∧ t.m.hub.pmap = s.m.hub.pmap ∧
        t.m.hub.rehash = (if dead = 0 then s.m.hub.rehash else 1) ∧
        (∀ p, p < 8 → dead.getLsbD p = true → (t.m.link p).en = false) ∧
        (t.m.hub.serving = (if dead = 0xFF#8 then false else s.m.hub.serving)) ∧ machOnly s t) ∧
    (s.m.hub.rehash = 1 → s.m.hub.dead ≠ 0xFF#8 → (s.m.reg 0x38).toNat ≤ s.m.gtc →
      ∃ t, exec .prhtime s = .next t ∧ t.m.hub.pmap = rehashed s.m.hub.pmap s.m.hub.dead ∧ t.m.hub.pmapW = t.m.hub.pmap ∧
        t.m.hub.rehash = 2 ∧ t.m.hub.waiting = [] ∧ machOnly s t) ∧
    (s.m.writes s.fw by' 0x40 = true →
      ∃ t, exec (.chiplost by' v) s = .next t ∧ chip ∈ t.m.hub.lostChips ∧
        (∀ c, ∀ h ∈ (t.m.cluster c).hold, h.base.toNat / 2 ^ 43 ≠ chip) ∧
        (∀ h ∈ t.m.hub.hold, h.base.toNat / 2 ^ 43 ≠ chip) ∧ machOnly s t) ∧
    (s.m.writes s.fw by' 0x30 = false ∨ s.m.hub.rehash = 1 → exec (.prehash by' v) s = .next s) ∧
    (s.m.hub.rehash ≠ 1 → exec .prhtime s = .next s) ∧
    (s.m.writes s.fw by' 0x40 = false → exec (.chiplost by' v) s = .next s)

/-! ## The register space (11, 17) -/

/-- A register that its writer may not write keeps its value, whichever row writes it, and a register out of reach reads as 0
(R337). A VF finds its slots, in ascending order, from offset 0 of its BAR0, one every 0x1000, and its function block at 0x8000
(R292). -/
def Says.RegistersOutOfReach : Prop :=
  ∀ (by' : Actor) (o c i n off : Nat) (ctx : Bool) (v : Word64) (s : State),
    let kept := fun (r : Nat) (x : Instr) => mayWrite s.fw by' r = false → exec x s = .next s
    let at_ := s.m.regAt by' o
    (mayRead s.fw s.m by' at_ = false → readReg s.fw s.m by' o = 0) ∧
    ((∀ f, by' ≠ .vf f) → at_ = o) ∧
    (∀ f k q r, (s.m.slotsOf f)[k]? = some q → r < 0x1000 → s.m.regAt (.vf f) (k * 0x1000 + r) = slotReg q r) ∧
    (∀ f r, r < 0x1000 → s.m.regAt (.vf f) (0x8000 + r) = funcReg f r) ∧
    kept at_ (.registerWrite by' o v) ∧ kept 0 (.chipidWrite by' v) ∧ kept 8 (.pmapWrite by' v) ∧
    kept 0x28 (.gtcadj by' v) ∧ kept 0x30 (.prehash by' v) ∧ kept 0x40 (.chiplost by' v) ∧
    kept 0x5000 (.pciectlReady by' v) ∧ kept (0x2000 + 8 * i) (.pllcWrite by' i v) ∧
    kept (0x4000 + 0x100 * i) (.lkctlEn by' i v) ∧ kept (slotReg i 0) (.qctlWrite by' i v) ∧
    kept (dieReg i 8) (.tcinv by' i v) ∧ kept (dieReg i 0x10) (.dpsplitWrite by' i v) ∧
    kept (dieReg i (0x1000 + 0x1000 * n)) (.hmctlGo by' i n v) ∧ kept (clusterReg c 0) (.cpsplitWrite by' c v) ∧
    kept (clusterReg c 0x1208) (.svctlWrite by' c v) ∧ kept (clusterReg c 0x1480) (.trapactRetry by' c) ∧
    kept (clusterReg c 0x1480) (.trapactSkip by' c) ∧ kept (clusterReg c 0x1480) (.trapactGoto by' c off) ∧
    kept (clusterReg c 0x1480) (.trapactKill by' c) ∧ kept (tileReg n 0x180) (.wdactKill by' n ctx) ∧
    kept (tileReg n 0x180) (.wdactLoad by' n ctx off) ∧ kept (fwReg 0x1200) (.hsig by' v) ∧
    kept (fwReg 0x4020) (.qgo by' v) ∧ kept (fwReg 0x18) (.canctlGo by' v) ∧ kept (fwReg 0x30) (.bootclr by' v) ∧
    (mayRead s.fw s.m by' (clusterReg c (0x1000 + 8 * i)) = false → exec (.doorbellRead by' c i) s = .next s)

/-- Who writes which blocks (R291, R294, R337): the policy core all; a VF its function block; a supervisor its cluster's
registers but SVCTL, and those of its tiles; a queue core the slots, the function blocks and HSIG; the PF the hub always,
and dies, clusters and tiles only under HOSTDBG. -/
def Says.EachCoreReachesItsBlocks : Prop :=
  ∀ (fw : Firmware) (o f c q : Nat),
    mayWrite fw .policy o = true ∧
    (f < 16 → (mayWrite fw (.vf f) o = true ↔ 0x180000 + f * 0x1000 ≤ o ∧ o < 0x181000 + f * 0x1000)) ∧
    (c < 32 → (mayWrite fw (.supervisor c) o = true ↔
      (clusterReg c 0 ≤ o ∧ o < clusterReg c 0x40000 ∧ o ≠ clusterReg c 0x1208) ∨
      (tileReg (16 * c) 0 ≤ o ∧ o < tileReg (16 * c + 16) 0))) ∧
    (mayWrite fw (.queueCore q) o = true ↔ (0x100000 ≤ o ∧ o < 0x190000) ∨ o = 0x201200) ∧
    (o < 0x100000 → mayWrite fw .pf o = true) ∧ (fw.hostdbg = false → 0x1000000 ≤ o → mayWrite fw .pf o = false)

/-- REGISTER_WRITE (R6, R240, R287, R294, R301, R309, R311, R390, R403): what the policy core writes to a register that
software keeps is what it reads, while that core has its clock (R356), within the bounds of the register and with its reserved
bits zero. ROW and COL of ME_PROOF take the value of any writer that R337 allows (R6, R411). TKBASE and TKPARTY keep what is
written (R266); that KSLOT keeps what is written, though no rule says what a write to it does, is the model's reading (R339, log 55). -/
def Obligations.RegistersReadAsWritten : Prop :=
  ∀ (by' : Actor) (v : Word64) (q f d c n : Nat) (s : State), s.m.Canon → q < 128 → f < 16 → d < 4 → c < 32 → n < 512 →
    s.m.powered s.fw .policy = true →
    let reads := fun (off : Nat) (x : Nat) => ∃ t, exec (.registerWrite .policy off v) s = .next t ∧
      readReg t.fw t.m .policy off = BitVec.ofNat 64 x ∧ t.m.ctxs = s.m.ctxs ∧ sameBytes s.m t.m ∧ machOnly s t
    let page := v.toNat / 4096 * 4096
    reads 0x3010 (max 400 (min 1800 (v.toNat % 2048))) ∧ reads 0x10 (max 4000 (v.toNat % 2 ^ 32)) ∧
    reads (slotReg q 8) page ∧ reads (slotReg q 0x20) page ∧ reads (slotReg q 0x28) v.toNat ∧
    reads (funcReg f 8) page ∧ reads (funcReg f 0x10) (v.toNat % 2 ^ 32) ∧ reads (funcReg f 0x20) (v.toNat / 2 ^ 28 * 2 ^ 28) ∧
    reads (dieReg d 0) (v.toNat / 2 ^ 20 % 2 ^ 17 * 2 ^ 20) ∧ reads (dieReg d 0x20) (v.toNat % 2 ^ 32) ∧
    (s.m.heldHot c = false → reads (clusterReg c 0x10) (min 48 (v.toNat % 64))) ∧
    (s.m.heldHot c = true → reads (clusterReg c 0x10) 48) ∧
    reads (clusterReg c 0x100) v.toNat ∧ reads (clusterReg c 0x108) (v.toNat % 2 ^ 32) ∧
    reads (tileReg n 0) (max 4096 (min 16777216 (v.toNat % 2 ^ 25))) ∧ reads (fwReg 0x4800) v.toNat ∧
    ((∀ k, by' ≠ .vf k) → s.m.writes s.fw by' (tileReg n 0x10) = true →
      ∃ t, exec (.registerWrite by' (tileReg n 0x10) v) s = .next t ∧
        (t.m.tile n).row = v.toNat / 256 % 64 ∧ (t.m.tile n).col = v.toNat % 64 ∧
        (by' ≠ .policy → t.m.tile n = { s.m.tile n with row := (t.m.tile n).row, col := (t.m.tile n).col }) ∧
        t.m.ctxs = s.m.ctxs ∧ sameBytes s.m t.m ∧ machOnly s t)

/-- CHIPID, PMAP, CPSPLIT, DPSPLIT and TCINV (R236, R241, R247, R248, R276): CHIPID is written while no port is enabled and no
task loaded; a division of a pool comes into force, its explicit part zero, while its cluster or die holds no task and,
here, has nothing to write back; PMAP while the device is idle; until then they wait as written. TCINV reads 0 at once, for the
model keeps no stale translation (the model's, log 72). -/
def Says.DivisionsComeIntoForceWhenIdle : Prop :=
  ∀ (by' : Actor) (c d : Nat) (v : Word64) (s : State), s.m.Canon →
    let idle := s.m.holdsTask (fun _ => true) = false
    let w := BitVec.ofNat 32 (v.toNat % 2 ^ 24)
    let x := v.toNat % 8
    let zeroed := fun (t : State) (key n : Nat) => (∀ o, o < n → rdByte t.m (key + o) = ⟨0, false⟩) ∧
      (∀ k, (k < key ∨ key + n ≤ k) → rdByte t.m k = rdByte s.m k) ∧ t.m.ctxs = s.m.ctxs ∧ machOnly s t
    (s.m.writes s.fw by' 0 = true →
      (idle → (∀ p, p < 8 → (s.m.link p).en = false) → exec (.chipidWrite by' v) s =
        .next { s with m := { s.m with hub := { s.m.hub with chip := v.toNat % 2 ^ 21 } } }) ∧
      (¬ idle ∨ (∃ p, p < 8 ∧ (s.m.link p).en = true) → exec (.chipidWrite by' v) s = .next s)) ∧
    (s.m.writes s.fw by' 8 = true → exec (.pmapWrite by' v) s = .next { s with m := { s.m with hub := { s.m.hub with
      pmapW := w, pmap := if idle ∧ s.m.noPackets = true then w else s.m.hub.pmap } } }) ∧
    (c < 32 → s.m.writes s.fw by' (clusterReg c 0) = true → ∃ t, exec (.cpsplitWrite by' c v) s = .next t ∧
      (t.m.cluster c).explW = x ∧
      (s.m.holdsTask (fun n => clusterOf n = c) = true → (t.m.cluster c).expl = (s.m.cluster c).expl ∧ sameBytes s.m t.m) ∧
      (s.m.holdsTask (fun n => clusterOf n = c) = false → s.m.dirtyIn c 0 (2 ^ 64) = [] →
        s.m.flushed (s.m.supParty c) 0 64 = true → (s.m.cluster c).expl ≠ x →
        (t.m.cluster c).expl = x ∧ zeroed t (clKey c 0) (x * 2 ^ 21))) ∧
    (d < 4 → s.m.writes s.fw by' (dieReg d 0x10) = true → ∃ t, exec (.dpsplitWrite by' d v) s = .next t ∧
      (t.m.die d).explW = x ∧
      (s.m.holdsTask (fun n => dieOf n = d) = true → (t.m.die d).expl = (s.m.die d).expl ∧ sameBytes s.m t.m) ∧
      (s.m.holdsTask (fun n => dieOf n = d) = false → (s.m.die d).expl ≠ x →
        (t.m.die d).expl = x ∧ zeroed t (diePoolKey d 0) (x * 2 ^ 23))) ∧
    (d < 4 → s.m.writes s.fw by' (dieReg d 8) = true → ∃ t, exec (.tcinv by' d v) s = .next t ∧ readReg t.fw t.m .policy (dieReg d 8) = 0 ∧
      t.m.die d = { s.m.die d with tcinv := 0 } ∧ t.m.ctxs = s.m.ctxs ∧ sameBytes s.m t.m ∧ machOnly s t)

/-- QCTL_WRITE (R295, R365): no slot is enabled before LAYER is 2; a slot without open commands takes the value at once, and starts anew when EN goes from 0 to 1; one
with open commands takes a value that changes more than EN when they have completed. -/
def Says.QueueControlTakesEffect : Prop :=
  ∀ (by' : Actor) (q : Nat) (v : Word64) (s : State), s.m.Canon → q < 128 → s.m.writes s.fw by' (slotReg q 0) = true →
    let x := s.m.queue q
    let w := v &&& (if s.fw.layer = 2 then 0x1FFE3D#64 else 0x1FFE3C#64)
    (x.started = [] → x.late = none → ∃ t, exec (.qctlWrite by' q v) s = .next t ∧ (t.m.queue q).qctl q = w ∧
      (t.m.queue q).ctlW = none ∧ (t.m.queue q).base = x.base ∧
      (w.getLsbD 0 = true → (x.qctl q).getLsbD 0 = false →
        (t.m.queue q).head = 0 ∧ (t.m.queue q).tail = 0 ∧ (t.m.queue q).cmds = []) ∧
      (∀ k, k ≠ q → t.m.queue k = s.m.queue k) ∧ t.m.ctxs = s.m.ctxs ∧ sameBytes s.m t.m ∧ machOnly s t) ∧
    (x.started ≠ [] → w ≠ x.qctl q ||| 1 → ∃ t, exec (.qctlWrite by' q v) s = .next t ∧
      t.m.queue q = { x with ctlW := some w } ∧ (∀ k, k ≠ q → t.m.queue k = s.m.queue k) ∧
      readReg t.fw t.m .policy (slotReg q 0) = w ∧ t.m.ctxs = s.m.ctxs ∧ sameBytes s.m t.m ∧ machOnly s t)

/-- Clocks, training and the hub's ports (R339, R356, R358, R361, R364, R386): PLLC is discarded when it would change a divider
of a PLL that runs; a PLL locks within its bounds; GTCADJ adds to the shift; a step of HBM training runs after the steps
before it, and completes or fails; PCIECTL's READY is set once; HSIG adds to a hub semaphore. -/
def Obligations.ClocksAndTraining : Prop :=
  ∀ (by' : Actor) (i d st rep : Nat) (v : Word64) (s : State), s.m.Canon →
    let old := s.m.reg (0x2000 + 8 * i)
    let divs := fun (x : Word64) => x &&& 0x01FFFF00#64
    let now := fun (t : State) => t.m.ctxs = s.m.ctxs ∧ sameBytes s.m t.m ∧ machOnly s t
    let y := (s.m.die d).stack st
    (i < 35 → s.m.writes s.fw by' (0x2000 + 8 * i) = true →
      (old.getLsbD 30 = true → divs v ≠ divs old → exec (.pllcWrite by' i v) s = .next s) ∧
      (old.getLsbD 30 = false ∨ divs v = divs old → ∃ t, exec (.pllcWrite by' i v) s = .next t ∧
        t.m.reg (0x2000 + 8 * i) = v &&& 0x41FFFF00#64 ∧ (v.getLsbD 30 = true → t.m.locked = s.m.locked) ∧
        (v.getLsbD 30 = false → ∀ k, k ∈ t.m.locked ↔ k ∈ s.m.locked ∧ k ≠ i) ∧ now t)) ∧
    (i < 35 → i ∉ s.m.locked → old.getLsbD 30 = true → bits64 old 23 2 ≠ 3 →
      (let n := bits64 old 8 10
       let m := bits64 old 18 5
       500 * m ≤ 15625 → 15625 ≤ 5000 * m → 200000 * m ≤ 15625 * n → 15625 * n ≤ 440000 * m →
       exec (.pllLock i) s = .next { s with m := { s.m with locked := i :: s.m.locked } })) ∧
    (s.m.writes s.fw by' 0x28 = true →
      exec (.gtcadj by' v) s = .next { s with m := { s.m with adjLeft := s.m.adjLeft + v.toInt } }) ∧
    (s.m.writes s.fw by' 0x5000 = true → v.getLsbD 0 = true → s.m.hub.pcieReady = false →
      exec (.pciectlReady by' v) s = .next { s with m := { s.m with hub := { s.m.hub with
        pcieReady := true, pcie := s.m.hub.pcie ++ [.ready] } } }) ∧
    (d < 4 → st < 2 →
      (s.m.writes s.fw by' (dieReg d (0x1000 + 0x1000 * st)) = true → y.busy = false → v.getLsbD 4 = true →
        1 ≤ v.toNat % 16 → v.toNat % 16 ≤ 9 → v.toNat % 16 ≤ y.done + 1 →
        ∃ t, exec (.hmctlGo by' d st v) s = .next t ∧ (t.m.die d).stack st =
          { y with busy := true, fail := false, step := v.toNat % 16, all := v.getLsbD 5 } ∧ now t) ∧
      (y.busy = true → ∃ t, exec (.hbmStepComplete d st true rep) s = .next t ∧ ((t.m.die d).stack st).done = y.step ∧
        ((t.m.die d).stack st).busy = (y.all && decide (y.step < 9)) ∧
        ((t.m.die d).stack st).rep = (if y.step = 3 then rep % 256 else y.rep) ∧ now t) ∧
      (y.busy = true → ∃ t, exec (.hbmStepComplete d st false rep) s = .next t ∧
        (t.m.die d).stack st = { y with busy := false, fail := true } ∧ now t)) ∧
    (s.m.writes s.fw by' (fwReg 0x1200) = true → hubServable s.m.hub.sems [] s.m.hub.waiters = none →
      (∀ w ∈ s.m.hub.waiters, w.2.2.1 ≠ bits64 v 16 6) → ∃ t, exec (.hsig by' v) s = .next t ∧
        (∀ k, at' 0 t.m.hub.sems k = if k = bits64 v 16 6 then min 65535 (at' 0 s.m.hub.sems k + v.toNat % 65536)
          else at' 0 s.m.hub.sems k) ∧ now t)

/-- VRHOT and THERMAL_HOT (R431, R434, R435): a low regulator pin, and a cluster whose sensors report THOT or more, hold the
clusters at 48; THERM shows what the sensors report, and a TMAX at or above TCRIT raises an alarm. -/
def Says.HeatHoldsTheClocks : Prop :=
  ∀ (low : Bool) (d tmax : Nat) (temps : List Nat) (s : State), s.m.Canon →
    let ts := (temps.take 8).map (· % 256)
    let mx := ts.foldl max (tmax % 256)
    (∃ t, exec (.vrhot low) s = .next t ∧ t.m.hub = { s.m.hub with vrhotLow := low } ∧
      (∀ c, c < 32 → (t.m.cluster c).swallowW =
        if low = true ∨ (s.m.die (c / 8)).thot ≤ at' 0 (s.m.die (c / 8)).temps (c % 8) then 48 else (s.m.cluster c).swallowW) ∧
      t.m.ctxs = s.m.ctxs ∧ sameBytes s.m t.m ∧ machOnly s t) ∧
    (d < 4 → mx < (s.m.die d).tcrit → ∃ t, exec (.thermalHot d tmax temps) s = .next t ∧
      t.m.die d = { s.m.die d with tmax := mx, temps := ts } ∧ (∀ k, k ≠ d → t.m.die k = s.m.die k) ∧
      (∀ i, i < 8 → (s.m.die d).thot ≤ at' 0 ts i → (t.m.cluster (8 * d + i)).swallowW = 48 ∧ (t.m.die d).hot.getLsbD i = true) ∧
      t.m.ctxs = s.m.ctxs ∧ sameBytes s.m t.m ∧ machOnly s t) ∧
    (d < 4 → (s.m.die d).tcrit ≤ mx → s.fw.alarm = none → s.m.roomFor srcHub = true →
      ∃ t, exec (.thermalHot d tmax temps) s = .next t ∧ t.fw.alarm = some 5)

/-! ## The supervisors (12, 17, 19, 22) -/

/-- The operation that a supervisor's TKOP names may go on: the supervisor has its clock (R356), no operation is being accepted
or held, and R259 finds nothing against it. -/
structure MayOperate (s : State) (k code : Nat) (v : Word64) : Prop where
  cluster : k < 32
  clock : 2 ∈ s.m.locked
  busy : (s.m.cluster k).busy = false ∧ (s.m.cluster k).tkheld = none ∧ (s.m.cluster k).tkgone = none
  code : tkCode v = code
  check : s.m.tkCheck k v (BitVec.ofNat 64 (s.m.cluster k).tkbase.toNat) (s.m.cluster k).tkparty = none
  party : s.m.supParty k < 2 ^ 32
  live : s.m.hub.rehash ≠ 1

/-- A supervisor's token operations on its own behalf (R258, R261 to R263, R266): a get of a region that it holds rings its
doorbell at once; a get, put, lend, split or join otherwise goes to the home as its message, a put or lend giving up the
holding first (nothing of the region being dirty, every earlier write-back acknowledged and every load from it answered; until
then the operation stands held); reading a doorbell gives its count and clears it (R343). In a cycle that several turns make up
a doorbell rings at its end (the model's own field, log 1). -/
def Obligations.SupervisorsOperateOnTokens : Prop :=
  ∀ (k : Nat) (v : Word64) (h : Holding) (by' : Actor) (i : Nat) (s : State), s.m.Canon → tkOnb v = false →
    let me := s.m.supParty k
    let base := (s.m.cluster k).tkbase.toNat
    let log2 := tkLog2 v
    let rings := fun (x : Instr) => s.m.cycle = false → sparseOk 0 0 (s.m.cluster k).db = true → ∃ t, exec x s = .next t ∧
      (∀ j, look 0 (t.m.cluster k).db j = if j = tkSem v then min 65535 (look 0 (s.m.cluster k).db j + 1)
        else look 0 (s.m.cluster k).db j) ∧ t.m.hub = s.m.hub ∧ t.m.ctxs = s.m.ctxs ∧ sameBytes s.m t.m ∧ machOnly s t
    let asks := fun (x : Instr) (op : Nat) (gone : Bool) => ∃ t r, exec x s = .next t ∧ asksFor s t op me base log2 r ∧
      (gone = true → t.m.exact me (some 0) base log2 = none) ∧ t.m.ctxs = s.m.ctxs ∧ sameBytes s.m t.m ∧ machOnly s t
    let read := s.m.svReads k base log2 = false
    let clean := read ∧ s.m.dirtyIn k base (2 ^ log2) = [] ∧ s.m.flushed me base log2 = true
    let room := s.m.holdRoom me (s.m.getNeeds me (some 0) base log2) = true
    let stands := fun (x : Instr) => ∃ t, exec x s = .next t ∧
      (t.m.cluster k).tkheld = some (v, base, (s.m.cluster k).tkparty) ∧ t.m.net = s.m.net ∧ t.m.ctxs = s.m.ctxs ∧
      sameBytes s.m t.m ∧ machOnly s t
    (MayOperate s k 0 v → (s.m.atOnce me (some 0) base log2 false = true → rings (.tkopGetExclusive k v)) ∧
      (s.m.atOnce me (some 0) base log2 false = false → room → asks (.tkopGetExclusive k v) 0x41 false) ∧
      (s.m.atOnce me (some 0) base log2 false = false → ¬ room → stands (.tkopGetExclusive k v))) ∧
    (MayOperate s k 1 v → (s.m.atOnce me (some 0) base log2 true = true → rings (.tkopGetShared k v)) ∧
      (s.m.atOnce me (some 0) base log2 true = false → room → asks (.tkopGetShared k v) 0x41 false)) ∧
    (s.m.exact me (some 0) base log2 = some h →
      (MayOperate s k 2 v → clean → asks (.tkopPut k v) 0x43 true) ∧
      (MayOperate s k 2 v → read → s.m.dirtyIn k base (2 ^ log2) = [] → s.m.flushed me base log2 = false → stands (.tkopPut k v)) ∧
      (MayOperate s k 2 v → ¬ read → stands (.tkopPut k v)) ∧
      (MayOperate s k 3 v → clean → h.ex = true → (s.m.cluster k).tkparty ≠ me → asks (.tkopLend k v) 0x44 true) ∧
      (MayOperate s k 4 v → h.ex = true → s.m.holdRoom me (2 ^ tkN v - 1) = true → asks (.tkopSplit k v) 0x46 false)) ∧
    (MayOperate s k 5 v → s.m.coversIn me (some 0) base log2 = true → asks (.tkopJoin k v) 0x47 false) ∧
    (k < 32 → i < 64 → s.m.powered s.fw by' = true → mayRead s.fw s.m by' (clusterReg k (0x1000 + 8 * i)) = true →
      sparseOk 0 0 (s.m.cluster k).db = true →
      readReg s.fw s.m by' (clusterReg k (0x1000 + 8 * i)) = BitVec.ofNat 64 (look 0 (s.m.cluster k).db i) ∧
      ∃ t, exec (.doorbellRead by' k i) s = .next t ∧
        (∀ j, look 0 (t.m.cluster k).db j = if j = i then 0 else look 0 (s.m.cluster k).db j) ∧
        t.m.cluster k = { s.m.cluster k with db := (t.m.cluster k).db } ∧ t.m.ctxs = s.m.ctxs ∧ sameBytes s.m t.m ∧
        machOnly s t)

/-- TRAPACT (R378, R382) on the oldest record of a cluster's trap queue, of a stream that stands outside any block, waits
for nothing and has no other record: RETRY runs it again at the instruction refused; SKIP after the instruction, and GOTO
at the offset given, where the stream holds no page pinned; KILL begins the kill with the record's cause, as does a GOTO out of
the section with BRBOUND. The record leaves the queue. GOTO takes any offset inside the section (R378 gives NEWOFF as a multiple
of the word length; of others the model's, log 58). -/
def Says.TrapActionsReturn : Prop :=
  ∀ (by' : Actor) (k off : Nat) (e : Event) (es : List Event) (s : State), s.m.Canon →
    s.m.writes s.fw by' (clusterReg k 0x1480) = true → (s.m.cluster k).trapq = e :: es → (s.m.cluster k).trapHeld = [] →
    let a := e.agent
    let st := s.m.streamOf a
    let c := s.m.ctx a.tile a.ctx
    let popped := fun (t : State) => (t.m.cluster k).trapq = es ∧ ctxsBut s.m t.m a.tile a.ctx ∧ sameBytes s.m t.m ∧ machOnly s t
    let runs := fun (x : Instr) (pc : Nat) => ∃ t, exec x s = .next t ∧ popped t ∧ (t.m.streamOf a).mode = .run ∧
      (t.m.streamOf a).pc = pc ∧ (t.m.streamOf a).x = st.x ∧ (t.m.streamOf a).rs = st.rs ∧
      t.m.ctx a.tile a.ctx = c.setStream a.eng (t.m.streamOf a)
    let kills := fun (x : Instr) (cause : Cause) => ∃ t d, exec x s = .next t ∧ (t.m.ctx a.tile a.ctx).dying = some d ∧
      d.status = cause.code ∧ d.type = Cls.task.code ∧ d.a0 = e.a0 ∧ d.detail = e.detail ∧ sameBytes s.m t.m ∧ machOnly s t
    (a.eng ≠ .me → st.mode = .trapped → st.blk = none → (∀ w ∈ c.waitq, (w.eng == a.eng && w.who == .stream) = false) →
      clusterOf a.tile = k → (∀ x ∈ es, x.agent ≠ a) → st.bar = none →
      (st.late = false → runs (.trapactRetry by' k) st.trapOff) ∧ (st.late = true → runs (.trapactRetry by' k) st.pc) ∧
      ((∀ d, ∀ p ∈ (s.m.die d).pins, p.2 ≠ scoutKey a) →
        (st.late = false → runs (.trapactSkip by' k) (st.trapOff + st.trapLen)) ∧
        (off < st.clen → runs (.trapactGoto by' k off) off))) ∧
    (c.loaded = true → c.dying = none → kills (.trapactKill by' k) (causeOf e.status) ∧
      (st.clen ≤ off → kills (.trapactGoto by' k off) .brbound))

/-- WDACT and SVCTL (R342, R376, R407, R416): KILL begins the kill with cause WATCHDOG; LOAD puts a forme that passes its
checks into the context of the task killed there last, and is held while the forme's page migrates or trains (R242, R361); SVCTL's RUN and HALF are as written, and RUN = 0 gives up every
token of the supervisor. -/
def Says.SupervisorsAndWatchdogsAct : Prop :=
  ∀ (by' : Actor) (n i ia k : Nat) (ctx : Bool) (j : Job) (bs : List Byte) (v : Word64) (s : State), s.m.Canon →
    let c := s.m.ctx n ctx
    (n < 512 → s.m.writes s.fw by' (tileReg n 0x180) = true →
      (c.loaded = true → c.dying = none → ∃ t e, exec (.wdactKill by' n ctx) s = .next t ∧
        t.m.ctx n ctx = { c with dying := some e, waitq := [], stopping := false } ∧ e.status = Cause.watchdog.code ∧
        e.id = c.party ∧ ctxsBut s.m t.m n ctx ∧ sameBytes s.m t.m ∧ machOnly s t) ∧
      (c.loaded = false → (∃ p, c.killed = some (j.id, p)) → s.m.job? j.id = some j → j.killedAt n ctx = some i →
        ia % 1024 = 0 → s.m.hubRead ia 1024 i = .ok bs → formeCheck bs ia i = .ok () →
        ∃ t, exec (.wdactLoad by' n ctx ia) s = .next t ∧
          (t.m.ctx n ctx).loaded = true ∧ (t.m.ctx n ctx).job = j.id ∧ (t.m.ctx n ctx).fidx = i ∧
          (t.m.ctx n ctx).party = s.m.hub.chip * 2048 + n * 4 ∧
          (∀ e : Engine, ((t.m.ctx n ctx).stream e).entry = fieldAt bs (0x4C + 48 * e.code) 4) ∧
          ctxsBut s.m t.m n ctx ∧ sameBytes s.m t.m ∧ machOnly s t) ∧
      (c.loaded = false → (∃ p, c.killed = some (j.id, p)) → s.m.job? j.id = some j → j.killedAt n ctx = some i →
        ia % 1024 = 0 → s.m.hubRead ia 1024 i = .hold →
        exec (.wdactLoad by' n ctx ia) s = .next { s with m := s.m.holdOp (.wdactLoad by' n ctx ia) })) ∧
    (k < 32 → s.m.writes s.fw by' (clusterReg k 0x1208) = true → ∃ t, exec (.svctlWrite by' k v) s = .next t ∧
      (t.m.cluster k).svrun = v.getLsbD 0 ∧ (t.m.cluster k).svhalf = v.getLsbD 1 ∧
      (v.getLsbD 0 = false → ∀ h ∈ t.m.holdings (s.m.supParty k), ¬ (h.party = s.m.supParty k ∧ h.job = 0)) ∧
      (v.getLsbD 0 = true → (t.m.cluster k).hold = (s.m.cluster k).hold) ∧ t.m.ctxs = s.m.ctxs ∧ sameBytes s.m t.m ∧
      machOnly s t)

/-! ## Boot, security and canaries (17, 18, 23) -/

/-- Reset (R355, R435): every context and register is as State.reset has it, but that a low VRHOT_N holds every cluster at 48; the
rails are in band (R354). The flash, the pins' levels and a tile's faulty cells remain (log 70), every SRAM holds zeros (log 3),
and the agenda, which is the model's own, is as it was: these are the model's choices, for R355 says only that SRAM contents are
not kept. A start that is not over, or whose FAILS is not cleared yet, is counted as failed, with STEP 8 (R432). -/
def Says.ResetsClearTheDevice : Prop :=
  ∀ (s : State), s.m.Canon →
    ∃ t, exec .reset s = .next t ∧ t.agenda = s.agenda ∧ t.fw = {} ∧ t.m.ctxs = [] ∧ t.m.dies = [] ∧
      (s.m.hub.vrhotLow = false → t.m.clusters = []) ∧
      (s.m.hub.vrhotLow = true → ∀ c, c < 32 → t.m.cluster c = { Cluster.blank with swallowW := 48 }) ∧
      t.m.links = [] ∧ t.m.regs = [] ∧ t.m.net = [] ∧ t.m.acc = [] ∧ t.m.poison = [] ∧
      t.m.hub = { vrhotLow := s.m.hub.vrhotLow } ∧ t.m.hub.rails = 0x3FF#10 ∧ t.m.homeq = [] ∧ t.m.dirty = [] ∧ (∀ n, t.m.tile n = { bad := (s.m.tile n).bad }) ∧
      (∀ k, 2 ^ 40 ≤ k → k < 2 ^ 44 → rdRaw t.m k = 0) ∧ (∀ k, 2 ^ 45 ≤ k → rdRaw t.m k = 0) ∧
      (s.unsettled = false → ∀ o, o < 2 ^ 40 → rdRaw t.m (flashKey o) = rdRaw s.m (flashKey o)) ∧
      (s.unsettled = true → rdRaw t.m (flashKey 0x1000) = rdRaw s.m (flashKey 0x1000) ∧
        ∀ i, i < 64 → rdRaw t.m (flashKey (0x1040 + i)) = (bootwhy s.m 8 0).bytes.getD i 0)

/-- The boot chain (R344, R357, R365, R432, R433): out of reset FAILS is counted up and PLL 0 set going, or with three failed
starts PLLs 0 and 1 for minimal mode; the ROM measures the blob and layer 1 and erases UDS; with PCIe up READY is set; the
images of layer 2 are measured, the supervisors and queue cores run and LAYER is 2, with every slot's EN at 0 and PMAP and the
pools' divisions at their reset values. Until the PLLs, the stacks and the link that layer 2 stands on are there, and for
minimal mode's record until it has room (R370), the chain waits. -/
def Says.TheBootChainGoesOn : Prop :=
  ∀ (s : State), s.m.Canon →
    let boots := fun (P : State → Prop) => ∃ t, exec .boot s = .next t ∧ P t
    let enters := fun (t : State) (st : Stage) => t.fw.stage = st ∧ t.fw.stageAt = s.m.gtc
    let flash := fun (t : State) (o : Nat) => rdRaw t.m (flashKey o)
    (s.fw.stage = .rom → s.fw.alarm = none →
      (s.m.fails < 3 → boots fun t => enters t .pll0 ∧ t.m.fails = s.m.fails + 1 ∧ t.m.reg 0x2000 = 0x40E68000#64 ∧
        ∀ o, o < 2 ^ 40 → o ≠ 0x1000 → flash t o = flash s o) ∧
      (3 ≤ s.m.fails → boots fun t => enters t .minPll ∧ t.fw.minimal = true ∧ t.m.reg 0x2000 = 0x40E68000#64 ∧
        t.m.reg 0x2008 = 0x40E60000#64 ∧ ∀ o, o < 2 ^ 40 → flash t o = flash s o)) ∧
    (s.fw.stage = .pll0 → 0 ∈ s.m.locked →
      (Config.imageOk 0 (flashObject s.m 0) = true → Config.imageOk 1 (flashObject s.m 1) = true → s.fw.log.length ≤ 254 →
        boots fun t => enters t .plls ∧ t.fw.layer = 1 ∧ t.fw.uds = none ∧ t.fw.pufLocked = true ∧
          (∃ k, t.fw.cdi1 = some k) ∧ (∃ e1 e2, t.fw.log = s.fw.log ++ [e1, e2] ∧ fieldAt e1 5 1 = 1 ∧ fieldAt e2 5 1 = 2 ∧
            (e1.drop 8).take 32 = digestBytes (digest (flashObject s.m 0)) ∧
            (e2.drop 8).take 32 = digestBytes (digest (flashObject s.m 1)))) ∧
      (Config.imageOk 0 (flashObject s.m 0) = false → boots fun t => enters t .halted ∧ t.fw.layer = s.fw.layer ∧
        ∀ i, i < 64 → flash t (0x1040 + i) = (bootwhy s.m 1 0).bytes.getD i 0)) ∧
    (s.fw.stage = .pcie → s.m.hub.pcieUp = true → boots fun t => enters t .images ∧ t.m.hub.pcieReady = true) ∧
    (s.fw.stage = .images → s.m.standsReady = false → exec .boot s = .next s) ∧
    (s.fw.stage = .images → s.m.standsReady = true → Config.imageOk 2 (flashObject s.m 2) = true → Config.imageOk 3 (flashObject s.m 3) = true →
      Config.imageOk 4 (flashObject s.m 4) = true → s.fw.log.length ≤ 253 →
      boots fun t => enters t .serving ∧ t.fw.layer = 2 ∧ t.fw.cdi1 = none ∧ (∃ k, t.fw.cdi2 = some k) ∧
        t.fw.lockedSlots = [true, true, false] ∧ (∀ c, c < 32 → (t.m.cluster c).svrun = true) ∧
        (∀ q, q < 6 → (at' 0 t.fw.qcctl q).getLsbD 0 = true) ∧ t.m.hub.pmap = 0x00FAC688#32 ∧
        (∀ c, c < 32 → (t.m.cluster c).expl = 4) ∧ (∀ d, d < 4 → (t.m.die d).expl = 0) ∧
        (∀ q, q < 128 → ((t.m.queue q).qctl q).getLsbD 0 = false) ∧
        (∃ e1 e2 e3, t.fw.log = s.fw.log ++ [e1, e2, e3] ∧ fieldAt e1 5 1 = 3 ∧ fieldAt e2 5 1 = 4 ∧ fieldAt e3 5 1 = 5) ∧
        ∀ o, o < 2 ^ 40 → flash t o = flash s o) ∧
    (s.fw.stage = .minPcie → s.m.hub.pcieUp = true → s.m.roomFor srcHub = true → boots fun t => enters t .minimal ∧ t.fw.layer = 15 ∧
      t.m.hub.pcieReady = true ∧ ∃ r, t.m.hub.raised = s.m.hub.raised ++ [r] ∧ r.ev.status = Cause.bootfail.code ∧
        r.ev.type = Cls.device.code)

/-- Failed starts (R432, R433): a PLL that has not locked within 200 µs, PCIe that is not up within 1 s, end the start with its
STEP in BOOTWHY; FAILS is cleared 60 s after LAYER 2, by the policy core while its PLL is locked (R356), and by a 1 written to BOOTCLR. -/
def Says.FailedStartsAreCounted : Prop :=
  ∀ (by' : Actor) (v : Word64) (s : State), s.m.Canon →
    let ends := fun (step : Nat) => ∃ t, exec .bootTimeout s = .next t ∧ t.fw = { s.fw with stage := .halted, stageAt := s.m.gtc } ∧
      (∀ i, i < 64 → rdRaw t.m (flashKey (0x1040 + i)) = (bootwhy s.m step 0).bytes.getD i 0) ∧
      t.m.ctxs = s.m.ctxs ∧ t.m.hub = s.m.hub
    let cleared := fun (t : State) => rdRaw t.m (flashKey 0x1000) = 0 ∧
      (∀ k, k ≠ flashKey 0x1000 → rdRaw t.m k = rdRaw s.m k) ∧ t.m.hub = s.m.hub ∧ t.m.ctxs = s.m.ctxs ∧ machOnly s t
    ((s.fw.stage = .pll0 ∨ s.fw.stage = .plls) → s.fw.stageAt + 200000 < s.m.gtc → ends 4) ∧
    (s.fw.stage = .pcie → s.fw.stageAt + 10 ^ 9 < s.m.gtc → ends 6) ∧
    (s.fw.stage.starting = false → exec .bootTimeout s = .next s) ∧
    (0 ∈ s.m.locked → s.fw.stage = .serving → s.fw.stageAt + 60 * 10 ^ 9 ≤ s.m.gtc → ∃ t, exec .failsClear s = .next t ∧ cleared t) ∧
    (s.fw.stage ≠ .serving ∨ 0 ∉ s.m.locked → exec .failsClear s = .next s) ∧
    (s.m.writes s.fw by' (fwReg 0x30) = true → v.getLsbD 0 = true → ∃ t, exec (.bootclr by' v) s = .next t ∧ cleared t)

/-- QGO (R349): the nonce, LOGCNT and LOGD are captured together, and the next turn of time, unless an alarm is due with it,
signs them with slot 2 (the model's, log 69); while a quote is in progress, and after an alarm, QGO is discarded (R431). -/
def Says.QuotesSignTheLog : Prop :=
  ∀ (by' : Actor) (v : Word64) (n : Nat) (secret : BitVec 256) (ts : List Turn) (s : State),
    let f := s.fw
    let c := (f.nonce ++ List.replicate 32 0).take 32 ++ bytesOf 4 f.log.length ++ bytesOf 4 0 ++ digestBytes f.logd
    let t := { s with fw := { f with capture := some c } }
    (s.m.writes f by' (fwReg 0x4020) = true → v.getLsbD 0 = true → f.capture = none → f.alarm = none →
      exec (.qgo by' v) s = .next t ∧ (f.cdi2 = some secret → t.agenda = .edges n :: ts → f.alarmDue = none →
        (∀ d, d < 4 → (s.m.die d).tmax < (s.m.die d).tcrit) → ∃ u, step t = .next u ∧ u.fw = { f with
          quote := c ++ rsaSign (deriveKey secret 2) c, quoteDone := true, capture := none })) ∧
    (f.capture ≠ none ∨ f.alarm ≠ none → exec (.qgo by' v) s = .next s)

/-- An alarm (R354, R370, R431): CDI2 and the key slots are erased, every task is killed without a record, the supervisors stop,
and ALARM is posted with the source, of a rail with its bit of RAILST, which shows that it has left its band. Where the record
has no room the hub holds the alarm until it has. -/
def Says.AlarmsStopTheDevice : Prop :=
  ∀ (source detail : Nat) (s : State), s.m.Canon → s.fw.alarm = none →
    let rails := if source = 4 then (s.m.setRail detail false).hub.rails else s.m.hub.rails
    (s.m.roomFor srcHub = false → s.fw.alarmDue = none → ∃ t, exec (.alarm source detail) s = .next t ∧
      t.fw = { s.fw with alarmDue := some (source, detail) } ∧ t.m.hub = { s.m.hub with rails := rails } ∧
      t.m.ctxs = s.m.ctxs ∧ sameBytes s.m t.m) ∧
    (s.m.roomFor srcHub = true → s.unsettled = false → ∃ t r, exec (.alarm source detail) s = .next t ∧ t.fw.cdi2 = none ∧ t.fw.lockedSlots = [true, true, true] ∧
      t.fw.alarm = some source ∧ t.fw.capture = none ∧ t.m.hub.serving = false ∧
      (∀ n c, (s.m.ctx n c).loaded = true → (t.m.ctx n c).dying.isSome = true) ∧
      (∀ n c e, (s.m.ctx n c).dying = none → (t.m.ctx n c).dying = some e → e.status = 0) ∧
      (∀ k, (t.m.cluster k).svrun = false) ∧ t.m.hub.raised = s.m.hub.raised ++ [r] ∧ r.ev.status = Cause.alarm.code ∧
      r.ev.type = Cls.device.code ∧ 0 ∈ r.rings ∧ t.m.hub.rails = rails ∧ sameBytes s.m t.m ∧
      r.ev.detail = BitVec.ofNat 64 (if source = 4 then 4 + detail % 256 * 256 else source))

/-- Canaries (R350, R351, R430): CANCTL's fields are written; with GO an image that fits the saved contexts is measured, with
KIND 6, and runs on queue core 5, once its pages can be read (until then it stands in STATE 1, the model's, log 68); a ripening canary is reverted on an error of its load, with
KIND 8, and after its PERIOD committed, with KIND 7, while the policy core's PLL is locked (R356); a core that still waits for a committed image takes it meanwhile. -/
def Says.CanariesRipen : Prop :=
  ∀ (by' : Actor) (v : Word64) (head : List Byte) (bs : List PByte) (mx : Mach) (s : State), s.m.Canon →
    let c := s.fw.can
    let named := { c with period := bits64 v 16 16, cl := bits64 v 11 5, supervisor := v.getLsbD 10 }
    let img := (s.m.reg (fwReg 0x28)).toNat
    let n := Config.imageSize head
    let raw := bs.map (·.b)
    let span := c.goPeriod * 10 ^ 9
    (s.m.writes s.fw by' (fwReg 0x18) = true →
      (v.getLsbD 0 = false → exec (.canctlGo by' v) s = .next { s with fw := { s.fw with can := named } }) ∧
      (v.getLsbD 0 = true → c.state = 1 ∨ c.state = 2 → exec (.canctlGo by' v) s = .next s) ∧
      (v.getLsbD 0 = true → c.state ≠ 1 → c.state ≠ 2 → s.m.hubRead img 64 0xFFFF = .hold →
        ∃ t, exec (.canctlGo by' v) s = .next t ∧ t.fw.can.state = 1 ∧ t.fw.can.go = true ∧ t.m = s.m) ∧
      (v.getLsbD 0 = true → c.state ≠ 1 → c.state ≠ 2 → v.getLsbD 10 = false → s.m.hubRead img 64 0xFFFF = .ok head →
        s.m.areaBytes img (n / 4096 + 2) n = .done bs mx → s.m.spanOk (imageRmin raw) (imageWver raw) = true →
        s.fw.log.length < 256 → ∃ t, exec (.canctlGo by' v) s = .next t ∧ t.fw.can.state = 2 ∧
          t.fw.can.digest = digest raw ∧ t.fw.can.since = s.m.gtc ∧ t.fw.can.period = bits64 v 16 16 ∧
          t.fw.can.goPeriod = bits64 v 16 16 ∧ t.fw.can.go = false ∧
          t.fw.log = s.fw.log ++ [logEntry s.fw.log.length 2 6 (digest raw) (imageVer raw) raw.length] ∧
          (∀ i, i < raw.length → i < 2 ^ 16 → rdRaw t.m (qcKey 5 i) = raw.getD i 0) ∧ t.m.ctxs = s.m.ctxs)) ∧
    (0 ∉ s.m.locked → ∀ ok, exec (.ripeningPeriodEnd ok) s = .next s) ∧
    (0 ∈ s.m.locked → c.state = 2 → s.fw.log.length < 256 →
      (∀ why ok, canaryError s = some why → ∃ t, exec (.ripeningPeriodEnd ok) s = .next t ∧ t.fw.can.state = 4 ∧
        t.fw.can.why = why ∧ t.m = s.m ∧
        t.fw.log = s.fw.log ++ [logEntry s.fw.log.length 2 8 c.digest c.ver c.size]) ∧
      (canaryError s = none → s.m.gtc < c.since + span → ∀ ok, exec (.ripeningPeriodEnd ok) s = .next (canaryReload s)) ∧
      (canaryError s = none → c.since + span ≤ s.m.gtc → s.m.spanOk c.rmin c.wver = true →
        ∃ t, exec (.ripeningPeriodEnd true) s = .next t ∧ t.fw.can.state = 3 ∧ t.fw.can.why = 0 ∧ t.fw.rmin = c.rmin ∧
          t.fw.wver = c.wver ∧ t.fw.log = s.fw.log ++ [logEntry s.fw.log.length 2 7 c.digest c.ver c.size] ∧
          t.m.ctxs = s.m.ctxs)) ∧
    (c.left = [] → canaryReload s = s) ∧
    (∀ u us, c.left = (false, u) :: us →
      (∀ q, q < 128 → bits64 ((s.m.queue q).qctl q) 9 3 = u → (s.m.queue q).started = []) →
      (canaryReload s).fw = { s.fw with can := { c with left := us } } ∧
        ∀ i, i < (flashObject s.m 3).length → i < 2 ^ 16 → rdRaw (canaryReload s).m (qcKey u i) = (flashObject s.m 3).getD i 0)

/-! ## The package (14, 19, 21, 23) -/

/-- Stripes of a scratchpad (R393 to R396; which addresses a stripe holds is the model's, log 63): one bad granule is rebuilt, with a record of class CORR, and no byte changes; two
are poisoned, with a record of class DEFER, and no other byte changes. A patrol that is enabled reads the stripe that is next
in its array, hands a column mismatch on, and turns to the following one; one that is not enabled does nothing. -/
def Says.StripesRecover : Prop :=
  ∀ (n stripe i j : Nat) (kind : ArrayKind) (bad : List Nat) (column : Bool) (s : State), s.m.Canon → n < 512 →
    stripe < 2048 → i < 64 → j < 64 → i ≠ j → s.m.roomFor (srcTile n) = true →
    let granule := fun (i : Nat) => tsKey n (8 * (stripe / 64 * 4096 + stripe % 64 + 64 * i))
    let rec_ := fun (t : State) (cls : Cls) (detail : Nat) => ∃ r, t.m.hub.raised = s.m.hub.raised ++ [r] ∧
      r.ev.status = Cause.dataerr.code ∧ r.ev.type = cls.code ∧ r.ev.detail = BitVec.ofNat 64 detail
    (∃ t, exec (.stripeRecovery .scratchpad n stripe [i] column) s = .next t ∧ rec_ t .corr (2 ^ 56 + 2 ^ 48) ∧
      t.m.ctxs = s.m.ctxs ∧ sameBytes s.m t.m ∧ machOnly s t) ∧
    (∃ t, exec (.stripeRecovery .scratchpad n stripe [i, j] column) s = .next t ∧ rec_ t .defer (2 ^ 56 + 2 * 2 ^ 48 + 2 * 2 ^ 32) ∧
      (∀ o, o < 8 → (rdByte t.m (granule i + o)).p = true ∧ (rdByte t.m (granule j + o)).p = true) ∧
      (∀ k, k / 8 ≠ granule i / 8 → k / 8 ≠ granule j / 8 → rdByte t.m k = rdByte s.m k) ∧ t.m.ctxs = s.m.ctxs ∧
      machOnly s t) ∧
    (exec (.stripeRecovery kind n stripe [] false) s = .next s) ∧
    ((s.m.scrubOf kind n).getLsbD 16 = true → kind ≠ .hbm → kind ≠ .regs → stripe = s.m.scrubAt kind n →
      sparseOk 0 0 s.m.scrubs = true →
      (s.m.roomFor (arraySrc kind n) = true → ∃ m1 m2 : Mach,
        exec (.stripeRecovery kind n stripe bad true) s = .next { s with m := m1 } ∧
        exec (.patrolScrub kind n stripe bad true) s = .next { s with m := m2 } ∧ m2 = { m1 with scrubs := m2.scrubs } ∧
        m2.scrubAt kind n = (stripe + 1) % stripeCount kind n) ∧
      (∃ m2 : Mach, exec (.patrolScrub kind n stripe bad false) s = .next { s with m := m2 } ∧
        m2 = { s.m with scrubs := m2.scrubs } ∧ m2.scrubAt kind n = (stripe + 1) % stripeCount kind n)) ∧
    (stripe ≠ s.m.scrubAt kind n → exec (.patrolScrub kind n stripe bad column) s = .next s) ∧
    ((s.m.scrubOf kind n).getLsbD 16 = false → exec (.patrolScrub kind n stripe bad column) s = .next s)

/-- A frame filled (R244, R406): it takes the page's copy from the host, or poison where the page is poisoned, its entry names
the frame, and no other byte changes. -/
def Says.FramesAreFilled : Prop :=
  ∀ (d off frame : Nat) (copy : List Byte) (m : Mach), m.Canon → d < 4 →
    let p := m.page d off
    let t := m.fillFrame d off frame (some copy)
    let entry := hbmKey d p.entry
    copy.length = p.size → frame % 8 = 0 →
    (p.state ≠ 3 → ∀ i, i < p.size → rdByte t (hbmKey d frame + i) = ⟨copy.getD i 0, false⟩) ∧
    (p.state = 3 → ∀ i, i < p.size → (rdByte t (hbmKey d frame + i)).p = true) ∧
    (∀ k, (k < hbmKey d frame ∨ hbmKey d frame + p.size ≤ k) → (k < entry ∨ entry + 8 ≤ k) → rdByte t k = rdByte m k) ∧
    t.ctxs = m.ctxs ∧ t.hub = m.hub

/-- PAGE_IN (R160, R166, R242, R244, R356, R361, R403, R404): nothing happens while the home's stacks train, or the policy core's
PLL is not locked. The page-in that is next
in its home's order takes a free frame, made free where need be, and its page is pinned for the stream that asked; where no
frame can be made free it ends NOFRAME, and waits where one may become free; a page that a scout finds resident by then is
pinned; a poisoned one, NOFRAME judged before it, and a migrating one leave the order as they are. A later one of the order
waits for its turn. Firmware brings in a page that nobody asks for the same way, but pins nothing. Which frame is taken is open
(log 2). -/
def Says.PagesComeIn : Prop :=
  ∀ (ia : Word64) (copy : List Byte) (r : PageIn) (rs : List PageIn) (frame : Nat) (m1 : Mach) (s : State), s.m.Canon →
    let d := pageDie ia
    let off := pageOff ia
    let x := s.m.die d
    let me := s.m.pageIa d off
    let o := pageOff r.page
    let p := s.m.page d o
    let q := s.m.page d off
    let ends := fun (m : Mach) => exec (.pageIn ia (some copy)) s = .next { s with m := m }
    let refused := fun (m : Mach) => m.setDie d { m.die d with noframe := (m.die d).noframe ++ [(r.page, r.key)] }
    (s.m.dieOpen d = false ∨ 0 ∉ s.m.locked → exec (.pageIn ia (some copy)) s = .next s) ∧
    (d < 4 → s.m.dieOpen d = true → 0 ∈ s.m.locked →
    (x.pageins = r :: rs → r.page = me →
      (p.state = 1 → r.ps = [] → ends ((s.m.setDie d { x with pageins := rs }).pin d o r.key)) ∧
      (p.state = 1 ∧ r.ps ≠ [] ∨ p.state = 2 → ends (s.m.setDie d { x with pageins := rs })) ∧
      (p.state = 3 → ends (if (s.m.freeUnits d < p.units ∨ s.m.freeFrame d p.size = none) ∧ s.m.noFrame d r.ps = true
        then refused (s.m.setDie d { x with pageins := rs }) else s.m.setDie d { x with pageins := rs })) ∧
      (p.state = 0 →
        (s.m.makeRoom d p.size p.units r.ps ((s.m.framed d).length + 1) = (some frame, m1) →
          ends (((m1.fillFrame d o frame (some copy)).popPage d).pin d o r.key)) ∧
        (s.m.makeRoom d p.size p.units r.ps ((s.m.framed d).length + 1) = (none, m1) →
          (m1.noFrame d r.ps = true → ends (refused (m1.popPage d))) ∧ (m1.noFrame d r.ps = false → ends m1)))) ∧
    (x.pageins = r :: rs → r.page ≠ me → (∃ k ∈ rs, k.page = me) → exec (.pageIn ia (some copy)) s = .next s) ∧
    ((∀ k ∈ x.pageins, k.page ≠ me) →
      (q.state = 1 ∨ q.state = 2 → exec (.pageIn ia (some copy)) s = .next s) ∧
      (q.state = 0 ∨ q.state = 3 → s.m.makeRoom d q.size q.units [] ((s.m.framed d).length + 1) = (some frame, m1) →
        ends (m1.fillFrame d off frame (some copy)))))

/-- TOKEN_RECLAIM (R407): the region that a dead holder left in a die's pool is swept, every granule poisoned, its entry comes
home, and a TOKLOST record of class DEFER names it. An entry that no dead holder left is passed over. -/
def Says.LostTokensAreReclaimed : Prop :=
  ∀ (d i k o : Nat) (e : TokEntry) (s : State), s.m.Canon → (s.m.die d).tok.find? (fun e => e.1 = i) = some (i, e) → d < 4 →
    (e.pois = false ∨ e.excl = false → exec (.tokenReclaim d i) s = .next s) ∧
    (e.pois = true → e.excl = true → s.m.roomFor (srcDie d) = true → (s.m.die d).waits = [] →
      s.m.onItsWay e.party (s.m.tokIa e) (2 ^ e.log2) = false →
      sparseOk TokEntry.blank 0 (s.m.die d).tok = true → areaOf (iaLocal (s.m.tokIa e)) = .dpool k o →
      12 ≤ e.log2 → ∃ t r, exec (.tokenReclaim d i) s = .next t ∧ t.m.hub.raised = s.m.hub.raised ++ [r] ∧
        r.ev.status = Cause.toklost.code ∧ r.ev.type = Cls.defer.code ∧ r.ev.a1 = BitVec.ofNat 64 (s.m.tokIa e) ∧
        (∀ j, j < 2 ^ e.log2 → (rdByte t.m (diePoolKey k o + j)).p = true) ∧
        (∀ j, (j < diePoolKey k o ∨ diePoolKey k o + 2 ^ e.log2 ≤ j) → rdByte t.m j = rdByte s.m j) ∧
        (look TokEntry.blank (t.m.die d).tok i).excl = false ∧ (look TokEntry.blank (t.m.die d).tok i).pois = false ∧
        t.m.ctxs = s.m.ctxs ∧ machOnly s t)

/-- Gang slices (R325 to R327, R429): within a slice a member that is ready starts the gang's placed jobs; one that is late marks
its tasks' parties. A job of the gang stops at the end of the slice that it started in, which it keeps. The coordinator checks the start records once,
and clears the aborts when all are there; where one is missing it signals hub semaphore 62 of every member, and stops its own
jobs of the gang, as does a member that is told to. All of it is the policy core's work, while its PLL is locked (R356). While a page or plane of the gang's lists is held it waits (R242, R274).
Counting aborts on every member, and taking one count of semaphore 62 at each check, are the model's choice (log 62). -/
def Obligations.GangsRunInSlices : Prop :=
  ∀ (g : Nat) (s : State), s.m.Canon → g < 16 →
    let e := s.m.gang g
    let start := s.m.sliceStart e
    let js := (s.m.gangJobs e).filter (fun j => j.st = .placed || j.st = .stopped)
    let run := (s.m.gangJobs e).filter (fun j => j.st = .running)
    let due := run.filter (fun j => decide (j.till ≤ s.m.gtc))
    let inSlice := start ≤ s.m.gtc ∧ s.m.gtc < s.m.sliceEnd e
    (0 ∉ s.m.locked → ∀ i ∈ [Instr.gangSliceStart g true, .gangSliceStart g false, .gangSliceEnd g, .gangStartCheck g],
      exec i s = .next s) ∧
    (e.gid ≠ 0 → 0 ∈ s.m.locked →
    (inSlice → s.m.gangOpen e = true → s.m.gtc ≤ start + 200000 → js ≠ [] → (∀ j ∈ js, j.st = .placed ∧ s.m.canStart j = true) → s.m.hub.held = [] →
      ∃ t, exec (.gangSliceStart g false) s = .next t ∧ (∀ j ∈ js, ∀ k ∈ t.m.hub.jobs, k.id = j.id → k.st = .running) ∧
        t.m.ctxs = s.m.ctxs ∧ machOnly s t) ∧
    (inSlice → s.m.gangOpen e = true → ∃ t, exec (.gangSliceStart g true) s = .next t ∧ t.m.hub = { s.m.hub with marked := t.m.hub.marked } ∧
      (∀ j ∈ js, ∀ f ∈ j.formes, (f.st = .loaded ∨ f.st = .stopped) → s.m.hub.chip * 2048 + f.tile * 4 ∈ t.m.hub.marked) ∧
      (∀ p ∈ s.m.hub.marked, p ∈ t.m.hub.marked) ∧ t.m.ctxs = s.m.ctxs ∧ sameBytes s.m t.m ∧ machOnly s t) ∧
    (∃ t, exec (.gangSliceEnd g) s = .next t ∧
      (∀ j ∈ due, ∀ k ∈ t.m.hub.jobs, k.id = j.id → k.st = .stopping) ∧
      (∀ j ∈ due, ∀ n c, (n, c) ∈ s.m.jobCtxs j.id → (s.m.ctx n c).dying = none → (t.m.ctx n c).stopping = true) ∧
      sameBytes s.m t.m ∧ machOnly s t) ∧
    (due = [] → exec (.gangSliceEnd g) s = .next s) ∧
    (e.pos = 0 → s.m.gtc < start + 200000 → exec (.gangStartCheck g) s = .next s) ∧
    (e.pos = 0 → start ≠ 0 → start + 200000 ≤ s.m.gtc → look 0 s.m.hub.checked g ≠ start →
      sparseOk 0 0 s.m.hub.checked = true → s.m.gangOpen e = true → (∀ p, p < e.nmem → s.m.syncWord e (64 + 8 * p) = start) →
      ∃ t, exec (.gangStartCheck g) s = .next t ∧ look 0 t.m.hub.checked g = start ∧
        (∀ j ∈ s.m.gangJobs e, ∀ k ∈ t.m.hub.jobs, k.id = j.id → k.aborts = 0) ∧ t.m.ctxs = s.m.ctxs ∧ sameBytes s.m t.m ∧
        machOnly s t) ∧
    (e.pos = 0 → start ≠ 0 → start + 200000 ≤ s.m.gtc → look 0 s.m.hub.checked g ≠ start →
      sparseOk 0 0 s.m.hub.checked = true → s.m.gangOpen e = true → (∃ p, p < e.nmem ∧ s.m.syncWord e (64 + 8 * p) ≠ start) →
      (s.m.hub.jobs.map (·.id)).Nodup → (∀ j ∈ s.m.gangJobs e, j.aborts < 7) →
      ∃ t, exec (.gangStartCheck g) s = .next t ∧ look 0 t.m.hub.checked g = start ∧
        (∀ j ∈ run, ∀ k ∈ t.m.hub.jobs, k.id = j.id → k.st = .stopping ∧ k.aborts = j.aborts + 1) ∧
        (∀ c ∈ s.m.members e, c ≠ s.m.hub.chip → ∃ r ∈ t.m.hub.requests, r.op = 0x40 ∧ r.chip = c ∧
          r.addr = partyAddr (c * 2048 + 2) 62) ∧ sameBytes s.m t.m ∧ machOnly s t) ∧
    (e.pos ≠ 0 → at' 0 s.m.hub.sems 62 = 0 → exec (.gangStartCheck g) s = .next s) ∧
    (s.m.gangOpen e = false → exec (.gangStartCheck g) s = .next s ∧ ∀ late, exec (.gangSliceStart g late) s = .next s) ∧
    (e.pos ≠ 0 → 0 < at' 0 s.m.hub.sems 62 → s.m.gangOpen e = true → (s.m.hub.jobs.map (·.id)).Nodup → (∀ j ∈ s.m.gangJobs e, j.aborts < 7) →
      ∃ t, exec (.gangStartCheck g) s = .next t ∧ at' 0 t.m.hub.sems 62 = at' 0 s.m.hub.sems 62 - 1 ∧
        (∀ j ∈ run, ∀ k ∈ t.m.hub.jobs, k.id = j.id → k.st = .stopping ∧ k.aborts = j.aborts + 1) ∧ sameBytes s.m t.m ∧
        machOnly s t))

/-! ## Decoding and the step (04, 20) -/

/-- Words written out from the tables of R87 and R90, and words that the tables refuse (R102, R383): MASK holds the 1 bits of a field
that must be zero, and the whole of one whose value is reserved (the model's reading, log 20). -/
def Obligations.WordsDecodeAsTheTablesSay : Prop :=
  (∀ e ∈ [Engine.le, .se, .ve], decode e [0x0850012C#32] = .ok (.wait 5 300)) ∧
  decode .le [0x10344009#32, 0] = .ok (.sigr 3 17 9) ∧
  decode .se [0x1C108004#32, 0xFFFFFFFD#32] = .ok (.brx .ltu 1 2 (-3)) ∧
  decode .ve [0x30404000#32, 0x80000000#32] = .ok (.xli 4 .sx 0x80000000#32) ∧
  decode .me [0x3420E005#32, 0, 0, 0] = .ok (.xop 2 3 .sra .operand 5) ∧
  decode .le [0x40150701#32, 0] = .ok (.tkget 1 20 7 true) ∧
  decode .me [0x88040E00#32, 0, 0, 0, 32, 0, 0, 0] = .ok (.mrb {} 32) ∧
  decode .ve [0x840C0E00#32, 0, 0, 0] = .ok (.vrst {}) ∧
  decode .me [0x40150701#32, 0, 0, 0] = .error (.illop 0x40150701#32) ∧
  decode .le [0x58000000#32, 0] = .error (.illop 0x58000000#32) ∧
  decode .le [0x00000001#32, 0] = .error (.badField 0 1) ∧
  decode .le [0x08000000#32, 0] = .error (.badField 0 0xFFFFF)

/-- A common instruction survives its encoding: what an engine decodes from the words of a well-formed one is that
instruction, with every operand. -/
def Obligations.CommonInstructionsSurviveTheirWords : Prop :=
  ∀ (e : Engine) (i : Instr), i.wf e = true → (encodeCommon i).isSome = true → decode e (encode e i) = .ok i

/-- A control block survives its encoding: where its words have no finding (spaces, formats and the other conditions that
depend on several fields, R380) and its body breaks no rule (R383), an engine decodes from the words of a well-formed block that
block, with every field of its header, loop record, windows and operators, and of a vector body every word. -/
def Obligations.BlocksSurviveTheirWords : Prop :=
  ∀ (e : Engine) (i : Instr) (m : Major) (h : Hdr) (f : Nat) (ws : List (Win × Option Pad)) (ops : List Word32),
    i.wf e = true → blockRecords i = some (m, h, f, ws, ops) → (encode e i).length ≤ 256 * e.sylPerWord →
    blockFindings m (encode e i) = [] → blockRules m (encode e i) = [] → decode e (encode e i) = .ok i

/-- One step (R64, R83, R127, R133, R141, R191, R242, R262, R322, R356, R379; the agenda is the model's own, log 1): what the
stream whose turn it is has under way beside its instructions goes on (`besides`: a sigr behind its pfence, a release after its
own); then it asks for what it needs to know of its safe points, and on the ME repeats the loads of a restored set; then it
goes on inside its block, or the instruction whose words stand at its offset runs, or, where they are refused, the failure is
taken; an instruction that reads memory as it issues waits for the signals behind a pfence (R148). A message whose way has its
clocks, and that no held one to its page holds back, is performed as the instruction that its OP names; a step of the machine
that no stream fetches runs as itself. -/
def Obligations.AStepRunsTheDecodedInstruction : Prop :=
  ∀ (a : Agent) (i : Instr) (b : Active) (bs cs : List PByte) (m1 : Mach) (n k : Nat) (f : Trap) (p : Packet) (r : Reload)
    (ts : List Turn) (s : State), s.m.Canon →
    let turn := fun (x : Turn) => step { s with agenda := x :: ts }
    let at_ := fun (m : Mach) => { s with agenda := ts, m := m }
    let u := s.m.besides a
    let m0 := { u with cur := a }
    let st := m0.str
    let mp := m0.setStr { st with prev := st.last }
    let alive := a.tile < 512 ∧ s.m.clocked a.tile = true ∧ (s.m.ctx a.tile a.ctx).dying = none
    let asked := alive ∧ u.sideAsk a = none
    let ready := asked ∧ u.reloadDue a = none ∧ u.issues a = true
    let w := a.eng.wordBytes
    let words := instrWords a.eng ((sylsOf bs).getD 0 0)
    ((s.m.streamOf a).posts = [] → (∀ x ∈ (s.m.ctx a.tile a.ctx).leaving, x.eng = a.eng.code → x.out = false) → u = s.m) ∧
    (¬ alive → turn (.stream a) = .next (at_ s.m)) ∧
    (alive → u.sideAsk a = some m1 → turn (.stream a) = .next (at_ m1)) ∧
    (asked → u.reloadDue a = some r →
      turn (.stream a) = .next (at_ ((m0.reloadTurn r).revive (m0.reloadTurn r).curCtx.job))) ∧
    (asked → u.reloadDue a = none → u.issues a = false → turn (.stream a) = .next (at_ u)) ∧
    (ready → st.blk = some b → turn (.stream a) = exec b.instr (at_ m0)) ∧
    (ready → st.blk = none →
      (m0.fetch = .ok i n m1 → (readsEarly i = false ∨ st.posts = []) → turn (.stream a) = exec i (at_ m1)) ∧
      (m0.fetch = .ok i n m1 → readsEarly i = true → st.posts ≠ [] → turn (.stream a) = .next (at_ u)) ∧
      (m0.fetch = .trap n f m1 → turn (.stream a) = .next (at_ (m1.trapAt n f))) ∧
      (m0.fetch = .wait m1 → turn (.stream a) = .next (at_ m1)) ∧
      (st.pc < st.clen → mp.readTable (st.code.toNat + st.pc) w = .ok bs mp → assigned a.eng ((sylsOf bs).getD 0 0) = true →
        (a.eng = .me → (u.tile a.tile).mat.blocks < 16) →
        st.pc + words * w ≤ st.clen → mp.readWords st.code.toNat (st.pc + w) w (words - 1) = .ok cs mp →
        (∀ q ∈ st.pend, q.pos ≠ st.pc) → st.applied = [] → decode a.eng (sylsOf (bs ++ cs)) = .ok i →
        (readsEarly i = false ∨ st.posts = []) →
        turn (.stream a) = exec i (at_ (m0.setStr { st with
          prev := st.last, trapLen := words * w, last := if a.eng = .me then st.last else some st.pc })))) ∧
    (turn (.event i) = exec i (at_ s.m)) ∧
    ((s.m.deliverable [] s.m.net)[k % (s.m.deliverable [] s.m.net).length]? = some p → s.m.wayOpen p = true →
      p.rsv = false → msgInstr p = some i →
      ({ s.m with net := s.m.net.erase p } : Mach).behind p s.m.homeq = false →
      turn (.deliver k) = exec i (at_ { s.m with net := s.m.net.erase p }))

/-- What reset leaves: no context holds a task, no link is up, no job, record or packet exists, and no supervisor runs (R342,
R355, R366); layer 0, the log empty (R345, R347), GTC 0 (R358); the plane map and the plan limit as R276 and R308 give them,
ME_RLIM as R190, TCRIT and THOT as R434, CPSPLIT as R247. -/
def Obligations.ResetState : Prop :=
  let s := State.reset
  (∀ n c, (s.m.ctx n c).loaded = false) ∧ (∀ p, (s.m.link p).state = 0 ∧ (s.m.link p).en = false) ∧ s.m.hub.jobs = [] ∧
  s.m.hub.raised = [] ∧ s.m.net = [] ∧ s.fw.log = [] ∧ s.fw.layer = 0 ∧ s.m.gtc = 0 ∧ s.m.hub.pmap = 0x00FAC688#32 ∧
  s.m.hub.plimit = 1800 ∧ (∀ n, (s.m.tile n).rlim = 262144) ∧ (∀ d, (s.m.die d).tcrit = 115 ∧ (s.m.die d).thot = 105) ∧
  (∀ c, (s.m.cluster c).expl = 4 ∧ (s.m.cluster c).svrun = false) ∧ s.fw.LogInv ∧ s.fw.AlarmInv ∧ Memory.wf s.m.mem = true ∧
  s.m.Canon

/-- The measurement log and the device's secrets (R344, R347, R431), kept by every step of the machine: the log stays within
its bound, every entry has 64 bytes and LOGD is the running digest of all of them; once an alarm has been raised CDI2 and
the key slots stay erased and no start goes on. -/
def Says.EveryStepKeepsTheLogAndTheSecrets : Prop :=
  ∀ (s t : State), step s = .next t → s.fw.LogInv → s.fw.AlarmInv → t.fw.LogInv ∧ t.fw.AlarmInv

/-- The log only grows (R347), and an alarm stays (R431), whatever step the machine takes but a reset, which gives the firmware
complex its first state again. -/
def Says.TheLogOnlyGrows : Prop :=
  ∀ (s t : State), step s = .next t →
    ((∃ u, Turn.todo s.nextTurn.1 s.nextTurn.2 = .run .reset u) ∧ t.fw = {}) ∨ ((∃ es, t.fw.log = s.fw.log ++ es) ∧ (∀ a, s.fw.alarm = some a → t.fw.alarm = some a))

/-! ## Statements in several parts -/

/-- disp and patch (R139 to R143). -/
def Obligations.MouldsAndPatches : Prop :=
  Says.DispChoosesTheFirstMould ∧ Says.PatchEntersTheStore

/-- wait and signal, and the order in which waiters are served (R69, R70, R131, R132, R385). -/
def Obligations.WaitsAndSignals : Prop :=
  Says.WaitIsServedOrWaits ∧ Says.WaitersAreServedInOrder ∧ Says.SignalAdds ∧ Says.SignalBehindMatrixBlocks

/-- sigr and the plane that its message takes (R133, R276, R278). -/
def Obligations.SigrSends : Prop :=
  Says.SigrSendsTheSignal ∧ Says.MessagesTakeTheirPlane

/-- trap; what taking a failure of class STREAM does, what its record holds, and how a kill begins (R149, R368, R376, R378, R381). -/
def Obligations.FailuresAreTaken : Prop :=
  Says.TrapStopsTheStream ∧ Says.AFailureStopsItsStream ∧ Says.TheRecordOfAFailure ∧ Says.AKillBegins

/-- Barriers from the tile to the package (R75 to R77, R136). -/
def Obligations.BarriersComplete : Prop :=
  Says.TileBarrierCompletesWithItsLastArrival ∧ Says.GroupBarriers

/-- The five token instructions (R257 to R263). -/
def Obligations.TokenInstructions : Prop :=
  Says.TkgetAsksOrSignals ∧ Says.TkputAndTklendRelease ∧ Says.TksplitAndTkjoinWaitForTheHome

/-- Requests, returns and passes at a region's home (R254 to R262). -/
def Obligations.TokensAtTheirHome : Prop :=
  Says.TokenRequestIsGrantedOrWaits ∧ Says.TokenReturnComesHome ∧ Says.TokenPassGoesToTheReceiver

/-- Splits and joins at a region's home (R257, R263). -/
def Obligations.RegionsSplitAndJoin : Prop :=
  Says.TokenSplitMakesChildren ∧ Says.TokenJoinRestoresTheRegion

/-- Grants and acknowledgements (R258, R261 to R263). -/
def Obligations.TokenAnswersReachTheirTask : Prop :=
  Says.TokenGrantReachesItsTask ∧ Says.TokenAcknowledgeEndsTheOperation

/-- Elements of the scratchpad, read and written (R94, R95, R153, R373). -/
def Obligations.ScratchpadElements : Prop :=
  Says.ScratchpadElementsAreRead ∧ Says.ScratchpadElementsAreWritten

/-- Pages and ranges gate what an access reaches (R152, R232, R241, R242, R405). -/
def Obligations.AccessesAreChecked : Prop :=
  Says.PagesGateMemory ∧ Says.AccessesPassTheirRange

/-- The copies in the last iteration of their nest, and what ends a block (R71, R146, R153, R158, R161, R162). -/
def Obligations.CopiesEnd : Prop :=
  Says.ABlockEndsWithItsSignal ∧ Says.CopiesMoveTheirLastElement

/-- ldx, stx, waitm and atom in their last iteration (R164, R165, R170, R171, R173). -/
def Obligations.ScalarsAndAtomics : Prop :=
  Says.ScalarsMove ∧ Says.WaitmWatchesItsWord ∧ Says.AtomicOperations ∧ Says.AtomReadsAndWritesOnce

/-- Weight loads and passes, their arithmetic, and the formats, roundings and conversions that every engine uses (R32, R33, R37 to
R43, R46, R49, R177 to R181). -/
def Obligations.PassesUpdateTheAccumulators : Prop :=
  Says.WeightRunsFillTheirCells ∧ Says.APassUpdatesItsEntries ∧ Says.IntegerPassesClamp ∧ Says.FormatsAreLaidOut ∧
    Says.RoundingIsCorrect ∧ Says.ConversionsFollowTheirPair ∧ Says.DrawsAreFixed ∧ Says.ProductsAreScaled ∧
    Says.PassesAreExact

/-- Vector blocks, and what the operations of their body compute (R44, R45, R196, R202, R203, R205 to R229); of the special functions
the operands that R227's table names. -/
def Obligations.VectorBlocks : Prop :=
  Says.VectorBlocksEnd ∧ Says.LanesMove ∧ Says.ElementsAreComputedAlone ∧ Says.FloatElementsRoundOnce ∧
    Says.IntegerElementsAreExact ∧ Says.VectorConversions ∧ Says.LanesAreConverted ∧ Says.BlocksAreQuantised ∧
    Says.SpecialValues ∧ Says.ReductionsAreExact ∧ Says.ComparesWriteTheirPredicate

/-- From the start of a task's streams to its retirement (R65, R67, R79, R80, R414). -/
def Obligations.StreamsStartAndTasksRetire : Prop :=
  Says.StreamsStartAtTheirEntry ∧ Says.TasksRetire ∧ Says.SettlingLeavesTasksAlone

/-- RLIMIT, and the end of a kill (R190, R376, R390, R407). -/
def Obligations.TasksAreKilled : Prop :=
  Says.OpenStreamsAreBounded ∧ Says.AKillEnds

/-- Jobs: aging, placement, completion (R52, R304 to R307, R414). -/
def Obligations.JobsArePlacedAndComplete : Prop :=
  Says.HeadJobsArePlaced ∧ Says.JobsComplete ∧ Says.WaitingJobsAge

/-- Plan intervals, heat and current (R308 to R312, R434, R435). -/
def Obligations.PowerSetsTheClocks : Prop :=
  Says.PlanIntervalsSetTheClocks ∧ Says.HeatHoldsTheClocks

/-- Saves and resumes (R314 to R322). -/
def Obligations.JobsAreSavedAndResumed : Prop :=
  Says.StoppingJobsAreSaved ∧ Says.SavedTasksResume

/-- The commands that complete at once, and LAUNCH (R298 to R305). -/
def Obligations.CommandsStart : Prop :=
  Says.SimpleCommandsComplete ∧ Says.LaunchMakesAJob

/-- Notify writes, and records entering their ring (R296, R301, R302). -/
def Obligations.QueuesAndRings : Prop :=
  Says.NotifyWritesFetchCommands ∧ Says.RecordsEnterTheirRing

/-- The host's accesses, the link to it, its completions, and function-level resets (R238, R364, R398, R428, R433). -/
def Obligations.TheHostReachesTheDevice : Prop :=
  Says.HostAccesses ∧ Says.LinkUpAndCompletions ∧ Says.FunctionResetsClear

/-- Requests at memory, each of a reduce store's additions, and the responses (R159, R170, R250, R278, R280, R283). -/
def Obligations.RequestsArePerformed : Prop :=
  Says.RequestsActOnMemory ∧ Says.ReduceStoresAddEachElement ∧ Says.ResponsesGoBack

/-- PEER accesses at their target (R74, R157, R386). -/
def Obligations.PeerAccesses : Prop :=
  Says.PeerAccessesLand ∧ Says.PeerAccessesAreChecked

/-- Responses and remote signals at their party (R79, R134, R280, R386, R436). -/
def Obligations.AnswersAndSignalsArrive : Prop :=
  Says.ResponsesCompleteTheirRequest ∧ Says.RemoteSignalsReachTheirParty

/-- System barriers (R75 to R77). -/
def Obligations.SystemBarriers : Prop :=
  Says.SystemBarriersComplete ∧ Says.PassedStreamsRunOn

/-- Training, and flits in order (R285, R362, R419, R420). -/
def Obligations.LinksCarryFlits : Prop :=
  Says.LinksTrain ∧ Says.FlitsArriveInOrder

/-- Rehash and lost devices (R423, R424). -/
def Obligations.PlanesAndChipsAreLost : Prop :=
  Says.RehashKeepsLivePlanes ∧ Says.DeadPlanesAreRehashed ∧ Says.LostChipsAreForgotten

/-- Who reaches which registers (R294, R337). -/
def Obligations.RegistersAreGuarded : Prop :=
  Says.RegistersOutOfReach ∧ Says.EachCoreReachesItsBlocks

/-- Writes that wait until their unit is idle (R236, R247, R248, R276, R295). -/
def Obligations.DivisionsAndQueues : Prop :=
  Says.DivisionsComeIntoForceWhenIdle ∧ Says.QueueControlTakesEffect

/-- The actions on a trap record and on a watchdog, and SVCTL (R342, R376, R378, R382, R407, R416). -/
def Obligations.SupervisorsAct : Prop :=
  Says.TrapActionsReturn ∧ Says.SupervisorsAndWatchdogsAct

/-- Reset, the boot chain, failed starts and minimal mode (R344 to R348, R355, R357, R365, R432, R433). -/
def Obligations.TheDeviceStarts : Prop :=
  Says.ResetsClearTheDevice ∧ Says.TheBootChainGoesOn ∧ Says.FailedStartsAreCounted

/-- Quotes, canaries and alarms (R349 to R351, R430, R431). -/
def Obligations.SecurityBlock : Prop :=
  Says.QuotesSignTheLog ∧ Says.CanariesRipen ∧ Says.AlarmsStopTheDevice

/-- Stripes, page-ins and lost tokens (R242, R244, R393 to R396, R403, R404, R407). -/
def Obligations.StoredDataIsRecovered : Prop :=
  Says.StripesRecover ∧ Says.FramesAreFilled ∧ Says.PagesComeIn ∧ Says.LostTokensAreReclaimed

/-- What every step of the machine keeps (R344, R347, R431). -/
def Obligations.TheLogAndTheSecrets : Prop :=
  Says.EveryStepKeepsTheLogAndTheSecrets ∧ Says.TheLogOnlyGrows
end

