-- ==== Sys2Proof/Laws/Memory.lean ====
section
/-!
SUPPORT. Laws of the sparse tables and of the byte stores: what is read after a write, and that every operation keeps
the canonical form.
-/

namespace Sys2Proof.Machine

open Sys2Proof

/-! ## Tables -/

theorem look_nil {α : Type} (d : α) (k : Nat) : look d [] k = d := rfl

/-- Below the least key nothing is listed. -/
theorem look_below {α : Type} [DecidableEq α] {d : α} {lo : Nat} {t : Sparse α} (h : sparseOk d lo t = true)
    {k : Nat} (hk : k < lo) : look d t k = d := by
  cases t with
  | nil => rfl
  | cons e t =>
    obtain ⟨j, v⟩ := e
    simp only [sparseOk, Bool.and_eq_true, decide_eq_true_eq] at h
    have h1 := h.1.1
    simp only [look]
    rw [if_neg (by omega), if_pos (by omega)]

theorem sparseOk_mono {α : Type} [DecidableEq α] {d : α} {lo lo' : Nat} (hl : lo' ≤ lo) {t : Sparse α}
    (h : sparseOk d lo t = true) : sparseOk d lo' t = true := by
  cases t with
  | nil => rfl
  | cons e t =>
    obtain ⟨j, v⟩ := e
    simp only [sparseOk, Bool.and_eq_true, decide_eq_true_eq] at h ⊢
    exact ⟨⟨by omega, h.1.2⟩, h.2⟩

/-- A write keeps the canonical form. -/
theorem sparseOk_store {α : Type} [DecidableEq α] {d : α} {lo : Nat} {t : Sparse α} (h : sparseOk d lo t = true)
    {k : Nat} (hk : lo ≤ k) (v : α) : sparseOk d lo (store d t k v) = true := by
  induction t generalizing lo with
  | nil => by_cases hv : v = d <;> simp [store, sparseOk, hv, hk]
  | cons e t ih =>
    obtain ⟨j, w⟩ := e
    simp only [sparseOk, Bool.and_eq_true, decide_eq_true_eq] at h
    obtain ⟨⟨h1, h2⟩, h3⟩ := h
    simp only [store]
    split
    · split
      · simp [sparseOk, h1, h3]; simpa using h2
      · rename_i hkj hv
        simp only [sparseOk, Bool.and_eq_true, decide_eq_true_eq]
        exact ⟨⟨hk, hv⟩, ⟨by omega, h2⟩, h3⟩
    · split
      · split
        · exact sparseOk_mono (by omega) h3
        · rename_i hkj hkj' hv
          subst hkj'
          simp only [sparseOk, Bool.and_eq_true, decide_eq_true_eq]
          exact ⟨⟨hk, hv⟩, h3⟩
      · simp only [sparseOk, Bool.and_eq_true, decide_eq_true_eq]
        exact ⟨⟨h1, h2⟩, ih h3 (by omega)⟩

/-- A read after a write to the same key gives the value written. -/
theorem look_store_same {α : Type} [DecidableEq α] {d : α} {lo : Nat} {t : Sparse α} (h : sparseOk d lo t = true)
    (k : Nat) (v : α) : look d (store d t k v) k = v := by
  induction t generalizing lo with
  | nil => by_cases hv : v = d <;> simp [store, look, hv]
  | cons e t ih =>
    obtain ⟨j, w⟩ := e
    simp only [sparseOk, Bool.and_eq_true, decide_eq_true_eq] at h
    obtain ⟨⟨h1, h2⟩, h3⟩ := h
    simp only [store]
    split
    · rename_i hkj
      split
      · rename_i hv
        simp only [look]
        rw [if_neg (by omega), if_pos hkj, hv]
      · simp [look]
    · split
      · rename_i hkj hkj'
        split
        · rename_i hv
          rw [hv]; exact look_below h3 (by omega)
        · simp [look]
      · rename_i h4 h5
        simp only [look]
        rw [if_neg (by omega), if_neg h4]
        exact ih h3

/-- A write leaves every other key alone. -/
theorem look_store_ne {α : Type} [DecidableEq α] {d : α} {lo : Nat} {t : Sparse α} (h : sparseOk d lo t = true)
    {k j : Nat} (hne : j ≠ k) (v : α) : look d (store d t k v) j = look d t j := by
  induction t generalizing lo with
  | nil =>
    by_cases hv : v = d
    · simp [store, hv]
    · simp only [store, if_neg hv, look]
      rw [if_neg (by omega)]; simp
  | cons e t ih =>
    obtain ⟨i, w⟩ := e
    simp only [sparseOk, Bool.and_eq_true, decide_eq_true_eq] at h
    obtain ⟨⟨h1, h2⟩, h3⟩ := h
    simp only [store]
    split
    · rename_i hki
      split
      · rfl
      · simp only [look]
        rw [if_neg (by omega)]
        by_cases hji : j < k
        · rw [if_pos hji]
          rw [if_neg (by omega), if_pos (by omega)]
        · rw [if_neg hji]
    · split
      · rename_i hki hki'
        subst hki'
        split
        · simp only [look]
          rw [if_neg (by omega)]
          by_cases hji : j < k
          · rw [if_pos hji]; exact look_below h3 (by omega)
          · rw [if_neg hji]
        · simp [look, Ne.symm hne]
      · simp only [look]
        split
        · rfl
        · split
          · rfl
          · exact ih h3

/-- Both of the above. -/
theorem look_store {α : Type} [DecidableEq α] {d : α} {lo : Nat} {t : Sparse α} (h : sparseOk d lo t = true)
    (k j : Nat) (v : α) : look d (store d t k v) j = if j = k then v else look d t j := by
  split
  · rename_i hj; subst hj; exact look_store_same h _ v
  · rename_i hj; exact look_store_ne h hj v

/-- Two canonical tables that read alike are the same data. -/
theorem sparse_ext {α : Type} [DecidableEq α] {d : α} {lo : Nat} {t u : Sparse α} (ht : sparseOk d lo t = true)
    (hu : sparseOk d lo u = true) (h : ∀ k, look d t k = look d u k) : t = u := by
  induction t generalizing lo u with
  | nil =>
    cases u with
    | nil => rfl
    | cons e u =>
      obtain ⟨j, v⟩ := e
      simp only [sparseOk, Bool.and_eq_true, decide_eq_true_eq] at hu
      have := h j
      simp [look] at this
      exact absurd this.symm hu.1.2
  | cons e t ih =>
    obtain ⟨i, w⟩ := e
    simp only [sparseOk, Bool.and_eq_true, decide_eq_true_eq] at ht
    obtain ⟨⟨h1, h2⟩, h3⟩ := ht
    cases u with
    | nil =>
      have := h i
      simp [look] at this
      exact absurd this h2
    | cons e u =>
      obtain ⟨j, v⟩ := e
      simp only [sparseOk, Bool.and_eq_true, decide_eq_true_eq] at hu
      obtain ⟨⟨g1, g2⟩, g3⟩ := hu
      have hij : i = j := by
        rcases Nat.lt_trichotomy i j with hlt | heq | hgt
        · have := h i
          simp only [look, if_true] at this
          rw [if_neg (by omega), if_pos hlt] at this
          exact absurd this h2
        · exact heq
        · have := h j
          simp only [look, if_true] at this
          rw [if_neg (by omega), if_pos hgt] at this
          exact absurd this.symm g2
      subst hij
      have hv : w = v := by simpa [look] using h i
      subst hv
      rw [ih h3 g3 ?_]
      intro k
      have := h k
      simp only [look] at this
      by_cases hk : i = k
      · subst hk
        rw [look_below h3 (by omega), look_below g3 (by omega)]
      · rw [if_neg hk, if_neg hk] at this
        by_cases hlt : k < i
        · rw [look_below h3 (by omega), look_below g3 (by omega)]
        · rwa [if_neg hlt, if_neg hlt] at this

/-- The last write to a key is the one that counts. -/
theorem store_store {α : Type} [DecidableEq α] {d : α} {t : Sparse α} (h : sparseOk d 0 t = true) (k : Nat)
    (v w : α) : store d (store d t k v) k w = store d t k w := by
  have h1 := sparseOk_store h (Nat.zero_le k) v
  refine sparse_ext (sparseOk_store h1 (Nat.zero_le k) w) (sparseOk_store h (Nat.zero_le k) w) ?_
  intro j
  rw [look_store h1, look_store h, look_store h]
  split <;> rfl

/-- Writing what is read changes nothing. -/
theorem store_look {α : Type} [DecidableEq α] {d : α} {t : Sparse α} (h : sparseOk d 0 t = true) (k : Nat) :
    store d t k (look d t k) = t := by
  refine sparse_ext (sparseOk_store h (Nat.zero_le k) _) h ?_
  intro j
  rw [look_store h]
  split
  · rename_i hj; rw [hj]
  · rfl

/-- Clearing a span keeps the canonical form. -/
theorem sparseOk_clearKeys {α : Type} [DecidableEq α] {d : α} {lo : Nat} {t : Sparse α} (h : sparseOk d lo t = true)
    (a b : Nat) : sparseOk d lo (clearKeys a b t) = true := by
  induction t generalizing lo with
  | nil => rfl
  | cons e t ih =>
    obtain ⟨j, v⟩ := e
    simp only [sparseOk, Bool.and_eq_true, decide_eq_true_eq] at h
    obtain ⟨⟨h1, h2⟩, h3⟩ := h
    have := ih h3
    simp only [clearKeys] at this
    simp only [clearKeys, List.filter_cons]
    split
    · simp only [sparseOk, Bool.and_eq_true, decide_eq_true_eq]
      exact ⟨⟨h1, h2⟩, this⟩
    · exact sparseOk_mono (by omega) this

/-! ## Lists that read as a default past their end -/

theorem at'_put_same {α : Type} (d : α) (l : List α) (i : Nat) (v : α) : at' d (put d l i v) i = v := by
  induction l generalizing i with
  | nil => induction i with
    | zero => rfl
    | succ i ih => simpa [put, at'] using ih
  | cons x t ih => cases i with
    | zero => rfl
    | succ i => simpa [put, at'] using ih i

theorem at'_put_ne {α : Type} (d : α) (l : List α) {i j : Nat} (h : j ≠ i) (v : α) :
    at' d (put d l i v) j = at' d l j := by
  induction l generalizing i j with
  | nil =>
    induction i generalizing j with
    | zero => cases j with
      | zero => exact absurd rfl h
      | succ j => simp [put, at']
    | succ i ih => cases j with
      | zero => simp [put, at']
      | succ j =>
        have := ih (j := j) (by omega)
        simpa [put, at'] using this
  | cons x t ih => cases i with
    | zero => cases j with
      | zero => exact absurd rfl h
      | succ j => simp [put, at']
    | succ i => cases j with
      | zero => simp [put, at']
      | succ j => simpa [put, at'] using ih (i := i) (j := j) (by omega)

theorem at'_put {α : Type} (d : α) (l : List α) (i j : Nat) (v : α) :
    at' d (put d l i v) j = if j = i then v else at' d l j := by
  split
  · rename_i h; subst h; exact at'_put_same d l _ v
  · rename_i h; exact at'_put_ne d l h v

/-! ## Bytes: every operation keeps the canonical form -/

theorem wrRaw_wf {m : List Host.Cell} (h : Memory.wf m = true) (k : Nat) (bs : List Byte) :
    Memory.wf (wrRaw m k bs) = true := by
  induction bs generalizing m k with
  | nil => exact h
  | cons b bs ih => exact ih (sparseOk_store h (Nat.zero_le k) b) (k + 1)

/-- Reading after bytes were written. -/
theorem look_wrRaw {m : List Host.Cell} (h : Memory.wf m = true) (k : Nat) (bs : List Byte) (j : Nat) :
    look unwritten (wrRaw m k bs) j = if k ≤ j ∧ j < k + bs.length then bs.getD (j - k) 0 else look unwritten m j := by
  induction bs generalizing m k with
  | nil => simp [wrRaw]
  | cons b bs ih =>
    have h' : Memory.wf (store unwritten m k b) = true := sparseOk_store h (Nat.zero_le k) b
    rw [wrRaw, ih h' (k + 1), look_store h]
    by_cases hj : j = k
    · subst hj
      rw [if_neg (by omega), if_pos rfl, if_pos (by simp)]
      simp
    · rw [if_neg hj]
      by_cases hk : k + 1 ≤ j ∧ j < k + 1 + bs.length
      · rw [if_pos hk, if_pos (by simp; omega)]
        obtain ⟨i, rfl⟩ : ∃ i, j = k + 1 + i := ⟨j - (k + 1), by omega⟩
        have e1 : k + 1 + i - k = i + 1 := by omega
        have e2 : k + 1 + i - (k + 1) = i := by omega
        rw [e1, e2]; simp
      · rw [if_neg hk, if_neg (by simp; omega)]

theorem poisonGranule_wf {m : Mach} (h : Memory.wf m.mem = true) (g : Nat) :
    Memory.wf (poisonGranule m g).mem = true := wrRaw_wf h _ _

theorem wrPart_wf {m : Mach} (h : Memory.wf m.mem = true) (k : Nat) (bs : List PByte) :
    Memory.wf (wrPart m k bs).mem = true := by
  simp only [wrPart]
  split
  · exact poisonGranule_wf h _
  · exact wrRaw_wf h _ _

theorem wrParts_wf {m : Mach} (h : Memory.wf m.mem = true) (k : Nat) (bs : List PByte) (fuel : Nat) :
    Memory.wf (wrParts m k bs fuel).mem = true := by
  induction fuel generalizing m k bs with
  | zero => exact h
  | succ n ih =>
    simp only [wrParts]
    split
    · exact h
    · exact ih (wrPart_wf h _ _) _ _

/-- A write of bytes keeps the canonical form. -/
theorem wrRun_wf {m : Mach} (h : Memory.wf m.mem = true) (k : Nat) (bs : List PByte) :
    Memory.wf (wrRun m k bs).mem = true := wrParts_wf h _ _ _

/-- Clearing a span keeps the canonical form. -/
theorem clearRun_wf {m : Mach} (h : Memory.wf m.mem = true) (k n : Nat) : Memory.wf (clearRun m k n).mem = true :=
  sparseOk_clearKeys h _ _

theorem reset_wf : Memory.wf State.reset.m.mem = true := rfl

end Sys2Proof.Machine
end

