-- ==== Sys2Proof/Laws/State.lean ====
section
/-!
SUPPORT. What each update of a part of the machine leaves of every other part: one lemma for each field.
-/

namespace Sys2Proof.Machine

open Sys2Proof


/-! ## setTile -/

@[simp] theorem setTile_cur (m : Mach) (n : Nat) (x : Tile) : (m.setTile n x).cur = m.cur := rfl
@[simp] theorem setTile_free (m : Mach) (n : Nat) (x : Tile) : (m.setTile n x).free = m.free := rfl
@[simp] theorem setTile_mem (m : Mach) (n : Nat) (x : Tile) : (m.setTile n x).mem = m.mem := rfl
@[simp] theorem setTile_poison (m : Mach) (n : Nat) (x : Tile) : (m.setTile n x).poison = m.poison := rfl
@[simp] theorem setTile_acc (m : Mach) (n : Nat) (x : Tile) : (m.setTile n x).acc = m.acc := rfl
@[simp] theorem setTile_dirty (m : Mach) (n : Nat) (x : Tile) : (m.setTile n x).dirty = m.dirty := rfl
@[simp] theorem setTile_tiles (m : Mach) (n : Nat) (x : Tile) :
    (m.setTile n x).tiles = store Tile.blank m.tiles n x := rfl
@[simp] theorem setTile_ctxs (m : Mach) (n : Nat) (x : Tile) : (m.setTile n x).ctxs = m.ctxs := rfl
@[simp] theorem setTile_clusters (m : Mach) (n : Nat) (x : Tile) : (m.setTile n x).clusters = m.clusters := rfl
@[simp] theorem setTile_dies (m : Mach) (n : Nat) (x : Tile) : (m.setTile n x).dies = m.dies := rfl
@[simp] theorem setTile_links (m : Mach) (n : Nat) (x : Tile) : (m.setTile n x).links = m.links := rfl
@[simp] theorem setTile_hub (m : Mach) (n : Nat) (x : Tile) : (m.setTile n x).hub = m.hub := rfl
@[simp] theorem setTile_net (m : Mach) (n : Nat) (x : Tile) : (m.setTile n x).net = m.net := rfl
@[simp] theorem setTile_homeq (m : Mach) (n : Nat) (x : Tile) : (m.setTile n x).homeq = m.homeq := rfl
@[simp] theorem setTile_cycle (m : Mach) (n : Nat) (x : Tile) : (m.setTile n x).cycle = m.cycle := rfl
@[simp] theorem setTile_sigs (m : Mach) (n : Nat) (x : Tile) : (m.setTile n x).sigs = m.sigs := rfl
@[simp] theorem setTile_rings (m : Mach) (n : Nat) (x : Tile) : (m.setTile n x).rings = m.rings := rfl
@[simp] theorem setTile_events (m : Mach) (n : Nat) (x : Tile) : (m.setTile n x).events = m.events := rfl
@[simp] theorem setTile_scrubs (m : Mach) (n : Nat) (x : Tile) : (m.setTile n x).scrubs = m.scrubs := rfl
@[simp] theorem setTile_regs (m : Mach) (n : Nat) (x : Tile) : (m.setTile n x).regs = m.regs := rfl
@[simp] theorem setTile_locked (m : Mach) (n : Nat) (x : Tile) : (m.setTile n x).locked = m.locked := rfl
@[simp] theorem setTile_edges (m : Mach) (n : Nat) (x : Tile) : (m.setTile n x).edges = m.edges := rfl
@[simp] theorem setTile_adj (m : Mach) (n : Nat) (x : Tile) : (m.setTile n x).adj = m.adj := rfl
@[simp] theorem setTile_adjLeft (m : Mach) (n : Nat) (x : Tile) : (m.setTile n x).adjLeft = m.adjLeft := rfl

/-! ## setCtx -/

@[simp] theorem setCtx_cur (m : Mach) (n : Nat) (c : Bool) (x : Ctx) : (m.setCtx n c x).cur = m.cur := rfl
@[simp] theorem setCtx_free (m : Mach) (n : Nat) (c : Bool) (x : Ctx) : (m.setCtx n c x).free = m.free := rfl
@[simp] theorem setCtx_mem (m : Mach) (n : Nat) (c : Bool) (x : Ctx) : (m.setCtx n c x).mem = m.mem := rfl
@[simp] theorem setCtx_poison (m : Mach) (n : Nat) (c : Bool) (x : Ctx) : (m.setCtx n c x).poison = m.poison := rfl
@[simp] theorem setCtx_acc (m : Mach) (n : Nat) (c : Bool) (x : Ctx) : (m.setCtx n c x).acc = m.acc := rfl
@[simp] theorem setCtx_dirty (m : Mach) (n : Nat) (c : Bool) (x : Ctx) : (m.setCtx n c x).dirty = m.dirty := rfl
@[simp] theorem setCtx_tiles (m : Mach) (n : Nat) (c : Bool) (x : Ctx) : (m.setCtx n c x).tiles = m.tiles := rfl
@[simp] theorem setCtx_ctxs (m : Mach) (n : Nat) (c : Bool) (x : Ctx) :
    (m.setCtx n c x).ctxs = store Ctx.blank m.ctxs (ctxKey n c) x := rfl
@[simp] theorem setCtx_clusters (m : Mach) (n : Nat) (c : Bool) (x : Ctx) :
    (m.setCtx n c x).clusters = m.clusters := rfl
@[simp] theorem setCtx_dies (m : Mach) (n : Nat) (c : Bool) (x : Ctx) : (m.setCtx n c x).dies = m.dies := rfl
@[simp] theorem setCtx_links (m : Mach) (n : Nat) (c : Bool) (x : Ctx) : (m.setCtx n c x).links = m.links := rfl
@[simp] theorem setCtx_hub (m : Mach) (n : Nat) (c : Bool) (x : Ctx) : (m.setCtx n c x).hub = m.hub := rfl
@[simp] theorem setCtx_net (m : Mach) (n : Nat) (c : Bool) (x : Ctx) : (m.setCtx n c x).net = m.net := rfl
@[simp] theorem setCtx_homeq (m : Mach) (n : Nat) (c : Bool) (x : Ctx) : (m.setCtx n c x).homeq = m.homeq := rfl
@[simp] theorem setCtx_cycle (m : Mach) (n : Nat) (c : Bool) (x : Ctx) : (m.setCtx n c x).cycle = m.cycle := rfl
@[simp] theorem setCtx_sigs (m : Mach) (n : Nat) (c : Bool) (x : Ctx) : (m.setCtx n c x).sigs = m.sigs := rfl
@[simp] theorem setCtx_rings (m : Mach) (n : Nat) (c : Bool) (x : Ctx) : (m.setCtx n c x).rings = m.rings := rfl
@[simp] theorem setCtx_events (m : Mach) (n : Nat) (c : Bool) (x : Ctx) : (m.setCtx n c x).events = m.events := rfl
@[simp] theorem setCtx_scrubs (m : Mach) (n : Nat) (c : Bool) (x : Ctx) : (m.setCtx n c x).scrubs = m.scrubs := rfl
@[simp] theorem setCtx_regs (m : Mach) (n : Nat) (c : Bool) (x : Ctx) : (m.setCtx n c x).regs = m.regs := rfl
@[simp] theorem setCtx_locked (m : Mach) (n : Nat) (c : Bool) (x : Ctx) : (m.setCtx n c x).locked = m.locked := rfl
@[simp] theorem setCtx_edges (m : Mach) (n : Nat) (c : Bool) (x : Ctx) : (m.setCtx n c x).edges = m.edges := rfl
@[simp] theorem setCtx_adj (m : Mach) (n : Nat) (c : Bool) (x : Ctx) : (m.setCtx n c x).adj = m.adj := rfl
@[simp] theorem setCtx_adjLeft (m : Mach) (n : Nat) (c : Bool) (x : Ctx) : (m.setCtx n c x).adjLeft = m.adjLeft := rfl

/-! ## setCluster -/

@[simp] theorem setCluster_cur (m : Mach) (n : Nat) (x : Cluster) : (m.setCluster n x).cur = m.cur := rfl
@[simp] theorem setCluster_free (m : Mach) (n : Nat) (x : Cluster) : (m.setCluster n x).free = m.free := rfl
@[simp] theorem setCluster_mem (m : Mach) (n : Nat) (x : Cluster) : (m.setCluster n x).mem = m.mem := rfl
@[simp] theorem setCluster_poison (m : Mach) (n : Nat) (x : Cluster) : (m.setCluster n x).poison = m.poison := rfl
@[simp] theorem setCluster_acc (m : Mach) (n : Nat) (x : Cluster) : (m.setCluster n x).acc = m.acc := rfl
@[simp] theorem setCluster_dirty (m : Mach) (n : Nat) (x : Cluster) : (m.setCluster n x).dirty = m.dirty := rfl
@[simp] theorem setCluster_tiles (m : Mach) (n : Nat) (x : Cluster) : (m.setCluster n x).tiles = m.tiles := rfl
@[simp] theorem setCluster_ctxs (m : Mach) (n : Nat) (x : Cluster) : (m.setCluster n x).ctxs = m.ctxs := rfl
@[simp] theorem setCluster_clusters (m : Mach) (n : Nat) (x : Cluster) :
    (m.setCluster n x).clusters = store Cluster.blank m.clusters n x := rfl
@[simp] theorem setCluster_dies (m : Mach) (n : Nat) (x : Cluster) : (m.setCluster n x).dies = m.dies := rfl
@[simp] theorem setCluster_links (m : Mach) (n : Nat) (x : Cluster) : (m.setCluster n x).links = m.links := rfl
@[simp] theorem setCluster_hub (m : Mach) (n : Nat) (x : Cluster) : (m.setCluster n x).hub = m.hub := rfl
@[simp] theorem setCluster_net (m : Mach) (n : Nat) (x : Cluster) : (m.setCluster n x).net = m.net := rfl
@[simp] theorem setCluster_homeq (m : Mach) (n : Nat) (x : Cluster) : (m.setCluster n x).homeq = m.homeq := rfl
@[simp] theorem setCluster_cycle (m : Mach) (n : Nat) (x : Cluster) : (m.setCluster n x).cycle = m.cycle := rfl
@[simp] theorem setCluster_sigs (m : Mach) (n : Nat) (x : Cluster) : (m.setCluster n x).sigs = m.sigs := rfl
@[simp] theorem setCluster_rings (m : Mach) (n : Nat) (x : Cluster) : (m.setCluster n x).rings = m.rings := rfl
@[simp] theorem setCluster_events (m : Mach) (n : Nat) (x : Cluster) : (m.setCluster n x).events = m.events := rfl
@[simp] theorem setCluster_scrubs (m : Mach) (n : Nat) (x : Cluster) : (m.setCluster n x).scrubs = m.scrubs := rfl
@[simp] theorem setCluster_regs (m : Mach) (n : Nat) (x : Cluster) : (m.setCluster n x).regs = m.regs := rfl
@[simp] theorem setCluster_locked (m : Mach) (n : Nat) (x : Cluster) : (m.setCluster n x).locked = m.locked := rfl
@[simp] theorem setCluster_edges (m : Mach) (n : Nat) (x : Cluster) : (m.setCluster n x).edges = m.edges := rfl
@[simp] theorem setCluster_adj (m : Mach) (n : Nat) (x : Cluster) : (m.setCluster n x).adj = m.adj := rfl
@[simp] theorem setCluster_adjLeft (m : Mach) (n : Nat) (x : Cluster) : (m.setCluster n x).adjLeft = m.adjLeft := rfl

/-! ## setDie -/

@[simp] theorem setDie_cur (m : Mach) (n : Nat) (x : Die) : (m.setDie n x).cur = m.cur := rfl
@[simp] theorem setDie_free (m : Mach) (n : Nat) (x : Die) : (m.setDie n x).free = m.free := rfl
@[simp] theorem setDie_mem (m : Mach) (n : Nat) (x : Die) : (m.setDie n x).mem = m.mem := rfl
@[simp] theorem setDie_poison (m : Mach) (n : Nat) (x : Die) : (m.setDie n x).poison = m.poison := rfl
@[simp] theorem setDie_acc (m : Mach) (n : Nat) (x : Die) : (m.setDie n x).acc = m.acc := rfl
@[simp] theorem setDie_dirty (m : Mach) (n : Nat) (x : Die) : (m.setDie n x).dirty = m.dirty := rfl
@[simp] theorem setDie_tiles (m : Mach) (n : Nat) (x : Die) : (m.setDie n x).tiles = m.tiles := rfl
@[simp] theorem setDie_ctxs (m : Mach) (n : Nat) (x : Die) : (m.setDie n x).ctxs = m.ctxs := rfl
@[simp] theorem setDie_clusters (m : Mach) (n : Nat) (x : Die) : (m.setDie n x).clusters = m.clusters := rfl
@[simp] theorem setDie_dies (m : Mach) (n : Nat) (x : Die) : (m.setDie n x).dies = store Die.blank m.dies n x := rfl
@[simp] theorem setDie_links (m : Mach) (n : Nat) (x : Die) : (m.setDie n x).links = m.links := rfl
@[simp] theorem setDie_hub (m : Mach) (n : Nat) (x : Die) : (m.setDie n x).hub = m.hub := rfl
@[simp] theorem setDie_net (m : Mach) (n : Nat) (x : Die) : (m.setDie n x).net = m.net := rfl
@[simp] theorem setDie_homeq (m : Mach) (n : Nat) (x : Die) : (m.setDie n x).homeq = m.homeq := rfl
@[simp] theorem setDie_cycle (m : Mach) (n : Nat) (x : Die) : (m.setDie n x).cycle = m.cycle := rfl
@[simp] theorem setDie_sigs (m : Mach) (n : Nat) (x : Die) : (m.setDie n x).sigs = m.sigs := rfl
@[simp] theorem setDie_rings (m : Mach) (n : Nat) (x : Die) : (m.setDie n x).rings = m.rings := rfl
@[simp] theorem setDie_events (m : Mach) (n : Nat) (x : Die) : (m.setDie n x).events = m.events := rfl
@[simp] theorem setDie_scrubs (m : Mach) (n : Nat) (x : Die) : (m.setDie n x).scrubs = m.scrubs := rfl
@[simp] theorem setDie_regs (m : Mach) (n : Nat) (x : Die) : (m.setDie n x).regs = m.regs := rfl
@[simp] theorem setDie_locked (m : Mach) (n : Nat) (x : Die) : (m.setDie n x).locked = m.locked := rfl
@[simp] theorem setDie_edges (m : Mach) (n : Nat) (x : Die) : (m.setDie n x).edges = m.edges := rfl
@[simp] theorem setDie_adj (m : Mach) (n : Nat) (x : Die) : (m.setDie n x).adj = m.adj := rfl
@[simp] theorem setDie_adjLeft (m : Mach) (n : Nat) (x : Die) : (m.setDie n x).adjLeft = m.adjLeft := rfl

/-! ## setLink -/

@[simp] theorem setLink_cur (m : Mach) (n : Nat) (x : Link) : (m.setLink n x).cur = m.cur := rfl
@[simp] theorem setLink_free (m : Mach) (n : Nat) (x : Link) : (m.setLink n x).free = m.free := rfl
@[simp] theorem setLink_mem (m : Mach) (n : Nat) (x : Link) : (m.setLink n x).mem = m.mem := rfl
@[simp] theorem setLink_poison (m : Mach) (n : Nat) (x : Link) : (m.setLink n x).poison = m.poison := rfl
@[simp] theorem setLink_acc (m : Mach) (n : Nat) (x : Link) : (m.setLink n x).acc = m.acc := rfl
@[simp] theorem setLink_dirty (m : Mach) (n : Nat) (x : Link) : (m.setLink n x).dirty = m.dirty := rfl
@[simp] theorem setLink_tiles (m : Mach) (n : Nat) (x : Link) : (m.setLink n x).tiles = m.tiles := rfl
@[simp] theorem setLink_ctxs (m : Mach) (n : Nat) (x : Link) : (m.setLink n x).ctxs = m.ctxs := rfl
@[simp] theorem setLink_clusters (m : Mach) (n : Nat) (x : Link) : (m.setLink n x).clusters = m.clusters := rfl
@[simp] theorem setLink_dies (m : Mach) (n : Nat) (x : Link) : (m.setLink n x).dies = m.dies := rfl
@[simp] theorem setLink_links (m : Mach) (n : Nat) (x : Link) :
    (m.setLink n x).links = store Link.blank m.links n x := rfl
@[simp] theorem setLink_hub (m : Mach) (n : Nat) (x : Link) : (m.setLink n x).hub = m.hub := rfl
@[simp] theorem setLink_net (m : Mach) (n : Nat) (x : Link) : (m.setLink n x).net = m.net := rfl
@[simp] theorem setLink_homeq (m : Mach) (n : Nat) (x : Link) : (m.setLink n x).homeq = m.homeq := rfl
@[simp] theorem setLink_cycle (m : Mach) (n : Nat) (x : Link) : (m.setLink n x).cycle = m.cycle := rfl
@[simp] theorem setLink_sigs (m : Mach) (n : Nat) (x : Link) : (m.setLink n x).sigs = m.sigs := rfl
@[simp] theorem setLink_rings (m : Mach) (n : Nat) (x : Link) : (m.setLink n x).rings = m.rings := rfl
@[simp] theorem setLink_events (m : Mach) (n : Nat) (x : Link) : (m.setLink n x).events = m.events := rfl
@[simp] theorem setLink_scrubs (m : Mach) (n : Nat) (x : Link) : (m.setLink n x).scrubs = m.scrubs := rfl
@[simp] theorem setLink_regs (m : Mach) (n : Nat) (x : Link) : (m.setLink n x).regs = m.regs := rfl
@[simp] theorem setLink_locked (m : Mach) (n : Nat) (x : Link) : (m.setLink n x).locked = m.locked := rfl
@[simp] theorem setLink_edges (m : Mach) (n : Nat) (x : Link) : (m.setLink n x).edges = m.edges := rfl
@[simp] theorem setLink_adj (m : Mach) (n : Nat) (x : Link) : (m.setLink n x).adj = m.adj := rfl
@[simp] theorem setLink_adjLeft (m : Mach) (n : Nat) (x : Link) : (m.setLink n x).adjLeft = m.adjLeft := rfl

/-! ## setQueue -/

@[simp] theorem setQueue_cur (m : Mach) (n : Nat) (x : Queue) : (m.setQueue n x).cur = m.cur := rfl
@[simp] theorem setQueue_free (m : Mach) (n : Nat) (x : Queue) : (m.setQueue n x).free = m.free := rfl
@[simp] theorem setQueue_mem (m : Mach) (n : Nat) (x : Queue) : (m.setQueue n x).mem = m.mem := rfl
@[simp] theorem setQueue_poison (m : Mach) (n : Nat) (x : Queue) : (m.setQueue n x).poison = m.poison := rfl
@[simp] theorem setQueue_acc (m : Mach) (n : Nat) (x : Queue) : (m.setQueue n x).acc = m.acc := rfl
@[simp] theorem setQueue_dirty (m : Mach) (n : Nat) (x : Queue) : (m.setQueue n x).dirty = m.dirty := rfl
@[simp] theorem setQueue_tiles (m : Mach) (n : Nat) (x : Queue) : (m.setQueue n x).tiles = m.tiles := rfl
@[simp] theorem setQueue_ctxs (m : Mach) (n : Nat) (x : Queue) : (m.setQueue n x).ctxs = m.ctxs := rfl
@[simp] theorem setQueue_clusters (m : Mach) (n : Nat) (x : Queue) : (m.setQueue n x).clusters = m.clusters := rfl
@[simp] theorem setQueue_dies (m : Mach) (n : Nat) (x : Queue) : (m.setQueue n x).dies = m.dies := rfl
@[simp] theorem setQueue_links (m : Mach) (n : Nat) (x : Queue) : (m.setQueue n x).links = m.links := rfl
@[simp] theorem setQueue_hub (m : Mach) (n : Nat) (x : Queue) :
    (m.setQueue n x).hub = { m.hub with queues := store Queue.blank m.hub.queues n x } := rfl
@[simp] theorem setQueue_net (m : Mach) (n : Nat) (x : Queue) : (m.setQueue n x).net = m.net := rfl
@[simp] theorem setQueue_homeq (m : Mach) (n : Nat) (x : Queue) : (m.setQueue n x).homeq = m.homeq := rfl
@[simp] theorem setQueue_cycle (m : Mach) (n : Nat) (x : Queue) : (m.setQueue n x).cycle = m.cycle := rfl
@[simp] theorem setQueue_sigs (m : Mach) (n : Nat) (x : Queue) : (m.setQueue n x).sigs = m.sigs := rfl
@[simp] theorem setQueue_rings (m : Mach) (n : Nat) (x : Queue) : (m.setQueue n x).rings = m.rings := rfl
@[simp] theorem setQueue_events (m : Mach) (n : Nat) (x : Queue) : (m.setQueue n x).events = m.events := rfl
@[simp] theorem setQueue_scrubs (m : Mach) (n : Nat) (x : Queue) : (m.setQueue n x).scrubs = m.scrubs := rfl
@[simp] theorem setQueue_regs (m : Mach) (n : Nat) (x : Queue) : (m.setQueue n x).regs = m.regs := rfl
@[simp] theorem setQueue_locked (m : Mach) (n : Nat) (x : Queue) : (m.setQueue n x).locked = m.locked := rfl
@[simp] theorem setQueue_edges (m : Mach) (n : Nat) (x : Queue) : (m.setQueue n x).edges = m.edges := rfl
@[simp] theorem setQueue_adj (m : Mach) (n : Nat) (x : Queue) : (m.setQueue n x).adj = m.adj := rfl
@[simp] theorem setQueue_adjLeft (m : Mach) (n : Nat) (x : Queue) : (m.setQueue n x).adjLeft = m.adjLeft := rfl

/-! ## setFunc -/

@[simp] theorem setFunc_cur (m : Mach) (n : Nat) (x : Func) : (m.setFunc n x).cur = m.cur := rfl
@[simp] theorem setFunc_free (m : Mach) (n : Nat) (x : Func) : (m.setFunc n x).free = m.free := rfl
@[simp] theorem setFunc_mem (m : Mach) (n : Nat) (x : Func) : (m.setFunc n x).mem = m.mem := rfl
@[simp] theorem setFunc_poison (m : Mach) (n : Nat) (x : Func) : (m.setFunc n x).poison = m.poison := rfl
@[simp] theorem setFunc_acc (m : Mach) (n : Nat) (x : Func) : (m.setFunc n x).acc = m.acc := rfl
@[simp] theorem setFunc_dirty (m : Mach) (n : Nat) (x : Func) : (m.setFunc n x).dirty = m.dirty := rfl
@[simp] theorem setFunc_tiles (m : Mach) (n : Nat) (x : Func) : (m.setFunc n x).tiles = m.tiles := rfl
@[simp] theorem setFunc_ctxs (m : Mach) (n : Nat) (x : Func) : (m.setFunc n x).ctxs = m.ctxs := rfl
@[simp] theorem setFunc_clusters (m : Mach) (n : Nat) (x : Func) : (m.setFunc n x).clusters = m.clusters := rfl
@[simp] theorem setFunc_dies (m : Mach) (n : Nat) (x : Func) : (m.setFunc n x).dies = m.dies := rfl
@[simp] theorem setFunc_links (m : Mach) (n : Nat) (x : Func) : (m.setFunc n x).links = m.links := rfl
@[simp] theorem setFunc_hub (m : Mach) (n : Nat) (x : Func) :
    (m.setFunc n x).hub = { m.hub with funcs := store Func.blank m.hub.funcs n x } := rfl
@[simp] theorem setFunc_net (m : Mach) (n : Nat) (x : Func) : (m.setFunc n x).net = m.net := rfl
@[simp] theorem setFunc_homeq (m : Mach) (n : Nat) (x : Func) : (m.setFunc n x).homeq = m.homeq := rfl
@[simp] theorem setFunc_cycle (m : Mach) (n : Nat) (x : Func) : (m.setFunc n x).cycle = m.cycle := rfl
@[simp] theorem setFunc_sigs (m : Mach) (n : Nat) (x : Func) : (m.setFunc n x).sigs = m.sigs := rfl
@[simp] theorem setFunc_rings (m : Mach) (n : Nat) (x : Func) : (m.setFunc n x).rings = m.rings := rfl
@[simp] theorem setFunc_events (m : Mach) (n : Nat) (x : Func) : (m.setFunc n x).events = m.events := rfl
@[simp] theorem setFunc_scrubs (m : Mach) (n : Nat) (x : Func) : (m.setFunc n x).scrubs = m.scrubs := rfl
@[simp] theorem setFunc_regs (m : Mach) (n : Nat) (x : Func) : (m.setFunc n x).regs = m.regs := rfl
@[simp] theorem setFunc_locked (m : Mach) (n : Nat) (x : Func) : (m.setFunc n x).locked = m.locked := rfl
@[simp] theorem setFunc_edges (m : Mach) (n : Nat) (x : Func) : (m.setFunc n x).edges = m.edges := rfl
@[simp] theorem setFunc_adj (m : Mach) (n : Nat) (x : Func) : (m.setFunc n x).adj = m.adj := rfl
@[simp] theorem setFunc_adjLeft (m : Mach) (n : Nat) (x : Func) : (m.setFunc n x).adjLeft = m.adjLeft := rfl

/-! ## setJob -/

@[simp] theorem setJob_cur (m : Mach) (x : Job) : (m.setJob x).cur = m.cur := rfl
@[simp] theorem setJob_free (m : Mach) (x : Job) : (m.setJob x).free = m.free := rfl
@[simp] theorem setJob_mem (m : Mach) (x : Job) : (m.setJob x).mem = m.mem := rfl
@[simp] theorem setJob_poison (m : Mach) (x : Job) : (m.setJob x).poison = m.poison := rfl
@[simp] theorem setJob_acc (m : Mach) (x : Job) : (m.setJob x).acc = m.acc := rfl
@[simp] theorem setJob_dirty (m : Mach) (x : Job) : (m.setJob x).dirty = m.dirty := rfl
@[simp] theorem setJob_tiles (m : Mach) (x : Job) : (m.setJob x).tiles = m.tiles := rfl
@[simp] theorem setJob_ctxs (m : Mach) (x : Job) : (m.setJob x).ctxs = m.ctxs := rfl
@[simp] theorem setJob_clusters (m : Mach) (x : Job) : (m.setJob x).clusters = m.clusters := rfl
@[simp] theorem setJob_dies (m : Mach) (x : Job) : (m.setJob x).dies = m.dies := rfl
@[simp] theorem setJob_links (m : Mach) (x : Job) : (m.setJob x).links = m.links := rfl
@[simp] theorem setJob_hub (m : Mach) (x : Job) :
    (m.setJob x).hub = { m.hub with jobs := m.hub.jobs.map (fun k => if k.id = x.id then x else k) } := rfl
@[simp] theorem setJob_net (m : Mach) (x : Job) : (m.setJob x).net = m.net := rfl
@[simp] theorem setJob_homeq (m : Mach) (x : Job) : (m.setJob x).homeq = m.homeq := rfl
@[simp] theorem setJob_cycle (m : Mach) (x : Job) : (m.setJob x).cycle = m.cycle := rfl
@[simp] theorem setJob_sigs (m : Mach) (x : Job) : (m.setJob x).sigs = m.sigs := rfl
@[simp] theorem setJob_rings (m : Mach) (x : Job) : (m.setJob x).rings = m.rings := rfl
@[simp] theorem setJob_events (m : Mach) (x : Job) : (m.setJob x).events = m.events := rfl
@[simp] theorem setJob_scrubs (m : Mach) (x : Job) : (m.setJob x).scrubs = m.scrubs := rfl
@[simp] theorem setJob_regs (m : Mach) (x : Job) : (m.setJob x).regs = m.regs := rfl
@[simp] theorem setJob_locked (m : Mach) (x : Job) : (m.setJob x).locked = m.locked := rfl
@[simp] theorem setJob_edges (m : Mach) (x : Job) : (m.setJob x).edges = m.edges := rfl
@[simp] theorem setJob_adj (m : Mach) (x : Job) : (m.setJob x).adj = m.adj := rfl
@[simp] theorem setJob_adjLeft (m : Mach) (x : Job) : (m.setJob x).adjLeft = m.adjLeft := rfl

/-! ## Streams of a context -/

@[simp] theorem setStream_loaded (c : Ctx) (e : Engine) (s : Stream) : (c.setStream e s).loaded = c.loaded := by
  cases e <;> rfl
@[simp] theorem setStream_party (c : Ctx) (e : Engine) (s : Stream) : (c.setStream e s).party = c.party := by
  cases e <;> rfl
@[simp] theorem setStream_job (c : Ctx) (e : Engine) (s : Stream) : (c.setStream e s).job = c.job := by
  cases e <;> rfl
@[simp] theorem setStream_fidx (c : Ctx) (e : Engine) (s : Stream) : (c.setStream e s).fidx = c.fidx := by
  cases e <;> rfl
@[simp] theorem setStream_forme (c : Ctx) (e : Engine) (s : Stream) : (c.setStream e s).forme = c.forme := by
  cases e <;> rfl
@[simp] theorem setStream_roll (c : Ctx) (e : Engine) (s : Stream) : (c.setStream e s).roll = c.roll := by
  cases e <;> rfl
@[simp] theorem setStream_age (c : Ctx) (e : Engine) (s : Stream) : (c.setStream e s).age = c.age := by
  cases e <;> rfl
@[simp] theorem setStream_groups (c : Ctx) (e : Engine) (s : Stream) : (c.setStream e s).groups = c.groups := by
  cases e <;> rfl
@[simp] theorem setStream_mdir (c : Ctx) (e : Engine) (s : Stream) : (c.setStream e s).mdir = c.mdir := by
  cases e <;> rfl
@[simp] theorem setStream_mdn (c : Ctx) (e : Engine) (s : Stream) : (c.setStream e s).mdn = c.mdn := by
  cases e <;> rfl
@[simp] theorem setStream_sems (c : Ctx) (e : Engine) (s : Stream) : (c.setStream e s).sems = c.sems := by
  cases e <;> rfl
@[simp] theorem setStream_resv (c : Ctx) (e : Engine) (s : Stream) : (c.setStream e s).resv = c.resv := by
  cases e <;> rfl
@[simp] theorem setStream_waitq (c : Ctx) (e : Engine) (s : Stream) : (c.setStream e s).waitq = c.waitq := by
  cases e <;> rfl
@[simp] theorem setStream_bufs (c : Ctx) (e : Engine) (s : Stream) : (c.setStream e s).bufs = c.bufs := by
  cases e <;> rfl
@[simp] theorem setStream_maps (c : Ctx) (e : Engine) (s : Stream) : (c.setStream e s).maps = c.maps := by
  cases e <;> rfl
@[simp] theorem setStream_tracker (c : Ctx) (e : Engine) (s : Stream) : (c.setStream e s).tracker = c.tracker := by
  cases e <;> rfl
@[simp] theorem setStream_dying (c : Ctx) (e : Engine) (s : Stream) : (c.setStream e s).dying = c.dying := by
  cases e <;> rfl
@[simp] theorem setStream_stopping (c : Ctx) (e : Engine) (s : Stream) : (c.setStream e s).stopping = c.stopping := by
  cases e <;> rfl
@[simp] theorem setStream_killed (c : Ctx) (e : Engine) (s : Stream) : (c.setStream e s).killed = c.killed := by
  cases e <;> rfl
@[simp] theorem setStream_energy (c : Ctx) (e : Engine) (s : Stream) : (c.setStream e s).energy = c.energy := by
  cases e <;> rfl
@[simp] theorem setStream_sat (c : Ctx) (e : Engine) (s : Stream) : (c.setStream e s).sat = c.sat := by
  cases e <;> rfl
@[simp] theorem setStream_fpf (c : Ctx) (e : Engine) (s : Stream) : (c.setStream e s).fpf = c.fpf := by
  cases e <;> rfl
@[simp] theorem setStream_leaving (c : Ctx) (e : Engine) (s : Stream) : (c.setStream e s).leaving = c.leaving := by
  cases e <;> rfl

@[simp] theorem stream_setStream (c : Ctx) (e : Engine) (s : Stream) : (c.setStream e s).stream e = s := by
  cases e <;> rfl

theorem stream_setStream_ne (c : Ctx) {e f : Engine} (h : f ≠ e) (s : Stream) :
    (c.setStream e s).stream f = c.stream f := by
  cases e <;> cases f <;> first | rfl | exact absurd rfl h

@[simp] theorem setStream_setStream (c : Ctx) (e : Engine) (s t : Stream) :
    (c.setStream e s).setStream e t = c.setStream e t := by
  cases e <;> rfl

@[simp] theorem setStream_stream (c : Ctx) (e : Engine) : c.setStream e (c.stream e) = c := by
  cases e <;> rfl

/-! ## Parts read after parts were written -/

theorem tile_setTile {m : Mach} (h : sparseOk Tile.blank 0 m.tiles = true) (n k : Nat) (x : Tile) :
    (m.setTile n x).tile k = if k = n then x else m.tile k := look_store h n k x

theorem cluster_setCluster {m : Mach} (h : sparseOk Cluster.blank 0 m.clusters = true) (n k : Nat) (x : Cluster) :
    (m.setCluster n x).cluster k = if k = n then x else m.cluster k := look_store h n k x

theorem die_setDie {m : Mach} (h : sparseOk Die.blank 0 m.dies = true) (n k : Nat) (x : Die) :
    (m.setDie n x).die k = if k = n then x else m.die k := look_store h n k x

theorem link_setLink {m : Mach} (h : sparseOk Link.blank 0 m.links = true) (n k : Nat) (x : Link) :
    (m.setLink n x).link k = if k = n then x else m.link k := look_store h n k x

theorem queue_setQueue {m : Mach} (h : sparseOk Queue.blank 0 m.hub.queues = true) (n k : Nat) (x : Queue) :
    (m.setQueue n x).queue k = if k = n then x else m.queue k := look_store h n k x

theorem func_setFunc {m : Mach} (h : sparseOk Func.blank 0 m.hub.funcs = true) (n k : Nat) (x : Func) :
    (m.setFunc n x).func k = if k = n then x else m.func k := look_store h n k x

/-- A context's key names its tile and its number. -/
theorem ctxKey_inj {a b : Nat} {c d : Bool} (h : ctxKey a c = ctxKey b d) : a = b ∧ c = d := by
  cases c <;> cases d <;> simp [ctxKey] at h ⊢ <;> omega

theorem ctx_setCtx {m : Mach} (h : sparseOk Ctx.blank 0 m.ctxs = true) (n k : Nat) (c d : Bool) (x : Ctx) :
    (m.setCtx n c x).ctx k d = if k = n ∧ d = c then x else m.ctx k d := by
  have := look_store h (ctxKey n c) (ctxKey k d) x
  simp only [Mach.ctx, setCtx_ctxs, this]
  by_cases hk : k = n ∧ d = c
  · rw [if_pos hk, hk.1, hk.2, if_pos rfl]
  · rw [if_neg hk, if_neg (fun h => hk (ctxKey_inj h))]

theorem setCtx_setCtx {m : Mach} (h : sparseOk Ctx.blank 0 m.ctxs = true) (n : Nat) (c : Bool) (x y : Ctx) :
    (m.setCtx n c x).setCtx n c y = m.setCtx n c y := by
  simp [Mach.setCtx, store_store h]

theorem setCtx_ctx {m : Mach} (h : sparseOk Ctx.blank 0 m.ctxs = true) (n : Nat) (c : Bool) : m.setCtx n c (m.ctx n c) = m := by
  simp [Mach.setCtx, Mach.ctx, store_look h]

/-! ## The acting stream -/

@[simp] theorem setStr_cur (m : Mach) (s : Stream) : (m.setStr s).cur = m.cur := rfl
@[simp] theorem setStr_free (m : Mach) (s : Stream) : (m.setStr s).free = m.free := rfl
@[simp] theorem setStr_mem (m : Mach) (s : Stream) : (m.setStr s).mem = m.mem := rfl
@[simp] theorem setStr_poison (m : Mach) (s : Stream) : (m.setStr s).poison = m.poison := rfl
@[simp] theorem setStr_acc (m : Mach) (s : Stream) : (m.setStr s).acc = m.acc := rfl
@[simp] theorem setStr_dirty (m : Mach) (s : Stream) : (m.setStr s).dirty = m.dirty := rfl
@[simp] theorem setStr_tiles (m : Mach) (s : Stream) : (m.setStr s).tiles = m.tiles := rfl
@[simp] theorem setStr_clusters (m : Mach) (s : Stream) : (m.setStr s).clusters = m.clusters := rfl
@[simp] theorem setStr_dies (m : Mach) (s : Stream) : (m.setStr s).dies = m.dies := rfl
@[simp] theorem setStr_links (m : Mach) (s : Stream) : (m.setStr s).links = m.links := rfl
@[simp] theorem setStr_hub (m : Mach) (s : Stream) : (m.setStr s).hub = m.hub := rfl
@[simp] theorem setStr_net (m : Mach) (s : Stream) : (m.setStr s).net = m.net := rfl
@[simp] theorem setStr_homeq (m : Mach) (s : Stream) : (m.setStr s).homeq = m.homeq := rfl
@[simp] theorem setStr_cycle (m : Mach) (s : Stream) : (m.setStr s).cycle = m.cycle := rfl
@[simp] theorem setStr_sigs (m : Mach) (s : Stream) : (m.setStr s).sigs = m.sigs := rfl
@[simp] theorem setStr_rings (m : Mach) (s : Stream) : (m.setStr s).rings = m.rings := rfl
@[simp] theorem setStr_events (m : Mach) (s : Stream) : (m.setStr s).events = m.events := rfl
@[simp] theorem setStr_scrubs (m : Mach) (s : Stream) : (m.setStr s).scrubs = m.scrubs := rfl
@[simp] theorem setStr_regs (m : Mach) (s : Stream) : (m.setStr s).regs = m.regs := rfl
@[simp] theorem setStr_locked (m : Mach) (s : Stream) : (m.setStr s).locked = m.locked := rfl
@[simp] theorem setStr_edges (m : Mach) (s : Stream) : (m.setStr s).edges = m.edges := rfl
@[simp] theorem setStr_adj (m : Mach) (s : Stream) : (m.setStr s).adj = m.adj := rfl
@[simp] theorem setStr_adjLeft (m : Mach) (s : Stream) : (m.setStr s).adjLeft = m.adjLeft := rfl

@[simp] theorem rdByte_setStr (m : Mach) (s : Stream) (k : Nat) : rdByte (m.setStr s) k = rdByte m k := rfl

theorem curCtx_setStr {m : Mach} (h : sparseOk Ctx.blank 0 m.ctxs = true) (s : Stream) :
    (m.setStr s).curCtx = m.curCtx.setStream m.cur.eng s := by
  show (m.setCtx m.cur.tile m.cur.ctx _).ctx m.cur.tile m.cur.ctx = _
  rw [ctx_setCtx h, if_pos ⟨rfl, rfl⟩]

theorem str_setStr {m : Mach} (h : sparseOk Ctx.blank 0 m.ctxs = true) (s : Stream) : (m.setStr s).str = s := by
  show ((m.setStr s).curCtx).stream m.cur.eng = s
  rw [curCtx_setStr h]; simp

theorem setStr_setStr {m : Mach} (h : sparseOk Ctx.blank 0 m.ctxs = true) (s t : Stream) :
    (m.setStr s).setStr t = m.setStr t := by
  show (m.setStr s).setCtx m.cur.tile m.cur.ctx (((m.setStr s).curCtx).setStream m.cur.eng t) = _
  rw [curCtx_setStr h]
  show (m.setCtx m.cur.tile m.cur.ctx _).setCtx m.cur.tile m.cur.ctx _ = _
  rw [setCtx_setCtx h]; simp [Mach.setStr, Mach.setCurCtx]

theorem setStr_str {m : Mach} (h : sparseOk Ctx.blank 0 m.ctxs = true) : m.setStr m.str = m := by
  show m.setCtx m.cur.tile m.cur.ctx (m.curCtx.setStream m.cur.eng (m.curCtx.stream m.cur.eng)) = m
  rw [setStream_stream]; exact setCtx_ctx h _ _

theorem ctxsOk_setStr {m : Mach} (h : sparseOk Ctx.blank 0 m.ctxs = true) (s : Stream) :
    sparseOk Ctx.blank 0 (m.setStr s).ctxs = true := sparseOk_store h (Nat.zero_le _) _

end Sys2Proof.Machine
end

