-- ==== Sys2Proof/Laws/Ops.lean ====
section
/-!
SUPPORT. What each shared operation does, said once: passing on, writing a register, taking a failure, counting, rebuilding a granule.
-/

namespace Sys2Proof.Machine

open Sys2Proof

/-! ## Passing on -/

/-- The stream passes on to `off`, and nothing else changes. -/
theorem goto_eq (m : Mach) (off : Nat) : m.goto off = m.setStr (m.moved off m.str.x) := rfl

theorem advance_eq (m : Mach) (n : Nat) : m.advance n = m.setStr (m.moved (m.str.pc + n) m.str.x) := rfl

/-- A clean value written to a register. -/
theorem setX_clean (m : Mach) (i : Nat) (r : XReg) (h : r.p = false) :
    m.setX i r = m.setStr { m.str with x := put XReg.blank m.str.x i r } := by
  simp [Mach.setX, h]

/-- A register written, and the stream passes on. -/
theorem setX_advance {m : Mach} (hc : sparseOk Ctx.blank 0 m.ctxs = true) (i n : Nat) (r : XReg) (h : r.p = false) :
    (m.setX i r).advance n = m.setStr (m.moved (m.str.pc + n) (put XReg.blank m.str.x i r)) := by
  rw [setX_clean m i r h, advance_eq, setStr_setStr hc]
  simp only [Mach.moved, Mach.position, str_setStr hc, setStr_cur]

theorem regsBut_put (x : List XReg) (d : Nat) (r : XReg) : regsBut x (put XReg.blank x d r) d r :=
  fun _ => at'_put _ _ _ _ _

/-- What a step of one stream alone comes to. -/
theorem onlyStream_intro {s : State} (hc : sparseOk Ctx.blank 0 s.m.ctxs = true) (st : Stream) :
    onlyStream s { s with m := s.m.setStr st } st :=
  ⟨rfl, str_setStr hc st, fun _ => rfl⟩

theorem passesTo_advance {s : State} (hc : sparseOk Ctx.blank 0 s.m.ctxs = true) (n : Nat) :
    passesTo s { s with m := s.m.advance n } (s.m.str.pc + n) := onlyStream_intro hc _

theorem passesTo_goto {s : State} (hc : sparseOk Ctx.blank 0 s.m.ctxs = true) (off : Nat) :
    passesTo s { s with m := s.m.goto off } off := onlyStream_intro hc _

theorem writesReg_advance {s : State} (hc : sparseOk Ctx.blank 0 s.m.ctxs = true) (d n : Nat) (r : XReg)
    (h : r.p = false) : writesReg s { s with m := (s.m.setX d r).advance n } d r (s.m.str.pc + n) :=
  ⟨_, regsBut_put _ _ _, by rw [setX_advance hc _ _ _ h]; exact onlyStream_intro hc _⟩

theorem len0_eq (s : State) : s.m.len0 = lenOf s := by simp [Mach.len0, commonLen, lenOf]
theorem len1_eq (s : State) : s.m.len1 = lenExt s := by simp [Mach.len1, commonLen, lenExt]

/-- The acting stream does not change when its state is written. -/
@[simp] theorem len0_setStr (m : Mach) (s : Stream) : (m.setStr s).len0 = m.len0 := rfl
@[simp] theorem len1_setStr (m : Mach) (s : Stream) : (m.setStr s).len1 = m.len1 := rfl

/-! ## Taking a failure (R376, R378) -/

/-- Refilling a trap queue writes no memory and no context. -/
theorem refillTraps_kept (cl : Nat) : ∀ (fuel : Nat) (m : Mach),
    (m.refillTraps cl fuel).ctxs = m.ctxs ∧ (m.refillTraps cl fuel).mem = m.mem ∧ (m.refillTraps cl fuel).poison = m.poison
  | 0, _ => ⟨rfl, rfl, rfl⟩
  | fuel + 1, m => by
    cases h : (m.cluster cl).trapHeld with
    | nil => simp only [Mach.refillTraps, h, and_self]
    | cons e es =>
      simp only [Mach.refillTraps, h]
      split
      · exact ⟨rfl, rfl, rfl⟩
      · exact refillTraps_kept cl fuel ((m.number e).2.setCluster cl _)

/-- The queue takes at most 16 records unless it held more already. -/
theorem refillTraps_len (cl : Nat) : ∀ (fuel : Nat) (m : Mach), sparseOk Cluster.blank 0 m.clusters = true →
    (m.cluster cl).trapq.length ≤ 16 → ((m.refillTraps cl fuel).cluster cl).trapq.length ≤ 16
  | 0, _, _, h => h
  | fuel + 1, m, hc, h => by
    cases hh : (m.cluster cl).trapHeld with
    | nil => simp only [Mach.refillTraps, hh]; exact h
    | cons e es =>
      simp only [Mach.refillTraps, hh]
      split
      · exact h
      · have hn : sparseOk Cluster.blank 0 (m.number e).2.clusters = true := hc
        refine refillTraps_len cl fuel ((m.number e).2.setCluster cl _) (sparseOk_store hn (Nat.zero_le cl) _) ?_
        rw [cluster_setCluster hn, if_pos rfl]
        simp only [List.length_append, List.length_cons, List.length_nil]
        omega

/-! ## Stripes (R392, R393) -/

/-- A sum of rows splits into one of them and the others. -/
theorem xors_split (f : Nat → BitVec 72) (i : Nat) : ∀ is : List Nat, is.Nodup → i ∈ is →
    is.foldr (fun k x => f k ^^^ x) 0 = f i ^^^ (is.filter (fun k => decide (k ≠ i))).foldr (fun k x => f k ^^^ x) 0
  | [], _, h => absurd h (by simp)
  | k :: ks, hn, h => by
    obtain ⟨hk, hn⟩ := List.nodup_cons.mp hn
    by_cases e : k = i
    · subst e
      have : ks.filter (fun x => !decide (x = k)) = ks := by
        refine List.filter_eq_self.mpr (fun x hx => ?_)
        simp only [Bool.not_eq_true', decide_eq_false_iff_not]
        rintro rfl; exact hk hx
      simp [this]
    · have hi : i ∈ ks := (List.mem_cons.mp h).resolve_left (fun he => e he.symm)
      simp only [List.foldr_cons, xors_split f i ks hn hi, List.filter_cons, decide_eq_true e, if_true]
      simp only [← BitVec.xor_assoc, BitVec.xor_comm (f k) (f i)]

/-- A granule that the recovery engine rebuilds is the granule as it stands, with its row parity (R393). -/
theorem rebuilt_eq (m : Mach) (kind : ArrayKind) (unit stripe i : Nat) (h : i < 64) :
    m.rebuilt kind unit stripe i = m.row kind unit stripe i := by
  have hs := xors_split (m.row kind unit stripe) i (List.range 64) List.nodup_range (List.mem_range.mpr h)
  simp only [Mach.rebuilt, Mach.columnWord, Mach.rowsXor] at hs ⊢
  rw [hs, BitVec.xor_assoc]
  simp

end Sys2Proof.Machine
end

