-- ==== Sys2Proof/Laws/PerInstr.lean ====
section
/-!
SUPPORT. One lemma per constructor of `Instr`: an instruction's encoding is a whole number of its engine's words (R82, R89);
a step of the machine that no stream fetches has no words.
-/

namespace Sys2Proof.Laws.Words

open Sys2Proof

/-- The syllables of an instruction's encoding fill whole words of the engine. -/
def Statement (i : Instr) : Prop := ∀ e : Engine, e.sylPerWord ∣ (encode e i).length

/-- A common instruction: one word, or two on the vector engine with an extension. -/
theorem common (i : Instr) (r : Word32 × Option Word32) (h : encodeCommon i = some r) : Statement i := by
  obtain ⟨s0, ext⟩ := r
  intro e
  cases e <;> cases ext <;> simp [encode, h, Engine.sylPerWord, Engine.wordBytes]

/-- A control block: its records are padded to the words that LEN names. -/
theorem block (i : Instr) (r : Major × Hdr × Nat × List (Win × Option Pad) × List Word32) (h : encodeCommon i = none)
    (hr : blockRecords i = some r) : Statement i := by
  obtain ⟨m, hd, f, ws, ops⟩ := r
  intro e
  simp only [encode, h, hr, encodeBlock]
  generalize hk : e.sylPerWord = k
  have hpos : 0 < k := by cases e <;> simp [Engine.sylPerWord, Engine.wordBytes] at hk <;> omega
  generalize encodeLoop hd.counts ++ ws.flatMap (fun w => encodeWin w.1 w.2) ++ ops = recs
  have hle : 4 + recs.length ≤ (4 + recs.length + k - 1) / k * k := by
    have := Nat.div_add_mod (4 + recs.length + k - 1) k
    have hm := Nat.mod_lt (4 + recs.length + k - 1) hpos
    rw [Nat.mul_comm]
    omega
  refine ⟨(4 + recs.length + k - 1) / k, ?_⟩
  simp only [List.length_append, List.length_cons, List.length_nil, List.length_replicate]
  rw [Nat.mul_comm k]
  omega

/-- A step of the machine. -/
theorem none_ (i : Instr) (h : encodeCommon i = none) (hr : blockRecords i = none) : Statement i := by
  intro e
  simp [encode, h, hr]

theorem nop : Statement .nop := common _ _ rfl
theorem tail : Statement .tail := common _ _ rfl
theorem wait (sem n : Nat) : Statement (.wait sem n) := common _ _ rfl
theorem signal (sem n : Nat) : Statement (.signal sem n) := common _ _ rfl
theorem sigr (xp sem n : Nat) : Statement (.sigr xp sem n) := common _ _ rfl
theorem bar (scope : Scope) (id : Nat) : Statement (.bar scope id) := common _ _ rfl
theorem br (off : Int) : Statement (.br off) := common _ _ rfl
theorem brx (cmp : Cond) (xa xb : Nat) (off : Int) : Statement (.brx cmp xa xb off) := common _ _ rfl
theorem call (off : Int) : Statement (.call off) := common _ _ rfl
theorem ret : Statement .ret := common _ _ rfl
theorem disp (xc tab : Nat) : Statement (.disp xc tab) := common _ _ rfl
theorem patch (xv pfi : Nat) (eng : Engine) (pos : Nat) : Statement (.patch xv pfi eng pos) := common _ _ rfl
theorem xli (xd : Nat) (mode : XliMode) (imm : Word32) : Statement (.xli xd mode imm) := common _ _ rfl
theorem xop (xd xa : Nat) (minor : XMinor) (src : XSrc) (xb : Nat) : Statement (.xop xd xa minor src xb) := common _ _ rfl
theorem xopImm (xd xa : Nat) (minor : XMinor) (imm : Word32) : Statement (.xopImm xd xa minor imm) := common _ _ rfl
theorem fence (scope : Scope) : Statement (.fence scope) := common _ _ rfl
theorem pfence : Statement .pfence := common _ _ rfl
theorem tkget (xr log2 sem : Nat) (shared : Bool) : Statement (.tkget xr log2 sem shared) := common _ _ rfl
theorem tkput (xr log2 sem : Nat) : Statement (.tkput xr log2 sem) := common _ _ rfl
theorem tklend (xr log2 sem xp : Nat) : Statement (.tklend xr log2 sem xp) := common _ _ rfl
theorem tksplit (xr log2 n : Nat) : Statement (.tksplit xr log2 n) := common _ _ rfl
theorem tkjoin (xr log2 n : Nat) : Statement (.tkjoin xr log2 n) := common _ _ rfl
theorem trap (code : Nat) : Statement (.trap code) := common _ _ rfl
theorem ldw (h : Hdr) (dst src : Win) (scout : Bool) (spg : Nat) : Statement (.ldw h dst src scout spg) := block _ _ rfl rfl
theorem ldg (h : Hdr) (dst src idx : Win) : Statement (.ldg h dst src idx) := block _ _ rfl rfl
theorem ldc (h : Hdr) (dst src : Win) (pad : Pad) (kh kw sh sw ih iw : Nat) : Statement (.ldc h dst src pad kh kw sh sw ih iw) := block _ _ rfl rfl
theorem ldx (h : Hdr) (src : Win) (xd xn : Nat) : Statement (.ldx h src xd xn) := block _ _ rfl rfl
theorem probe (h : Hdr) (src : Win) (xs : Nat) : Statement (.probe h src xs) := block _ _ rfl rfl
theorem pref (h : Hdr) (src : Win) : Statement (.pref h src) := block _ _ rfl rfl
theorem waitm (h : Hdr) (src : Win) (cond : Cond) (scope : Scope) (xv xr : Nat) : Statement (.waitm h src cond scope xv xr) := block _ _ rfl rfl
theorem stw (h : Hdr) (dst src : Win) : Statement (.stw h dst src) := block _ _ rfl rfl
theorem sts (h : Hdr) (dst src idx : Win) : Statement (.sts h dst src idx) := block _ _ rfl rfl
theorem stk (h : Hdr) (val ind src : Win) (cnt : Option Win) (k : Nat) : Statement (.stk h val ind src cnt k) := block _ _ rfl rfl
theorem stx (h : Hdr) (dst : Win) (xs xn : Nat) : Statement (.stx h dst xs xn) := block _ _ rfl rfl
theorem atom (h : Hdr) (dst : Win) (aop : AOp) (ord : AOrd) (scope : Scope) (f : Bool) (xd xa xb : Nat) : Statement (.atom h dst aop ord scope f xd xa xb) := block _ _ rfl rfl
theorem stred (h : Hdr) (dst src : Win) : Statement (.stred h dst src) := block _ _ rfl rfl
theorem mwld (h : Hdr) (wt : Win) (sc : Option Win) (setB tr : Bool) : Statement (.mwld h wt sc setB tr) := block _ _ rfl rfl
theorem mstrm (h : Hdr) (act acc : Win) (sc : Option Win) (sel : Sel) (accSet ret : Bool) : Statement (.mstrm h act acc sc sel accSet ret) := block _ _ rfl rfl
theorem mrb (h : Hdr) (rowb : Nat) : Statement (.mrb h rowb) := block _ _ rfl rfl
theorem mzero (h : Hdr) (acc : Win) (i64 : Bool) : Statement (.mzero h acc i64) := block _ _ rfl rfl
theorem vloop (h : Hdr) (ports : BitVec 7) (wins : List Win) (ks : List Word32) (body : List VWord) : Statement (.vloop h ports wins ks body) := block _ _ rfl rfl
theorem vrst (h : Hdr) : Statement (.vrst h) := block _ _ rfl rfl
theorem meBlockStart (tile : Nat) : Statement (.meBlockStart tile) := none_ _ rfl rfl
theorem streamStart (a : Agent) : Statement (.streamStart a) := none_ _ rfl rfl
theorem loadForme (tile : Nat) : Statement (.loadForme tile) := none_ _ rfl rfl
theorem placeJob : Statement .placeJob := none_ _ rfl rfl
theorem taskRetire (tile : Nat) (ctx : Bool) : Statement (.taskRetire tile ctx) := none_ _ rfl rfl
theorem jobComplete (job : Nat) : Statement (.jobComplete job) := none_ _ rfl rfl
theorem taskKill (tile : Nat) (ctx : Bool) : Statement (.taskKill tile ctx) := none_ _ rfl rfl
theorem aging (job : Nat) : Statement (.aging job) := none_ _ rfl rfl
theorem planInterval (energy : Nat) : Statement (.planInterval energy) := none_ _ rfl rfl
theorem save (job : Nat) : Statement (.save job) := none_ _ rfl rfl
theorem resume (job : Nat) : Statement (.resume job) := none_ _ rfl rfl
theorem rlimit (tile : Nat) : Statement (.rlimit tile) := none_ _ rfl rfl
theorem launch (q : Nat) : Statement (.launch q) := none_ _ rfl rfl
theorem waitev (q : Nat) : Statement (.waitev q) := none_ _ rfl rfl
theorem sigev (q : Nat) : Statement (.sigev q) := none_ _ rfl rfl
theorem tokgrant (q : Nat) : Statement (.tokgrant q) := none_ _ rfl rfl
theorem tokrecall (q : Nat) : Statement (.tokrecall q) := none_ _ rfl rfl
theorem nopc (q : Nat) : Statement (.nopc q) := none_ _ rfl rfl
theorem timestamp (q : Nat) : Statement (.timestamp q) := none_ _ rfl rfl
theorem notifyWrite (q off size : Nat) (v : Word32) : Statement (.notifyWrite q off size v) := none_ _ rfl rfl
theorem eventRecordPost (f : Nat) : Statement (.eventRecordPost f) := none_ _ rfl rfl
theorem bar4Read (f off len : Nat) : Statement (.bar4Read f off len) := none_ _ rfl rfl
theorem bar4Write (f off : Nat) (data : List Byte) : Statement (.bar4Write f off data) := none_ _ rfl rfl
theorem configRequest (f reg : Nat) : Statement (.configRequest f reg) := none_ _ rfl rfl
theorem functionLevelReset (f : Nat) : Statement (.functionLevelReset f) := none_ _ rfl rfl
theorem readReq (p : Packet) : Statement (.readReq p) := none_ _ rfl rfl
theorem writeReq (p : Packet) : Statement (.writeReq p) := none_ _ rfl rfl
theorem atomicReq (p : Packet) : Statement (.atomicReq p) := none_ _ rfl rfl
theorem reduceStore (p : Packet) : Statement (.reduceStore p) := none_ _ rfl rfl
theorem waitmWatch (p : Packet) : Statement (.waitmWatch p) := none_ _ rfl rfl
theorem peerWrite (p : Packet) : Statement (.peerWrite p) := none_ _ rfl rfl
theorem peerAtomic (p : Packet) : Statement (.peerAtomic p) := none_ _ rfl rfl
theorem peerReduceStore (p : Packet) : Statement (.peerReduceStore p) := none_ _ rfl rfl
theorem dataResp (p : Packet) : Statement (.dataResp p) := none_ _ rfl rfl
theorem acknowledge (p : Packet) : Statement (.acknowledge p) := none_ _ rfl rfl
theorem remoteSignal (p : Packet) : Statement (.remoteSignal p) := none_ _ rfl rfl
theorem tokenRequest (p : Packet) : Statement (.tokenRequest p) := none_ _ rfl rfl
theorem tokenGrant (p : Packet) : Statement (.tokenGrant p) := none_ _ rfl rfl
theorem tokenReturn (p : Packet) : Statement (.tokenReturn p) := none_ _ rfl rfl
theorem tokenPass (p : Packet) : Statement (.tokenPass p) := none_ _ rfl rfl
theorem tokenAcknowledge (p : Packet) : Statement (.tokenAcknowledge p) := none_ _ rfl rfl
theorem tokenSplit (p : Packet) : Statement (.tokenSplit p) := none_ _ rfl rfl
theorem tokenJoin (p : Packet) : Statement (.tokenJoin p) := none_ _ rfl rfl
theorem barrierArrival (p : Packet) : Statement (.barrierArrival p) := none_ _ rfl rfl
theorem barrierCompletion (p : Packet) : Statement (.barrierCompletion p) := none_ _ rfl rfl
theorem flit (plane : Nat) (bytes : List Byte) : Statement (.flit plane bytes) := none_ _ rfl rfl
theorem ackTimeout (plane : Nat) : Statement (.ackTimeout plane) := none_ _ rfl rfl
theorem linkAn (plane : Nat) : Statement (.linkAn plane) := none_ _ rfl rfl
theorem linkTrain (plane : Nat) : Statement (.linkTrain plane) := none_ _ rfl rfl
theorem linkFec (plane : Nat) : Statement (.linkFec plane) := none_ _ rfl rfl
theorem linkLlinit (plane peer : Nat) : Statement (.linkLlinit plane peer) := none_ _ rfl rfl
theorem lkctlEn (by' : Actor) (plane : Nat) (v : Word64) : Statement (.lkctlEn by' plane v) := none_ _ rfl rfl
theorem prehash (by' : Actor) (v : Word64) : Statement (.prehash by' v) := none_ _ rfl rfl
theorem prhtime : Statement .prhtime := none_ _ rfl rfl
theorem chiplost (by' : Actor) (v : Word64) : Statement (.chiplost by' v) := none_ _ rfl rfl
theorem chipidWrite (by' : Actor) (v : Word64) : Statement (.chipidWrite by' v) := none_ _ rfl rfl
theorem pmapWrite (by' : Actor) (v : Word64) : Statement (.pmapWrite by' v) := none_ _ rfl rfl
theorem cpsplitWrite (by' : Actor) (cluster : Nat) (v : Word64) : Statement (.cpsplitWrite by' cluster v) := none_ _ rfl rfl
theorem dpsplitWrite (by' : Actor) (die : Nat) (v : Word64) : Statement (.dpsplitWrite by' die v) := none_ _ rfl rfl
theorem tcinv (by' : Actor) (die : Nat) (v : Word64) : Statement (.tcinv by' die v) := none_ _ rfl rfl
theorem qctlWrite (by' : Actor) (q : Nat) (v : Word64) : Statement (.qctlWrite by' q v) := none_ _ rfl rfl
theorem hsig (by' : Actor) (v : Word64) : Statement (.hsig by' v) := none_ _ rfl rfl
theorem qgo (by' : Actor) (v : Word64) : Statement (.qgo by' v) := none_ _ rfl rfl
theorem canctlGo (by' : Actor) (v : Word64) : Statement (.canctlGo by' v) := none_ _ rfl rfl
theorem ripeningPeriodEnd (latencyOk : Bool) : Statement (.ripeningPeriodEnd latencyOk) := none_ _ rfl rfl
theorem bootclr (by' : Actor) (v : Word64) : Statement (.bootclr by' v) := none_ _ rfl rfl
theorem tkopGetExclusive (cluster : Nat) (v : Word64) : Statement (.tkopGetExclusive cluster v) := none_ _ rfl rfl
theorem tkopGetShared (cluster : Nat) (v : Word64) : Statement (.tkopGetShared cluster v) := none_ _ rfl rfl
theorem tkopPut (cluster : Nat) (v : Word64) : Statement (.tkopPut cluster v) := none_ _ rfl rfl
theorem tkopLend (cluster : Nat) (v : Word64) : Statement (.tkopLend cluster v) := none_ _ rfl rfl
theorem tkopSplit (cluster : Nat) (v : Word64) : Statement (.tkopSplit cluster v) := none_ _ rfl rfl
theorem tkopJoin (cluster : Nat) (v : Word64) : Statement (.tkopJoin cluster v) := none_ _ rfl rfl
theorem doorbellRead (by' : Actor) (cluster i : Nat) : Statement (.doorbellRead by' cluster i) := none_ _ rfl rfl
theorem trapactRetry (by' : Actor) (cluster : Nat) : Statement (.trapactRetry by' cluster) := none_ _ rfl rfl
theorem trapactSkip (by' : Actor) (cluster : Nat) : Statement (.trapactSkip by' cluster) := none_ _ rfl rfl
theorem trapactGoto (by' : Actor) (cluster newoff : Nat) : Statement (.trapactGoto by' cluster newoff) := none_ _ rfl rfl
theorem trapactKill (by' : Actor) (cluster : Nat) : Statement (.trapactKill by' cluster) := none_ _ rfl rfl
theorem wdactKill (by' : Actor) (tile : Nat) (ctx : Bool) : Statement (.wdactKill by' tile ctx) := none_ _ rfl rfl
theorem wdactLoad (by' : Actor) (tile : Nat) (ctx : Bool) (forme : Nat) : Statement (.wdactLoad by' tile ctx forme) := none_ _ rfl rfl
theorem svctlWrite (by' : Actor) (cluster : Nat) (v : Word64) : Statement (.svctlWrite by' cluster v) := none_ _ rfl rfl
theorem pllcWrite (by' : Actor) (i : Nat) (v : Word64) : Statement (.pllcWrite by' i v) := none_ _ rfl rfl
theorem pllLock (i : Nat) : Statement (.pllLock i) := none_ _ rfl rfl
theorem hmctlGo (by' : Actor) (die stack : Nat) (v : Word64) : Statement (.hmctlGo by' die stack v) := none_ _ rfl rfl
theorem hbmStepComplete (die stack : Nat) (ok : Bool) (rep : Nat) : Statement (.hbmStepComplete die stack ok rep) := none_ _ rfl rfl
theorem gtcadj (by' : Actor) (v : Word64) : Statement (.gtcadj by' v) := none_ _ rfl rfl
theorem pciectlReady (by' : Actor) (v : Word64) : Statement (.pciectlReady by' v) := none_ _ rfl rfl
theorem registerWrite (by' : Actor) (off : Nat) (v : Word64) : Statement (.registerWrite by' off v) := none_ _ rfl rfl
theorem reset : Statement .reset := none_ _ rfl rfl
theorem boot : Statement .boot := none_ _ rfl rfl
theorem bootTimeout : Statement .bootTimeout := none_ _ rfl rfl
theorem failsClear : Statement .failsClear := none_ _ rfl rfl
theorem alarm (source detail : Nat) : Statement (.alarm source detail) := none_ _ rfl rfl
theorem vrhot (low : Bool) : Statement (.vrhot low) := none_ _ rfl rfl
theorem thermalHot (die tmax : Nat) (temps : List Nat) : Statement (.thermalHot die tmax temps) := none_ _ rfl rfl
theorem patrolScrub (kind : ArrayKind) (unit stripe : Nat) (bad : List Nat) (column : Bool) : Statement (.patrolScrub kind unit stripe bad column) := none_ _ rfl rfl
theorem stripeRecovery (kind : ArrayKind) (unit stripe : Nat) (bad : List Nat) (column : Bool) : Statement (.stripeRecovery kind unit stripe bad column) := none_ _ rfl rfl
theorem pageIn (ia : Word64) (hostCopy : Option (List Byte)) : Statement (.pageIn ia hostCopy) := none_ _ rfl rfl
theorem tokenReclaim (die entry : Nat) : Statement (.tokenReclaim die entry) := none_ _ rfl rfl
theorem gangSliceStart (entry : Nat) (late : Bool) : Statement (.gangSliceStart entry late) := none_ _ rfl rfl
theorem gangSliceEnd (entry : Nat) : Statement (.gangSliceEnd entry) := none_ _ rfl rfl
theorem gangStartCheck (entry : Nat) : Statement (.gangStartCheck entry) := none_ _ rfl rfl
theorem pcieCompletion (tag : Nat) (data : List PByte) : Statement (.pcieCompletion tag data) := none_ _ rfl rfl
theorem pcieLinkUp (speed width : Nat) (flitMode : Bool) : Statement (.pcieLinkUp speed width flitMode) := none_ _ rfl rfl

end Sys2Proof.Laws.Words
end

