-- ==== Sys2Proof/Tests/Slice0.lean ====
section
/-!
SUPPORT. Small checks of the model: ill-formed terms that the well-formedness check refuses, words written out from the
manual's tables and examples, single steps on small states, and for each statement with hypotheses a state that meets them.
-/

namespace Sys2Proof.Tests

open Sys2Proof Sys2Proof.Machine
set_option Elab.async false

/-! ## Well-formedness: one ill-formed term for each check -/

theorem test_wf_x_index : (Instr.xli 16 .zx 0).wf .le = false := by decide
theorem test_wf_semaphore : (Instr.wait 64 1).wf .le = false := by decide
theorem test_wf_wait_zero : (Instr.wait 0 0).wf .le = false := by decide
theorem test_wf_signal_count : (Instr.signal 0 65536).wf .le = false := by decide
theorem test_wf_sigr_count : (Instr.sigr 0 0 16384).wf .le = false := by decide
theorem test_wf_bar_id : (Instr.bar .cl 16).wf .le = false := by decide
theorem test_wf_offset : (Instr.br 2147483648).wf .le = false := by decide
theorem test_wf_table : (Instr.disp 0 16).wf .le = false := by decide
theorem test_wf_patch_field : (Instr.patch 0 16 .le 0).wf .le = false := by decide
theorem test_wf_source_needs_mov : (Instr.xop 0 0 .add .gtc 0).wf .le = false := by decide
theorem test_wf_token_engine : (Instr.tkput 0 12 0).wf .me = false := by decide
theorem test_wf_region_size : (Instr.tkget 0 11 0 false).wf .le = false := by decide
theorem test_wf_split : (Instr.tksplit 0 13 2).wf .le = false := by decide
theorem test_wf_trap_code : (Instr.trap 16384).wf .le = false := by decide
theorem test_wf_levels : (Instr.pref { counts := [1, 1, 1, 1, 1, 1] } {}).wf .le = false := by decide
theorem test_wf_count : (Instr.pref { counts := [65537] } { stride := [0] }).wf .le = false := by decide
theorem test_wf_slot_level : (Instr.pref { slv := 0 } {}).wf .le = false := by decide
theorem test_wf_block_engine : (Instr.pref {} {}).wf .se = false := by decide
theorem test_wf_map : (Instr.pref {} { map := 1 }).wf .le = false := by decide
theorem test_wf_extent : (Instr.pref {} { extent := 0 }).wf .le = false := by decide
theorem test_wf_strides : (Instr.pref {} { stride := [0] }).wf .le = false := by decide
theorem test_wf_buffer : (Instr.pref {} { bd := some 32 }).wf .le = false := by decide
theorem test_wf_registers : (Instr.ldx {} {} 15 1).wf .le = false := by decide
theorem test_wf_kernel : (Instr.ldc {} {} {} {} 0 1 1 1 1 1).wf .le = false := by decide
theorem test_wf_padding : (Instr.ldc {} {} {} { t := 256 } 1 1 1 1 1 1).wf .le = false := by decide
theorem test_wf_rank : (Instr.stk {} {} {} {} none 9).wf .se = false := by decide
theorem test_wf_atom_operand : (Instr.atom {} {} .add .none .cl false 1 0 0).wf .se = false := by decide
theorem test_wf_boundary_row : (Instr.mrb {} 65).wf .me = false := by decide
theorem test_wf_body_empty : (Instr.vloop {} 0 [] (List.replicate 8 0) []).wf .ve = false := by decide
theorem test_wf_body_operand : (Instr.vloop {} 0 [] (List.replicate 8 0) [{ d := 64 }]).wf .ve = false := by decide
theorem test_wf_tile : (Instr.loadForme 512).wf .le = false := by decide
theorem test_wf_queue : (Instr.launch 128).wf .le = false := by decide
theorem test_wf_function : (Instr.eventRecordPost 16).wf .le = false := by decide
theorem test_wf_plane : (Instr.linkAn 8).wf .le = false := by decide
theorem test_wf_cluster : (Instr.trapactRetry .policy 32).wf .le = false := by decide
theorem test_wf_die : (Instr.tokenReclaim 4 0).wf .le = false := by decide
theorem test_wf_pll : (Instr.pllLock 35).wf .le = false := by decide
theorem test_wf_gang : (Instr.gangSliceEnd 16).wf .le = false := by decide

/-! ## Decoding: words from the manual -/

/-- The 64-bit words of a load or store engine as syllables. -/
def words64 (l : List Nat) : List Word32 := l.flatMap (fun w => [BitVec.ofNat 32 w, BitVec.ofNat 32 (w / 2 ^ 32)])
/-- The 128-bit words of the matrix engine as syllables. -/
def words128 (l : List Nat) : List Word32 := l.flatMap (fun w => (List.range 4).map (fun i => BitVec.ofNat 32 (w / 2 ^ (32 * i))))
/-- What an engine decodes, where it is the instruction. -/
def reads (e : Engine) (s : List Word32) (i : Instr) : Bool := decide (decode e s = .ok i)

/-- Words of chapters 05, 06, 12 and 15. -/
theorem test_decode_common :
    reads .le (words64 [0x0C300004]) (.signal 3 4) && reads .le (words64 [0x04000000]) .tail
      && reads .le (words64 [0x28300000]) (.disp 3 0) && reads .le (words64 [0x000000102C304000]) (.patch 3 1 .le 0x10)
      && reads .le (words64 [0x54000001]) (.trap 1) && reads .le (words64 [0x38000000]) (.fence .tile)
      && reads .le (words64 [0x0000E00030500000]) (.xli 5 .zx 0xE000)
      && reads .le (words64 [0x000001C034514200]) (.xopImm 5 5 .add 448)
      && reads .le (words64 [0xFFFFFFEF1C518004]) (.brx .ltu 5 6 (-17)) = true := by decide +kernel
theorem test_decode_matrix_common :
    reads .me (words128 [0x420000000]) (.call 4) && reads .me (words128 [0x08400001]) (.wait 4 1) = true := by decide +kernel
theorem test_decode_tokens :
    reads .le (words64 [0x40440300]) (.tkget 4 16 3 false) && reads .se (words64 [0x40440301]) (.tkget 4 16 3 true)
      && reads .le (words64 [0x44440300]) (.tkput 4 16 3) && reads .le (words64 [0x48440906]) (.tklend 4 16 9 6)
      && reads .le (words64 [0x4C434001]) (.tksplit 4 13 1) && reads .le (words64 [0x50434001]) (.tkjoin 4 13 1) = true := by
  decide +kernel

/-- The load of chapter 04. -/
theorem test_decode_ldw :
    reads .le (words64 [0x0001000280212E00, 0x000000000C400000, 0x020300000003003F, 0, 0x00000001000000FF,
        0x22FF100000000040, 0x4000, 0x000000010000063F, 0x200])
      (.ldw { counts := [64, 4], wcnt := 1, scnt := 2, wsem := 3, ssem := 4 }
        { fmt := .bf16, bd := some 0, extent := 256, stride := [1, 64] }
        { space := .vm, fmt := .bf16, map := 1, w1 := 0x4000, extent := 1600, stride := [1, 512] } false 0) = true := by
  decide +kernel

/-- The convolution load of chapter 15. -/
theorem test_decode_ldc :
    reads .le (words64 [0x883AAE00, 0x40, 0x0007000200020003, 0x0203000000000007, 0, 0x0000000100000FFF, 0x0000000C00000004,
        0x0000020000000040, 0x02FF0000, 0x000000DF00000000, 0x0000000400000001, 0x20, 0x0102020000000000,
        0x0202000000000000, 0x0000000000060007])
      (.ldc { counts := [4, 3, 3, 8, 8], pmask := 0x40 }
        { fmt := .bf16, bd := some 0, extent := 4096, stride := [1, 4, 12, 64, 512] }
        { fmt := .bf16, extent := 224, stride := [1, 4, 32, 0, 0] } ⟨1, 2, 2, 0, 0⟩ 3 3 1 1 7 8) = true := by decide +kernel

/-- atom.add.f.cl of chapter 22, from the tables of R90, R93 and R98. -/
theorem test_decode_atom :
    reads .se [0x90101E00#32, 0, 0, 0, 0x49FF0000#32, 0x2000#32, 0, 0, 0x00D7C000#32, 0]
      (.atom {} { space := .cpx, fmt := .i64, w1 := 0x2000 } .add .none .cl true 5 15 0) = true := by decide +kernel

/-- waitm.ge.sys on an I64 of the explicit pool, likewise. -/
theorem test_decode_waitm :
    reads .le [0x98101E00#32, 0, 0, 0, 0x49FF0000#32, 0x2000#32, 0, 0, 0x70D00000#32, 0]
      (.waitm {} { space := .cpx, fmt := .i64, w1 := 0x2000 } .ge .sys 3 4) = true := by decide +kernel

/-- The pass and the boundary row of chapter 08. -/
theorem test_decode_matrix :
    reads .me (words128 [0x840CAE08, 0x8002FF000000000001, 0x10FF0000000000400000007F, 0x400000007F00000000])
      (.mstrm { counts := [2] } { fmt := .bf16, w1 := 0x80, extent := 128, stride := [64] }
        { space := .ta, extent := 128, stride := [64] } none .a false true)
      && reads .me (words128 [0x88040E00, 0x20]) (.mrb {} 32) = true := by decide +kernel

/-- The vector loop of chapter 09. -/
theorem test_decode_vloop :
    reads .ve ([0x8068AE00#32, 0x00020001#32, 0x04200000#32, 0, 3, 0x01FF0000#32, 0, 0, 0xFF#32, 0x40#32]
        ++ [0x01FF0000#32, 0x400#32, 0, 0xFF#32, 0x40#32, 0x08000011#32, 0, 0, 0, 0, 0, 0, 0, 0]
        ++ [0x0610C300#32, 0xB8E8C000#32, 0x82354AA0#32])
      (.vloop { counts := [4], wcnt := 2, scnt := 1, wsem := 1, ssem := 2 } 0x11
        [{ fmt := .f32, extent := 256, stride := [64] }, { fmt := .f32, w1 := 0x400, extent := 256, stride := [64] }]
        (List.replicate 8 0)
        [{ stop := false, op := .vmul, d := 16, a := 48, b := 48 }, { op := .vmov, ty := .i32, d := 40, a := 48 },
          { op := .vadd, d := 53, a := 18, b := 42 }]) = true := by decide +kernel

/-- Encodings that the tables refuse (R102, R383). -/
theorem test_decode_reserved :
    (match decode .ve [0x40440300#32] with | .error (.illop _) => true | _ => false)
      && (match decode .le (words64 [0x08500000]) with | .error (.badField 0 0xFFFFF) => true | _ => false)
      && (match decode .le (words64 [0x100000000]) with | .error (.badField 1 1) => true | _ => false) = true := by decide +kernel

/-! ## Small states -/

/-- What a step comes to meets a check. -/
def after (o : Host.Outcome State Fault Refusal) (p : State → Bool) : Bool :=
  match o with
  | .next t => p t
  | _ => false

/-- Canonical tables, as one check. -/
def canonB (m : Mach) : Bool :=
  Memory.wf m.mem && sparseOk false 0 m.poison && sparseOk AccEntry.blank 0 m.acc && sparseOk Tile.blank 0 m.tiles
    && sparseOk Ctx.blank 0 m.ctxs && sparseOk Cluster.blank 0 m.clusters && sparseOk Die.blank 0 m.dies
    && sparseOk Link.blank 0 m.links && sparseOk Queue.blank 0 m.hub.queues && sparseOk Func.blank 0 m.hub.funcs
    && sparseOk Source.blank 0 m.hub.sources && keysRise 0 m.regs

theorem canon_of {m : Mach} (h : canonB m = true) : m.Canon := by
  simp only [canonB, Bool.and_eq_true] at h
  obtain ⟨⟨⟨⟨⟨⟨⟨⟨⟨⟨⟨h1, h2⟩, h3⟩, h4⟩, h5⟩, h6⟩, h7⟩, h8⟩, h9⟩, h10⟩, h11⟩, h12⟩ := h
  exact ⟨h1, h2, h3, h4, h5, h6, h7, h8, h9, h10, h11, h12⟩

/-- The stream free to run, as one check. -/
def freshB (m : Mach) : Bool := m.str.mode = .run && m.str.blk = none && !m.str.granted && !m.inOrder

theorem fresh_of {m : Mach} (h : freshB m = true) : m.Fresh := by
  simp only [freshB, Bool.and_eq_true, decide_eq_true_eq, Bool.not_eq_true'] at h
  exact ⟨h.1.1.1, h.1.1.2, h.1.2, h.2⟩

/-- What a read of a table gives, as a check. -/
def gotB (g : Got) (bs : List PByte) (m : Mach) : Bool :=
  match g with
  | .ok cs n => decide (cs = bs) && decide (n = m)
  | _ => false

theorem got_of {g : Got} {bs : List PByte} {m : Mach} (h : gotB g bs m = true) : g = .ok bs m := by
  unfold gotB at h
  split at h
  · simp only [Bool.and_eq_true, decide_eq_true_eq] at h
    rw [h.1, h.2]
  · cases h

/-- What an access gives, as a check. -/
def accB {α : Type} [DecidableEq α] (r : Acc α) (a : α) (m : Mach) : Bool :=
  match r with
  | .done x n => decide (x = a) && decide (n = m)
  | _ => false

theorem acc_of {α : Type} [DecidableEq α] {r : Acc α} {a : α} {m : Mach} (h : accB r a m = true) : r = .done a m := by
  unfold accB at h
  split at h
  · simp only [Bool.and_eq_true, decide_eq_true_eq] at h
    rw [h.1, h.2]
  · cases h

/-- Clean bytes. -/
def pb (l : List Nat) : List PByte := l.map (fun n => ⟨BitVec.ofNat 8 n, false⟩)
/-- Bytes of memory from a key on; zeros are not listed. -/
def cells (k : Nat) (l : List Nat) : List Host.Cell :=
  (l.mapIdx (fun i n => (k + i, BitVec.ofNat 8 n))).filter (fun c => c.2 ≠ 0)

/-- A stream of the task, at offset 16 of its section, on VA 0; x0 to x4 hold 7, 9, -1, the VA of the owned range, and a
poisoned value. -/
def stream0 : Stream :=
  { mode := .run, enabled := true, clen := 4096, pc := 16
    x := [⟨7, false⟩, ⟨9, false⟩, ⟨0xFFFFFFFFFFFFFFFF, false⟩, ⟨0x10000, false⟩, ⟨0, true⟩, ⟨84, false⟩, ⟨21, false⟩] }
/-- A task of job 1 on tile 5: semaphore 0 holds 5; map0 is VA 0, constant, on the pool of cluster 0; map1 is VA 0x10000,
owned, readable and writable, on device memory at IA 0x10000. -/
def ctx0 : Ctx :=
  { loaded := true, party := 20, job := 1, groups := [some 3, none, none, some 2], mdir := 0x100, mdn := 2
    le := stream0, me := stream0, ve := stream0, se := stream0, sems := [5]
    maps := [⟨1, 0x40000000001⟩, ⟨0x100000010, 0x10007⟩] }
def job1 : Job := { id := 1, queue := some 0, st := .running, members := [(1, 3, 1), (4, 2, 1)], formes := [{ tile := 5, st := .loaded }] }
/-- The machine with that task, acting for one of its streams. -/
def mach (e : Engine) : Mach :=
  { cur := ⟨5, false, e⟩, ctxs := [(10, ctx0)], locked := [0, 1, 2, 3], hub := { jobs := [job1] } }
def task (e : Engine) : State := { m := mach e }
/-- The same with another context, and with another LE. -/
def withCtx (c : Ctx) (e : Engine) : State := { m := { mach e with ctxs := [(10, c)] } }
def withLe (s : Stream) : State := withCtx { ctx0 with le := s } .le
/-- A request of the LE that is not acknowledged. -/
def write1 : Request := { agent := some ⟨5, false, .le⟩, op := 2 }
def writing : State := { m := { mach .le with hub := { jobs := [job1], requests := [write1] } } }

theorem canon_task : ∀ e, (task e).m.Canon := fun e => canon_of (by cases e <;> decide +kernel)
theorem fresh_task : ∀ e, (task e).m.Fresh := fun e => fresh_of (by cases e <;> decide +kernel)

/-! ## Common instructions -/

theorem test_nop : after (exec .nop (task .ve)) (fun t => t.m.str.pc = 20) = true := by decide +kernel
theorem test_fence_waits : after (exec (.fence .pkg) writing) (fun t => t.m.str.pc = 16) = true := by decide +kernel
theorem test_fence_of_another_scope : after (exec (.fence .tile) { writing with m := { writing.m with hub := { writing.m.hub with
    requests := [{ write1 with chip := 1 }] } } }) (fun t => t.m.str.pc = 24) = true := by decide +kernel
theorem test_xli_hi : after (exec (.xli 0 .hi 0x12) (task .le)) (fun t => t.m.xr 0 = ⟨0x1200000007, false⟩) = true := by
  decide +kernel
theorem test_xli_sx : after (exec (.xli 4 .sx 0xFFFFFFFE#32) (task .ve)) (fun t =>
    t.m.xr 4 = ⟨0xFFFFFFFFFFFFFFFE, false⟩ && t.m.str.pc = 24) = true := by decide +kernel
theorem test_xop_sub_into_source : after (exec (.xop 1 0 .sub .operand 1) (task .me)) (fun t =>
    t.m.xr 1 = ⟨0xFFFFFFFFFFFFFFFE, false⟩ && t.m.xr 0 = ⟨7, false⟩) = true := by decide +kernel
theorem test_xop_sra : after (exec (.xopImm 0 2 .sra 4) (task .le)) (fun t => t.m.xr 0 = ⟨0xFFFFFFFFFFFFFFFF, false⟩) = true := by
  decide +kernel
theorem test_xop_mov_does_not_read_a : after (exec (.xop 0 4 .mov .operand 1) (task .le)) (fun t => t.m.xr 0 = ⟨9, false⟩) = true := by
  decide +kernel
theorem test_xop_party : after (exec (.xop 0 0 .mov .party 0) (task .le)) (fun t => t.m.xr 0 = ⟨20, false⟩) = true := by
  decide +kernel
theorem test_xop_poison : after (exec (.xop 0 4 .add .operand 1) (task .le)) (fun t => (t.m.xr 0).p) = true := by decide +kernel
theorem test_br_itself : after (exec (.br 0) (task .le)) (fun t => t.m.str.pc = 16) = true := by decide +kernel
theorem test_br_outside : after (exec (.br (-3)) (task .le)) (fun t =>
    (t.m.cluster 0).trapq.map (fun e => (e.status, e.detail)) = [(14, 0xFFFFFFFFFFFFFFF8)]) = true := by decide +kernel
theorem test_brx_unsigned : after (exec (.brx .ltu 0 2 1) (task .le)) (fun t => t.m.str.pc = 24) = true := by decide +kernel
theorem test_brx_signed : after (exec (.brx .lt 0 2 5) (task .le)) (fun t => t.m.str.pc = 24) = true := by decide +kernel
theorem test_call : after (exec (.call 2) (task .ve)) (fun t => t.m.str.rs = [24] && t.m.str.pc = 24) = true := by decide +kernel
theorem test_call_full : after (exec (.call 2) (withLe { stream0 with rs := List.replicate 8 0 })) (fun t =>
    (t.m.cluster 0).trapq.map (·.status) = [8] && t.m.str.pc = 16) = true := by decide +kernel
theorem test_ret : after (exec .ret (withLe { stream0 with rs := [40, 8] })) (fun t => t.m.str.rs = [8] && t.m.str.pc = 40) = true := by
  decide +kernel
theorem test_wait_served : after (exec (.wait 0 5) (task .le)) (fun t => t.m.curCtx.sem 0 = 0 && t.m.str.pc = 24) = true := by
  decide +kernel
theorem test_wait_blocks : after (exec (.wait 0 6) (task .le)) (fun t =>
    t.m.curCtx.sem 0 = 5 && t.m.str.mode = .waiting 0 6 && t.m.str.pc = 16) = true := by decide +kernel
/-- A younger waiter is not served past an older one (R69). -/
theorem test_signal_serves_in_order : after (exec (.signal 0 1) (withCtx { ctx0 with
    waitq := [{ sem := 0, n := 7, eng := .me }, { sem := 0, n := 1, eng := .ve }] } .le)) (fun t =>
    t.m.curCtx.sem 0 = 6 && t.m.curCtx.waitq.length = 2) = true := by decide +kernel
theorem test_signal_saturates : after (exec (.signal 0 65531) (task .le)) (fun t =>
    (t.m.cluster 0).trapq.map (·.status) = [10] && t.m.curCtx.sem 0 = 5) = true := by decide +kernel
theorem test_sigr : after (exec (.sigr 1 3 2) (task .le)) (fun t =>
    t.m.net.map (fun p => (p.op, p.addr, p.arg)) = [(0x40, 0x900000003, 2)]) = true := by decide +kernel
theorem test_sigr_hub : after (exec (.sigr 5 48 2) (withLe { stream0 with x := stream0.x.set 5 ⟨2, false⟩ })) (fun t =>
    (t.m.cluster 0).trapq.map (fun e => (e.status, e.detail)) = [(2, 0xFFFE000000000005)]) = true := by decide +kernel
theorem test_trap : after (exec (.trap 300) (task .le)) (fun t =>
    (t.m.cluster 0).trapq.map (fun e => (e.status, e.type, e.id, e.detail)) = [(20, 0x82, 20, 0x180000012C)]) = true := by
  decide +kernel
theorem test_bar_last : after (exec (.bar .cl 2) (task .le)) (fun t => t.m.str.pc = 24) = true := by decide +kernel
theorem test_bar_tile_waits : after (exec (.bar .tile 2) (task .le)) (fun t => t.m.str.mode = .barrier .tile 2) = true := by
  decide +kernel
theorem test_bar_no_member : after (exec (.bar .die 0) (task .le)) (fun t =>
    (t.m.cluster 0).trapq.map (fun e => (e.status, e.detail)) = [(2, 0x700000)]) = true := by decide +kernel
theorem test_tail : after (exec .tail writing) (fun t =>
    t.m.str.mode = .tail && t.m.curCtx.tracker = [1, 0] && t.m.hub.requests.map (·.tracked) = [some 0]) = true := by decide +kernel

/-- The tables of disp, and a block to patch, in the pool of cluster 0. -/
def tables : List Host.Cell :=
  cells (clKey 0 0x100) [0, 2] ++ cells (clKey 0 0x200) ([2, 0, 0, 0, 0x40, 0, 0, 0] ++ [8, 0, 0, 0, 0x20, 0, 0, 0]
    ++ [16, 0, 0, 0, 0x28, 0, 0, 0]) ++ cells (clKey 0 0x800) [0, 0x9E, 0x10, 0x94, 0, 0, 0, 0, 1]
def withTables : State := { m := { mach .le with mem := tables, clusters := [] } }

theorem test_disp_second_mould : after (exec (.disp 1 0) withTables) (fun t => t.m.xr 1 = ⟨16, false⟩ && t.m.str.pc = 0x28) = true := by
  decide +kernel
theorem test_disp_over : after (exec (.disp 2 0) withTables) (fun t => (t.m.xr 2).v = 0xFFFFFFFFFFFFFFFF && t.m.str.pc = 0x40) = true := by
  decide +kernel
theorem test_disp_none : after (exec (.disp 1 2) withTables) (fun t => (t.m.cluster 0).trapq.map (·.status) = [13]) = true := by
  decide +kernel
theorem test_patch : after (exec (.patch 0 0 .le 0x800) withTables) (fun t => t.m.str.pend = [⟨0x800, 0, 7⟩] && t.m.str.pc = 24) = true := by
  decide +kernel
theorem test_patch_mask : after (exec (.patch 0 1 .le 0x800) withTables) (fun t =>
    (t.m.cluster 0).trapq.map (fun e => (e.status, e.detail)) = [(12, 0x80005010000)]) = true := by decide +kernel


/-! ## Witnesses: for each statement with hypotheses, terms that meet them, clause by clause -/

theorem wit_NopAndFencesPassOn :
    canonB (task .le).m = true ∧ (task .le).m.fenceDone .pkg = true ∧ (task .le).m.pfenceDone = true
      ∧ canonB writing.m = true ∧ writing.m.fenceDone .pkg = false ∧ writing.m.pfenceDone = false := by decide +kernel

theorem wit_XliLoadsItsExtension : canonB (task .ve).m = true ∧ ((task .ve).m.xr 15).p = false ∧ ((task .ve).m.xr 4).p = true := by
  decide +kernel

theorem wit_XopComputes : canonB (task .me).m = true ∧ ((task .me).m.xr 2).p = false ∧ ((task .me).m.xr 15).p = false
    ∧ ((task .me).m.xr 4).p = true := by decide +kernel

theorem wit_XopSamplesAndPoison : canonB (task .se).m = true ∧ ((task .se).m.xr 4).p = true ∧ XMinor.add ≠ .mov := by
  decide +kernel

/-- Targets inside the section and outside it, conditions that hold and that do not, return stores of every fill. -/
theorem wit_ControlTransfers :
    let tgt := fun (off : Int) => ((task .le).m.str.pc : Int) + off * ((task .le).m.cur.eng.wordBytes : Nat)
    canonB (task .le).m = true ∧ tgt (-2) = 0 ∧ tgt 509 = 4088 ∧ ¬ tgt 510 < 4096 ∧ tgt (-3) < 0 ∧ (task .le).m.str.clen = 4096 ∧ ((task .le).m.xr 0).p = false ∧ ((task .le).m.xr 1).p = false
    ∧ ((task .le).m.xr 0).v.toNat < ((task .le).m.xr 1).v.toNat ∧ (task .le).m.str.rs = []
    ∧ canonB (withLe { stream0 with rs := [40, 8] }).m = true ∧ (withLe { stream0 with rs := [40, 8] }).m.str.rs = 40 :: [8]
    ∧ canonB (withLe { stream0 with rs := List.replicate 8 0 }).m = true
    ∧ 8 ≤ (withLe { stream0 with rs := List.replicate 8 0 }).m.str.rs.length := by decide +kernel

/-- The same tables without an overflow target. -/
def withoutOver : State :=
  { m := { mach .le with mem := cells (clKey 0 0x100) [0, 2] ++ cells (clKey 0 0x200) [1, 0, 0, 0, 0xFF, 0xFF, 0xFF, 0xFF, 8, 0, 0, 0, 0x20] } }

/-- x1 holds 9, which the second mould holds; x2 is above both. -/
theorem wit_DispChoosesTheFirstMould :
    let s := withTables
    let m := s.m
    let hs := pb [2, 0, 0, 0, 0x40, 0, 0, 0]
    let mould := fun i => if i = 0 then pb [8, 0, 0, 0, 0x20, 0, 0, 0] else pb [16, 0, 0, 0, 0x28, 0, 0, 0]
    (canonB m && !(m.xr 1).p && !(m.xr 2).p && decide (0 < m.curCtx.mdn)
      && gotB (m.readTable (m.curCtx.mdir.toNat + 8 * 0) 8) (pb [0, 2, 0, 0, 0, 0, 0, 0]) m
      && valOf (pb [0, 2, 0, 0, 0, 0, 0, 0]) == 0x200 && gotB (m.readTable 0x200 8) hs m
      && valOf hs == 0x40 * 2 ^ 32 + m.cur.eng.code * 2 ^ 8 + 2
      && [0, 1].all (fun i => gotB (m.readTable (0x200 + 8 + 8 * i) 8) (mould i) m)
      && decide (valOf (mould 0) % 2 ^ 32 < (m.xr 1).v.toNat) && decide ((m.xr 1).v.toNat ≤ valOf (mould 1) % 2 ^ 32)
      && decide (valOf (mould 1) / 2 ^ 32 % 2 ^ 32 < m.str.clen)
      && decide (valOf (mould 1) % 2 ^ 32 < (m.xr 2).v.toNat) && decide (0x40 < m.str.clen)) = true := by decide +kernel

theorem wit_DispChoosesTheFirstMould_none :
    let m := withoutOver.m
    let hs := pb [1, 0, 0, 0, 0xFF, 0xFF, 0xFF, 0xFF]
    (canonB m && !(m.xr 2).p && gotB (m.readTable (m.curCtx.mdir.toNat + 8 * 0) 8) (pb [0, 2, 0, 0, 0, 0, 0, 0]) m
      && gotB (m.readTable 0x200 8) hs m && valOf hs == (2 ^ 32 - 1) * 2 ^ 32 + m.cur.eng.code * 2 ^ 8 + 1
      && gotB (m.readTable (0x200 + 8) 8) (pb [8, 0, 0, 0, 0x20, 0, 0, 0]) m
      && decide (8 < (m.xr 2).v.toNat)) = true := by decide +kernel

theorem wit_PatchEntersTheStore :
    let m := withTables.m
    let target := m.curCtx.stream .le
    (canonB m && !(m.xr 0).p && target.enabled && decide (target.mode ≠ .tail) && decide (m.here .le < (0x800 : Int))
      && decide (0x800 < target.clen)
      && gotB (m.readTable (target.code.toNat + 0x800) 4) (rdRun m (clKey 0 0x800) 4) m
      && isMajor .le ((sylsOf (rdRun m (clKey 0 0x800) 4)).getD 0 0)
      && gotB (m.readTable (target.code.toNat + 0x800) 16) (rdRun m (clKey 0 0x800) 16) m
      && decide (patchWord .le (sylsOf (rdRun m (clKey 0 0x800) 16)) 0 ((m.xr 0).v.toNat % 2 ^ 32) = none)
      && decide (target.pend.length < 8)) = true := by decide +kernel

/-- Semaphore 0 holds 5 and nobody waits: a wait for 5 is served, one for 6 is not. -/
theorem wit_WaitIsServedOrWaits : canonB (task .le).m = true ∧ freshB (task .le).m = true ∧ servable (task .le).m.curCtx.sems [] (task .le).m.curCtx.waitq = none
    ∧ (task .le).m.curCtx.waitq = [] ∧ 5 ≤ (task .le).m.curCtx.sem 0 ∧ ¬ 6 ≤ (task .le).m.curCtx.sem 0 := by decide +kernel

theorem wit_WaitersAreServedInOrder :
    servable [5, 0, 9] [] [{ sem := 0, n := 6, eng := .me }, { sem := 2, n := 9, eng := .ve }] = some { sem := 2, n := 9, eng := .ve } := by
  decide +kernel

/-- A sum of 65,535 is taken, and one of 65,536 is not. -/
theorem wit_SignalAdds : canonB (task .le).m = true ∧ servable (task .le).m.curCtx.sems [] (task .le).m.curCtx.waitq = none ∧ (task .le).m.meBusy = false
    ∧ (task .le).m.curCtx.sem 0 + (task .le).m.curCtx.rsv 0 + 65530 = 65535 ∧ (task .le).m.curCtx.waitq = []
    ∧ (task .le).m.str.posts = [] := by decide +kernel

/-- A stream with a signal, or the message of a sigr, behind its pfence. -/
def posted (dest : Option Nat) : State := withLe { stream0 with posts := [{ dest := dest, sem := 3, n := 2 }] }

theorem wit_SignalAdds_posts : canonB (posted none).m = true ∧ (posted none).m.str.posts ≠ [] ∧ (posted none).m.meBusy = false
    ∧ servable (posted none).m.curCtx.sems [] (posted none).m.curCtx.waitq = none
    ∧ (posted none).m.curCtx.sem 0 + (posted none).m.curCtx.rsv 0 + 1 ≤ 65535 := by decide +kernel

/-- The ME of the task, with a block that has issued and not started. -/
def mrb1 : Active := { instr := .mrb {} 32, left := 1, c := [] }
def busy : State := { m := { mach .me with tiles := [(5, { runs := [none, some false], mat := { queue := [mrb1] } })] } }

theorem wit_SignalBehindMatrixBlocks : canonB busy.m = true ∧ busy.m.meBusy = true
    ∧ busy.m.curCtx.sem 0 + busy.m.curCtx.rsv 0 + 1 ≤ 65535 := by decide +kernel

theorem wit_MessagesTakeTheirPlane : canonB (task .le).m = true ∧ (task .le).m.hub.rehash ≠ 1
    ∧ ({ op := 0x20, plane := 3 } : Packet).dchip = (task .le).m.hub.chip
    ∧ ({ op := 0x01, dchip := 9 } : Packet).dchip ≠ (task .le).m.hub.chip := by decide +kernel

theorem wit_SigrSendsTheSignal : canonB (task .le).m = true ∧ ((task .le).m.xr 1).p = false ∧ ((task .le).m.xr 1).v.toNat < 2 ^ 32
    ∧ (task .le).m.pfenceDone = true ∧ (task .le).m.hub.rehash ≠ 1 ∧ canonB writing.m = true ∧ writing.m.pfenceDone = false
    ∧ ¬ ((task .le).m.xr 2).v.toNat < 2 ^ 32 := by decide +kernel

/-- A write of the ME that is not acknowledged; a message that may leave, and one behind a write. -/
theorem wit_SigrSendsTheSignal_posts :
    let me : State := { m := { mach .me with hub := { jobs := [job1], requests := [{ write1 with agent := some ⟨5, false, .me⟩ }] } } }
    let late : Mach := { (posted (some 9)).m with hub := { jobs := [job1], requests := [write1] } }
    canonB me.m = true ∧ me.m.pfenceDone = false ∧ me.m.cur.eng = .me ∧ (me.m.xr 1).v.toNat < 2 ^ 32
      ∧ writing.m.cur.eng ≠ .me ∧ canonB (posted (some 9)).m = true ∧ (posted (some 9)).m.quiet = true
      ∧ (posted (some 9)).m.hub.rehash ≠ 1 ∧ (posted (some 9)).m.str.posts.map (·.dest) = [some 9]
      ∧ canonB late = true ∧ late.quiet = false ∧ late.str.posts.length = 1 := by decide +kernel

theorem wit_PoisonedRegistersAreUses : freshB (task .le).m = true ∧ ((task .le).m.xr 4).p = true := by decide +kernel

theorem wit_TrapStopsTheStream : (300 : Nat) < 2 ^ 14 ∧ (task .me).m.str.pc + lenOf (task .me) < 2 ^ 32 := by decide +kernel

theorem wit_AFailureStopsItsStream : canonB (task .le).m = true ∧ ({ cause := .range } : Trap).task = false
    ∧ ((task .le).m.cluster (clusterOf (task .le).m.cur.tile)).trapq.length < 16
    ∧ ((task .le).m.cluster (clusterOf (task .le).m.cur.tile)).trapHeld = []
    ∧ (let m := { (task .le).m with clusters := [(0, { trapq := List.replicate 16 {} })] }
       canonB m = true ∧ 16 ≤ (m.cluster (clusterOf m.cur.tile)).trapq.length) := by decide +kernel

theorem wit_TheRecordOfAFailure : (({ cause := .range } : Trap).off.getD (task .le).m.str.pc) < 2 ^ 32
    ∧ (task .le).m.curCtx.job < 2 ^ 32 := by decide +kernel

theorem wit_AKillBegins : canonB (task .le).m = true ∧ ({ cause := .poisonuse, task := true } : Trap).task = true
    ∧ (task .le).m.curCtx.loaded = true ∧ (task .le).m.curCtx.dying = none := by decide +kernel

/-- The other three streams of the task stand at the barrier or have ended. -/
def gathered : State :=
  withCtx { ctx0 with me := { stream0 with mode := .barrier .tile 2 }, ve := { stream0 with mode := .tail },
                      se := { stream0 with mode := .barrier .tile 2 } } .le

theorem wit_TileBarrierCompletesWithItsLastArrival : canonB gathered.m = true ∧ freshB gathered.m = true
    ∧ (∀ e ∈ [Engine.me, .ve, .se], arrivedTile 2 (gathered.m.curCtx.stream e) = true)
    ∧ canonB (task .le).m = true ∧ freshB (task .le).m = true ∧ arrivedTile 2 ((task .le).m.curCtx.stream .me) = false := by
  decide +kernel

/-- The same task in a job whose cluster group has two members. -/
def twoMembers : State := { m := { mach .le with hub := { jobs := [{ job1 with members := [(1, 3, 2)] }] } } }

/-- A group of one member, of two, none, and one at system scope. -/
theorem wit_GroupBarriers : canonB (task .le).m = true ∧ freshB (task .le).m = true ∧ (task .le).m.curCtx.group .die = none
    ∧ (task .le).m.curCtx.group .cl = some 3 ∧ (task .le).m.curCtx.loaded = true ∧ (task .le).m.job? 1 = some job1
    ∧ job1.membersOf .cl 3 ≤ ((task .le).m.setMode (task .le).m.cur (.barrier .cl 2)).arrivals 1 .cl 3 2
    ∧ canonB twoMembers.m = true ∧ freshB twoMembers.m = true ∧ twoMembers.m.curCtx.group .cl = some 3
    ∧ (twoMembers.m.job? 1).map (·.membersOf .cl 3) = some 2
    ∧ (twoMembers.m.setMode twoMembers.m.cur (.barrier .cl 2)).arrivals 1 .cl 3 2 < 2
    ∧ (task .le).m.curCtx.group .sys = some 2 ∧ (task .le).m.hub.rehash ≠ 1 := by decide +kernel

theorem wit_TailEndsTheStream : canonB writing.m = true ∧ writing.m.meBusy = false ∧ writing.m.str.posts = [] := by decide +kernel


/-! ## Tokens: x3 names the region of 64 KiB at IA 0x10000, whose home is die 0 -/

/-- The task with holdings in its cluster's table. -/
def holds (l : List Holding) : State := { m := { mach .le with clusters := [(0, { hold := l })] } }
def hold64k (ex : Bool) : Holding := { base := 0x10000, log2 := 16, ex := ex, party := 20, job := 1 }
/-- Its own party id in x6, and 84 in x5. -/
def holdsSelf : State :=
  { m := { mach .le with clusters := [(0, { hold := [hold64k true] })]
                         ctxs := [(10, { ctx0 with le := { stream0 with x := stream0.x.set 6 ⟨20, false⟩ } })] } }

/-- What `namesRegion` of the statements asks for: the register is clean, the address aligned, the range owned. -/
def names (s : State) : Bool :=
  !(s.m.xr 3).p && (match s.m.curCtx.translate (s.m.xr 3).v.toNat (2 ^ 16) with
    | some (r, ia) => r.kind = .owned && ia = 0x10000
    | none => false)

theorem wit_TkgetAsksOrSignals : canonB (task .le).m = true ∧ names (task .le) = true ∧ 0x10000 % 2 ^ 16 = 0
    ∧ validRegion 0x10000 16 = true ∧ (task .le).m.atOnce 20 (some 1) 0x10000 16 false = false
    ∧ (task .le).m.holdRoom 20 ((task .le).m.getNeeds 20 (some 1) 0x10000 16) = true ∧ (task .le).m.hub.rehash ≠ 1
    ∧ (holds [hold64k true]).m.cycle = false
    ∧ canonB (holds [hold64k true]).m = true ∧ names (holds [hold64k true]) = true
    ∧ (holds [hold64k true]).m.atOnce 20 (some 1) 0x10000 16 false = true
    ∧ (holds [hold64k true]).m.atOnce 20 (some 1) 0x10000 16 true = true
    ∧ servable ctx0.sems [] ctx0.waitq = none ∧ ctx0.sem 63 + ctx0.rsv 63 + 1 ≤ 65535 ∧ ctx0.waitq = [] := by decide +kernel

/-- A table of 4,096 holdings has no room. -/
theorem wit_TkgetAsksOrSignals_held :
    let s := holds (List.replicate 4096 { hold64k true with party := 24 })
    names s = true ∧ s.m.atOnce 20 (some 1) 0x10000 16 false = false
      ∧ s.m.holdRoom 20 (s.m.getNeeds 20 (some 1) 0x10000 16) = false ∧ s.m.holdRoom 20 (2 ^ 1 - 1) = false := by decide +kernel

theorem wit_TkputAndTklendRelease : canonB (holds [hold64k true]).m = true ∧ freshB (holds [hold64k true]).m = true
    ∧ names (holds [hold64k true]) = true ∧ holderCluster 20 = some 0 ∧ (holds [hold64k true]).m.crowded ((holds []).m.supParty 0) = false
    ∧ (holds [hold64k true]).m.flushed 20 0x10000 16 = true ∧ (holds [hold64k true]).m.readsIn 0x10000 16 = false
    ∧ (holds [hold64k true]).m.curCtx.leaving = []
    ∧ (holds [hold64k true]).m.pfenceDone = true ∧ (holds [hold64k true]).m.hub.rehash ≠ 1
    ∧ (holds [hold64k true]).m.exact 20 (some 1) 0x10000 16 = some (hold64k true) ∧ (hold64k true).ex = true
    ∧ ((holds [hold64k true]).m.xr 5).p = false ∧ ((holds [hold64k true]).m.xr 5).v.toNat = 84
    ∧ canonB holdsSelf.m = true ∧ freshB holdsSelf.m = true ∧ names holdsSelf = true
    ∧ holdsSelf.m.exact 20 (some 1) 0x10000 16 = some (hold64k true) ∧ (holdsSelf.m.xr 6).v.toNat = holdsSelf.m.curCtx.party
    ∧ holdsSelf.m.cycle = false ∧ holdsSelf.m.flushed 20 0x10000 16 = true ∧ holdsSelf.m.readsIn 0x10000 16 = false
    ∧ holdsSelf.m.pfenceDone = true ∧ holdsSelf.m.crowded (holdsSelf.m.supParty 0) = false
    ∧ servable ctx0.sems [] ctx0.waitq = none ∧ ctx0.sem 7 + ctx0.rsv 7 + 1 ≤ 65535 := by decide +kernel

/-- The same with a write that is not acknowledged. -/
theorem wit_TkputAndTklendRelease_early :
    let m : Mach := { (holds [hold64k true]).m with hub := { jobs := [job1], requests := [write1] } }
    canonB m = true ∧ freshB m = true ∧ m.exact 20 (some 1) 0x10000 16 = some (hold64k true) ∧ m.pfenceDone = false := by
  decide +kernel

/-- A stream whose split or join the home has acknowledged. -/
def acknowledged : State := withLe { stream0 with granted := true }

theorem wit_TksplitAndTkjoinWaitForTheHome : canonB (holds [hold64k true]).m = true ∧ freshB (holds [hold64k true]).m = true
    ∧ (holds [hold64k true]).m.str.blk = none ∧ names (holds [hold64k true]) = true
    ∧ ((holds [hold64k true]).m.exact 20 (some 1) 0x10000 16).any (·.ex) = true
    ∧ (holds [hold64k true]).m.holdRoom 20 (2 ^ 4 - 1) = true ∧ (holds [hold64k true]).m.coversIn 20 (some 1) 0x10000 16 = true
    ∧ canonB (holds [hold64k false]).m = true ∧ freshB (holds [hold64k false]).m = true ∧ names (holds [hold64k false]) = true
    ∧ ((holds [hold64k false]).m.exact 20 (some 1) 0x10000 16).any (·.ex) = false
    ∧ (holds [hold64k false]).m.coversIn 20 (some 1) 0x10000 16 = false
    ∧ canonB acknowledged.m = true ∧ acknowledged.m.str.granted = true ∧ names acknowledged = true := by decide +kernel

/-- A token message of party 20 for the region, and a home with a table. -/
def tokPkt (op sem n : Nat) (shared : Bool) (data : List PByte) : Packet :=
  { op := op, addr := 0x10000, src := 20, tag := 77, arg := tokArg 16 sem shared n, data := data }
def home (t : Sparse TokEntry) : State := { m := { mach .le with dies := store Die.blank [] 0 { tok := t } } }
def entry (excl : Bool) (share : Nat) : TokEntry :=
  { excl := excl, share := share, log2 := 16, base := 16, party := if excl then 20 else 0, sharers := List.replicate share 20 }
/-- One share, which party 24 holds. -/
def sharedBy24 : TokEntry := { entry false 1 with sharers := [24] }

/-- `atTidyHome` of the statements at die 0. -/
def tidyB (p : Packet) (s : State) : Bool :=
  homeDie p.addr.toNat = some 0 && (s.m.die 0).waits = [] && decide (({ s.m.die 0 with waits := [⟨p⟩] } : Die).settle =
    { s.m.die 0 with waits := [⟨p⟩] }) && sparseOk TokEntry.blank 0 (s.m.die 0).tok && p.src.toNat / 2048 = s.m.hub.chip
    && s.m.hub.rehash ≠ 1

theorem wit_TokenRequestIsGrantedOrWaits :
    let p := tokPkt 0x41 7 0 false []
    let q := tokPkt 0x41 7 0 true []
    canonB (home []).m = true ∧ p.op = 0x41 ∧ p.log2 = 16 ∧ tidyB p (home []) = true ∧ ((home []).m.die 0).grantable p = true
      ∧ ((home []).m.die 0).freeTok ≠ 0 ∧ q.shared = true ∧ canonB (home [(9, entry false 2)]).m = true
      ∧ tidyB q (home [(9, entry false 2)]) = true ∧ ((home [(9, entry false 2)]).m.die 0).grantable q = true
      ∧ canonB (home [(9, sharedBy24)]).m = true ∧ tidyB q (home [(9, sharedBy24)]) = true ∧ sharedBy24.sharers.contains 20 = false
      ∧ (entry false 2).sharers.contains 20 = true ∧ ((home [(9, sharedBy24)]).m.die 0).grantable q = true
      ∧ canonB (home [(9, { entry true 0 with party := 24 })]).m = true ∧ tidyB p (home [(9, { entry true 0 with party := 24 })]) = true
      ∧ ((home [(9, { entry true 0 with party := 24 })]).m.die 0).grantable p = false := by decide +kernel

theorem wit_TokenReturnComesHome :
    let p := tokPkt 0x43 7 0 false []
    canonB (home [(9, entry true 0)]).m = true ∧ p.num < 14 ∧ p.log2 < 64 ∧ tidyB p (home [(9, entry true 0)]) = true
      ∧ ((home [(9, entry true 0)]).m.die 0).entryOf (tokBase 0x10000) 16 = some (9, entry true 0)
      ∧ canonB (home [(9, entry false 2)]).m = true ∧ tidyB p (home [(9, entry false 2)]) = true
      ∧ ((home [(9, entry false 2)]).m.die 0).entryOf (tokBase 0x10000) 16 = some (9, entry false 2)
      ∧ (entry false 2).split = false := by decide +kernel

theorem wit_TokenPassGoesToTheReceiver :
    let p := tokPkt 0x44 7 0 false (pb [84, 0, 0, 0])
    canonB (home [(9, entry true 0)]).m = true ∧ p.log2 < 64 ∧ tidyB p (home [(9, entry true 0)]) = true
      ∧ ((home [(9, entry true 0)]).m.die 0).entryOf (tokBase p.addr.toNat) p.log2 = some (9, entry true 0)
      ∧ valOf p.data = 84 ∧ 84 / 2048 = (home []).m.hub.chip := by decide +kernel

theorem wit_TokenSplitMakesChildren :
    let p := tokPkt 0x46 7 4 false []
    canonB (home [(9, entry true 0)]).m = true ∧ p.op = 0x46 ∧ tidyB p (home [(9, entry true 0)]) = true
      ∧ p.num = 4 ∧ 12 + p.num ≤ p.log2 ∧ ((home [(9, entry true 0)]).m.die 0).entryOf 16 16 = some (9, entry true 0)
      ∧ ((home [(9, entry true 0)]).m.die 0).runOfFree (2 ^ p.num) = some 10 := by decide +kernel

/-- The region split in two, both halves with the same party. -/
def halves : Sparse TokEntry :=
  [(9, { split := true, nspl := 1, child := 10, log2 := 16, base := 16 }),
   (10, { excl := true, log2 := 15, base := 16, party := 20 }), (11, { excl := true, log2 := 15, base := 24, party := 20 })]

theorem wit_TokenJoinRestoresTheRegion :
    let p := tokPkt 0x47 7 0 false []
    canonB (home halves).m = true ∧ p.log2 = 16 ∧ tidyB p (home halves) = true
      ∧ ((home halves).m.die 0).entryOf (tokBase p.addr.toNat) p.log2 = some (9, halves.head!.2)
      ∧ halves.all (fun f => !f.2.split || f.1 = 9) = true := by decide +kernel

/-- A request of the LE outstanding under tag 77, its stream in mode `x`. -/
def asked (op : Nat) (x : Mode) : State :=
  { m := { mach .le with
      hub := { jobs := [job1], requests := [{ tag := 77, agent := some ⟨5, false, .le⟩, op := op, party := 20, addr := 0x10000 }] }
      clusters := [(0, { hold := [hold64k true] })]
      ctxs := [(10, { ctx0 with le := { stream0 with mode := x } })] } }

theorem wit_TokenGrantReachesItsTask :
    let p := tokPkt 0x42 7 0 false []
    let s := asked 0x41 .run
    (canonB s.m && decide (s.m.hub.requests.find? (·.answeredBy p) = s.m.hub.requests.head?)
      && decide ((s.m.hub.requests.head?.map (·.agent)) = some (some ⟨5, false, .le⟩)) && p.data.isEmpty
      && decide (partyKind p.src.toNat = 0) && decide ((s.m.ctx 5 false).job = 1)
      && s.m.hub.requests.all (fun r => r.job.isNone && r.gone.isNone && r.tracked.isNone) && !s.m.cycle
      && s.m.entryFor 20 1 0x10000 16
      && !({ s.m with clusters := [(0, { hold := List.replicate 4096 { hold64k true with party := 24 } })] }).entryFor 20 1 0x10000 16
      && decide (servable ctx0.sems [] ctx0.waitq = none) && decide (ctx0.sem p.sem + 1 ≤ 65535)) = true := by decide +kernel

theorem wit_TokenAcknowledgeEndsTheOperation :
    let p := tokPkt 0x45 7 4 false []
    (canonB (asked 0x43 .run).m && canonB (asked 0x46 .token).m && canonB (asked 0x47 .token).m
      && [asked 0x43 .run, asked 0x46 .token, asked 0x47 .token].all (fun s => (s.m.hub.requests.find? (·.answeredBy p)).isSome)
      && decide (partyKind p.src.toNat = 0) && decide (((asked 0x46 .token).m.streamOf ⟨5, false, .le⟩).mode ≠ .run)
      && decide (((asked 0x47 .token).m.streamOf ⟨5, false, .le⟩).mode ≠ .run) && decide (1 ≤ p.num) && decide (p.num ≤ p.log2)
      && decide (servable ctx0.sems [] ctx0.waitq = none) && decide (ctx0.sem p.sem + 1 ≤ 65535)) = true := by decide +kernel


/-! ## Blocks of the load and store engines, in the last iteration of a nest of one -/

/-- A task of job 1 with synchronisation ranges beside the others: VA 0x20000 on device memory, VA 0x30000 on the pool of
cluster 0. -/
def ctxS : Ctx := { ctx0 with maps := ctx0.maps ++ [⟨0x200000010, 0x2000B⟩, ⟨0x300000010, 0x4000001000B⟩] }
/-- Die 0 with a resident, a migrating, a poisoned and an absent page, both stacks trained; scratchpad bytes of tile 5. -/
def paged : Mach :=
  { mach .le with
    mem := cells (hbmKey 0 0) [1, 0, 0x20, 0, 0, 0, 0, 0, 2, 0, 0, 0, 0, 0, 0, 0, 3] ++ cells (hbmKey 0 0x220000) [5]
      ++ cells (tsKey 5 0) [1, 2, 3, 4, 5, 6, 7, 8] ++ cells (clKey 0 0x10000) [5]
    dies := [(0, { st0 := { done := 9 }, st1 := { done := 9 } })], ctxs := [(10, ctxS)] }
/-- The acting stream in the last iteration of block `i`, whose registers read at issue were `xs`. -/
def standing (e : Engine) (i : Instr) (xs : List XReg) (idx : List Int) : State :=
  let b : Active := { instr := i, off := 16, len := 64, phase := .body, inSlot := true, left := 1
                      c := i.hdr.counts.map (fun _ => 0), xs := xs, idx := idx }
  { m := { paged with cur := ⟨5, false, e⟩, ctxs := [(10, ctxS.setStream e { stream0 with blk := some b })] } }
def h1 : Hdr := { counts := [1] }
def tsW (f : Fmt) (base : Nat) : Win := { fmt := f, w1 := BitVec.ofNat 32 base, extent := 8, stride := [1] }
/-- The sync word of the pool, and the one of device memory. -/
def syncW (f : Fmt) : Win := { space := .vm, map := 3, fmt := f, extent := 8, stride := [1] }
def farW (f : Fmt) : Win := { syncW f with map := 2 }

/-- `AtLastOf` of the statements. -/
def lastB (m : Mach) (i : Instr) (counts : List Nat) : Bool :=
  match m.str.blk with
  | some b => decide (b.phase = .body) && b.inSlot && decide (b.left = 1)
      && endsSlot (slotSpan i.hdr i.hdr.counts.length) b.c counts
  | none => false
/-- `survives` of the statements. -/
def survB (i : Instr) (m : Mach) (b b' : Active) : Bool :=
  m.curCtx.dying.isNone && (slotSignals i.bound (m.sendOut b').1 b).curCtx.dying.isNone

theorem wit_ABlockEndsWithItsSignal : canonB (mach .le) = true ∧ (Instr.ldw h1 (tsW .i32 0) (tsW .i32 64) false 0).bound = []
    ∧ ({ len := 64 } : Active).out = none
    ∧ ({ len := 64 } : Active).skip = false ∧ servable (mach .le).curCtx.sems [] (mach .le).curCtx.waitq = none
    ∧ (mach .le).curCtx.waitq = [] := by decide +kernel

theorem wit_ScratchpadElementsAreRead : (tsW .f16 64).space = .ts ∧ (tsW .f16 64).bd = none ∧ 8 ≤ (tsW .f16 64).fmt.width := by
  decide +kernel

/-- The last aligned element of the scratchpad. -/
theorem wit_ScratchpadElementsAreWritten :
    let w := tsW .i64 0xFFFF0
    let n := w.fmt.width / 8
    let o := w.base + 1 * n
    canonB (mach .le) = true ∧ w.space = .ts ∧ w.bd = none ∧ 8 ≤ w.fmt.width ∧ 0xFFFFFFFFFFFFFFFF < 2 ^ w.fmt.width
      ∧ o + n = 2 ^ 20 ∧ o % n = 0 ∧ ∀ j, j < n → (rdByte (mach .le) (tsKey 5 o + j)).p = false := by decide +kernel

theorem wit_PagesGateMemory :
    let p := fun (n : Nat) => paged.page 0 (n * 2 ^ 21)
    paged.dirOpen 0 0 = true ∧ (mach .le).dirOpen 0 0 = false ∧ (p 0).size - (2 ^ 21 - 1) % (p 0).size = 1 ∧ (p 0).state = 1 ∧ paged.stackOpen 0 ((p 0).phys + 0 % (p 0).size) = true ∧ (p 1).state = 2 ∧ (p 2).state = 3
      ∧ (p 3).state = 0 := by decide +kernel

/-- The last byte of a range and the first past it; a constant range written, and one readable range that is not writable. -/
theorem wit_AccessesPassTheirRange :
    let c := paged.curCtx
    (c.translate 0x20000 1).isSome = true ∧ c.translate 0x40000 1 = none ∧ (c.translate 0x3FFFF 1).isSome = true
      ∧ (c.translate 0 8).map (fun r => kindAllows r.1.kind .write) = some false
      ∧ (translateIn 0 8 [⟨1, 5⟩]).map (fun r => (kindAllows r.1.kind .write, permAllows r.1 .write)) = some (true, false) := by
  decide +kernel

/-- Hypotheses of a copy that reads at `si` and writes at `di`. -/
def copyB (s : State) (i : Instr) (dst src : Win) (di si : Int) : Bool :=
  match s.m.str.blk with
  | none => false
  | some b => lastB s.m i i.hdr.counts && (match s.m.readElem 1 src si (runOf i.hdr (fun _ => si) b) none b with
    | (.done e m1, b1) => decide (b1.c = b.c) && decide (b1.idx = b.idx) && decide (b1.done = b.done)
        && (match m1.writeElem 0 dst di (convert e.fmt dst.fmt (dst.mode i.hdr) e.bits (winDraw i.hdr b1)) e.p b1 (b1.left = 1) with
          | (.done () m2, b2) => survB i m2 b b2
          | _ => false)
    | _ => false)

theorem wit_CopiesMoveTheirLastElement :
    let d := tsW .i32 0x100
    let x := tsW .i16 0
    let c5 : Hdr := { counts := [1, 1, 1, 1, 1] }
    let d5 := { d with stride := [1, 1, 1, 1, 1] }
    let x5 := { x with stride := [1, 1, 1, 1, 1] }
    let conv := fun (p : Nat) => Instr.ldc c5 d5 x5 { t := p, v := 9 } 1 1 1 1 8 8
    (copyB (standing .le (.ldw h1 d x false 0) [] []) (.ldw h1 d x false 0) d x 0 0
      && copyB (standing .le (.ldw h1 d x true 0) [] []) (.ldw h1 d x true 0) d x 0 0
      && decide ((standing .le (.ldw h1 d x true 0) [] []).m.srcPages x 0 = [])
      && copyB (standing .se (.stw h1 d x) [] []) (.stw h1 d x) d x 0 0
      && copyB (standing .le (.ldg h1 d x x) [] [3]) (.ldg h1 d x x) d x 0 3
      && copyB (standing .se (.sts h1 d x x) [] [3]) (.sts h1 d x x) d x 3 0
      && copyB (standing .le (conv 0) [] []) (conv 0) d5 x5 0 0
      && lastB (standing .le (conv 1) [] []).m (conv 1) c5.counts
      && decide ((convAt x5 { t := 1, v := 9 } 1 1 [0, 0, 0, 0, 0]).1 < 0)) = true := by decide +kernel

theorem wit_ScalarsMove :
    let w := tsW .i16 0
    let ld := standing .le (.ldx h1 w 3 0) [] []
    let st := standing .se (.stx h1 w 3 0) [⟨70000, false⟩] []
    (lastB ld.m (.ldx h1 w 3 0) [1] && lastB st.m (.stx h1 w 3 0) [1]
      && (match ld.m.str.blk with
        | some b => (match ld.m.readElem 0 w 0 (runOf h1 (at_ w) b) none b with
          | (.done e m1, b1) => decide (b1.done = b.done)
              && survB (.ldx h1 w 3 0) (m1.setX 3 ⟨extend64 e.fmt e.bits, e.p⟩) b b1
          | _ => false)
        | none => false)
      && (match st.m.str.blk with
        | some b => (match st.m.writeElem 0 w 0 (narrow64 w.fmt 70000) false b true with
          | (.done () m1, b1) => survB (.stx h1 w 3 0) m1 b b1
          | _ => false)
        | none => false)) = true := by decide +kernel

/-- The sync word's bytes as waitm reads them, where the statement's other premises hold: whether they are poisoned, and
whether they meet `ltu` against register `x`. -/
def waitB (s : State) (x : Nat) : Option (Bool × Bool) :=
  let w : Win := { syncW .i64 with stride := [] }
  let i : Instr := .waitm {} w .ltu .sys x 9
  match s.m.str.blk with
  | none => none
  | some b => match s.m.locate 0 w false 0 8 .waitm b with
    | .done p m => match m.readPlace p (s.m.vaOf w 0) 8 (fun _ => 8) none b with
      | (.done bs m1, b1) =>
        if lastB s.m i [] && decide (m = s.m) && !p.away && decide (m1.xr x = s.m.xr x) && !(s.m.xr x).p && b1.out.isNone
            && survB i (m1.setX 9 ⟨extend64 .i64 (valOf bs), false⟩) b b1 then
          some (anyPois bs, condHolds .ltu (extend64 .i64 (valOf bs)) (s.m.xr x).v)
        else none
      | _ => none
    | _ => none
def waitS (x : Nat) : State := standing .le (.waitm {} { syncW .i64 with stride := [] } .ltu .sys x 9) [] []
def waitP : State := { m := { (waitS 0).m with poison := [(clKey 0 0x10000 / 8, true)] } }

/-- The sync word holds 5, below x0, which holds 7, and above x7, which holds 0. -/
theorem wit_WaitmWatchesItsWord : waitB (waitS 0) 0 = some (false, true) ∧ waitB (waitS 7) 7 = some (false, false)
    ∧ (waitB waitP 0).map (·.1) = some true := by decide +kernel

/-- The sync word of device memory, reached by messages alone: watched at its home, and answered. -/
def waitF (resp : Option (List PByte)) : State :=
  let i : Instr := .waitm {} { farW .i64 with stride := [] } .ltu .sys 0 9
  let b : Active := { instr := i, off := 16, len := 64, phase := .body, inSlot := true, left := 1, resp := resp }
  { m := { paged with ctxs := [(10, ctxS.setStream .le { stream0 with blk := some b })] } }

theorem wit_WaitmWatchesItsWord_away :
    let w : Win := { farW .i64 with stride := [] }
    let i : Instr := .waitm {} w .ltu .sys 0 9
    let bs := pb [5, 0, 0, 0, 0, 0, 0, 0]
    let at2 := fun (s : State) => (match s.m.str.blk with
      | some b => accB (s.m.locate 0 w false 0 8 .waitm b) (.remote 0x20000) s.m && (b.fetched 0x20000 8).isNone && b.out.isNone
          && b.await.isNone && lastB s.m i [] && survB i (s.m.setX 9 ⟨extend64 .i64 (valOf bs), false⟩) b b
      | none => false)
    (canonB (waitF none).m && at2 (waitF none) && at2 (waitF (some bs)) && !((waitF none).m.xr 0).p
      && decide ((waitF none).m.hub.rehash ≠ 1) && decide (bs.length = 8) && !anyPois bs
      && condHolds .ltu (extend64 .i64 (valOf bs)) ((waitF (some bs)).m.xr 0).v) = true := by decide +kernel

theorem wit_AtomicOperations : Fmt.i8.isInt = true ∧ 0x80 < 2 ^ Fmt.i8.width ∧ 0xFF < 2 ^ Fmt.i8.width := by decide +kernel

/-- Premises of an atom or a reduction at the sync word: it is here, and the read-modify-write `f` is performed. -/
def rmwB (s : State) (i : Instr) (u : Use) (f : List PByte → List PByte) : Bool :=
  match s.m.str.blk with
  | none => false
  | some b => lastB s.m i i.hdr.counts && (match s.m.locate 0 (syncW .i64) true 0 8 u b with
    | .done p m => decide (m = s.m) && !p.away && (match m.rmw p (s.m.vaOf (syncW .i64) 0) 8 f b with
      | (.done _ m1, b1) => survB i m1 b b1
      | _ => false)
    | _ => false)

theorem wit_AtomReadsAndWritesOnce :
    let i : Instr := .atom h1 (syncW .i64) .add .ar .sys true 3 0 0
    let s := standing .se i [⟨7, false⟩, ⟨7, false⟩] []
    (rmwB s i .atom (fun o => pbytes 8 (atomVal .add .i64 .rne (valOf o) 7 7 0) (anyPois o))
      && (match s.m.str.blk with
        | some b => !(atomHeld s.m .ar .sys b) && decide (b.xs = [⟨7, false⟩, ⟨7, false⟩])
        | none => false)) = true := by decide +kernel

/-- A compare and swap, and a reduction, at the sync word of device memory. -/
theorem wit_AtomReadsAndWritesOnce_away :
    let i : Instr := .atom h1 (farW .i64) .cas .rel .sys false 3 0 0
    let s := standing .se i [⟨7, false⟩, ⟨7, false⟩] []
    (lastB s.m i [1] && (match s.m.str.blk with
      | some b => (match s.m.locate 0 (farW .i64) true 0 8 .atom b with
        | .done p m => decide (m = s.m) && p.away && !(atomHeld s.m .rel .sys b)
            && (let data := pbytes 8 7 false ++ pbytes 8 7 false
                let q := msgTo s.m 3 p [(28, AOp.cas.code), (24, Fmt.i64.code), (23, 0), (20, ((farW .i64).mode h1).code)] data
                survB i (s.m.requestAs { q with draws := [winDraw h1 b] }
                  { agent := some s.m.cur, write := true, va := BitVec.ofNat 64 (s.m.vaOf (farW .i64) 0), off := b.off, iter := some b.c }).1 b b)
        | _ => false)
      | none => false)) = true := by decide +kernel

/-- The only draw of a block's last iteration, and its reduction here and away. -/
theorem wit_ReductionsAndSelection :
    let w := tsW .i16 0
    let rd : Instr := .stred h1 (syncW .i64) w
    let s := standing .se rd [] []
    let far : Instr := .stred h1 (farW .i64) w
    let t := standing .se far [] []
    (rmwB s rd .stred (fun o => pbytes 8 (radd .i64 .rne (valOf o) (Fmt.i16.value 0x0201) 0) (anyPois o))
      && (match s.m.str.blk with
        | some b => (match s.m.readElem 1 w 0 (fun _ => 0) none b with
          | (.done e m1, b1) => decide (b1 = b) && decide (m1 = s.m) && decide (e.bits = 0x0201) && !e.p
          | _ => false)
        | none => false)
      && lastB t.m far [1]
      && (match t.m.str.blk with
        | some b => (match t.m.readElem 1 w 0 (fun _ => 0) none b with
          | (.done e m1, b1) => (match m1.locate 0 (farW .i64) true 0 8 .stred b1 with
            | .done p m => decide (m = m1) && p.away && !(e.p && m1.leaves p)
                && (let q := msgTo m1 4 p [(28, e.fmt.code), (24, Fmt.i64.code), (20, ((farW .i64).mode h1).code)] (pbytes 2 e.bits e.p)
                    let r := m1.putOut { q with draws := [winDraw h1 b1] } (m1.vaOf (farW .i64) 0) b1
                    survB far r.1 b r.2)
            | _ => false)
          | _ => false)
        | none => false)) = true := by decide +kernel

/-- A stk of one rank of a row of two, without a count window and with one. -/
theorem wit_ReductionsAndSelection_ranks :
    let w := tsW .i16 0
    let val := tsW .i16 0x100
    let ind := tsW .i32 0x200
    let cnt := tsW .i32 0x300
    let sk : Option Win → Instr := fun c => .stk { counts := [2] } val ind w c 1
    let b : Active := { off := 16, len := 64, phase := .body, inSlot := true, left := 1, c := [0] }
    let t : State := { m := { paged with cur := ⟨5, false, .se⟩, ctxs := [(10, ctxS.setStream .se { stream0 with blk := some b })] } }
    (endsSlot 1 b.c [1] && decide (t.m.str.blk = some b)
      && (match takeRow { counts := [2] } w t.m b with
        | some b0 => !(b0.row.getD []).any (·.2.2) && decide (b0.idx[b0.c.headD 0]? = some 1) && decide (b.wrote = 0)
            && (match (b0.row.getD [])[b0.c.headD 0]? with
              | some x => (match t.m.writeElem 0 val 0 (rankedVal x.1 .i16 .rne x.2.1 (winDraw { counts := [2] } b0)) false b0 false with
                | (.done () m2, b2) => decide (b2.wrote = 0) && decide (b2.c = b0.c) && decide (b2.idx = b0.idx)
                  && (match m2.writeElem 1 ind 0 (convNum .i32 .rne (Sys2Proof.Num.ofInt 1) (winDraw { counts := [2] } b0)).1
                    false { b2 with wrote := 1 } false with
                  | (.done () m3, b3) => decide (b3.c = b0.c) && survB (sk none) m3 b b3
                    && (match m3.locate 3 cnt true 4 4 .write { b3 with wrote := 2 } with
                    | .done p m => decide (m = m3)
                        && (match m3.rmw p 0 4 (fun o => pbytes 4 ((valOf o + 1) % 2 ^ 32) (anyPois o)) { b3 with wrote := 2 } with
                          | (.done _ m4, b4) => survB (sk (some cnt)) m4 b b4
                          | _ => false)
                    | _ => false)
                  | _ => false)
                | _ => false)
              | none => false)
        | none => false)) = true := by decide +kernel

/-- A probe of the resident page whose list has been gone through; one of the absent page, which finds no frame; one of the
absent page on a home without frames. -/
theorem wit_ProbeAndPrefEnd :
    let src : Win := { syncW .i64 with map := 1 }
    let i : Instr := .probe h1 src 3
    let probing := fun (idx : List Int) (pages : List Word64) =>
      let b : Active := { instr := i, off := 16, len := 64, phase := .body, inSlot := true, left := 1, idx := idx, pages := pages }
      { paged with ctxs := [(10, ctxS.setStream .le { stream0 with blk := some b })] }
    let absent : Word64 := 3 * 2 ^ 21
    let full : Mach := { probing [0, 0, 1, 0] [absent] with dies := [(0,
      { st0 := { done := 9 }, st1 := { done := 9 }, noframe := [(absent, scoutKey ⟨5, false, .le⟩)] })] }
    let poisoned : Word64 := 2 * 2 ^ 21
    let hurt := probing [0, 0, 1, 0] [poisoned]
    let bigM : Mach := { paged with dies := [(0, { frcap := 0, st0 := { done := 9 }, st1 := { done := 9 } })]
                                    mem := cells (tsKey 5 0) [1] }
    let p := standing .le (.pref h1 src) [] []
    ([probing [0, 1, 0, 0] [0], full, probing [0, 0, 0, 1] [absent], hurt].all (fun m => (match m.str.blk with
        | some b => decide (b.phase = .body) && b.inSlot && decide (b.left = 1) && endsSlot 0 b.c [] && survB i m b b
        | none => false))
      && decide ((full.page (pageDie absent) (pageOff absent)).state = 0)
      && !((full.die (pageDie absent)).asked absent (scoutKey full.cur))
      && (full.die (pageDie absent)).noframe.contains (absent, scoutKey full.cur)
      && decide ((hurt.page (pageDie poisoned) (pageOff poisoned)).state = 3)
      && !((hurt.die (pageDie poisoned)).asked poisoned (scoutKey hurt.cur))
      && !(hurt.die (pageDie poisoned)).noframe.contains (poisoned, scoutKey hurt.cur)
      && lastB p.m (.pref h1 src) [1] && (match p.m.str.blk with
        | some b => survB (.pref h1 src) p.m b b
        | none => false)
      && (match bigM.probePages src [1] 1 [0] [] with
        | .ok ps => decide (ps = [0]) && bigM.tooBig ps && ps.all (fun p => decide ((bigM.page (pageDie p) (pageOff p)).state ≠ 1))
        | _ => false)) = true := by decide +kernel


/-! ## The matrix engine -/

/-- The ME of the task before its queue `q`. -/
def meWith (q : List Active) : State :=
  { m := { mach .me with tiles := [(5, { runs := [none, some false], mat := { queue := q } })] } }
def actW : Win := { fmt := .i8, w1 := 0, extent := 4096, stride := [256] }
def accW : Win := { space := .ta, fmt := .f64, w1 := 64, extent := 4096, stride := [64] }

/-- Room in the queue and every check passed; a queue of sixteen; a row that is not aligned. -/
theorem wit_MatrixBlocksIssue :
    let h : Hdr := { counts := [2], scnt := 3, ssem := 1 }
    let m := (meWith []).m
    let hw : Hdr := { counts := [Fmt.i8.kp] }
    let wtW : Win := { actW with extent := 65536, stride := [64] }
    (canonB m && canonB busy.m && !m.skips && decide (m.cur.eng = .me) && decide ((m.tile 5).mat.blocks < 16)
      && decide (16 ≤ ((meWith (List.replicate 16 mrb1)).m.tile 5).mat.blocks)
      && decide (m.curCtx.sem 1 + m.curCtx.rsv 1 + 3 ≤ 65535)
      && decide (mwldCheck (.mwld hw wtW none false false) hw wtW none false m = none)
      && decide (mstrmCheck (.mstrm h { actW with fmt := .bf16 } accW none .a true false) h { actW with fmt := .bf16 } accW none .a m = none)
      && decide (mzeroCheck (.mzero h accW true) h accW m = none)
      && (mwldCheck (.mwld h wtW none false false) h wtW none false m).isSome
      && (mstrmCheck (.mstrm h actW accW none .a true false) h actW accW none .a m).isSome
      && (mzeroCheck (.mzero h { accW with w1 := 65 } true) h { accW with w1 := 65 } m).isSome) = true := by decide +kernel

/-- `MayStart` of the statements for the task of tile 5. -/
def mayStartB (m : Mach) (b : Active) : Bool :=
  decide (at' none (m.tile 5).runs 1 = some false) && m.curCtx.loaded && m.curCtx.dying.isNone && !m.curCtx.stopping
    && m.clocked 5 && decide ((m.ctx 5 false).me.mode ≠ .trapped) && decide ((m.tile 5).mat.queue = [b])
    && (m.tile 5).mat.load.isNone && (m.tile 5).mat.strm.isNone && decide (b.phase = .header) && !b.skip && !b.queued
    && !b.inSlot
    && decide (b.left = 1) && b.out.isNone && b.instr.bound.isEmpty && decide (b.instr.hdr.wcnt = 0 ∧ b.instr.hdr.scnt = 0)

theorem wit_MatrixBlocksStart :
    let one : Hdr := { counts := [1] }
    let z : Active := { instr := .mzero one accW true, left := 1, c := [0] }
    let p : Active := { instr := .mstrm one actW accW none .a true false, left := 1, c := [0] }
    let w : Active := { instr := .mwld one actW none false true, left := 1, c := [0] }
    let pass : Pass := { fmt := .i8, a := (mach .me).cellRun p.instr 0 actW 0 Fmt.i8.kp, sa := [], set := {} }
    (canonB (meWith [mrb1]).m && mayStartB (meWith [mrb1]).m mrb1 && mayStartB (meWith [z]).m z && mayStartB (meWith [p]).m p
      && mayStartB (meWith [w]).m w
      && decide (accW.base + 64 ≤ 32768) && decide (((meWith [p]).m.tile 5).bad = [])
      && (List.range 64).all (fun n => !(pass.poisoned n))) = true := by decide +kernel

theorem wit_WeightRunsFillTheirCells :
    sparseOk noWeight 0 ({} : WSet).w = true ∧ (List.replicate 64 ((1 : Nat), false)).length = 64 ∧ Fmt.i8.kp ≤ 256
      ∧ (List.replicate Fmt.i8.kp ((1 : Nat), false)).length = Fmt.i8.kp := by decide +kernel

/-- The last entries of the accumulators. -/
theorem wit_APassUpdatesItsEntries :
    let p : Pass := { fmt := .i8, a := [(1, false)], sa := [], set := {} }
    canonB (mach .me) = true ∧ ((mach .me).tile 5).bad = [] ∧ 32704 + 64 = 32768
      ∧ (List.range 64).all (fun n => !(p.entry false ((mach .me).accE 5 (32704 + n)) n).1.p) = true := by decide +kernel

theorem wit_IntegerPassesClamp : 2 ^ 64 - 1 < 2 ^ 64 ∧ (passI (2 ^ 63 - 1) [1]).2 = true := by decide +kernel

/-! ## The vector engine -/

theorem wit_VectorBlocksEnd :
    let i : Instr := .vloop h1 0 [] [] [{ op := .vmov, d := 1, a := 2 }]
    let s := standing .ve i [] []
    let m1 := (match s.m.str.blk with
      | some b => ((bundles 0 [] [{ op := .vmov, d := 1, a := 2 }]).foldl (Mach.bundle i ⟨i, h1, 0, [], []⟩ b) (s.m, {})).1
      | none => s.m)
    let r := standing .ve (.vrst {}) [] []
    let m2 := m1.setVec { m1.vec with vrb := (m1.vec.vrb + 31) % 32, prb := (m1.vec.prb + 7) % 8 }
    let clear := r.m.setVec { r.m.vec with v := [], p := [], vrb := 0, prb := 0, fpf := 0 }
    let b := s.m.str.blk.getD {}
    let c := r.m.str.blk.getD {}
    (lastB s.m i [1] && b.out.isNone && m2.curCtx.dying.isNone && (m2.vecSlotEnd i.bound b).curCtx.dying.isNone
      && lastB r.m (.vrst {}) [] && survB (.vrst {}) clear c c) = true := by decide +kernel

theorem wit_LanesMove : (63 : Nat) < 64 ∧ ({ op := .vperm } : VWord).op = .vperm := by decide +kernel

/-! ## Arithmetic -/

theorem wit_FormatsAreLaidOut : Fmt.e4m3.isInt = false ∧ 127 < 2 ^ (Fmt.e4m3.spec.ew + Fmt.e4m3.spec.fw)
    ∧ Fmt.e4m3.spec.maxMag = 126 := by decide +kernel

/-- The value of R41's example, and a magnitude past the largest finite value. -/
theorem wit_RoundingIsCorrect : Fmt.bf16.isInt = false ∧ 0xBFFFFFFF < 2 ^ 32 ∧ 0 < 515
    ∧ (roundFin Fmt.bf16.spec .sr false 515 (-9) 0xBFFFFFFF).1 = 0x3F81
    ∧ (roundFin Fmt.bf16.spec .sr false 515 (-9) 0xC0000000).1 = 0x3F80
    ∧ roundFin Fmt.f16.spec .rne false 65536 0 0 = (0x7C00, flOF ||| flNX)
    ∧ roundFin Fmt.f16.spec .rtz false 65536 0 0 = (0x7BFF, flOF ||| flNX) := by decide +kernel

theorem wit_ConversionsFollowTheirPair : (-128 : Int) ≤ 127 ∧ Fmt.e4m3 ∉ withInf ∧ Fmt.e5m2 ∈ withInf
    ∧ convNum .e4m3 .rne (.fin false 65536 0) 0 = (0x7E, flOF ||| flNX) := by decide +kernel

theorem wit_DrawsAreFixed : 65535 < 2 ^ 16 ∧ 255 < 2 ^ 8 ∧ (∀ n ∈ [1, 65535], n < 2 ^ 16) := by decide +kernel

/-- The passes of R49's example. -/
theorem wit_PassesAreExact :
    let p := fun (s : Bool) (m : Nat) (e : Int) => (Num.fin s m e : Sys2Proof.Num)
    passF 0 [p false 1 53, p false 1 0, p true 1 53] = 0x3FF0000000000000
      ∧ passF 0x3FF0000000000000 [p false 1 0, p false 3 (-98)] = 0x4000000000000000 := by decide +kernel

theorem wit_ProductsAreScaled : Fmt.e4m3.isInt = false
    ∧ ({ fmt := .e4m3, a := [(0x38, false)], sa := [], set := {} } : Pass).a.length = 1 := by decide +kernel

/-- Lane 0 of R211's example, under .sat and under .wrap. -/
theorem wit_IntegerElementsAreExact :
    let w : VWord := { op := .vmul, ty := .i16, m := 1 }
    w.ty.isFloat = false ∧ (laneOp {} w 0 0x00037FFF 0xFFFF0002 0).1 = 0xFFFD7FFF
      ∧ (laneOp {} { w with m := 0 } 0 0x00037FFF 0xFFFF0002 0).1 = 0xFFFDFFFE
      ∧ (laneOp {} { w with op := .vmulh, m := 0 } 0 0x00037FFF 0xFFFF0002 0).1 = 0xFFFF0000 := by decide +kernel

theorem wit_FloatElementsRoundOnce : VTy.f16.isFloat = true ∧ 0x7C00 < 2 ^ VTy.f16.w
    ∧ floatOp .vmul .f16 .rne 0 0x7C00 0 0 = (nanOf .f16, flNV) := by decide +kernel

/-- The terms of R45's example. -/
theorem wit_LanesAreConverted :
    ({ op := .vsplit3, m := 2 } : VWord).m < 3
      ∧ (List.range 3).map (splitTerm (Fmt.f32.value 0x3FAAAAAB)) = [0x3FAA, 0x3BAA, 0x37AB] := by decide +kernel

/-- Lane 0 of R226's example. -/
theorem wit_BlocksAreQuantised : ({ op := .vmxq, m := 5 } : VWord).m = Fmt.e4m3.code
    ∧ mxLanes {} { op := .vmxq, ty := .f32, m := 5 } { v := [0x43960000, 0xBF800000, 0x3C23D70A] } 0 = (0x43900000, flNX)
    ∧ mxLanes {} { op := .vmxq, ty := .ui32, m := 5 } { v := [0x43960000, 0xBF800000, 0x3C23D70A] } 1 = (127, 0) := by decide +kernel

theorem wit_SpecialValues : 0x7FC00001 < 2 ^ 32 ∧ Fmt.f32.value 0x7FC00001 = .nan ∧ Fmt.f32.value 0x3F000000 = .fin false (2 ^ 23) (-24)
    ∧ Fmt.f32.value 0xC0000000 = .fin true (2 ^ 23) (-22) := by decide +kernel

/-- The sum of R219's example. -/
theorem wit_ReductionsAreExact :
    sumElems {} { op := .vredsum, ty := .f32 } (0x4B800000 :: List.replicate 63 0x3F800000) 0 = (0x4B800020, flNX)
      ∧ VTy.f32 ≠ .special := by decide +kernel

theorem wit_ComparesWriteTheirPredicate : (5 : Nat) < 16 ∧ VTy.f32 ≠ .special
    ∧ cmpLane { op := .vcmp, ty := .f32, m := 5 } 0x7FC00000 0 = (false, flNV)
    ∧ cmpLane { op := .vcmp, ty := .f32, m := 5 } 0x80000000 0 = (true, 0) := by decide +kernel

theorem wit_ElementsAreComputedAlone : ({ op := .vadd } : VWord).op ∈ [VOp.vadd, .vsub] ∧ (63 : Nat) < 64 ∧ 3 < VTy.i8.m := by
  decide +kernel


/-! ## Tasks and jobs -/

/-- The LE's stream of the task has not started; no engine of its tile runs anything. -/
def unstarted : State :=
  withCtx { ctx0 with le := { stream0 with mode := .off, entry := 32 }, me := { stream0 with mode := .tail },
                      ve := { stream0 with mode := .tail }, se := { stream0 with mode := .tail } } .le

theorem wit_StreamsStartAtTheirEntry :
    let s := unstarted
    let a : Agent := ⟨5, false, .le⟩
    canonB s.m = true ∧ a.tile < 512 ∧ s.m.clocked a.tile = true ∧ (s.m.ctx 5 false).loaded = true ∧ (s.m.ctx 5 false).dying = none
      ∧ (s.m.ctx 5 false).stopping = false ∧ (s.m.job? (s.m.ctx 5 false).job).map (·.st) = some .running
      ∧ ((s.m.ctx 5 false).stream .le).mode = .off ∧ at' none (s.m.tile 5).runs a.eng.code = none ∧ s.m.olderFirst a = false := by
  decide +kernel

/-- Every stream of the task has ended. -/
def ended : State :=
  withCtx { ctx0 with le := { mode := .tail }, me := { mode := .tail }, ve := { mode := .tail }, se := { mode := .tail }, tracker := [0, 0] } .le

theorem wit_TasksRetire :
    canonB ended.m = true ∧ (ended.m.ctx 5 false).loaded = true ∧ (ended.m.ctx 5 false).dying = none
      ∧ (∀ e ∈ [Engine.le, .me, .ve, .se], ((ended.m.ctx 5 false).stream e).mode = .tail)
      ∧ (∀ n ∈ (ended.m.ctx 5 false).tracker, n = 0) ∧ (ended.m.job? 1).map (fun j => decide (0 < j.formes.length)) = some true := by
  decide +kernel

/-- An open ME stream at its bound, and one cycle before it. -/
def openAt (n : Nat) : State :=
  { m := { mach .me with tiles := [(5, { runs := [none, some false], mat := { isOpen := true, openOff := 16, count := n, limit := 262144 } })] } }

theorem wit_OpenStreamsAreBounded :
    let x := fun (n : Nat) => ((openAt n).m.tile 5).mat
    canonB (openAt 262144).m = true ∧ at' none ((openAt 262144).m.tile 5).runs 1 = some false ∧ (x 262144).isOpen = true
      ∧ (x 262144).limit ≤ (x 262144).count ∧ (x 262143).count < (x 262143).limit ∧ canonB (openAt 262143).m = true
      ∧ ((openAt 262144).m.ctx 5 false).loaded = true ∧ ((openAt 262144).m.ctx 5 false).me.mode ≠ .tail := by decide +kernel

/-- A forme of version 1 with its LE enabled, in the pool of cluster 0 at offset 0x4000, and a job that was placed with it. -/
def formeCells : List Host.Cell := cells (clKey 0 0x4000) [1, 0, 1]
def placedJob : Job :=
  { id := 2, queue := some 0, st := .placed, formes := [{ forme := 0x40000004000, tile := 7, st := .reserved }] }
def placed : State := { m := { mach .le with mem := formeCells, hub := { jobs := [job1, placedJob] } } }
/-- A running job whose second forme follows on tile 5, where no task is loaded. -/
def followJob : Job :=
  { job1 with formes := [{ tile := 5, st := .retired }, { forme := 0x40000004000, tile := 5, st := .unplaced }] }
def follows : State := { m := { mach .le with mem := formeCells, ctxs := [], hub := { jobs := [followJob] } } }

/-- What `hubRead` gives, as a check. -/
def readB (c : Chk (List Byte)) (n : Nat) : Bool :=
  match c with
  | .ok bs => decide (bs.length = n)
  | _ => false

theorem wit_FormesLoad :
    let ready := fun (m : Mach) (j : Job) (n : Nat) => j.st = .placed && j.grants.isEmpty
      && !(m.hub.requests.any (fun r => r.job = some j.id)) && j.reserves.contains n
    (canonB placed.m && readB (placed.m.hubRead 0x40000004000 1024 0) 1024
      && decide (placed.m.hub.jobs.find? (fun j => ready placed.m j 7) = some placedJob) && !(placed.m.ctx 7 false).loaded
      && decide (placedJob.formes.findIdx? (fun f => f.tile = 7 && f.st = .reserved) = some 0)
      && canonB follows.m && readB (follows.m.hubRead 0x40000004000 1024 1) 1024
      && decide (follows.m.hub.jobs.find? (fun j => ready follows.m j 5) = none)
      && decide (follows.m.successor followJob 5 = some (1, false))) = true := by decide +kernel

/-- A job that waits, on a device with 8 tiles of cluster 1 free. -/
def waitJob : Job := { id := 3, queue := some 0, prio := 1, formes := [{ place := 0xC0000009 }, { place := 0xC0000009 }] }
def waiting1 : State := { m := { mach .le with hub := { jobs := [job1, waitJob] } } }

theorem wit_HeadJobsArePlaced :
    (waiting1.m.hub.jobs.all (fun k => decide (k.st ≠ .placed)) && decide (waiting1.m.head? = some waitJob)
      && decide (waitJob.st = .waiting) && (match waiting1.m.couldFit waitJob with
        | .ok () => true
        | _ => false)
      && waiting1.m.fits waitJob [] && (match placeJob waitJob.formes (waiting1.m.freeTiles waitJob []) with
        | .ok p => decide (p.got = [(0, 9), (1, 9)])
        | .fail _ => false)) = true := by decide +kernel

/-- The task is being killed for a poisoned use; and killed without a record. -/
def killing (st : Nat) : State := withCtx { ctx0 with dying := some { src := srcTile 5, status := st, id := 20 } } .le

theorem wit_AKillEnds : canonB (killing 18).m = true ∧ ((killing 18).m.ctx 5 false).dying = some { src := srcTile 5, status := 18, id := 20 }
    ∧ (killing 18).m.canRecord { src := srcTile 5, status := 18, id := 20 } = true
    ∧ (killing 0).m.canRecord { src := srcTile 5, status := 0, id := 20 } = true
    ∧ (∀ r ∈ ((killing 18).m.killRequests 5 false ((killing 18).m.unreleased 5 false)).hub.requests, r.ofCtx 5 false = false) := by
  decide +kernel

/-- The killed task still awaits the answer to a write. -/
theorem wit_AKillEnds_sent :
    let m := { (killing 18).m with hub := { jobs := [job1], requests := [{ write1 with party := 20 }] } }
    canonB m = true ∧ (m.killRequests 5 false (m.unreleased 5 false)).hub.requests.any (fun r => r.ofCtx 5 false) = true
      ∧ m.canRecord { src := srcTile 5, status := 18, id := 20 } = true := by decide +kernel

/-- A job whose one task has retired, with its command open. -/
def doneJob : Job := { job1 with cid := 77, formes := [{ tile := 5, st := .retired }] }
def finished : State :=
  { m := { mach .le with ctxs := [], hub := { jobs := [doneJob], queues := [(0, { started := [{ opc := 1, cid := 77, job := 1 }] })] } } }

theorem wit_JobsComplete : canonB finished.m = true ∧ finished.m.job? 1 = some doneJob ∧ doneJob.over = true ∧ doneJob.st ≠ .waiting
    ∧ doneJob.st ≠ .stopped ∧ finished.m.jobHoldings 1 = [] ∧ doneJob.queue = some 0
    ∧ (finished.m.queue 0).started.find? (·.index == doneJob.index) = some { opc := 1, cid := 77, job := 1 } := by decide +kernel

/-- The limit of priority 1 is 100 units of 100 µs: 10,000,000 ns. At 6.4 ns an edge, 1,562,500 edges are that time. -/
def agingAt (edges : Nat) : State := { m := { waiting1.m with edges := edges } }

theorem wit_WaitingJobsAge : (agingAt 0).m.job? 3 = some waitJob ∧ (agingAt 0).m.ageLimit 1 = some 10000000 ∧ waitJob.waits = true
    ∧ waitJob.start + 10000000 < (agingAt 1562501).m.gtc ∧ ¬ waitJob.start + 10000000 < (agingAt 1562500).m.gtc := by decide +kernel

/-- Cluster 0 with a task and cluster 1 without, neither held; cluster 8 held by its sensor. -/
def hotDie : State := { m := { mach .le with dies := [(1, { temps := [105] })] } }

theorem wit_PlanIntervalsSetTheClocks :
    let lim := hotDie.m.hub.plimit * 10 ^ 6
    let budget := (hotDie.m.hub.plimit - 200) * 10 ^ 6
    canonB hotDie.m = true ∧ 0 ∈ hotDie.m.locked ∧ 0 ∉ State.reset.m.locked ∧ hotDie.m.heldHot 8 = true ∧ hotDie.m.heldHot 0 = false ∧ hotDie.m.heldHot 1 = false
      ∧ hotDie.m.holdsTask (fun k => clusterOf k = 0) = true ∧ hotDie.m.holdsTask (fun k => clusterOf k = 1) = false
      ∧ lim < lim + 1 ∧ budget ≤ lim ∧ budget - 1 < budget := by decide +kernel


/-! ## Saving and resuming -/

/-- A stopping job whose task has not started its LE and has nothing live: its SAFE and LIVE tables stand in the pool. The save
region of queue 0 lies in the pool of cluster 1 and holds `size` bytes. -/
def savingCtx : Ctx :=
  { unstarted.m.curCtx with stopping := true, le := { unstarted.m.curCtx.le with safe := 0x400, live := 0x500 } }
def saving (size : Nat) : State :=
  { m := { mach .le with
      ctxs := [(10, savingCtx)], mem := cells (clKey 0 0x400) [1, 0, 0, 0, 0, 0, 0, 0, 32] ++ cells (clKey 0 0x500) [1]
      hub := { jobs := [{ job1 with st := .stopping }], queues := [(0, { save := 0x40001000000, savesz := BitVec.ofNat 64 size })] } } }
/-- The same with the LE inside an instruction that is no safe point. -/
def running : State :=
  { m := { (saving 0).m with ctxs := [(10, { ctx0 with stopping := true, me := { mode := .tail } })], locked := [3] } }

/-- `halted` of the statement for the one task of the job. -/
def haltedB (m : Mach) : Bool :=
  let c := m.ctx 5 false
  [Engine.le, .me, .ve, .se].all (fun e => (c.stream e).halted) && [Engine.le, .me, .ve, .se].any (fun e => (c.stream e).mode ≠ .tail)
    && m.drained 5 false

theorem wit_StoppingJobsAreSaved :
    let s := saving 0x5000
    let m0 := s.m.stopTask 5 false
    let n0 := running.m.stopTask 5 false
    (canonB s.m && decide (s.m.job? 1 = some { job1 with st := .stopping }) && !({ job1 with st := .stopping } : Job).over
      && decide (job1.loadedTasks = [(0, 5, false)]) && (s.m.ctx 5 false).dying.isNone && haltedB m0 && !job1.reviving
      && decide ((m0.layAreas job1.loadedTasks (m0.queue 0).save.toNat).map (fun a => round4k a.2.2.2.2) = [0x5000])
      && decide (0x5000 ≤ (m0.queue 0).savesz.toNat) && decide ((((saving 0x4FFF).m.stopTask 5 false).queue 0).savesz.toNat < 0x5000)
      && haltedB ((saving 0x4FFF).m.stopTask 5 false) && m0.hub.held.isEmpty
      && canonB running.m && !(haltedB n0)) = true := by decide +kernel

/-- The area is written. -/
theorem wit_StoppingJobsAreSaved_written :
    (match ((saving 0x5000).m.stopTask 5 false).writeAreas
        (((saving 0x5000).m.stopTask 5 false).layAreas job1.loadedTasks 0x40001000000) with
      | .done _ _ => true
      | _ => false) = true := by decide +kernel

/-- A stopped job whose task's area lies in the pool of cluster 1: engine LE saved at offset 32, with semaphore 0 at 5. -/
def stoppedForme : FormeEnt := { forme := 0x40000004000, tile := 7, st := .stopped, area := 0x40001000000, size := 0x5000 }
def stoppedJob : Job := { id := 2, queue := some 0, st := .stopped, formes := [stoppedForme] }
def stopped : State :=
  { m := { mach .le with
      mem := formeCells ++ cells (clKey 1 0) [1, 1] ++ cells (clKey 1 0x340) [5] ++ cells (clKey 1 0x400) [1, 0, 0, 0, 32]
      hub := { jobs := [job1, stoppedJob] } } }

theorem wit_SavedTasksResume :
    (canonB stopped.m && decide (stopped.m.head? = some stoppedJob) && decide (stopped.m.job? 2 = some stoppedJob)
      && stopped.m.fits stoppedJob [] && readB (stopped.m.hubRead 0x40000004000 1024 0) 1024
      && decide ((stoppedJob.formes.mapIdx (fun i f => (i, f))).filter (fun x => x.2.st = .stopped) = [(0, stoppedForme)])
      && !(stopped.m.ctx 7 true).loaded && stopped.m.hub.held.isEmpty && !stoppedJob.reviving && stoppedForme.doom.isNone
      && (match stopped.m.areaBytes 0x40001000000 (0x5000 / 4096 + 1) 0x5000 with
        | .done bs _ => (fieldAt (bs.map (·.b)) 1 1).testBit 0 && !(fieldAt (bs.map (·.b)) 1 1).testBit 1
        | _ => false)) = true := by decide +kernel

/-! ## Commands, queues and the host -/

/-- A device at layer 2 whose queue slot 0 has the command `bs` at its head; function 0's ring has room. -/
def serving (bs : List Nat) (h : Hub) : State :=
  { fw := { layer := 2, qcctl := [1, 1, 1, 1, 1, 1] }
    m := { mach .le with locked := [1, 3], hub := { h with
      queues := [(0, { ctl := some 0x40001, cmds := [{ bytes := pb (bs ++ List.replicate (64 - bs.length) 0) }] })]
      funcs := [(0, { en := true, log2n := 4 })] } } }

/-- `MayRun` of the statements for OPC `opc`. -/
def runsB (s : State) (opc : Nat) : Bool :=
  match headCmd s.fw s.m 0 with
  | some c =>
    let bs := c.bytes.map (·.b)
    canonB s.m && decide (cmdOpc bs = opc) && !cmdBad bs && (s.m.queue 0).started.all (fun k => decide (k.index ≠ c.index))
      && !(fieldAt bs 1 1).testBit 1
  | none => false

/-- Semaphore 3 of the hub holds 9: WAITEV of 9 is served, and one of 10 waits. -/
def sem3 : Hub := { jobs := [job1], sems := [0, 0, 0, 9] }
theorem wit_SimpleCommandsComplete :
    (runsB (serving [6] sem3) 6 && runsB (serving [7] sem3) 7 && runsB (serving [3, 0, 0, 0, 0, 0, 0, 0, 3, 0, 1] sem3) 3
      && runsB (serving [2, 0, 0, 0, 0, 0, 0, 0, 3, 0, 9] sem3) 2 && runsB (serving [2, 0, 0, 0, 0, 0, 0, 0, 3, 0, 10] sem3) 2
      && decide (hubServable sem3.sems [] sem3.waiters = none) && sem3.waiters.isEmpty && decide (at' 0 sem3.sems 3 = 9)) = true := by
  decide +kernel

/-- An imposition of one forme at 0x5000 in the pool of cluster 0, with its forme entry at 0x6000; and one of version 2. -/
def launchCmd : List Nat := [1, 0, 0, 0, 77, 0, 0, 0, 0, 0x50, 0, 0, 0, 4]
def imposition (ver : Nat) : State :=
  let s := serving launchCmd { jobs := [job1] }
  let table := cells (clKey 0 0x5018) [0, 0x60, 0, 0, 0, 4] ++ cells (clKey 0 0x6000) [0, 0x40, 0, 0, 0, 4]
  { s with m := { s.m with mem := formeCells ++ cells (clKey 0 0x5000) [ver, 0, 1] ++ table } }

theorem wit_LaunchMakesAJob :
    let m0 := fun (s : State) => (match headCmd s.fw s.m 0 with
      | some c => s.m.openCmd 0 c
      | none => s.m)
    (runsB (imposition 1) 1 && runsB (imposition 2) 1 && (imposition 2).m.roomFor srcHub
      && (match (m0 (imposition 1)).readJob (imposition 1).fw 0x40000005000 with
        | .ok j => (match (m0 (imposition 1)).couldFit j with
          | .ok () => true
          | _ => false)
        | _ => false)
      && (match (m0 (imposition 2)).readJob (imposition 2).fw 0x40000005000 with
        | .bad _ => true
        | _ => false)) = true := by decide +kernel

/-- Function 0 holds the region of 64 KiB at IA 0x10000, or nothing. -/
def hostHold : Holding := { base := 0x10000, log2 := 16, ex := true, party := 3 }
def tokCmd (opc : Nat) : List Nat := [opc, 0, 0, 0, 77, 0, 0, 0, 0, 0, 1, 0, 0, 0, 0, 0, 16] ++ (if opc = 4 then [1] else [])

theorem wit_TokenCommandsAskTheHome :
    let held := { sem3 with hold := [hostHold] }
    (runsB (serving (tokCmd 4) held) 4 && runsB (serving (tokCmd 4) sem3) 4 && runsB (serving (tokCmd 5) held) 5
      && runsB (serving (tokCmd 5) sem3) 5 && decide (hostRegion 0x10000 16 = none)
      && decide ((serving (tokCmd 4) held).m.exact 3 none 0x10000 16 = some hostHold) && held.requests.isEmpty
      && decide ((serving (tokCmd 4) sem3).m.exact 3 none 0x10000 16 = none) && decide (held.rehash ≠ 1)
      && (serving (tokCmd 5) held).m.atOnce 3 none 0x10000 16 false && !(serving (tokCmd 5) sem3).m.atOnce 3 none 0x10000 16 false
      && (serving (tokCmd 5) sem3).m.holdRoom 3 ((serving (tokCmd 5) sem3).m.getNeeds 3 none 0x10000 16)
      && !(serving (tokCmd 4) held).m.hostWrites 0 0x10000 16
      && (serving (tokCmd 4) { held with requests := [{ op := 2, party := 3 }] }).m.hostWrites 0 0x10000 16
      && runsB (serving (tokCmd 4) { held with requests := [{ op := 2, party := 3 }] }) 4) = true := by decide +kernel

/-- Page 0 is slot 0's; page 128 the first of VF 1, which has no slot here and has slot 9 in `vf1`. -/
theorem wit_NotifyWritesFetchCommands :
    let x := (serving [6] sem3).m.queue 0
    let vf1 : Mach := { mach .le with hub := { queues := [(9, { ctl := some 0x1001 })] } }
    canonB (serving [6] sem3).m = true ∧ (serving [6] sem3).m.notifySlot 0 = some 0 ∧ 1 ∈ (serving [6] sem3).m.locked
      ∧ (serving [6] sem3).m.notifySlot 128 = none ∧ vf1.notifySlot 128 = some 9 ∧ (x.qctl 0).getLsbD 0 = true ∧ x.fetched < 2 ^ 32
      ∧ (16 + 2 ^ 32 - x.fetched) % 2 ^ 32 = 2 ^ bits64 (x.qctl 0) 16 5 ∧ x.unmapped = none := by decide +kernel

/-- The page of slot 0 was unmapped from function 3 in this cycle. -/
theorem wit_NotifyWritesFetchCommands_late :
    let m : Mach := { mach .le with hub := { queues := [(0, { ctl := some 0x40001, unmapped := some (3, 0x1000) })] } }
    canonB m = true ∧ m.notifySlot 0 = some 0 ∧ 1 ∈ m.locked ∧ (m.queue 0).unmapped = some (3, 0x1000) ∧ m.roomFor srcHub = true := by
  decide +kernel

/-- A record for function 0's ring, whose 16 entries are free, or all taken. -/
def ringAt (tail : Nat) : State :=
  { m := { mach .le with hub := { raised := [{ ev := { type := 1 }, rings := [0] }], funcs := [(0, { en := true, log2n := 4, tail := tail })] } } }
/-- A completion of job 9 for function 0 behind a TASK record of job 9 that function 1's ring has not taken. -/
def behindS : State :=
  { m := { mach .le with hub := { raised := [{ ev := { type := 0x82, a0 := 9 }, rings := [1] }, { ev := { type := 1, a0 := 9 }, rings := [0] }]
                                  funcs := [(0, { en := true, log2n := 4 })] } } }

theorem wit_RecordsEnterTheirRing :
    let room := fun (x : Func) => (x.tail + 2 ^ 32 - x.head) % 2 ^ 32
    canonB (ringAt 15).m = true ∧ (ringAt 15).m.behindJob { ev := { type := 1 }, rings := [0] } = false
      ∧ behindS.m.hub.raised.find? (fun r => r.rings.contains 0) = some { ev := { type := 1, a0 := 9 }, rings := [0] }
      ∧ behindS.m.behindJob { ev := { type := 1, a0 := 9 }, rings := [0] } = true
      ∧ (ringAt 15).m.hub.raised.find? (fun r => r.rings.contains 0) = some { ev := { type := 1 }, rings := [0] }
      ∧ ((ringAt 15).m.func 0).en = true ∧ room ((ringAt 15).m.func 0) < 2 ^ ((ringAt 15).m.func 0).log2n
      ∧ ({ type := 1 } : Event).flags % 2 = 0 ∧ 2 ^ ((ringAt 16).m.func 0).log2n ≤ room ((ringAt 16).m.func 0) := by decide +kernel

/-- The pool of cluster 1 in the BAR4 window of function 0, which holds its token or not. -/
def window (hold : List Holding) : State :=
  { m := { mach .le with hub := { hold := hold, funcs := [(0, { b4 := 0x40000000000 })] } } }
def poolHold : Holding := { base := 0x40001000000, log2 := 12, ex := true, party := 3 }

theorem wit_HostAccesses :
    let s := window [poolHold]
    canonB s.m = true ∧ s.fw.minimal = false ∧ s.m.hub.rehash ≠ 1 ∧ 0x40001000FFC + 4 ≤ 2 ^ 43 ∧ s.m.bar4Place 0 (2 ^ 28) 4 = none
      ∧ s.m.bar4Place 0 0x1000FFC 4 = some (0x40001000FFC, .cpool 1 0xFFC)
      ∧ s.m.hostHolds 0 0x40001000FFC 4 true = true ∧ s.m.hostHolds 0 0x40001000FFC 4 false = true
      ∧ (window []).m.hostHolds 0 0x40001000FFC 4 false = false ∧ (window []).m.hostHolds 0 0x40001000FFC 4 true = false
      ∧ s.m.hub.pcieReady = false ∧ ({ s.m.hub with pcieReady := true } : Hub).pcieReady = true
      ∧ ({ s.fw with minimal := true } : Firmware).minimal = true := by decide +kernel

/-- A BAR4 read of function 0 in one part, its request outstanding under tag 7. -/
def hostReading : State :=
  { m := { mach .le with hub := { requests := [{ tag := 7, op := 1, party := 3 }], hreads := [{ parts := [(7, none)] }] } } }

theorem wit_HostAccesses_answered : canonB hostReading.m = true
    ∧ hostReading.m.hub.requests.find? (·.answeredBy { op := 0x20, src := 3, tag := 7 }) = some { tag := 7, op := 1, party := 3 }
    ∧ partyKind 3 = 3 ∧ partyFunc 3 = 0
    ∧ hostReading.m.hub.hreads.count { parts := [(7, none)] } = 1
    ∧ (∀ k ∈ hostReading.m.hub.hreads, k ≠ { parts := [(7, none)] } → k.whole = false ∧ ∀ x ∈ k.parts, x.1 ≠ 7) := by
  decide +kernel

/-- A read of the host outstanding under tag 5, for a command or for another device. -/
def reading (why : ReadFor) : State :=
  { m := { mach .le with hub := { preads := [{ tag := 5, len := 4, why := why }] } } }

theorem wit_LinkUpAndCompletions :
    let found := fun (w : ReadFor) => (reading w).m.hub.preads.find? (fun r => r.tag = 5) = some { tag := 5, len := 4, why := w }
    canonB (reading (.command 0 3)).m = true ∧ found (.command 0 3) ∧ found (.remote {})
      ∧ (pb [1, 2, 3, 4]).length = 4 ∧ anyPois (pb [1, 2, 3, 4]) = false := by decide +kernel

/-- Function 15 with queue slot 9 and a record for its ring. -/
def vf15 : State :=
  { m := { mach .le with hub := { queues := [(9, { ctl := some 0xF001, cmds := [{}] })], funcs := [(15, { en := true })]
                                  raised := [{ rings := [0, 15] }] } } }

theorem wit_FunctionResetsClear : canonB vf15.m = true ∧ (15 : Nat) < 16 ∧ (∀ r ∈ vf15.m.hub.raised, r.rings.count 15 ≤ 1)
    ∧ qctlFunc ((vf15.m.queue 9).qctl 9) = 15 := by decide +kernel


/-! ## Messages at their targets -/

/-- A request of another chip's party 2068 for an element of this chip, under tag 7. -/
def req (op : Nat) (ia : Word64) (arg : Word32) (data : List PByte) : Packet :=
  { op := op, addr := ia, src := 4116, tag := 7, bcnt := 8, arg := arg, data := data }
/-- ARG of an atomic add on i64 that asks for the old value, or does not. -/
def addArg (old : Bool) : Word32 := syl [(28, AOp.add.code), (24, Fmt.i64.code), (23, old.toNat)]

theorem wit_ResponsesGoBack : canonB (task .le).m = true ∧ opVc 0x21 = 1 ∧ opVc 0x20 = 1 ∧ 255 < 256 := by decide +kernel

/-- An access that is done, as a check. -/
def doneB {α : Type} (r : Acc α) : Bool :=
  match r with
  | .done _ _ => true
  | _ => false

/-- Requests at the pool of cluster 1, at the last bytes of its explicit part; and past it, where nothing is. -/
theorem wit_RequestsActOnMemory :
    let m := paged
    let ia : Nat := 0x400017FFFF8
    let pl : Place := .cpool 1 0x7FFFF8
    let watch := fun (c : Nat) => req 5 0x400017FFFF8 (syl [(29, c), (24, Fmt.i64.code)]) (pb [0, 0, 0, 0, 0, 0, 0, 0])
    let sum := req 4 0x400017FFFF8 (syl [(28, Fmt.i64.code), (24, Fmt.i64.code)]) (pb [1, 0, 0, 0, 0, 0, 0, 0])
    (canonB m && decide (m.homePlace ia 8 = some pl) && doneB (m.readPlace pl ia 8 (fun _ => 8) none {}).1
      && doneB (m.writePlace pl ia (pb [1, 2, 3, 4, 5, 6, 7, 8]) false {}).1 && !m.poisonedPage pl
      && decide ((req 3 0x400017FFFF8 (addArg true) []).fmt1.width / 8 = 8) && (req 3 0x400017FFFF8 (addArg true) []).wantsOld
      && !(req 3 0x400017FFFF8 (addArg false) []).wantsOld
      && doneB ((drawOf m (req 3 0x400017FFFF8 (addArg true) []) 0).2.rmw pl ia 8 (fun o => o) {}).1
      && decide (((Cond.ofCode (bits (watch 0).arg 29 3)).getD .ne) = .eq)
      && (match (m.readPlace pl ia 8 (fun _ => 8) none {}).1 with
        | .done bs _ => condHolds .eq (extend64 .i64 (valOf bs)) 0 && !condHolds .ne (extend64 .i64 (valOf bs)) 0 && !anyPois bs
        | _ => false)
      && decide (sum.sources = [(0, pb [1, 0, 0, 0, 0, 0, 0, 0])])
      && (match (paged.readPlace (.mem 0 0x200000) 0x200000 8 (fun _ => 8) none {}).1 with
        | .wait m1 => decide (m1.homePlace 0x200000 8 = some (.mem 0 0x200000))
        | _ => false)
      && decide ((m.homePlace 0x40001800000 8) = none) && decide ((m.homePlace (ia + 1) 8) = none)) = true := by decide +kernel

theorem wit_RequestsActOnMemory_reduce :
    let sum := req 4 0x400017FFFF8 (syl [(28, Fmt.i64.code), (24, Fmt.i64.code)]) (pb [1, 0, 0, 0, 0, 0, 0, 0])
    (doneB (paged.addAll sum sum.sources) && !((paged.homePlace 0x400017FFFF8 1).any paged.poisonedPage)) = true := by decide +kernel

theorem wit_ReduceStoresAddEachElement :
    let pl : Place := .cpool 1 0x7FFFF8
    (drawOf paged { draws := [5] } 0).2.homePlace 0x400017FFFF8 8 = some pl ∧ (∀ fn a, pl ≠ .host fn a)
      ∧ doneB ((drawOf paged { draws := [5] } 0).2.rmw pl 0x400017FFFF8 8 (fun o => o) {}).1 = true := by
  refine ⟨by decide +kernel, ?_, by decide +kernel⟩
  intro fn a h
  cases h

/-- The newest task of tile 5 has buffer 2: inbound, two slots of 64 bytes from offset 0, FULL semaphore 9. -/
def buf2 : Buf := { raw := BitVec.ofNat 64 (2 ^ 47 + 2 ^ 46 + 9 * 2 ^ 34 + 2 ^ 28) }
def inboundS : State := withCtx { ctx0 with bufs := [{}, { raw := BitVec.ofNat 64 (2 ^ 47) }, buf2] } .le
/-- A PEER access of party 20's slot `s` of buffer `b` at offset `o`. -/
def peer (op b s o : Nat) (arg : Word32) (data : List PByte) : Packet :=
  { op := op, addr := BitVec.ofNat 64 (20 * 2 ^ 32 + o), src := 4116, tag := 7, arg := arg ||| syl [(12, b), (8, s)], data := data
    bcnt := data.length }

/-- `PeerTarget` of the statements for tile 5. -/
def targetB (m : Mach) (p : Packet) (n : Nat) : Bool :=
  !m.fromLost p && (m.heldFor p).isNone && decide (partyKind p.party = 0) && decide (m.newest (partyTile p.party) = some false)
    && (m.ctx (partyTile p.party) false).dying.isNone && decide ((m.ctx (partyTile p.party) false).buf (peerBuf p) = buf2)
    && buf2.valid && buf2.inbound && decide (peerSlot p < buf2.slots) && decide (peerOff p + n ≤ buf2.size)

theorem wit_PeerAccessesLand :
    let w := peer 6 2 1 56 (syl [(24, 1), (23, 1)]) (pb [1, 2, 3, 4, 5, 6, 7, 8])
    let a := peer 7 2 1 56 (addArg true) (pb [1, 0, 0, 0, 0, 0, 0, 0])
    let r := peer 8 2 1 56 (syl [(28, Fmt.i64.code), (24, Fmt.i64.code)]) (pb [1, 0, 0, 0, 0, 0, 0, 0])
    (canonB inboundS.m && !inboundS.m.cycle && targetB inboundS.m w 8 && w.arg.getLsbD 23 && !(peer 6 2 1 56 0 []).arg.getLsbD 23
      && decide (servable (inboundS.m.ctx 5 false).sems [] (inboundS.m.ctx 5 false).waitq = none)
      && decide ((inboundS.m.ctx 5 false).sem buf2.full + (inboundS.m.ctx 5 false).rsv buf2.full + 1 ≤ 65535) && (inboundS.m.ctx 5 false).waitq.isEmpty
      && targetB inboundS.m a (a.fmt1.width / 8) && a.wantsOld && !(peer 7 2 1 56 (addArg false) []).wantsOld
      && targetB inboundS.m r (r.fmt1.width / 8) && decide (r.sources = [(0, pb [1, 0, 0, 0, 0, 0, 0, 0])])) = true := by
  decide +kernel

/-- A tile without a task; a buffer that is not inbound; a slot past the last; a span past a slot's end. -/
theorem wit_PeerAccessesAreChecked :
    let m := inboundS.m
    let p := fun (b s o : Nat) => peer 6 b s o 0 (pb [1])
    ((mach .le).newest 6 = none) ∧ (∀ x ∈ [p 1 0 0, p 2 2 0, p 2 1 64], m.fromLost x = false ∧ (m.heldFor x).isNone = true ∧ partyKind x.party = 0)
      ∧ m.newest 5 = some false ∧ (m.ctx 5 false).dying = none ∧ ((m.ctx 5 false).buf 1).inbound = false
      ∧ buf2.slots = peerSlot (p 2 2 0) ∧ buf2.size ≤ peerOff (p 2 1 64) ∧ peerOff (peer 6 2 1 60 0 (pb [1, 2, 3, 4, 5])) < buf2.size
      ∧ buf2.size < peerOff (peer 6 2 1 60 0 (pb [1, 2, 3, 4, 5])) + 5 ∧ buf2.valid = true ∧ buf2.inbound = true := by
  decide +kernel

/-- A request outstanding under tag 7: its block waits for it, or its stream has ended with it tracked. -/
def answerS (tr : Option Nat) : State :=
  { m := { mach .le with
      ctxs := [(10, { ctx0 with tracker := [3], le := { stream0 with blk := if tr.isNone then some { await := some 7 } else none } })]
      hub := { requests := [{ tag := 7, party := 20, agent := some ⟨5, false, .le⟩, tracked := tr }] } } }

theorem wit_ResponsesCompleteTheirRequest :
    let r := fun (tr : Option Nat) => (answerS tr).m.hub.requests.find? (·.answeredBy { op := 0x21, src := 20, tag := 7 }) =
      some { tag := 7, party := 20, agent := some ⟨5, false, .le⟩, tracked := tr }
    canonB (answerS none).m = true ∧ r none ∧ ((answerS none).m.str.blk.map (·.await)) = some (some 7) ∧ (answerS none).m.str.rwant = none
      ∧ canonB (answerS (some 0)).m = true ∧ r (some 0) ∧ (answerS (some 0)).m.str.rwant = none ∧ (answerS (some 0)).m.str.blk = none := by
  decide +kernel

/-- A signal of `n` for semaphore 0 of a party. -/
def sigPkt (party n : Nat) : Packet :=
  { op := 0x40, addr := BitVec.ofNat 64 (party * 2 ^ 32), src := 4116, tag := 7, arg := BitVec.ofNat 32 n }

/-- Semaphore 0 of the task holds 65,520: 15 more are taken and 16 are not. Every kind of party is signalled. -/
def fullS : State := withCtx { ctx0 with sems := [65520] } .le
theorem wit_RemoteSignalsReachTheirParty :
    let m := fullS.m
    canonB m = true ∧ (∀ x ∈ [20, 24, 1, 2, 3], m.fromLost (sigPkt x 15) = false ∧ (m.heldFor (sigPkt x 15)).isNone = true)
      ∧ partyKind 20 = 0 ∧ m.newest (partyTile 20) = some false ∧ (m.ctx 5 false).dying = none ∧ (m.ctx 5 false).loaded = true ∧ m.cycle = false
      ∧ (m.ctx 5 false).sem 0 + (m.ctx 5 false).rsv 0 + bits (sigPkt 20 15).arg 0 14 = 65535
      ∧ 65535 < (m.ctx 5 false).sem 0 + (m.ctx 5 false).rsv 0 + bits (sigPkt 20 16).arg 0 14
      ∧ servable (m.ctx 5 false).sems [] (m.ctx 5 false).waitq = none ∧ (m.ctx 5 false).waitq = []
      ∧ partyKind 24 = 0 ∧ m.newest (partyTile 24) = none ∧ partyKind 1 = 1 ∧ sparseOk 0 0 (m.cluster (partyCluster 1)).db = true
      ∧ partyKind 2 = 2 ∧ hubServable m.hub.sems [] m.hub.waiters = none ∧ m.hub.waiters = [] ∧ partyKind 3 = 3 := by decide +kernel

/-- The task stands at barrier 4 of system group 2, the one member there, or one of two; and a gang of two devices, chips 5 and 0. -/
def sysJob (n gang : Nat) : Job := { job1 with members := [(4, 2, n)], gang := gang }
def atSys (n gang : Nat) : State :=
  { m := { mach .le with
      ctxs := [(10, { ctx0 with le := { stream0 with mode := .barrier .sys 4 } })], hub := { jobs := [sysJob n gang] }
      regs := [(0x6000, BitVec.ofNat 64 (9 * 2 ^ 32 + 2 * 2 ^ 16 + 1)), (0x6008, 0x20000)]
      mem := paged.mem, dies := paged.dies } }
def barPkt (op src : Nat) : Packet := { op := op, src := BitVec.ofNat 32 src, arg := syl [(12, 2), (8, 4)] }

/-- The job of the gang has told chip 5 that its members stand at barrier 4; before the stacks of its member list have trained; and
with chip 5 lost. -/
def sentSys : State := { m := { (atSys 1 9).m with hub := { jobs := [sysJob 1 9], sysbars := [{ job := 1, group := 2, id := 4, sent := true }] } } }
def coldSys : State := { m := { (atSys 1 9).m with dies := [] } }
def lostSys : State := { m := { (atSys 1 9).m with hub := { jobs := [sysJob 1 9], lostChips := [5] } } }

theorem wit_SystemBarriersComplete :
    let s := atSys 1 0
    let c := s.m.ctx 5 false
    (canonB s.m && decide (partyKind 20 = 0)
      && decide (((List.range 2).map (fun k => s.m.ctx (partyTile 20) (k = 1))).find? (fun c => c.loaded && c.atBar .sys 4) = some c)
      && decide (s.m.job? c.job = some (sysJob 1 0)) && (s.m.gangOf 0).isNone
      && decide ((sysJob 1 0).membersOf .sys 2 ≤ s.m.arrivals 1 .sys 2 4)
      && decide ((atSys 2 0).m.arrivals 1 .sys 2 4 < (sysJob 2 0).membersOf .sys 2)
      && decide ((barPkt 0x49 10242).src.toNat / 2048 = 5) && decide (sentSys.m.sentJob 5 2 4 = some (sysJob 1 9)) && canonB sentSys.m
      && s.m.listsReady && sentSys.m.listsReady && canonB coldSys.m && !coldSys.m.listsReady
      && [s, sentSys, coldSys].all (fun s => !s.m.fromLost (barPkt 0x48 20) && !s.m.fromLost (barPkt 0x49 10242))
      && lostSys.m.fromLost (barPkt 0x49 10242)) = true := by decide +kernel

theorem wit_PassedStreamsRunOn :
    let c := (atSys 1 0).m.ctx 5 false
    let d := c.setStream .me { c.me with mode := .trapped, bar := some (.sys, 4) }
    c.le.mode = .barrier .sys 4 ∧ c.me.atBar .sys 4 = false ∧ (d.stream .me).mode = .trapped ∧
      (d.stream .me).bar = some (.sys, 4) := by
  decide +kernel

/-! ## Links and planes -/

/-- Plane 3's link in a state, with a flit outstanding since the start where `n` is not 0. -/
def linkS (st n edges : Nat) : State :=
  { m := { mach .le with
      links := [(3, { en := true, state := st, unacked := List.replicate n (0, 0, 0, []) })], edges := edges } }
/-- A header flit of a packet without data, whole, with SEQ 0 or 1; and damaged. -/
def flitOf (seq : Nat) : List Byte := flitBytes seq 0 0 0 (({ op := 5, tag := 7, bcnt := 8, data := pb [1, 2, 3, 4, 5, 6, 7, 8] } : Packet).payloads.getD 0 [])
def damaged : List Byte := (flitOf 0).set 9 0xFF

theorem wit_FlitsArriveInOrder :
    canonB (linkS 5 0 0).m = true ∧ ((linkS 5 0 0).m.link 3).state = 5 ∧ ((linkS 4 0 0).m.link 3).state ≠ 5
      ∧ flitIntact (flitOf 0) = true ∧ flitSeq (flitOf 0) = ((linkS 5 0 0).m.link 3).rxSeq ∧ flitKind (flitOf 0) = 0
      ∧ ndataOf ((flitOf 0).take 56) = 0 ∧ flitIntact (flitOf 1) = true ∧ flitSeq (flitOf 1) ≠ ((linkS 5 0 0).m.link 3).rxSeq
      ∧ flitIntact damaged = false := by decide +kernel

def canFly (p : Packet) : Bool :=
  p.flits.isEmpty && p.draws.isEmpty && opKnown p.op && p.dchip < 2 ^ 21 && p.tag < 2 ^ 16 && !p.rsv && p.vc < 3 && p.data.all (fun b => !b.p)
    && (p.op != 1 || (p.data.isEmpty && 1 ≤ p.bcnt && p.bcnt ≤ 256)) && (p.op == 1 || p.bcnt == p.data.length)
    && (!opData p.op || (1 ≤ p.data.length && p.data.length ≤ 256))
    && (opData p.op || p.data.isEmpty || ((p.op == 0x42 || p.op == 0x44) && p.data.length == 4))
/-- A write of 256 bytes, of which the header flit holds 32 and four data flits the others; a read; a grant with its receiver. -/
theorem wit_PacketsSurviveTheirFlits :
    canFly { op := 2, dchip := 2 ^ 21 - 1, tag := 65535, bcnt := 256, data := pb (List.replicate 256 0xAB) } = true
      ∧ canFly { op := 1, bcnt := 256 } = true ∧ canFly { op := 0x42, bcnt := 4, data := pb [84, 0, 0, 0], vc := 2 } = true := by
  decide +kernel

/-- 15,625 edges of 6.4 ns are 100 µs. -/
theorem wit_LinksTrain :
    (∀ n ∈ [1, 2, 3, 4], ((linkS n 0 0).m.link 3).state = n ∧ ((linkS n 0 0).m.link 3).en = true ∧ canonB (linkS n 0 0).m = true)
      ∧ (3 : Nat) < 8 ∧ (mach .le).writes {} .policy (0x4000 + 0x100 * 3) = true ∧ ((mach .le).link 3).en = false
      ∧ ((linkS 5 1 15625).m.link 3).unacked ≠ [] ∧ ((linkS 5 1 15625).m.link 3).lastAck + 100000 = (linkS 5 1 15625).m.gtc
      ∧ (linkS 5 1 15624).m.gtc < ((linkS 5 1 15624).m.link 3).lastAck + 100000 := by decide +kernel

theorem wit_RehashKeepsLivePlanes :
    let w : Word32 := 0x00FAC688
    (0x05 : BitVec 8) ≠ 0xFF ∧ (0x05 : BitVec 8).getLsbD (pmapEntry w 0) = true ∧ (0x05 : BitVec 8).getLsbD (pmapEntry w 7) = false := by
  decide +kernel

/-- A rehash that is to end at 64 ns, a remote signal waiting for it. -/
def rehashing (edges : Nat) : State :=
  { m := { mach .le with
      regs := [(0x38, 64)], edges := edges
      hub := { jobs := [job1], rehash := 1, dead := 5, waiting := [{ op := 0x40, addr := 0x1400000000, arg := 1 }] } } }

theorem wit_DeadPlanesAreRehashed :
    canonB (mach .le) = true ∧ (mach .le).writes {} .pf 0x30 = true ∧ (mach .le).hub.rehash ≠ 1
      ∧ BitVec.ofNat 8 (bits64 0x500 8 8) = 5 ∧ canonB (rehashing 10).m = true
      ∧ (rehashing 10).m.hub.rehash = 1 ∧ (rehashing 10).m.hub.dead ≠ 0xFF ∧ ((rehashing 10).m.reg 0x38).toNat = (rehashing 10).m.gtc
      ∧ (rehashing 10).m.planeJobs = [] ∧ (rehashing 10).m.dies = [] ∧ Die.blank.waits = []
      ∧ (rehashing 9).m.gtc < ((rehashing 9).m.reg 0x38).toNat := by decide +kernel

theorem wit_LostChipsAreForgotten : canonB (holds [hold64k true]).m = true
    ∧ (holds [hold64k true]).m.writes {} .policy 0x40 = true := by decide +kernel

/-- Sixteen records of the hub that its ring has not taken: it has no room for one more. -/
def hubFull (h : Hub) : Hub := { h with raised := List.replicate 16 { ev := { src := srcHub }, rings := [0] } }
def noRoom : State := { m := { mach .le with hub := hubFull { jobs := [job1] } } }

/-- DEAD of some planes, of none and of all, of all also where the hub has no room; a rehash at its time; writers that may and may
not. -/
theorem wit_RehashAndLossComplete :
    let m := (holds [hold64k true]).m
    canonB m = true ∧ m.writes {} .pf 0x30 = true ∧ m.hub.rehash ≠ 1 ∧ BitVec.ofNat 8 (bits64 0x500 8 8) = 5
      ∧ canonB noRoom.m = true ∧ noRoom.m.writes {} .pf 0x30 = true ∧ noRoom.m.hub.rehash ≠ 1 ∧ noRoom.m.roomFor srcHub = false
      ∧ BitVec.ofNat 8 (bits64 0 8 8) = 0 ∧ BitVec.ofNat 8 (bits64 0xFF00 8 8) = 0xFF ∧ m.roomFor srcHub = true
      ∧ canonB (rehashing 10).m = true ∧ (rehashing 10).m.hub.rehash = 1 ∧ (rehashing 10).m.hub.dead ≠ 0xFF
      ∧ ((rehashing 10).m.reg 0x38).toNat = (rehashing 10).m.gtc
      ∧ m.writes {} .policy 0x40 = true ∧ m.writes {} (.vf 3) 0x30 = false ∧ m.writes {} (.vf 3) 0x40 = false := by decide +kernel

/-! ## Registers -/

/-- Registers that a writer may not reach: the policy kernel's of VF 3, SVCTL of its own supervisor, the slots of the PF. -/
theorem wit_RegistersOutOfReach :
    let no := fun (a : Actor) (o : Nat) => mayWrite {} a o = false
    let two : Mach := { mach .le with hub := { queues := [(4, { ctl := some 0x3001 }), (9, { ctl := some 0x3001 })] } }
    (two.slotsOf 3)[1]? = some 9 ∧ two.slotsOf 5 = [] ∧
    mayRead {} (mach .le) (.vf 3) 0x2000000 = false ∧ no (.vf 3) 0 ∧ no (.vf 3) 8 ∧ no (.vf 3) 0x28 ∧ no (.vf 3) 0x30 ∧ no (.vf 3) 0x40
      ∧ no (.vf 3) 0x5000 ∧ no (.vf 3) 0x2000 ∧ no (.vf 3) 0x4000 ∧ no (.vf 3) (slotReg 0 0) ∧ no .pf (dieReg 0 8) ∧ no .pf (dieReg 0 0x10)
      ∧ no .pf (dieReg 0 0x1000) ∧ no .pf (clusterReg 0 0) ∧ no (.supervisor 7) (clusterReg 7 0x1208)
      ∧ no (.supervisor 6) (clusterReg 7 0x1480) ∧ no (.supervisor 6) (tileReg 112 0x180) ∧ no (.supervisor 6) (fwReg 0x1200)
      ∧ no (.queueCore 1) (fwReg 0x4020) ∧ no (.queueCore 1) (fwReg 0x18) ∧ no (.queueCore 1) (fwReg 0x30)
      ∧ mayRead {} (mach .le) (.supervisor 6) (clusterReg 7 0x1000) = false := by decide +kernel

theorem wit_EachCoreReachesItsBlocks : (15 : Nat) < 16 ∧ (31 : Nat) < 32 ∧ ({} : Firmware).hostdbg = false := by decide +kernel

theorem wit_RegistersReadAsWritten : canonB hotDie.m = true ∧ (127 : Nat) < 128 ∧ (511 : Nat) < 512 ∧ hotDie.m.heldHot 8 = true
    ∧ hotDie.m.heldHot 9 = false ∧ hotDie.m.powered {} .policy = true ∧ hotDie.m.writes {} (.supervisor 31) (tileReg 511 0x10) = true
    ∧ hotDie.m.writes {} .policy (tileReg 511 0x10) = true ∧ ∀ k, Actor.supervisor 31 ≠ .vf k := by
  refine ⟨by decide +kernel, by decide, by decide, by decide +kernel, by decide +kernel, by decide +kernel, by decide +kernel,
    by decide +kernel, fun k h => by cases h⟩

/-- A device without tasks, one with one, and one with a port enabled. -/
def idleS : State := { m := { mach .le with ctxs := [] } }

theorem wit_DivisionsComeIntoForceWhenIdle :
    let m := idleS.m
    (canonB m && canonB (mach .le) && !m.holdsTask (fun _ => true) && (mach .le).holdsTask (fun _ => true)
      && (List.range 8).all (fun p => !(m.link p).en) && ((linkS 1 0 0).m.link 3).en
      && [0, 8, clusterReg 31 0, dieReg 3 0x10, dieReg 3 8].all (m.writes {} .policy) && m.noPackets
      && (mach .le).holdsTask (fun n => clusterOf n = 0) && !m.holdsTask (fun n => clusterOf n = 31)
      && (m.dirtyIn 31 0 (2 ^ 64)).isEmpty && m.flushed (m.supParty 31) 0 64 && decide ((m.cluster 31).expl ≠ 3)
      && (mach .le).holdsTask (fun n => dieOf n = 0) && !m.holdsTask (fun n => dieOf n = 3) && decide ((m.die 3).expl ≠ 1)) = true := by
  decide +kernel

/-- Queue slot 9 without open commands, and with one. -/
def slot9 (open_ : List OpenCmd) : State :=
  { fw := { layer := 2 }, m := { mach .le with hub := { queues := [(9, { started := open_, tail := 4 })] } } }

theorem wit_QueueControlTakesEffect :
    canonB (slot9 []).m = true ∧ (slot9 []).fw.layer = 2 ∧ ({} : Firmware).layer ≠ 2
      ∧ (slot9 []).m.writes (slot9 []).fw .policy (slotReg 9 0) = true ∧ (slot9 [{}]).m.writes {} .policy (slotReg 9 0) = true ∧ ((slot9 []).m.queue 9).started = []
      ∧ ((slot9 []).m.queue 9).late = none ∧ ((0x40001#64) &&& 0x1FFE3D#64).getLsbD 0 = true
      ∧ (((slot9 []).m.queue 9).qctl 9).getLsbD 0 = false ∧ canonB (slot9 [{}]).m = true ∧ ((slot9 [{}]).m.queue 9).started ≠ []
      ∧ (0x40001#64) &&& 0x1FFE3D#64 ≠ ((slot9 [{}]).m.queue 9).qctl 9 ||| 1 := by decide +kernel

/-- PLL 3 runs (EN and dividers M = 5, N = 128); PLL 4 does not; stack 0 of die 0 has done step 2, and stack 1 runs step 3. -/
def clocksS : State :=
  { m := { mach .le with
      locked := [0, 3], regs := [(0x2018, 0x40148000), (0x2020, 0x40148000)]
      dies := [(0, { st0 := { done := 2 }, st1 := { busy := true, step := 3, done := 2 } })] } }

theorem wit_ClocksAndTraining :
    let m := clocksS.m
    (canonB m && (m.reg 0x2018).getLsbD 30 && decide (0x40148100#64 &&& 0x01FFFF00#64 ≠ m.reg 0x2018 &&& 0x01FFFF00#64)
      && [0x2018, 0x2020, 0x28, 0x5000, dieReg 0 0x1000, fwReg 0x1200].all (m.writes {} .policy) && decide (4 ∉ m.locked)
      && (m.reg 0x2020).getLsbD 30 && decide (bits64 (m.reg 0x2020) 23 2 ≠ 3) && decide (bits64 (m.reg 0x2020) 8 10 = 128)
      && decide (bits64 (m.reg 0x2020) 18 5 = 5) && decide (500 * 5 ≤ 15625 ∧ 15625 ≤ 5000 * 5)
      && decide (200000 * 5 ≤ 15625 * 128 ∧ 15625 * 128 ≤ 440000 * 5) && !m.hub.pcieReady
      && !(m.die 0).st0.busy && (0x13#64).getLsbD 4 && decide ((0x13#64).toNat % 16 = (m.die 0).st0.done + 1) && (m.die 0).st1.busy
      && decide (hubServable m.hub.sems [] m.hub.waiters = none) && m.hub.waiters.isEmpty) = true := by decide +kernel

/-- A sensor of die 1 reports 105, THOT; one of die 3 THOT and another less; TMAX from a sensor, and from the event, at TCRIT. -/
theorem wit_HeatHoldsTheClocks :
    let mx := fun (tmax : Nat) (ts : List Nat) => (((ts.take 8).map (· % 256)).foldl max (tmax % 256))
    canonB hotDie.m = true ∧ (3 : Nat) < 4 ∧ (hotDie.m.die 1).thot ≤ at' 0 (hotDie.m.die 1).temps 0
      ∧ ¬ (hotDie.m.die 1).thot ≤ at' 0 (hotDie.m.die 1).temps 1 ∧ mx 90 [104, 114] < (hotDie.m.die 3).tcrit
      ∧ (hotDie.m.die 3).thot ≤ at' 0 [104, 114] 1 ∧ ¬ (hotDie.m.die 3).thot ≤ at' 0 [104, 114] 0
      ∧ (hotDie.m.die 3).tcrit ≤ mx 90 [115] ∧ (hotDie.m.die 3).tcrit ≤ mx 115 [] ∧ hotDie.fw.alarm = none
      ∧ hotDie.m.roomFor srcHub = true := by decide +kernel

/-! ## Supervisors -/

/-- Cluster 0 with holdings of its supervisor, TKBASE and TKPARTY as given; the operation of a code on 64 KiB, semaphore 7. -/
def supS (l : List Holding) : State :=
  { m := { mach .le with clusters := [(0, { hold := l, tkbase := 0x10000, tkparty := 84, db := [(3, 9)] })] } }
def supHold : Holding := { base := 0x10000, log2 := 16, ex := true, party := 1 }
def tkV (code n : Nat) : Word64 := BitVec.ofNat 64 (16 * 2 ^ 20 + code * 2 ^ 17 + n * 2 ^ 13 + 7 * 2 ^ 7)
/-- `MayOperate`. -/
def mayOp (s : State) (k code : Nat) (v : Word64) : Bool :=
  k < 32 && s.m.locked.contains 2 && !(s.m.cluster k).busy && (s.m.cluster k).tkheld = none && (s.m.cluster k).tkgone = none
    && tkCode v = code
    && s.m.tkCheck k v (BitVec.ofNat 64 (s.m.cluster k).tkbase.toNat) (s.m.cluster k).tkparty = none
    && s.m.supParty k < 2 ^ 32 && s.m.hub.rehash ≠ 1

theorem wit_SupervisorsOperateOnTokens :
    let none_ := supS []
    let own := supS [supHold]
    (canonB none_.m && canonB own.m && sparseOk 0 0 (own.m.cluster 0).db && !own.m.cycle && !own.m.svReads 0 0x10000 16
      && own.m.powered {} (.supervisor 0)
      && (List.range 6).all (fun c => mayOp own 0 c (tkV c 4) && mayOp none_ 0 c (tkV c 4) && !tkOnb (tkV c 4))
      && own.m.atOnce 1 (some 0) 0x10000 16 false && !none_.m.atOnce 1 (some 0) 0x10000 16 false
      && own.m.atOnce 1 (some 0) 0x10000 16 true && !none_.m.atOnce 1 (some 0) 0x10000 16 true
      && none_.m.holdRoom 1 (none_.m.getNeeds 1 (some 0) 0x10000 16) && own.m.flushed 1 0x10000 16
      && decide (own.m.exact 1 (some 0) 0x10000 16 = some supHold) && (own.m.dirtyIn 0 0x10000 (2 ^ 16)).isEmpty
      && decide ((own.m.cluster 0).tkparty ≠ own.m.supParty 0) && own.m.holdRoom 1 (2 ^ 4 - 1)
      && own.m.coversIn 1 (some 0) 0x10000 16 && mayRead {} own.m (.supervisor 0) (clusterReg 0 0x1018)) = true := by
  decide +kernel

/-- A supervisor's table without room; a write-back of the region that is not acknowledged; a load from it that is not answered. -/
theorem wit_SupervisorsOperateOnTokens_held :
    let full := supS (List.replicate 4096 { supHold with party := 5 })
    let own := supS [supHold]
    let asked := fun (op : Nat) => ({ own with m := { own.m with hub := { own.m.hub with
      requests := [{ op := op, party := 1, addr := 0x10040 }] } } } : State)
    let wb := asked 2
    let ld := asked 1
    (mayOp full 0 0 (tkV 0 4) && !full.m.atOnce 1 (some 0) 0x10000 16 false && !full.m.holdRoom 1 (full.m.getNeeds 1 (some 0) 0x10000 16)
      && mayOp ld 0 2 (tkV 2 4) && ld.m.svReads 0 0x10000 16 && decide (ld.m.exact 1 (some 0) 0x10000 16 = some supHold)
      && mayOp wb 0 2 (tkV 2 4) && !wb.m.svReads 0 0x10000 16 && (wb.m.dirtyIn 0 0x10000 (2 ^ 16)).isEmpty && !wb.m.flushed 1 0x10000 16
      && decide (wb.m.exact 1 (some 0) 0x10000 16 = some supHold)) = true := by decide +kernel

/-- The LE trapped at offset 16, the record of it the oldest of two. -/
def trap1 : Event := { src := srcTile 5, type := 1, status := 14, id := 20, a0 := 1 }
def trappedS : State :=
  { m := { mach .le with
      ctxs := [(10, { ctx0 with le := { stream0 with mode := .trapped, trapOff := 16, trapLen := 8 } })]
      clusters := [(0, { trapq := [trap1, { trap1 with eng := 3 }] })] } }

theorem wit_TrapActionsReturn :
    let m := trappedS.m
    let a := trap1.agent
    (canonB m && [Actor.policy, .supervisor 0].all (fun b => m.writes {} b (clusterReg 0 0x1480))
      && decide (m.dies = []) && Die.blank.pins.isEmpty
      && decide ((m.cluster 0).trapq = trap1 :: [{ trap1 with eng := 3 }]) && (m.cluster 0).trapHeld.isEmpty
      && decide (a = ⟨5, false, .le⟩) && decide ((m.streamOf a).mode = .trapped) && decide ((m.streamOf a).blk = none)
      && (m.ctx 5 false).waitq.isEmpty && !(m.streamOf a).late && decide (4088 < (m.streamOf a).clen)
      && decide ((m.streamOf a).clen ≤ 4096) && (m.ctx 5 false).loaded && decide ((m.ctx 5 false).dying = none)
      && decide (clusterOf a.tile = 0) && decide ((({ trap1 with eng := 3 } : Event)).agent ≠ a)
      && decide ((m.streamOf a).bar = none)) = true := by
  decide +kernel

/-- A job whose task on tile 5 was killed, its forme in the pool of cluster 0. -/
def killedJob : Job := { job1 with formes := [{ tile := 5, st := .killed, forme := 0x40000004000 }] }
def emptied : State :=
  { m := { mach .le with ctxs := [(10, { killed := some (1, 20) })], mem := formeCells, hub := { jobs := [killedJob] } } }

/-- The page of the forme migrates: the write is held. -/
theorem wit_SupervisorsAndWatchdogsAct_held :
    let m : Mach := { paged with ctxs := [(10, { killed := some (1, 20) })], hub := { jobs := [killedJob] } }
    (canonB m && m.writes {} (.supervisor 0) (tileReg 5 0x180) && !(m.ctx 5 false).loaded && decide ((m.ctx 5 false).killed = some (killedJob.id, 20))
      && decide (m.job? killedJob.id = some killedJob) && decide (killedJob.killedAt 5 false = some 0) && decide (2 ^ 21 % 1024 = 0)
      && (match m.hubRead (2 ^ 21) 1024 0 with
          | .hold => true
          | _ => false)) = true := by decide +kernel

theorem wit_SupervisorsAndWatchdogsAct :
    let m := emptied.m
    (canonB m && canonB (mach .le) && m.writes {} (.supervisor 0) (tileReg 5 0x180) && m.writes {} .policy (tileReg 5 0x180)
      && ((mach .le).ctx 5 false).loaded && decide (((mach .le).ctx 5 false).dying = none) && !(m.ctx 5 false).loaded
      && decide ((m.ctx 5 false).killed = some (killedJob.id, 20)) && decide (m.job? killedJob.id = some killedJob)
      && decide (killedJob.killedAt 5 false = some 0) && decide (0x40000004000 % 1024 = 0)
      && (match m.hubRead 0x40000004000 1024 0 with
          | .ok bs => match formeCheck bs 0x40000004000 0 with
            | .ok _ => true
            | _ => false
          | _ => false)
      && m.writes {} .policy (clusterReg 31 0x1208)) = true := by decide +kernel

/-! ## Boot, security and canaries -/

/-- A device at a stage of its start, since the time 0, `n` failed starts before. -/
def bootS (st : Stage) (n edges : Nat) : State :=
  { fw := { stage := st }
    m := { mach .le with
      locked := [0], edges := edges, mem := cells (flashKey 0x1000) (if n = 0 then [] else [n])
      hub := { jobs := [job1], pcieUp := true } } }

/-- A start under way; one that serves with FAILS not cleared, and with it cleared; a low VRHOT_N and a high one. -/
theorem wit_ResetsClearTheDevice : canonB (bootS .pll0 1 0).m = true ∧ canonB (bootS .serving 0 0).m = true
    ∧ (bootS .pll0 1 0).unsettled = true ∧ (bootS .serving 1 0).unsettled = true ∧ (bootS .serving 0 0).unsettled = false
    ∧ (bootS .pll0 1 0).m.hub.vrhotLow = false ∧ canonB { mach .le with hub := { vrhotLow := true } } = true
    ∧ ({ vrhotLow := true } : Hub).vrhotLow = true := by decide +kernel

/-- All that layer 2 stands on: every PLL locked, every stack trained, PCIe up and ready, and no task. -/
def standing2 : State :=
  let st : Stack := { done := 9 }
  { fw := { stage := .images }
    m := { locked := List.range 35, dies := (List.range 4).map (fun d => (d, { st0 := st, st1 := st }))
           hub := { pcieUp := true, pcieReady := true } } }

/-- Every stage that a clause names. Whether an image is valid is open (log 7), so no witness says it is, or is not. -/
theorem wit_TheBootChainGoesOn :
    ((bootS .rom 2 0).fw.stage = .rom ∧ (bootS .rom 2 0).fw.alarm = none ∧ (bootS .rom 2 0).m.fails < 3
      ∧ 3 ≤ (bootS .rom 3 0).m.fails ∧ canonB (bootS .rom 2 0).m = true ∧ canonB (bootS .rom 3 0).m = true)
      ∧ (∀ st ∈ [Stage.pll0, .pcie, .images, .minPcie], (bootS st 1 0).fw.stage = st ∧ 0 ∈ (bootS st 1 0).m.locked
        ∧ (bootS st 1 0).m.hub.pcieUp = true ∧ (bootS st 1 0).fw.log.length ≤ 253 ∧ canonB (bootS st 1 0).m = true
        ∧ (bootS st 1 0).m.roomFor srcHub = true)
      ∧ (bootS .images 1 0).m.standsReady = false ∧ standing2.m.standsReady = true ∧ canonB standing2.m = true
      ∧ standing2.fw.stage = .images ∧ standing2.fw.log = [] := by
  decide +kernel

/-- Edges of 6.4 ns: 31,251 are more than 200 µs, and 9,375,000,000 are 60 s. -/
theorem wit_FailedStartsAreCounted :
    (∀ st ∈ [Stage.pll0, .plls], (bootS st 1 31251).fw.stage = st ∧ (bootS st 1 31251).fw.stageAt + 200000 < (bootS st 1 31251).m.gtc)
      ∧ (bootS .pcie 1 156250001).fw.stageAt + 10 ^ 9 < (bootS .pcie 1 156250001).m.gtc ∧ Stage.halted.starting = false
      ∧ (bootS .serving 1 9375000000).fw.stageAt + 60 * 10 ^ 9 ≤ (bootS .serving 1 9375000000).m.gtc
      ∧ canonB (bootS .serving 1 9375000000).m = true ∧ Stage.pll0 ≠ .serving ∧ 0 ∈ (bootS .serving 1 0).m.locked
      ∧ (bootS .serving 1 0).m.writes (bootS .serving 1 0).fw .policy (fwReg 0x30) = true ∧ (1#64).getLsbD 0 = true := by decide +kernel

theorem wit_QuotesSignTheLog :
    let s : State := { agenda := [.edges 1], fw := { cdi2 := some 5 }, m := mach .le }
    s.m.writes s.fw .policy (fwReg 0x4020) = true ∧ s.fw.alarmDue = none ∧ s.m.dies = [] ∧ Die.blank.tmax < Die.blank.tcrit ∧ s.fw.capture = none ∧ s.fw.alarm = none ∧ s.fw.cdi2 = some 5
      ∧ s.agenda = .edges 1 :: [] ∧ ({ s.fw with capture := some [] } : Firmware).capture ≠ none
      ∧ ({ s.fw with alarm := some 3 } : Firmware).alarm ≠ none := by decide +kernel

theorem wit_AlarmsStopTheDevice :
    let s : State := { fw := { stage := .serving }, m := mach .le }
    canonB s.m = true ∧ s.fw.alarm = none ∧ s.m.roomFor srcHub = true ∧ s.unsettled = false ∧ (3 : Nat) ≠ 4
      ∧ canonB noRoom.m = true ∧ noRoom.m.roomFor srcHub = false ∧ noRoom.fw.alarm = none ∧ noRoom.fw.alarmDue = none
      ∧ (s.m.setRail 9 false).hub.rails = 0x1FF#10
      ∧ (s.m.ctx 5 false).loaded = true ∧ (s.m.ctx 5 false).dying = none := by decide +kernel

/-- A canary that ripens on QC5 since the time 0, PERIOD 1 s, and a record of a job of its queues or none; supervisor 2 and queue
core 4 still wait for a committed image. -/
def ripening (edges : Nat) (rs : List Raised) : State :=
  { fw := { can := { state := 2, goPeriod := 1 } }
    m := { mach .le with
      edges := edges, hub := { jobs := [job1], raised := rs, queues := [(0, { ctl := some (5 * 2 ^ 9) })] } } }
def failing : Raised := { ev := { src := srcTile 5, type := Cls.task.code, status := 5, a0 := 1, gtc := 9 }, queue := some 0 }

/-- Queue core 4 waits for a committed image. -/
def waitingCore : State := { ripening 0 [] with fw := { can := { state := 3, left := [(false, 4)] } } }
/-- CANIMG names the page that migrates. -/
def movingImage : State := { m := { paged with regs := [(fwReg 0x28, 2 ^ 21)] } }

/-- Every clause but the start of an image, whose size is open (log 7). -/
theorem wit_CanariesRipen :
    let s := ripening 0 []
    (canonB s.m && s.m.kernelRuns && s.m.writes s.fw .policy (fwReg 0x18) && movingImage.m.writes {} .policy (fwReg 0x18) && decide (s.fw.can.state = 2) && decide (({} : Canary).state = 0)
      && decide (canaryError (ripening 0 [failing]) = some 5) && canonB (ripening 0 [failing]).m && decide (s.fw.log.length < 256)
      && decide (canaryError s = none) && decide (s.m.gtc < 10 ^ 9) && decide (10 ^ 9 ≤ (ripening 156250000 []).m.gtc)
      && s.fw.can.left.isEmpty && decide ((waitingCore.fw.can.left) = (false, 4) :: [])
      && (waitingCore.m.queue 0).started.isEmpty && decide (bits64 ((waitingCore.m.queue 0).qctl 0) 9 3 = 5)
      && (match movingImage.m.hubRead (movingImage.m.reg (fwReg 0x28)).toNat 64 0xFFFF with
        | .hold => true
        | _ => false)
      && decide (movingImage.fw.can.state = 0)
      && decide (canaryError (ripening 156250000 []) = none) && s.m.spanOk 0 0 && canonB (ripening 156250000 []).m) = true := by
  decide +kernel

/-! ## The package -/

/-- SCRUBCTL of cluster 31 with EN cleared. -/
def scrubS : State := { m := { mach .le with regs := [(clusterReg 31 0x200, 1)] } }

theorem wit_StripesRecover : canonB scrubS.m = true ∧ (511 : Nat) < 512 ∧ (2047 : Nat) < 2048 ∧ scrubS.m.roomFor (srcTile 511) = true
    ∧ (scrubS.m.scrubOf .scratchpad 511).getLsbD 16 = false ∧ (scrubS.m.scrubOf .scratchpad 495).getLsbD 16 = true
    ∧ scrubS.m.scrubAt .scratchpad 495 = 0 ∧ sparseOk 0 0 scrubS.m.scrubs = true ∧ scrubS.m.roomFor (arraySrc .scratchpad 495) = true := by
  decide +kernel

/-- Die 0 with its directory at 1 GiB and nothing resident, its frames all free. -/
def bare : State :=
  { m := { mach .le with dies := [(0, { pdbase := 0x40000000, frcap := 32, st0 := { done := 9 }, st1 := { done := 9 } })] } }

/-- The copy of a page of 2 MiB, and a frame for it. -/
theorem wit_FramesAreFilled : (bare.m.page 0 0).state ≠ 3 ∧ (paged.page 0 (2 * 2 ^ 21)).state = 3
    ∧ (List.replicate (bare.m.page 0 0).size (7 : Byte)).length = (bare.m.page 0 0).size ∧ 2 ^ 21 % 8 = 0 := by
  refine ⟨by decide +kernel, by decide +kernel, List.length_replicate .., by decide +kernel⟩

/-- Page-ins in the order of die 0: an absent page first, or a resident, a migrating or a poisoned one; a second behind it. -/
def asking (n : Nat) (m : Mach) : Mach :=
  m.setDie 0 { m.die 0 with pageins := [{ page := BitVec.ofNat 64 (n * 2 ^ 21), key := 1 }, { page := 2 ^ 37, key := 1 }] }

/-- Page 0 is poisoned, and no frame may be taken. -/
def crowdedOut : Mach :=
  { mach .le with mem := cells (hbmKey 0 0) [3], dies := [(0, { frcap := 0, st0 := { done := 9 }, st1 := { done := 9 } })] }

theorem wit_PagesComeIn_order :
    (decide ((asking 0 bare.m).pageIa 0 0 = 0) && canonB (asking 0 bare.m) && (asking 0 bare.m).dieOpen 0 && paged.dieOpen 0
      && !(mach .le).dieOpen 0 && decide ((crowdedOut.page 0 0).state = 3)
      && canonB crowdedOut && crowdedOut.dieOpen 0 && decide (crowdedOut.freeUnits 0 < (crowdedOut.page 0 0).units) && crowdedOut.noFrame 0 []
      && [0, 1, 2].all (fun n => decide (((asking n paged).page 0 (n * 2 ^ 21)).state = n + 1))
      && decide (((asking 0 bare.m).die 0).pageins.map (·.page) = [0, 2 ^ 37])
      && decide ((asking 0 bare.m).pageIa (pageDie (2 ^ 37)) (pageOff (2 ^ 37)) = 2 ^ 37)
      && decide (pageDie (2 ^ 37) = 0)
      && (let m := (asking 0 bare.m).setDie 0 { (asking 0 bare.m).die 0 with frcap := 0 }
          (match m.makeRoom 0 (m.page 0 0).size (m.page 0 0).units [] ((m.framed 0).length + 1) with
            | (none, _) => m.noFrame 0 []
            | _ => false))) = true := by decide +kernel

/-- A frame for an absent page of 2 MiB: offset 0 of the stack would do, whichever is taken. -/
theorem wit_PagesComeIn :
    canonB bare.m = true ∧ bare.m.dieOpen 0 = true ∧ 0 ∈ bare.m.locked ∧ 0 ∈ paged.locked ∧ (bare.m.page 0 0).state = 0 ∧ (paged.page 0 0).state = 1 ∧ (bare.m.die 0).pageins = []
      ∧ ∃ frame m1, bare.m.makeRoom 0 (bare.m.page 0 0).size (bare.m.page 0 0).units [] ((bare.m.framed 0).length + 1)
        = (some frame, m1) := by
  refine ⟨by decide +kernel, by decide +kernel, by decide +kernel, by decide +kernel, by decide +kernel, by decide +kernel,
    by decide +kernel, ?_⟩
  have h : (bare.m.freeFrame 0 (bare.m.page 0 0).size).isSome = true :=
    List.find?_isSome.mpr ⟨0, by simp, by decide +kernel⟩
  obtain ⟨f, hf⟩ := Option.isSome_iff_exists.mp h
  have hu : (bare.m.page 0 0).units ≤ bare.m.freeUnits 0 := by decide +kernel
  refine ⟨f, { bare.m with free := bare.m.free + 1 }, ?_⟩
  rw [Mach.makeRoom, if_pos hu, hf]

/-- A die's pool with the region of a dead holder, and one that no dead holder left. -/
def lostS : State :=
  { m := { mach .le with dies := [(3, { tok := [
      (7, { excl := true, pois := true, log2 := 12, base := 0x5000C000000 / 4096, party := 20 }),
      (8, { excl := true, log2 := 12, base := 0x5000C001000 / 4096, party := 20 })] })] } }

theorem wit_LostTokensAreReclaimed :
    let x := lostS.m.die 3
    let e := look TokEntry.blank x.tok 7
    (canonB lostS.m && decide (x.tok.find? (fun e => e.1 = 7) = some (7, e)) && e.pois && e.excl && lostS.m.roomFor (srcDie 3)
      && x.waits.isEmpty && sparseOk TokEntry.blank 0 x.tok && decide (areaOf (iaLocal (lostS.m.tokIa e)) = .dpool 3 0)
      && !lostS.m.onItsWay e.party (lostS.m.tokIa e) (2 ^ e.log2)
      && !(look TokEntry.blank x.tok 8).pois) = true := by decide +kernel

/-- A gang of two devices, this one at position `pos`, with a job; its slice runs from 6.4 µs to 12.8 ms. -/
def gangS (pos edges sem : Nat) (st : JobSt) : State :=
  { m := { mach .le with
      edges := edges
      hub := { jobs := [{ job1 with gang := 9, st := st }], sems := List.replicate 62 0 ++ [sem] }
      regs := [(0x6000, BitVec.ofNat 64 (9 * 2 ^ 32 + 2 * 2 ^ 16 + pos)), (0x6008, 0x20000), (0x6010, 0x50000000000)]
      mem := cells (diePoolKey 0 0) [0, 0x19, 0, 0, 0, 0, 0, 0, 0, 0x50, 0xC3] ++ cells (diePoolKey 0 64) [0, 0x19, 0, 0, 0, 0, 0, 0, 0, 0x19]
      dies := [(0, { expl := 1, st0 := { done := 9 }, st1 := { done := 9 } })] } }

theorem wit_GangsRunInSlices :
    let m := fun (pos edges sem : Nat) (st : JobSt) => (gangS pos edges sem st).m
    let a := m 0 2000 0 .placed
    let e := a.gang 0
    let late := { m 0 32250 0 .running with mem := cells (diePoolKey 0 0) [0, 0x19, 0, 0, 0, 0, 0, 0, 0, 0x50, 0xC3] }
    (canonB a && a.kernelRuns && !State.reset.m.kernelRuns && decide (e.gid ≠ 0) && decide (a.sliceStart e = 6400) && decide (a.sliceEnd e = 12800000) && decide (a.gtc = 12800)
      && (a.gangJobs e).all (fun j => j.st = .placed && a.canStart j) && decide ((a.gangJobs e).length = 1) && a.hub.held.isEmpty
      && canonB (m 0 2000000 0 .running) && decide ((m 0 2000000 0 .running).gtc = 12800000) && decide (e.pos = 0)
      && decide ((m 0 32250 0 .running).gtc = 206400) && decide (look 0 a.hub.checked 0 ≠ 6400) && sparseOk 0 0 a.hub.checked
      && (List.range 2).all (fun p => a.syncWord e (64 + 8 * p) = 6400) && decide (((m 1 0 0 .running).gang 0).pos = 1)
      && decide (at' 0 (m 1 0 0 .running).hub.sems 62 = 0) && decide (at' 0 (m 1 0 2 .running).hub.sems 62 = 2)
      && canonB (m 1 0 2 .running) && ((m 1 0 2 .running).hub.jobs.map (·.id)).Nodup
      && a.gangOpen e && (m 1 0 2 .running).gangOpen ((m 1 0 2 .running).gang 0) && (m 0 32250 0 .running).gangOpen ((m 0 32250 0 .running).gang 0)
      && !{ a with dies := [] }.gangOpen e && { late with edges := 32250 }.gangOpen e && decide (late.syncWord e 72 ≠ late.sliceStart e)
      && decide (late.sliceStart e = 6400) && canonB late && decide (late.gtc = 206400) && decide (look 0 late.hub.checked 0 ≠ 6400)
      && decide ((late.hub.jobs.map (·.id)).Nodup) && late.hub.jobs.all (fun j => j.aborts < 7)
      && (m 0 2000000 0 .running).hub.jobs.all (fun j => decide (j.till ≤ 12800000))
      && (m 1 0 2 .running).hub.jobs.all (fun j => j.aborts < 7)) = true := by decide +kernel

/-! ## Decoding and the step -/

theorem wit_CommonInstructionsSurviveTheirWords :
    ∀ i ∈ [Instr.xli 15 .hi 0xFFFFFFFF, .brx .geu 15 15 (-2 ^ 31), .tksplit 15 40 15, .xop 15 15 .mov (.counter 4) 0],
      i.wf .le = true ∧ (encodeCommon i).isSome = true := by decide +kernel

theorem wit_BlocksSurviveTheirWords :
    let i := Instr.ldw { counts := [2] } (tsW .i64 0) (syncW .i64) true 0
    i.wf .le = true ∧ (blockRecords i).any (fun x => (blockFindings x.1 (encode .le i)).isEmpty
      && (blockRules x.1 (encode .le i)).isEmpty) = true ∧ (encode .le i).length ≤ 256 * Engine.le.sylPerWord
      ∧ decode .le (encode .le i) = .ok i := by decide +kernel

/-- The word of NOP, of a reserved OPC and of the first instruction at offset 16 of the code, in the pool of cluster 0. -/
def coded (w : List Nat) : State := { m := { mach .le with mem := cells (clKey 0 16) w } }

theorem wit_AStepRunsTheDecodedInstruction :
    let m := (coded [9, 0x40, 0x34, 0x10]).m
    let got := fun (m : Mach) => match m.fetch with
      | .ok i n _ => decide (i = .sigr 3 17 9 ∧ n = 8)
      | .trap _ _ _ => false
      | _ => false
    (canonB m && m.issues ⟨5, false, .le⟩ && !m.issues ⟨6, false, .le⟩ && decide (m.str.blk = none) && got m
      && (match (coded [0, 0, 0, 0x58]).m.fetch with
          | .trap _ _ _ => true
          | _ => false)
      && gotB (m.readTable (m.str.code.toNat + m.str.pc) 8) (pb [9, 0x40, 0x34, 0x10, 0, 0, 0, 0]) m
      && assigned .le 0x10344009 && decide (instrWords .le 0x10344009 = 1) && decide (m.str.pc + 8 ≤ m.str.clen)
      && gotB (m.readWords m.str.code.toNat 24 8 0) [] m && m.str.pend.isEmpty && m.str.applied.isEmpty
      && decide (m.deliverable [] (sigPkt 20 15 :: []) = [sigPkt 20 15]) && decide (m.sideAsk ⟨5, false, .le⟩ = none)
      && !m.behind (sigPkt 20 15) m.homeq && m.wayOpen (sigPkt 20 15)
      && decide ((m.streamOf ⟨5, false, .le⟩).posts = []) && (m.ctx 5 false).leaving.isEmpty && decide (m.reloadDue ⟨5, false, .le⟩ = none)
      && !readsEarly (.sigr 3 17 9) && readsEarly (.ldg {} {} {} {}) && decide (m.sideAsk ⟨6, false, .le⟩ = none)
      && gotB ((m.setStr { m.str with prev := m.str.last }).readTable (m.str.code.toNat + m.str.pc) 8)
        (pb [9, 0x40, 0x34, 0x10, 0, 0, 0, 0]) (m.setStr { m.str with prev := m.str.last }) && !(sigPkt 20 15).rsv
      && (msgInstr (sigPkt 20 15)).isSome && (standing .le .nop [] []).m.issues ⟨5, false, .le⟩
      && (standing .le .nop [] []).m.str.blk.isSome) = true := by decide +kernel

/-- The LE of a stopping task whose code lies on another device asks for its words; the ME has a load to repeat. -/
theorem wit_AStepRunsTheDecodedInstruction_first :
    let far := (withCtx { ctx0 with stopping := true, maps := [⟨1, 0x80000000001⟩] } .le).m
    let me := { (meWith []).m with tiles := [(5, { runs := [none, some false], mat := { reloads := [{ off := 64 }] } })] }
    canonB far = true ∧ far.clocked 5 = true ∧ (far.ctx 5 false).dying = none ∧ (far.sideAsk ⟨5, false, .le⟩).isSome = true
      ∧ canonB me = true ∧ me.issues ⟨5, false, .me⟩ = true ∧ me.sideAsk ⟨5, false, .me⟩ = none
      ∧ (me.tile 5).mat.reloads = { off := 64 } :: [] := by decide +kernel

/-! ## Every step -/

theorem wit_TheLogAndTheSecrets :
    after (step { State.reset with agenda := [.event (.gtcadj .policy 5)] }) (fun t => t.m.adjLeft = 5) = true := by decide +kernel
theorem reset_inv : State.reset.fw.LogInv ∧ State.reset.fw.AlarmInv :=
  ⟨⟨by decide, by decide, rfl⟩, fun h => by cases h⟩
/-- An alarm that was raised, kept by a step that the firmware complex takes. -/
theorem alarm_inv : ({ alarm := some 3, lockedSlots := [true, true, true], stage := .halted } : Firmware).AlarmInv :=
  fun _ => ⟨rfl, rfl, rfl, rfl⟩

/-! ## One step of each other instruction, checked in the fields that the manual fixes -/

def held (s : State) (ia l : Nat) := (s.m.exact 20 (some 1) ia l).map (·.ex)

theorem test_token_request : after (exec (.tokenRequest (tokPkt 0x41 7 0 false [])) (home [])) (fun t =>
    (t.m.die 0).tok.map (·.2.party) = [20] && t.m.net.map (·.op) = [0x42]) = true := by decide +kernel
theorem test_token_request_2 : after (exec (.tokenRequest (tokPkt 0x41 7 0 true [])) (home [(9, sharedBy24)])) (fun t =>
    (t.m.die 0).tok.map (·.2.share) = [2] && t.m.net.map (·.op) = [0x42]) = true := by decide +kernel
theorem test_token_return : after (exec (.tokenReturn (tokPkt 0x43 7 0 false [])) (home [(9, entry true 0)])) (fun t =>
    (t.m.die 0).tok = [] && t.m.net.map (·.op) = [0x45]) = true := by decide +kernel
theorem test_token_return_2 : after (exec (.tokenReturn (tokPkt 0x43 7 0 false [])) (home [(9, entry false 2)])) (fun t =>
    (t.m.die 0).tok = [(9, entry false 1)] && t.m.net.map (·.op) = [0x45]) = true := by decide +kernel
theorem test_token_pass : after (exec (.tokenPass (tokPkt 0x44 7 0 false (pb [84, 0, 0, 0]))) (home [(9, entry true 0)])) (fun t =>
    (t.m.die 0).tok.map (·.2.party) = [84] && t.m.net.map (fun p => (p.op, p.src)) = [(0x42, 84), (0x45, 20)]) = true := by decide +kernel
theorem test_token_split : after (exec (.tokenSplit (tokPkt 0x46 7 4 false [])) (home [(9, entry true 0)])) (fun t =>
    (t.m.die 0).tok.length = 17 && ((t.m.die 0).tok.getLast?.map (·.2.base)) = some 31 && t.m.net.map (·.op) = [0x45]) = true := by decide +kernel
theorem test_token_join : after (exec (.tokenJoin (tokPkt 0x47 7 0 false [])) (home halves)) (fun t =>
    (t.m.die 0).tok = [(9, { excl := true, log2 := 16, base := 16, party := 20 })] && t.m.net.map (·.op) = [0x45]) = true := by decide +kernel
theorem test_token_grant : after (exec (.tokenGrant (tokPkt 0x42 7 0 false [])) (asked 0x41 .run)) (fun t =>
    t.m.curCtx.sem 7 = 1 && held t 0x10000 16 = some true && t.m.hub.requests = []) = true := by decide +kernel
theorem test_token_acknowledge : after (exec (.tokenAcknowledge (tokPkt 0x45 7 4 false [])) (asked 0x43 .run)) (fun t =>
    t.m.curCtx.sem 7 = 1) = true := by decide +kernel
theorem test_token_acknowledge_2 : after (exec (.tokenAcknowledge (tokPkt 0x45 7 4 false [])) (asked 0x46 .token)) (fun t =>
    t.m.str.granted && t.m.str.mode = .run && held t 0x1F000 12 = some true && held t 0x10000 16 = none) = true := by decide +kernel
theorem test_me_block_start : after (exec (.meBlockStart 5) (meWith [mrb1])) (fun t =>
    (t.m.tile 5).mat.queue = [] && (t.m.tile 5).mat.mrb = 32) = true := by decide +kernel
theorem test_stream_start : after (exec (.streamStart ⟨5, false, .le⟩) unstarted) (fun t =>
    t.m.str.mode = .run && t.m.str.pc = 32) = true := by decide +kernel
theorem test_task_retire : after (exec (.taskRetire 5 false) ended) (fun t =>
    !(t.m.ctx 5 false).loaded && (t.m.job? 1).map (fun j => j.formes.map (·.st)) = some [.retired]) = true := by decide +kernel
theorem test_rlimit : after (exec (.rlimit 5) (openAt 262144)) (fun t =>
    (t.m.ctx 5 false).dying.isSome) = true := by decide +kernel
theorem test_rlimit_2 : after (exec (.rlimit 5) (openAt 262143)) (fun t =>
    (t.m.ctx 5 false).dying.isNone) = true := by decide +kernel
theorem test_place_job : after (exec .placeJob waiting1) (fun t =>
    (t.m.job? 3).map (fun j => (j.st, j.formes.map (fun f => (f.tile, f.st)))) = some (.placed, [(9, .reserved), (9, .unplaced)])) = true := by decide +kernel
theorem test_task_kill : after (exec (.taskKill 5 false) (killing 18)) (fun t =>
    (t.m.ctx 5 false) = { killed := some (1, 20) } && t.m.hub.raised.map (fun r => (r.ev.status, r.rings)) = [(18, [0])]) = true := by decide +kernel
theorem test_task_kill_2 : after (exec (.taskKill 5 false) (killing 0)) (fun t =>
    (t.m.ctx 5 false) = { killed := some (1, 20) } && t.m.hub.raised = []) = true := by decide +kernel
theorem test_job_complete : after (exec (.jobComplete 1) finished) (fun t =>
    t.m.hub.jobs = [] && t.m.hub.raised.map (fun r => (r.ev.id, r.ev.a0)) = [(77, 1)]) = true := by decide +kernel
theorem test_aging : after (exec (.aging 3) (agingAt 1562501)) (fun t =>
    (t.m.job? 3).map (·.rank) = some 2) = true := by decide +kernel
theorem test_aging_2 : after (exec (.aging 3) (agingAt 1562500)) (fun t =>
    (t.m.job? 3).map (·.rank) = some 1) = true := by decide +kernel
theorem test_plan_interval : after (exec (.planInterval (1800 * 10^6 + 1)) hotDie) (fun t =>
    [0, 1, 8].map (fun c => (t.m.cluster c).swallowW) = [1, 0, 48]) = true := by decide +kernel
theorem test_resume : after (exec (.resume 2) stopped) (fun t =>
    (t.m.ctx 7 false).loaded && (t.m.ctx 7 false).sem 0 = 5 && (t.m.ctx 7 false).le.pc = 32 && (t.m.ctx 7 false).le.mode = .run && (t.m.ctx 7 false).me.mode = .tail) = true := by decide +kernel
theorem test_nopc : after (exec (.nopc 0) (serving [6] sem3)) (fun t =>
    t.m.hub.raised.length = 1 && (t.m.queue 0).head = 1) = true := by decide +kernel
theorem test_timestamp : after (exec (.timestamp 0) (serving [7] sem3)) (fun t =>
    t.m.hub.raised.length = 1 && (t.m.queue 0).head = 1) = true := by decide +kernel
theorem test_sigev : after (exec (.sigev 0) (serving [3, 0, 0, 0, 0, 0, 0, 0, 3, 0, 1] sem3)) (fun t =>
    t.m.hub.raised.length = 1 && t.m.hub.sems = [0,0,0,10]) = true := by decide +kernel
theorem test_waitev : after (exec (.waitev 0) (serving [2, 0, 0, 0, 0, 0, 0, 0, 3, 0, 9] sem3)) (fun t =>
    t.m.hub.raised.length = 1 && t.m.hub.sems = [0,0,0,0]) = true := by decide +kernel
theorem test_waitev_2 : after (exec (.waitev 0) (serving [2, 0, 0, 0, 0, 0, 0, 0, 3, 0, 10] sem3)) (fun t =>
    t.m.hub.raised.length = 0 && t.m.hub.waiters.length = 1) = true := by decide +kernel
theorem test_tokgrant : after (exec (.tokgrant 0) (serving (tokCmd 4) { sem3 with hold := [hostHold] })) (fun t =>
    t.m.net.map (·.op) = [0x43] && t.m.hub.hold = []) = true := by decide +kernel
theorem test_tokrecall : after (exec (.tokrecall 0) (serving (tokCmd 5) { sem3 with hold := [hostHold] })) (fun t =>
    t.m.hub.raised.length = 1) = true := by decide +kernel
theorem test_tokrecall_2 : after (exec (.tokrecall 0) (serving (tokCmd 5) sem3)) (fun t =>
    t.m.net.map (·.op) = [0x41]) = true := by decide +kernel
theorem test_notify_write : after (exec (.notifyWrite 0 0 4 16) (serving [6] sem3)) (fun t =>
    t.m.hub.preads.length = 16) = true := by decide +kernel
theorem test_bar_4write : after (exec (.bar4Write 0 0x1000FFC [1,2,3,4]) (window [poolHold])) (fun t =>
    t.m.net.map (fun p => (p.op, p.addr, p.src, valOf p.data)) = [(2, 0x40001000FFC, 3, 0x04030201)]) = true := by decide +kernel
theorem test_pcie_completion : after (exec (.pcieCompletion 5 (pb [1,2,3,4])) (reading (.command 0 3))) (fun t =>
    (t.m.queue 0).cmds.map (fun c => (c.index, valOf c.bytes)) = [(3, 0x04030201)] && t.m.hub.preads = []) = true := by decide +kernel
theorem test_function_level_reset : after (exec (.functionLevelReset 15) vf15) (fun t =>
    t.m.hub.raised.map (·.rings) = [[0]] && t.m.func 15 = {} && (t.m.queue 9).cmds = []) = true := by decide +kernel
theorem test_read_req : after (exec (.readReq (req 1 0x400017FFFF8 0 [])) { m := paged }) (fun t =>
    (t.m.link (pmapEntry 0x00FAC688 0)).txq.length + t.m.net.length + (t.m.links.map (fun l => l.2.txq.length)).sum ≥ 1) = true := by decide +kernel
theorem test_peer_write : after (exec (.peerWrite (peer 6 2 1 56 (syl [(24, 1), (23, 1)]) (pb [1, 2, 3, 4, 5, 6, 7, 8]))) inboundS) (fun t =>
    valOf (rdRun t.m (tsKey 5 120) 8) = 0x0807060504030201 && t.m.curCtx.sem 9 = 1) = true := by decide +kernel
theorem test_peer_write_2 : after (exec (.peerWrite (peer 6 2 2 0 0 (pb [1]))) inboundS) (fun t =>
    t.m.hub.raised.map (fun r => (r.ev.status, r.ev.detail)) = [(5, BitVec.ofNat 64 (4116 * 2^32 + 7))]) = true := by decide +kernel
theorem test_data_resp : after (exec (.dataResp { op := 0x20, src := 20, tag := 7, data := pb [1,2] }) (answerS none)) (fun t =>
    (t.m.str.blk.map (·.resp)) = some (some (pb [1,2]))) = true := by decide +kernel
theorem test_acknowledge : after (exec (.acknowledge { op := 0x21, src := 20, tag := 7 }) (answerS (some 0))) (fun t =>
    t.m.curCtx.tracker = [2]) = true := by decide +kernel
theorem test_remote_signal : after (exec (.remoteSignal (sigPkt 20 16)) fullS) (fun t =>
    t.m.curCtx.dying.isSome) = true := by decide +kernel
theorem test_barrier_arrival : after (exec (.barrierArrival (barPkt 0x48 20)) (atSys 1 0)) (fun t =>
    t.m.str.mode = .run) = true := by decide +kernel
theorem test_flit : after (exec (.flit 3 (flitOf 0)) (linkS 5 0 0)) (fun t =>
    t.m.net.length = 1 && (t.m.link 3).rxSeq = 1) = true := by decide +kernel
theorem test_flit_2 : after (exec (.flit 3 damaged) (linkS 5 0 0)) (fun t =>
    t.m.net.length = 0 && (t.m.link 3).crc = 1) = true := by decide +kernel
theorem test_ack_timeout : after (exec (.ackTimeout 3) (linkS 5 1 15625)) (fun t =>
    (t.m.link 3).state = 1) = true := by decide +kernel
theorem test_prhtime : after (exec .prhtime (rehashing 10)) (fun t =>
    t.m.hub.rehash = 2 && t.m.hub.pmap = rehashed 0x00FAC688 5) = true := by decide +kernel
theorem test_prehash : after (exec (.prehash .pf 0x500) (task .le)) (fun t => t.m.hub.rehash = 1) = true := by decide +kernel
theorem test_cpsplit_write : after (exec (.cpsplitWrite .policy 31 3) idleS) (fun t =>
    (t.m.cluster 31).expl = 3) = true := by decide +kernel
theorem test_qctl_write : after (exec (.qctlWrite .policy 9 0x40001) (slot9 [])) (fun t =>
    (t.m.queue 9).tail = 0 && (t.m.queue 9).ctl = some 0x40001) = true := by decide +kernel
theorem test_qctl_write_2 : after (exec (.qctlWrite .policy 9 0x40001) (slot9 [{}])) (fun t =>
    (t.m.queue 9).tail = 4 && (t.m.queue 9).ctlW = some 0x40001) = true := by decide +kernel
theorem test_hmctl_go : after (exec (.hmctlGo .policy 0 0 0x13) clocksS) (fun t =>
    (t.m.die 0).st0.busy) = true := by decide +kernel
theorem test_hbm_step_complete : after (exec (.hbmStepComplete 0 1 true 77) clocksS) (fun t =>
    (t.m.die 0).st1 = {busy := false, done := 3, step := 3, rep := 77}) = true := by decide +kernel
theorem test_thermal_hot : after (exec (.thermalHot 3 90 [114]) hotDie) (fun t =>
    (t.m.cluster 24).swallowW = 48) = true := by decide +kernel
theorem test_chiplost : after (exec (.chiplost .policy 0) (holds [hold64k true])) (fun t =>
    (t.m.cluster 0).hold = [] && t.m.hub.lostChips = [0]) = true := by decide +kernel
theorem test_tkop_get_exclusive : after (exec (.tkopGetExclusive 0 (tkV 0 4)) (supS [supHold])) (fun t =>
    look 0 (t.m.cluster 0).db 7 = 1) = true := by decide +kernel
theorem test_tkop_get_exclusive_2 : after (exec (.tkopGetExclusive 0 (tkV 0 4)) (supS [])) (fun t =>
    t.m.net.map (fun p => (p.op, p.src, p.log2)) = [(0x41, 1, 16)]) = true := by decide +kernel
theorem test_tkop_put : after (exec (.tkopPut 0 (tkV 2 4)) (supS [supHold])) (fun t =>
    t.m.net.map (fun p => (p.op, p.src, p.log2)) = [(0x43, 1, 16)] && (t.m.cluster 0).hold = []) = true := by decide +kernel
theorem test_tkop_lend : after (exec (.tkopLend 0 (tkV 3 4)) (supS [supHold])) (fun t =>
    t.m.net.map (fun p => (p.op, valOf p.data)) = [(0x44, 84)] && (t.m.cluster 0).hold = []) = true := by decide +kernel
theorem test_tkop_split : after (exec (.tkopSplit 0 (tkV 4 4)) (supS [supHold])) (fun t =>
    t.m.net.map (·.op) = [0x46]) = true := by decide +kernel
theorem test_tkop_join : after (exec (.tkopJoin 0 (tkV 5 4)) (supS [supHold])) (fun t =>
    t.m.net.map (·.op) = [0x47]) = true := by decide +kernel
theorem test_trapact_skip : after (exec (.trapactSkip .policy 0) trappedS) (fun t =>
    (t.m.streamOf trap1.agent).pc = 24) = true := by decide +kernel
/-- A block of the ME stopped inside itself in the stream pipe, a block and a signal queued behind it, its stream in a wait. -/
def trapMe : Event := { src := srcTile 5, type := 0x82, status := 11, flags := 4, eng := 1, id := 20, a0 := jobOff 1 64 }
def trappedMe : State :=
  { m := { mach .me with
      ctxs := [(10, { ctx0 with me := { stream0 with mode := .trapped }, waitq := [{ sem := 4, n := 1, eng := .me, who := .stream }] })]
      clusters := [(0, { trapq := [trapMe] })]
      tiles := [(5, { mat := { strm := some { off := 64, phase := .body }, queue := [{ ser := 1 }, { instr := .signal 3 1, ser := 2 }] } })] } }
theorem test_trapact_retry : after (exec (.trapactRetry .policy 0) trappedMe) (fun t =>
    let x := (t.m.tile 5).mat
    (t.m.streamOf trapMe.agent).mode = .waiting 4 1 && x.strm.isSome && x.queue.length = 2) = true := by decide +kernel
theorem test_trapact_goto : after (exec (.trapactGoto .policy 0 800) trappedMe) (fun t =>
    let s := t.m.streamOf trapMe.agent
    let x := (t.m.tile 5).mat
    s.mode = .run && s.pc = 800 && (t.m.ctx 5 false).waitq.isEmpty && x.strm.isNone && x.queue.map (·.ser) = [2]) = true := by
  decide +kernel
theorem test_trapact_goto_2 : after (exec (.trapactGoto .policy 0 4096) trappedS) (fun t =>
    (t.m.ctx 5 false).dying.map (·.status) = some Cause.brbound.code) = true := by decide +kernel
theorem test_trapact_kill : after (exec (.trapactKill .policy 0) trappedS) (fun t =>
    (t.m.ctx 5 false).dying.map (·.status) = some (causeOf 14).code) = true := by decide +kernel
theorem test_wdact_kill : after (exec (.wdactKill .policy 5 false) (task .le)) (fun t =>
    (t.m.ctx 5 false).dying.map (·.status) = some Cause.watchdog.code) = true := by decide +kernel
theorem test_wdact_load : after (exec (.wdactLoad .policy 5 false 0x40000004000) emptied) (fun t =>
    (t.m.ctx 5 false).loaded && (t.m.ctx 5 false).party = 20) = true := by decide +kernel
theorem test_svctl_write : after (exec (.svctlWrite .policy 0 0) (supS [supHold])) (fun t =>
    (t.m.cluster 0).hold = [] && !(t.m.cluster 0).svrun) = true := by decide +kernel
theorem test_boot : after (exec .boot (bootS .rom 2 0)) (fun t => t.fw.stage = .pll0 && t.m.fails = 3) = true := by decide +kernel
theorem test_boot_2 : after (exec .boot (bootS .rom 3 0)) (fun t =>
    t.fw.stage = .minPll && t.fw.minimal) = true := by decide +kernel
theorem test_boot_timeout : after (exec .bootTimeout (bootS .pll0 1 31251)) (fun t =>
    t.fw.stage = .halted) = true := by decide +kernel
theorem test_fails_clear : after (exec .failsClear (bootS .serving 1 9375000000)) (fun t =>
    t.m.fails = 0) = true := by decide +kernel
theorem test_ripening_period_end : after (exec (.ripeningPeriodEnd true) (ripening 0 [failing])) (fun t =>
    t.fw.can.state = 4 && t.fw.can.why = 5) = true := by decide +kernel
theorem test_ripening_period_end_2 : after (exec (.ripeningPeriodEnd true) (ripening 156250000 [])) (fun t =>
    t.fw.can.state = 3) = true := by decide +kernel
theorem test_stripe_recovery : after (exec (.stripeRecovery .scratchpad 511 2047 [3] false) scrubS) (fun t =>
    t.m.hub.raised.length = 1 && (t.m.hub.raised.map (·.ev.type) == [Cls.corr.code])) = true := by decide +kernel
theorem test_stripe_recovery_2 : after (exec (.stripeRecovery .scratchpad 511 2047 [3, 63] false) scrubS) (fun t =>
    (rdByte t.m (tsKey 511 (8 * (2047 / 64 * 4096 + 2047 % 64 + 64 * 63)))).p) = true := by decide +kernel
theorem test_gang_slice_start : after (exec (.gangSliceStart 0 false) (gangS 0 2000 0 .placed)) (fun t =>
    t.m.hub.jobs.map (·.st) = [.running]) = true := by decide +kernel
theorem test_gang_slice_start_2 : after (exec (.gangSliceStart 0 true) (gangS 0 2000 0 .placed)) (fun t =>
    t.m.hub.marked = [20]) = true := by decide +kernel
theorem test_gang_start_check : after (exec (.gangStartCheck 0) (gangS 0 32250 0 .running)) (fun t =>
    look 0 t.m.hub.checked 0 = 6400) = true := by decide +kernel
theorem test_gang_start_check_2 : after (exec (.gangStartCheck 0) (gangS 1 0 2 .running)) (fun t =>
    t.m.hub.jobs.map (fun j => (j.st, j.aborts)) = [(.stopping, 1)] && at' 0 t.m.hub.sems 62 = 1) = true := by decide +kernel

/-! ## The steps left, by hand from their rules -/

theorem test_write_req : after (exec (.writeReq (req 2 0x400017FFFF8 0 (pb [1, 2, 3, 4, 5, 6, 7, 8]))) { m := paged }) (fun t =>
    rdByte t.m (clKey 1 0x7FFFFA) = ⟨3, false⟩ && (t.m.link 0).txq.map (fun p => (p.op, p.tag)) = [(0x21, 7)]) = true := by decide +kernel
theorem test_atomic_req : after (exec (.atomicReq (req 3 0x400017FFFF8 (addArg true) (pb [5, 0, 0, 0, 0, 0, 0, 0]))) { m := paged })
    (fun t => rdByte t.m (clKey 1 0x7FFFF8) = ⟨5, false⟩ && (t.m.link 0).txq.map (fun p => (p.op, valOf p.data)) = [(0x20, 0)]) = true := by
  decide +kernel
theorem test_reduce_store : after (exec (.reduceStore (req 4 0x400017FFFF8 (syl [(28, Fmt.i64.code), (24, Fmt.i64.code)])
    (pb [9, 0, 0, 0, 0, 0, 0, 0]))) { m := paged }) (fun t => rdByte t.m (clKey 1 0x7FFFF8) = ⟨9, false⟩) = true := by decide +kernel
theorem test_waitm_watch : after (exec (.waitmWatch (req 5 0x400017FFFF8 (syl [(29, Cond.eq.code), (24, Fmt.i64.code)])
    (pb [0, 0, 0, 0, 0, 0, 0, 0]))) { m := paged }) (fun t => (t.m.link 0).txq.map (fun p => (p.op, p.data.length)) = [(0x20, 8)]) = true := by
  decide +kernel
theorem test_peer_atomic : after (exec (.peerAtomic (peer 7 2 1 56 (addArg true) (pb [3, 0, 0, 0, 0, 0, 0, 0]))) inboundS) (fun t =>
    rdByte t.m (tsKey 5 120) = ⟨3, false⟩ && (t.m.link 0).txq.map (·.op) = [0x20]) = true := by decide +kernel
theorem test_peer_reduce_store : after (exec (.peerReduceStore (peer 8 2 1 56 (syl [(28, Fmt.i64.code), (24, Fmt.i64.code)])
    (pb [2, 1, 0, 0, 0, 0, 0, 0]))) inboundS) (fun t => rdByte t.m (tsKey 5 121) = ⟨1, false⟩) = true := by decide +kernel
theorem test_pfence : after (exec .pfence (task .le)) (fun t => t.m.str.pc = 24) = true := by decide +kernel
theorem test_bar4_read : after (exec (.bar4Read 0 0 4) (window [])) (fun t => t.m.hub.pcie.length = 1) = true := by decide +kernel
theorem test_config_request : after (exec (.configRequest 0 0) (task .le)) (fun t => t.m.hub.pcie.length = 1 && t.m.ctxs = (mach .le).ctxs)
    = true := by decide +kernel
theorem test_lkctl_en : after (exec (.lkctlEn .policy 3 1) (task .le)) (fun t =>
    (t.m.link 3).en && (t.m.link 3).state = 1 && !(t.m.link 4).en) = true := by decide +kernel
theorem test_link_train : after (exec (.linkTrain 3) (linkS 2 0 0)) (fun t => (t.m.link 3).state = 3) = true := by decide +kernel
theorem test_link_fec : after (exec (.linkFec 3) (linkS 3 0 0)) (fun t => (t.m.link 3).state = 4) = true := by decide +kernel
theorem test_link_llinit : after (exec (.linkLlinit 3 77) (linkS 4 0 0)) (fun t =>
    (t.m.link 3).state = 5 && (t.m.link 3).peer = 77 && (t.m.link 3).credits = [512, 512, 128]) = true := by decide +kernel
theorem test_chipid_write : after (exec (.chipidWrite .policy 5) idleS) (fun t => t.m.hub.chip = 5) = true := by decide +kernel
theorem test_chipid_write_with_a_task : after (exec (.chipidWrite .policy 5) (task .le)) (fun t => t.m.hub.chip = 0) = true := by
  decide +kernel
theorem test_pmap_write : after (exec (.pmapWrite .policy 0xFFFFFFFF) idleS) (fun t => t.m.hub.pmap = 0x00FFFFFF) = true := by
  decide +kernel
theorem test_dpsplit_write : after (exec (.dpsplitWrite .policy 3 5) idleS) (fun t =>
    (t.m.die 3).expl = 5 && (t.m.die 2).expl = 0) = true := by decide +kernel
theorem test_tcinv : after (exec (.tcinv .policy 0 0xFFF) (task .le)) (fun t => (t.m.die 0).tcinv = 0) = true := by decide +kernel
theorem test_hsig : after (exec (.hsig (.queueCore 2) 0x030007) (task .le)) (fun t => at' 0 t.m.hub.sems 3 = 7) = true := by
  decide +kernel
theorem test_qgo : after (exec (.qgo .policy 1) (task .le)) (fun t => (t.fw.capture.map List.length) = some 72) = true := by
  decide +kernel
theorem test_canctl : after (exec (.canctlGo .policy 0x00051C00) (task .le)) (fun t =>
    t.fw.can.period = 5 && t.fw.can.supervisor && t.fw.can.cl = 3 && t.fw.can.state = 0) = true := by decide +kernel
theorem test_bootclr : after (exec (.bootclr .policy 1) (bootS .serving 2 0)) (fun t => t.m.fails = 0) = true := by decide +kernel
theorem test_tkop_get_shared : after (exec (.tkopGetShared 0 (tkV 1 0)) (supS [])) (fun t =>
    t.m.net.map (fun p => (p.op, p.addr, p.src)) = [(0x41, 0x10000, 1)]) = true := by decide +kernel
theorem test_doorbell_read : after (exec (.doorbellRead (.supervisor 0) 0 3) (supS [])) (fun t =>
    look 0 (t.m.cluster 0).db 3 = 0 && look 0 ((supS []).m.cluster 0).db 3 = 9) = true := by decide +kernel
theorem test_pllc_write : after (exec (.pllcWrite .policy 3 0x40148100) clocksS) (fun t => t.m.reg 0x2018 = 0x40148000) = true := by
  decide +kernel
theorem test_pciectl_ready : after (exec (.pciectlReady .policy 1) (task .le)) (fun t => t.m.hub.pcieReady) = true := by decide +kernel
theorem test_register_write : after (exec (.registerWrite .policy 0x3010 100) (task .le)) (fun t =>
    readReg t.fw t.m .policy 0x3010 = 400) = true := by decide +kernel
theorem test_vrhot : after (exec (.vrhot true) (task .le)) (fun t => (t.m.cluster 31).swallowW = 48) = true := by decide +kernel
theorem test_patrol_scrub : after (exec (.patrolScrub .scratchpad 495 0 [] false) scrubS) (fun t =>
    t.m.scrubAt .scratchpad 495 = 1) = true := by decide +kernel
theorem test_page_in_of_a_resident_page : after (exec (.pageIn 0 none) { m := paged }) (fun t =>
    (t.m.page 0 0).state = 1 && (t.m.die 0).pageins = []) = true := by decide +kernel
theorem test_pcie_link_up : after (exec (.pcieLinkUp 6 16 true) (task .le)) (fun t => t.m.hub.pcieUp) = true := by decide +kernel
theorem test_barrier_completion : after (exec (.barrierCompletion (barPkt 0x53 10243)) (atSys 1 9)) (fun t =>
    t.m.hub.waiters = []) = true := by decide +kernel

end Sys2Proof.Tests
end

section
/-!
PROOF. Stream control (06): xli, xop, br, brx, call and ret. First what each of them leaves of a machine, one equation per
outcome, then the values in the integers, then the statements.
-/

namespace Sys2Proof.Machine

open Sys2Proof

/-! ## Writing a register -/

/-- An instruction that writes the clean value `r` to register `d` and passes on does nothing else. -/
theorem exists_writesReg {s : State} (hc : s.m.Canon) {i : Instr} {d n : Nat} {r : XReg} (hr : r.p = false)
    (he : exec i s = .next { s with m := (s.m.setX d r).advance n }) :
    ∃ t, exec i s = .next t ∧ writesReg s t d r (s.m.str.pc + n) :=
  ⟨_, he, writesReg_advance hc.ctxs d n r hr⟩

theorem exec_xli_zx (d : Nat) (imm : Word32) (s : State) : exec (.xli d .zx imm) s =
    .next { s with m := (s.m.setX d ⟨imm.setWidth 64, false⟩).advance s.m.len1 } := rfl

theorem exec_xli_sx (d : Nat) (imm : Word32) (s : State) : exec (.xli d .sx imm) s =
    .next { s with m := (s.m.setX d ⟨imm.signExtend 64, false⟩).advance s.m.len1 } := rfl

theorem exec_xli_hi (d : Nat) (imm : Word32) (s : State) : exec (.xli d .hi imm) s =
    .next { s with m := (s.m.setX d ⟨imm ++ (s.m.xr d).v.setWidth 32, (s.m.xr d).p⟩).advance s.m.len1 } := rfl

/-- On operands whose poison does not reach the result, xop writes a clean value. -/
theorem xop_clean {m : Mach} {a : Nat} {op : XMinor} {b : XReg} (ha : (m.xr a).p = false ∨ op = .mov) (hb : b.p = false)
    (d : Nat) : m.xop d a op b = m.setX d ⟨xopVal op (m.xr a).v b.v, false⟩ := by
  have hp : ((decide (op ≠ .mov) && (m.xr a).p) || b.p) = false := by
    rcases ha with h | h <;> simp [h, hb]
  simp only [Mach.xop, hp]

theorem exec_xop_operand {s : State} {a b : Nat} {op : XMinor} (ha : (s.m.xr a).p = false ∨ op = .mov)
    (hb : (s.m.xr b).p = false) (d : Nat) : exec (.xop d a op .operand b) s =
      .next { s with m := (s.m.setX d ⟨xopVal op (s.m.xr a).v (s.m.xr b).v, false⟩).advance s.m.len0 } := by
  rw [← xop_clean ha hb]; rfl

theorem exec_xopImm {s : State} {a : Nat} {op : XMinor} (ha : (s.m.xr a).p = false ∨ op = .mov) (d : Nat)
    (imm : Word32) : exec (.xopImm d a op imm) s =
      .next { s with m := (s.m.setX d ⟨xopVal op (s.m.xr a).v (imm.signExtend 64), false⟩).advance s.m.len1 } := by
  rw [← xop_clean (b := ⟨imm.signExtend 64, false⟩) ha rfl]; rfl

/-! ## xli (R144) -/

/-- The high half put before the low half of a register, as a number. -/
theorem append_low_eq_ofNat (imm : Word32) (v : Word64) :
    imm ++ v.setWidth 32 = BitVec.ofNat 64 (imm.toNat * 2 ^ 32 + v.toNat % 2 ^ 32) := by
  have hlow : v.toNat % 2 ^ 32 < 2 ^ 32 := Nat.mod_lt _ (by decide)
  apply BitVec.eq_of_toNat_eq
  rw [BitVec.toNat_append, BitVec.toNat_setWidth, ← Nat.shiftLeft_add_eq_or_of_lt hlow, Nat.shiftLeft_eq,
    BitVec.toNat_ofNat]
  omega

/-- Settles O2: one register is written in each mode, and the three values are the extension's as numbers. -/
theorem xliLoadsItsExtension : Obligations.XliLoadsItsExtension := by
  intro d imm s hc
  rw [← len1_eq]
  refine ⟨?zx, ?sx, fun hp => ?hi⟩
  case zx =>
    rw [BitVec.ofNat_toNat]
    exact exists_writesReg hc rfl (exec_xli_zx d imm s)
  case sx => exact exists_writesReg hc rfl (exec_xli_sx d imm s)
  case hi =>
    rw [← append_low_eq_ofNat]
    exact exists_writesReg hc rfl (by rw [exec_xli_hi, hp])

/-! ## xop (R145) -/

/-! A shift by `n` places multiplies or divides by `2 ^ n`. -/

theorem shiftLeft_eq_ofNat_mul (a : Word64) (n : Nat) : a <<< n = BitVec.ofNat 64 (a.toNat * 2 ^ n) := by
  simp [← BitVec.toNat_inj, Nat.shiftLeft_eq]

theorem ushiftRight_eq_ofNat_div (a : Word64) (n : Nat) : a >>> n = BitVec.ofNat 64 (a.toNat / 2 ^ n) := by
  have hlt : a.toNat / 2 ^ n < 2 ^ 64 := Nat.lt_of_le_of_lt (Nat.div_le_self _ _) a.isLt
  rw [← BitVec.toNat_inj, BitVec.toNat_ushiftRight, Nat.shiftRight_eq_div_pow, BitVec.toNat_ofNat, Nat.mod_eq_of_lt hlt]

theorem sshiftRight_eq_ofInt_div (a : Word64) (n : Nat) : a.sshiftRight n = BitVec.ofInt 64 (a.toInt / 2 ^ n) := by
  rw [BitVec.sshiftRight_eq, Int.shiftRight_eq_div_pow]; rfl

/-- The model's minor operations on bit vectors are those of the spec in the integers. -/
theorem xopResult_xopVal (op : XMinor) (a b : Word64) : xopResult op a b (xopVal op a b) := by
  cases op with
  | add => simp [xopResult, xopVal, BitVec.ofInt_add]
  | sub => simp [xopResult, xopVal, ← BitVec.toInt_inj, BitVec.toInt_sub]
  | mul => simp [xopResult, xopVal, BitVec.ofInt_mul]
  | and => simp [xopResult, xopVal]
  | or => simp [xopResult, xopVal]
  | xor => simp [xopResult, xopVal]
  | shl => exact shiftLeft_eq_ofNat_mul a _
  | shr => exact ushiftRight_eq_ofNat_div a _
  | sra => exact sshiftRight_eq_ofInt_div a _
  | min => simp only [xopResult, xopVal, BitVec.slt]; grind
  | max => simp only [xopResult, xopVal, BitVec.slt]; grind
  | minu => simp only [xopResult, xopVal, BitVec.ult]; grind
  | maxu => simp only [xopResult, xopVal, BitVec.ult]; grind
  | mov => rfl

/-- Settles O3: the operation on values is `xopResult_xopVal`; the frame is that of a register write. -/
theorem xopComputes : Obligations.XopComputes := by
  intro d a b op imm s hc ha
  constructor
  · intro hb
    obtain ⟨t, he, hw⟩ := exists_writesReg hc rfl (exec_xop_operand ha hb d)
    exact ⟨t, _, he, xopResult_xopVal _ _ _, len0_eq s ▸ hw⟩
  · obtain ⟨t, he, hw⟩ := exists_writesReg hc rfl (exec_xopImm ha d imm)
    exact ⟨t, _, he, xopResult_xopVal _ _ _, len1_eq s ▸ hw⟩

/-! ## Control transfers (R137) -/

/-- The check of a target, as the spec words it. -/
theorem inSection_target_iff (s : State) (off : Int) : s.m.inSection (s.m.target off) = true ↔
    0 ≤ targetOf s off ∧ targetOf s off < (s.m.str.clen : Nat) := by
  simp only [Mach.inSection, Bool.and_eq_true, decide_eq_true_eq]
  rfl

/-- A comparison of bit vectors is the comparison of the numbers (R88). -/
theorem condHolds_iff (c : Cond) (a b : Word64) : condHolds c a b = true ↔ condProp c a b := by
  cases c <;> simp [condHolds, condProp, BitVec.slt, BitVec.ult]

/-- Bytes are read from the byte map and the poison bits alone. -/
theorem sameBytes_of_stores {m m' : Mach} (hm : m'.mem = m.mem) (hp : m'.poison = m.poison) : sameBytes m m' := by
  intro k
  simp only [rdByte, rdRaw, hm, hp]

/-- A record on its way to the trap queue writes no memory. -/
theorem sameBytes_enqueueTrap (m : Mach) (cl : Nat) (e : Event) : sameBytes m (m.enqueueTrap cl e) := by
  obtain ⟨-, hm, hp⟩ := refillTraps_kept cl ((m.cluster cl).trapHeld ++ [e]).length
    (m.setCluster cl { m.cluster cl with trapq := (m.cluster cl).trapq, trapHeld := (m.cluster cl).trapHeld ++ [e] })
  exact sameBytes_of_stores hm hp

/-- A failure of class STREAM writes no memory. -/
theorem sameBytes_trapAt (m : Mach) (n : Nat) {f : Trap} (hf : f.task = false) : sameBytes m (m.trapAt n f) := by
  simp only [Mach.trapAt, Mach.take, hf]
  exact sameBytes_enqueueTrap _ _ _

theorem fails_trapAt (s : State) (n : Nat) {f : Trap} (hf : f.task = false) :
    fails s { s with m := s.m.trapAt n f } n f := ⟨rfl, sameBytes_trapAt s.m n hf⟩

/-- A stream that continues at `off` with return store `rs`. -/
theorem setStr_rs_goto {m : Mach} (hc : m.Canon) (rs : List Nat) (off : Nat) :
    (m.setStr { m.str with rs := rs }).goto off = m.setStr { m.moved off m.str.x with rs := rs } := by
  rw [goto_eq, setStr_setStr hc.ctxs]
  simp only [Mach.moved, Mach.position, str_setStr hc.ctxs, setStr_cur]

/-- RSOVF as call reports it: the target and the eight entries of the store (R381). -/
def storeFull (t : Int) : Trap := { cause := .rsovf, detail := BitVec.ofNat 64 (t.toNat % 2 ^ 32 * 2 ^ 32 + 8) }

/-! One equation per outcome of br, brx, call and ret. -/

section Outcomes

variable {s : State} {off : Int}

theorem exec_br_inside (h : s.m.inSection (s.m.target off) = true) :
    exec (.br off) s = .next { s with m := s.m.goto (targetOf s off).toNat } := by
  show execBr off s = _
  simp only [execBr, act, h, if_true]; rfl

theorem exec_br_outside (h : ¬ s.m.inSection (s.m.target off) = true) :
    exec (.br off) s = .next { s with m := s.m.trapAt s.m.len1 (outside (targetOf s off)) } := by
  show execBr off s = _
  simp only [execBr, act, h]; rfl

/-- brx whose condition holds is br. -/
theorem exec_brx_taken {c : Cond} {a b : Nat} (ha : (s.m.xr a).p = false) (hb : (s.m.xr b).p = false)
    (h : condHolds c (s.m.xr a).v (s.m.xr b).v = true) : exec (.brx c a b off) s = exec (.br off) s := by
  show execBrx c a b off s = execBr off s
  simp [execBrx, execBr, act, ha, hb, h]

theorem exec_brx_not_taken {c : Cond} {a b : Nat} (ha : (s.m.xr a).p = false) (hb : (s.m.xr b).p = false)
    (h : ¬ condHolds c (s.m.xr a).v (s.m.xr b).v = true) :
    exec (.brx c a b off) s = .next { s with m := s.m.advance s.m.len1 } := by
  show execBrx c a b off s = _
  simp [execBrx, act, ha, hb, h]

theorem exec_call_room (h : s.m.inSection (s.m.target off) = true) (hr : s.m.str.rs.length < 8) :
    exec (.call off) s = .next { s with
      m := (s.m.setStr { s.m.str with rs := (s.m.str.pc + s.m.len1) :: s.m.str.rs }).goto (targetOf s off).toNat } := by
  show execCall off s = _
  simp only [execCall, act, h, Nat.not_le.mpr hr]; rfl

theorem exec_call_outside (h : ¬ s.m.inSection (s.m.target off) = true) :
    exec (.call off) s = .next { s with m := s.m.trapAt s.m.len1 (outside (targetOf s off)) } := by
  show execCall off s = _
  simp only [execCall, act, h]; rfl

theorem exec_call_full (h : s.m.inSection (s.m.target off) = true) (hr : 8 ≤ s.m.str.rs.length) :
    exec (.call off) s = .next { s with m := s.m.trapAt s.m.len1 (storeFull (targetOf s off)) } := by
  show execCall off s = _
  simp only [execCall, act, h, hr]; rfl

theorem exec_ret_cons {r : Nat} {rs : List Nat} (h : s.m.str.rs = r :: rs) :
    exec .ret s = .next { s with m := (s.m.setStr { s.m.str with rs := rs }).goto r } := by
  show execRet s = _
  simp only [execRet, act, h]

theorem exec_ret_nil (h : s.m.str.rs = []) :
    exec .ret s = .next { s with m := s.m.trapAt s.m.len0 { cause := .rsunf } } := by
  show execRet s = _
  simp only [execRet, act, h]

end Outcomes

/-- A stream that continues with another return store changes nothing else. -/
theorem onlyStream_rs_goto {s : State} (hc : s.m.Canon) (rs : List Nat) (off : Nat) :
    onlyStream s { s with m := (s.m.setStr { s.m.str with rs := rs }).goto off }
      { s.m.moved off s.m.str.x with rs := rs } := by
  rw [setStr_rs_goto hc]
  exact onlyStream_intro hc.ctxs _

/-- br to a target inside the section. -/
theorem br_passes {s : State} (hc : s.m.Canon) {off : Int} (h : s.m.inSection (s.m.target off) = true) :
    ∃ t, exec (.br off) s = .next t ∧ passesTo s t (targetOf s off).toNat :=
  ⟨_, exec_br_inside h, passesTo_goto hc.ctxs _⟩

/-- br to a target outside the section. -/
theorem br_fails {s : State} {off : Int} (h : ¬ s.m.inSection (s.m.target off) = true) :
    ∃ t, exec (.br off) s = .next t ∧ fails s t s.m.len1 (outside (targetOf s off)) :=
  ⟨_, exec_br_outside h, fails_trapAt _ _ rfl⟩

/-- Settles O5: one clause per outcome of the checks; a taken brx is a br. -/
theorem controlTransfers : Obligations.ControlTransfers := by
  intro cmp a b off s hc
  simp only [← inSection_target_iff, ← condHolds_iff, ← len0_eq, ← len1_eq]
  refine ⟨br_passes hc, br_fails, fun ha hb => ⟨fun hn => ?skip, fun hy hin => ?taken, fun hy hout => ?takenOut⟩,
    fun hin hr => ?room, fun hout => ?callOut, fun hin hr => ?full, fun r rs h => ?pop, fun h => ?empty⟩
  case skip => exact ⟨_, exec_brx_not_taken ha hb hn, passesTo_advance hc.ctxs _⟩
  case taken => rw [exec_brx_taken ha hb hy]; exact br_passes hc hin
  case takenOut => rw [exec_brx_taken ha hb hy]; exact br_fails hout
  case room => exact ⟨_, exec_call_room hin hr, onlyStream_rs_goto hc _ _⟩
  case callOut => exact ⟨_, exec_call_outside hout, fails_trapAt _ _ rfl⟩
  case full => exact ⟨_, _, exec_call_full hin hr, rfl, rfl, fails_trapAt _ _ rfl⟩
  case pop => exact ⟨_, exec_ret_cons h, onlyStream_rs_goto hc _ _⟩
  case empty => exact ⟨_, exec_ret_nil h, fails_trapAt _ _ rfl⟩

end Sys2Proof.Machine
end
